-- ==== Sys2Proof/Word.lean ====
section
/-! DEFINITION. The word of the `CMD` and `REG` ports and of a binary32 pattern (spec/30_encoding.md R47,
spec/20_memory.md R38): 32 bits, bit 0 the least significant (spec/00_scope.md R7). -/

namespace Sys2Proof

/-- A 32-bit word: a command word, a word read on the `REG` port. -/
abbrev Word := BitVec 32

/-- A `Sample` of the instance `Num.f32`, by its binary32 pattern (R8, R38). -/
abbrev Sample := BitVec 32

end Sys2Proof
end

