-- ==== Sys2Proof/Config.lean ====
section
/-! DEFINITION. The parameters of the hardware (spec/00_scope.md R6) and the values the spec leaves open.
A numeral is a value the spec fixes; an `opaque` constant has no body, so no proof can learn its value. -/

namespace Sys2Proof.Config

/-- `STRIDE`, the multiplier of the stride permutation (R6, R73). -/
def stride : Nat := 39

/-- `NUM_DELAYS_BITS` (R6): width of `numDelays` and `feedbackShiftByBlock`, and of a line number. -/
def numDelaysBits : Nat := 16

/-- Width of the `blockSize` field (R47, R48). -/
def blockSizeBits : Nat := 4

/-- `NUM_SAMPLES_BITS` (R6). -/
def numSamplesBits : Nat := 32

/-- `RING_COUNT_BITS` (R6): every ring capacity is below `2 ^ ringCountBits` (R70 item 4). -/
def ringCountBits : Nat := 32

/-- `DIAG_BITS` (R6): the shortfall counter saturates at `2 ^ diagBits - 1` (R116). -/
def diagBits : Nat := 32

/-- `DEFAULT_DECAY_SECONDS` before it is brought into the positive finite patterns (R6, R77; log entry 5). -/
opaque defaultDecayBits : Word

/-- The answer of the random source to draw number `k` of `(lo, hi)` (R67; log entry 4), before it is brought
into `[lo, hi]`. -/
opaque rngAnswer : Nat → Nat → Nat → Nat

/-- How far the binary32 pattern of `fpow10` falls between the negative arguments of magnitude patterns `j` and
`j + 1` (R8; log entry 6). -/
opaque pow10Fall : Nat → Nat

/-- How far the binary32 pattern of `fpow10` rises between the positive arguments of patterns `j` and `j + 1`
(R8; log entry 6). -/
opaque pow10Rise : Nat → Nat

/-- How far `fpow10` of minus infinity lies below its value at the most negative finite argument (log entry 6). -/
opaque pow10MinusInfinityFall : Nat

/-- Whether `fpow10` of minus infinity, where it is a zero, is the negative zero (log entry 6). -/
opaque pow10MinusInfinityNegative : Bool

/-- `fpow10` of a NaN, by its pattern (R8 says nothing of it; log entry 6). -/
opaque pow10NaN : Word → Word

/-- Sign and payload of the quiet NaN an operation answers, as a function of the operation's number and its
operands (IEEE 754 leaves both open; log entry 7). -/
opaque nanPattern : Nat → Word → Word → Word

/-- The value an unspecified natural-number register takes (R7, R29; log entry 3). -/
opaque freeNat : Nat → Word

/-- The value an unspecified `Sample` register takes (R7, R29; log entry 3). -/
opaque freeSample : Nat → Word

/-- What the `REG` port answers to the read number `k` of register `no` where R31 leaves the value open
(log entry 20). -/
opaque freeRead : Nat → Nat → Word

end Sys2Proof.Config
end

