-- ==== Sys2Proof/Machine/Num.lean ====
section
/-! DEFINITION. The numerics record `Num` (spec/00_scope.md R6, R8) and the open parameters of the hardware
(spec/92_eei_decisions.md), which every meaning takes as an argument. -/

namespace Sys2Proof.Machine

/-- The operations of `Num` (R8) over samples of type `α`. `none` stands for `refuse`. `isFinite`, `lt` and `le` are
the tests R70, R109 and R111 make on a `Sample`; a NaN is not finite and fails every comparison (R111). -/
structure Num (α : Type) where
  /-- `fadd`. -/
  fadd : α → α → α
  /-- `fsub`. -/
  fsub : α → α → α
  /-- `fmul`. -/
  fmul : α → α → α
  /-- `fdiv`. -/
  fdiv : α → α → α
  /-- The negation that gives the constant `-3`. -/
  fneg : α → α
  /-- `fsqrt`. -/
  fsqrt : α → α
  /-- `fpow10`. -/
  fpow10 : α → α
  /-- `ofNat`. -/
  ofNat : Nat → α
  /-- `ofBits32`. -/
  ofBits32 : Word → Option α
  /-- `toBits32`. -/
  toBits32 : α → Option Word
  /-- `truncToNat`. -/
  truncToNat : α → Option Nat
  /-- Neither infinite nor a NaN. -/
  isFinite : α → Bool
  /-- Less than. -/
  lt : α → α → Bool
  /-- Less than or equal. -/
  le : α → α → Bool

/-- What the model takes as an argument (R6, R28). -/
structure Params (α : Type) where
  /-- `Num`. -/
  num : Num α
  /-- `DEFAULT_DECAY_SECONDS` (R77). -/
  defaultDecaySeconds : α
  /-- The random source's answer to draw number `k` of `(lo, hi)` (R67). -/
  rngAnswer : Nat → Nat → Nat → Nat
  /-- The value number `k` of an unspecified natural-number register (log entry 3). -/
  freeNat : Nat → Nat
  /-- The value number `k` of an unspecified `Sample` register (log entry 3). -/
  freeSample : Nat → α
  /-- The answer to the read number `k` of register `no` where R31 leaves it open (log entry 20). -/
  freeRead : Nat → Nat → Word

end Sys2Proof.Machine
end

