-- ==== Sys2Proof/Machine/Binary32.lean ====
section
/-! DEFINITION. The instance `Num.f32` (spec/00_scope.md R8): IEEE 754 binary32 on 32-bit patterns, round to nearest,
ties to even. A finite value is an exact natural number times a power of two; each operation computes exactly (or with
a sticky bit far below the last place) and rounds once. -/

namespace Sys2Proof.Machine.F32

/-- The sign bit (R38). -/
def signBit (w : Sample) : Bool :=
  w.getLsbD 31

/-- The pattern without its sign. Patterns of one sign are ordered as their magnitudes (R38). -/
def magnitude (w : Sample) : Nat :=
  w.toNat % 2 ^ 31

/-- The magnitude pattern of infinity. -/
def infinity : Nat := 0x7F800000

/-- A NaN: exponent all ones, fraction not zero. -/
def isNaN (w : Sample) : Bool :=
  decide (infinity < magnitude w)

/-- An infinity of either sign. -/
def isInf (w : Sample) : Bool :=
  decide (magnitude w = infinity)

/-- Neither infinite nor a NaN. -/
def isFinite (w : Sample) : Bool :=
  decide (magnitude w < infinity)

/-- The pattern of a sign and a magnitude. -/
def pack (negative : Bool) (mag : Nat) : Sample :=
  BitVec.ofNat 32 ((if negative then 2 ^ 31 else 0) + mag)

/-- `m` of a finite value `m * 2 ^ e`. -/
def mantissa (w : Sample) : Nat :=
  if magnitude w / 2 ^ 23 = 0 then magnitude w else magnitude w % 2 ^ 23 + 2 ^ 23

/-- `e` of a finite value `m * 2 ^ e`. -/
def exponent (w : Sample) : Int :=
  if magnitude w / 2 ^ 23 = 0 then -149 else (magnitude w / 2 ^ 23 : Nat) - 150

/-- `m` divided by `2 ^ shift`, rounded to the nearest integer, ties to even. -/
def roundShift (m shift : Nat) : Nat :=
  let base := m / 2 ^ shift
  let rest := 2 * (m % 2 ^ shift)
  if 2 ^ shift < rest ∨ (rest = 2 ^ shift ∧ base % 2 = 1) then base + 1 else base

/-- The magnitude pattern of the binary32 value nearest to `m * 2 ^ e`, ties to even; too large a value is infinity. A
carry out of the fraction raises the exponent of the pattern by itself. -/
def roundMagnitude (m : Nat) (e : Int) : Nat :=
  if m = 0 then 0
  else
    let unit : Int := max (e + (Nat.log2 m : Int) - 23) (-149)
    let rounded := if unit ≤ e then m * 2 ^ (e - unit).toNat else roundShift m (unit - e).toNat
    min infinity ((unit + 149).toNat * 2 ^ 23 + rounded)

/-- The value nearest to `± m * 2 ^ e`. -/
def round (negative : Bool) (m : Nat) (e : Int) : Sample :=
  pack negative (roundMagnitude m e)

/-- The quiet NaN that operation number `op` answers on these operands; sign and payload are open (log entry 7). -/
def nanResult (op : Nat) (a b : Sample) : Sample :=
  (Config.nanPattern op a b &&& 0x803FFFFF#32) ||| 0x7FC00000#32

/-- Negation: the sign bit turned over. -/
def fneg (w : Sample) : Sample :=
  w ^^^ 0x80000000#32

/-- A finite value as an integer multiple of `2 ^ e`, for `e` at most its exponent. -/
def scaled (w : Sample) (e : Int) : Int :=
  let m : Int := (mantissa w * 2 ^ (exponent w - e).toNat : Nat)
  if signBit w then -m else m

/-- The sum of two finite values; an exact zero is +0 unless both are negative (IEEE 754, round to nearest). -/
def addFinite (a b : Sample) : Sample :=
  let e := min (exponent a) (exponent b)
  let sum := scaled a e + scaled b e
  if sum = 0 then pack (signBit a && signBit b) 0 else round (decide (sum < 0)) sum.natAbs e

/-- `a + b`, where a NaN answer belongs to operation number `op`. -/
def addAs (op : Nat) (a b : Sample) : Sample :=
  if isNaN a || isNaN b then nanResult op a b
  else if isInf a then (if isInf b && (signBit a != signBit b) then nanResult op a b else a)
  else if isInf b then b
  else addFinite a b

/-- `fadd` (R8). -/
def fadd (a b : Sample) : Sample :=
  addAs 0 a b

/-- `fsub` (R8). -/
def fsub (a b : Sample) : Sample :=
  addAs 1 a (fneg b)

/-- `fmul` (R8). -/
def fmul (a b : Sample) : Sample :=
  let negative := signBit a != signBit b
  if isNaN a || isNaN b then nanResult 2 a b
  else if isInf a || isInf b then
    (if magnitude a = 0 ∨ magnitude b = 0 then nanResult 2 a b else pack negative infinity)
  else round negative (mantissa a * mantissa b) (exponent a + exponent b)

/-- The quotient of two finite values, the divisor not zero: 64 more bits of it than the integer part, and a sticky
bit. -/
def divFinite (negative : Bool) (a b : Sample) : Sample :=
  let n := mantissa a * 2 ^ 64
  let d := mantissa b
  round negative (2 * (n / d) + (if n % d = 0 then 0 else 1)) (exponent a - exponent b - 65)

/-- `fdiv` (R8). -/
def fdiv (a b : Sample) : Sample :=
  let negative := signBit a != signBit b
  if isNaN a || isNaN b then nanResult 3 a b
  else if isInf a then (if isInf b then nanResult 3 a b else pack negative infinity)
  else if isInf b then pack negative 0
  else if magnitude b = 0 then (if magnitude a = 0 then nanResult 3 a b else pack negative infinity)
  else divFinite negative a b

/-- The `k` low bits of the integer square root of `n`, highest first, `root` holding the bits above. -/
def sqrtBits (n : Nat) : Nat → Nat → Nat
  | 0, root => root
  | k + 1, root => sqrtBits n k (if (root + 2 ^ k) * (root + 2 ^ k) ≤ n then root + 2 ^ k else root)

/-- The square root of a finite positive value: 32 more bits of it than the integer part, and a sticky bit. -/
def sqrtFinite (a : Sample) : Sample :=
  let odd := exponent a % 2
  let n := mantissa a * 2 ^ (64 + odd.toNat)
  let root := sqrtBits n 46 0
  round false (2 * root + (if root * root = n then 0 else 1)) ((exponent a - odd) / 2 - 33)

/-- `fsqrt` (R8): correctly rounded; the root of a zero is that zero, the root of a negative value a NaN. -/
def fsqrt (a : Sample) : Sample :=
  if isNaN a then nanResult 4 a a
  else if magnitude a = 0 then a
  else if signBit a then nanResult 4 a a
  else if isInf a then a
  else sqrtFinite a

/-- The sum of `d 0 .. d (n-1)`. -/
def sumBelow (d : Nat → Nat) : Nat → Nat
  | 0 => 0
  | n + 1 => sumBelow d n + d n

/-- The magnitude pattern of `fpow10` at the non-positive argument of magnitude `m`: 1 at 0, falling, never zero. -/
def pow10Below (m : Nat) : Nat :=
  max 1 (0x3F800000 - sumBelow Config.pow10Fall m)

/-- The magnitude pattern of `fpow10` at the positive argument of magnitude `m`: rising from 1, at most infinity. -/
def pow10Above (m : Nat) : Nat :=
  min infinity (0x3F800000 + sumBelow Config.pow10Rise m)

/-- `fpow10` at minus infinity: at most its value at every finite argument. -/
def pow10AtMinusInfinity : Sample :=
  let low := pow10Below (infinity - 1)
  if Config.pow10MinusInfinityFall < low then pack false (low - Config.pow10MinusInfinityFall)
  else if Config.pow10MinusInfinityFall = low then pack Config.pow10MinusInfinityNegative 0
  else pack true (min infinity (Config.pow10MinusInfinityFall - low))

/-- `fpow10` (R8): every function with the three properties R8 gives it, and no other property (log entry 6). -/
def fpow10 (e : Sample) : Sample :=
  if isNaN e then Config.pow10NaN e
  else if signBit e then (if isInf e then pow10AtMinusInfinity else pack false (pow10Below (magnitude e)))
  else pack false (pow10Above (magnitude e))

/-- `ofNat` (R8): rounded to nearest even. -/
def ofNat (n : Nat) : Sample :=
  round false n 0

/-- `truncToNat` (R8): the integer part of a finite value that is not negative. -/
def truncToNat (w : Sample) : Option Nat :=
  if isFinite w && (!signBit w || decide (magnitude w = 0)) then
    some (if 0 ≤ exponent w then mantissa w * 2 ^ (exponent w).toNat else mantissa w / 2 ^ (-exponent w).toNat)
  else none

/-- The place of a value that is not a NaN in the order of values; both zeros have place 0. -/
def place (w : Sample) : Int :=
  if signBit w then -(magnitude w : Int) else (magnitude w : Int)

/-- Less than: false on a NaN. -/
def lt (a b : Sample) : Bool :=
  !isNaN a && !isNaN b && decide (place a < place b)

/-- Less than or equal: false on a NaN. -/
def le (a b : Sample) : Bool :=
  !isNaN a && !isNaN b && decide (place a ≤ place b)

/-- `DEFAULT_DECAY_SECONDS`: some finite positive pattern (R6; log entry 5). -/
def defaultDecaySeconds : Sample :=
  BitVec.ofNat 32 (Config.defaultDecayBits.toNat % (infinity - 1) + 1)

/-- The record `Num.f32` (R6, R8). -/
def num : Num Sample where
  fadd := fadd
  fsub := fsub
  fmul := fmul
  fdiv := fdiv
  fneg := fneg
  fsqrt := fsqrt
  fpow10 := fpow10
  ofNat := ofNat
  ofBits32 := fun w => some w
  toBits32 := fun w => some w
  truncToNat := truncToNat
  isFinite := isFinite
  lt := lt
  le := le

/-- The parameters of the machine: `Num.f32`, and the open ones uninterpreted (R6). -/
def params : Params Sample where
  num := num
  defaultDecaySeconds := defaultDecaySeconds
  rngAnswer := Config.rngAnswer
  freeNat := fun k => (Config.freeNat k).toNat
  freeSample := Config.freeSample
  freeRead := Config.freeRead

end Sys2Proof.Machine.F32
end

