-- ==== Sys2Proof/Syntax.lean ====
section
/-! DEFINITION. The fifteen operations (spec/00_scope.md R3), one constructor per row of spec/opcode_table.json.
Integer operands are natural numbers (R48), their widths checked in WellFormed; a `Sample` operand is its word as
encoded (R47), since only `Num.ofBits32` gives it a value. -/

namespace Sys2Proof

/-- One operation of the FDN core (R3): (a) six host commands, (b) five ring operations, (c) four mixer operations. -/
inductive Instr where
  /-- `BUILD` (R50, R68). -/
  | build (numDelays blockSize feedbackShiftByBlock : Nat) (hasZeroTaps : Bool)
      (minDelaySeconds maxDelaySeconds sampleRate : Word)
  /-- `DESTROY` (R51, R80). -/
  | destroy
  /-- `PROCESS` (R52, R89). -/
  | process (numSamples : Nat)
  /-- `SET_RT60` (R53, R109). -/
  | setRt60 (seconds : Word)
  /-- `SET_MAX_DELAY` (R53, R110). -/
  | setMaxDelay (seconds : Word)
  /-- `SET_INPUT_PAN` (R53, R111). -/
  | setInputPan (pan : Word)
  /-- `PEEK_READABLE line, n` (R54, R60). -/
  | peekReadable (line n : Nat)
  /-- `PEEK_WRITABLE line, n` (R54, R61). -/
  | peekWritable (line n : Nat)
  /-- `COMMIT_WRITE line, n` (R54, R62). -/
  | commitWrite (line n : Nat)
  /-- `RELEASE_READ line, n` (R54, R63). -/
  | releaseRead (line n : Nat)
  /-- `RING_INIT line, n, m`: delay length `n`, extra capacity `m` (R54, R59). -/
  | ringInit (line n m : Nat)
  /-- `HAD1` (R55, R83). -/
  | had1
  /-- `HAD2` (R55, R84). -/
  | had2
  /-- `HAD4` (R55, R85). -/
  | had4
  /-- `HAD8` (R55, R86). -/
  | had8
deriving DecidableEq, Repr

/-- A request on one of the two internal interfaces (R46 items 2 and 3). -/
inductive Request where
  /-- Format `RING` (R54): the 35-bit pattern and the side operands `line` and `m`. -/
  | ring (pattern : BitVec 35) (line m : Nat)
  /-- Format `MIX` (R55): the 2-bit code `lg`. -/
  | mix (lg : BitVec 2)
deriving DecidableEq, Repr

/-- An operation as it is encoded on its interface (R46). -/
inductive Encoded where
  /-- The words of a host command, header first (R47). -/
  | command (words : List Word)
  /-- An internal request. -/
  | request (r : Request)
deriving DecidableEq, Repr

end Sys2Proof
end

