-- ==== Sys2Proof/Machine/State.lean ====
section
/-! DEFINITION. The state of the FDN core, all of it plain data (spec/10_state.md), the reasons a step can stop, and
the state right after reset. The state is generic in the type of a `Sample` (spec/00_scope.md R6, R8); the machine of
the fixed interface is its instance at binary32 (log entry 1). -/

namespace Sys2Proof.Machine

/-- `PHASE` (R16). -/
inductive Phase where
  /-- No network exists. -/
  | unbuilt
  /-- A network exists and no command is running. -/
  | idle
  /-- A command is running. -/
  | busy
  /-- A ConfigurationError or an illegal command has stopped the hardware. -/
  | fault
deriving DecidableEq, Repr

/-- `SIGN[i]`, the output tap sign of a line (R15). -/
inductive Sign where
  /-- +1. -/
  | plus
  /-- -1. -/
  | minus
deriving DecidableEq, Repr

/-- `CHAN[i]`, the stereo half of a line (R15). -/
inductive Channel where
  /-- The left half. -/
  | left
  /-- The right half. -/
  | right
deriving DecidableEq, Repr

/-- The command in progress (R10, R16). -/
inductive Progress where
  /-- No command is in progress. -/
  | rest
  /-- The words of a command taken so far, the rest of it awaited, and the phase its first word was taken in (R16,
  R56; log entry 11). -/
  | receiving (startedIn : Phase) (taken : List Word)
  /-- A `PROCESS` at the head of its loop (R90). -/
  | loopHead
  /-- A `PROCESS` between step 7 and the output write of a chunk (R90, R98). -/
  | outputWrite
deriving DecidableEq, Repr

/-- A finite map by number, as pairs with strictly rising numbers. A number that is not listed has no value: an
`unspecified` cell (R25), a ring that does not exist (R29). -/
abbrev Store (β : Type) := List (Nat × β)

/-- The ring delay line of one line (R25). -/
structure Ring (α : Type) where
  /-- `CAP[i]`, the capacity in samples. -/
  cap : Nat
  /-- `RD[i]`, the cell of the oldest unconsumed sample. -/
  rd : Nat
  /-- `WR[i]`, the first free cell. -/
  wr : Nat
  /-- `FILL[i]`, the number of unconsumed samples. -/
  fill : Nat
  /-- `RWIN[i]`, the length of the outstanding read window. -/
  rwin : Nat
  /-- `WWIN[i]`, the length of the outstanding write window. -/
  wwin : Nat
  /-- `cell[i][a]`: the cells that hold a sample; the others hold `unspecified`. -/
  cells : Store α
deriving DecidableEq, Repr

namespace Generic

/-- The state of the FDN core over samples of type `α`. -/
@[ext]
structure State (α : Type) where
  /-- `PHASE` (R16). -/
  phase : Phase
  /-- `STATUS.SHORTFALL` (R18). -/
  shortfall : Bool
  /-- `FAULT_CAUSE` (R24). -/
  faultCause : BitVec 5
  /-- `DIAG_COUNT` (R19). -/
  diagCount : Nat
  /-- `NUM_DELAYS` (R20). -/
  numDelays : Nat
  /-- `BLOCK_SIZE` (R20). -/
  blockSize : Nat
  /-- `FB_SHIFT` (R20). -/
  fbShift : Nat
  /-- `HAS_ZERO_TAPS` (R23), and `STATUS.ZERO_TAPS`, its copy (R18). -/
  hasZeroTaps : Bool
  /-- `MIN_DELAY_SAMPLES` (R22). -/
  minDelaySamples : Nat
  /-- `MAX_DELAY_SAMPLES` (R22). -/
  maxDelaySamples : Nat
  /-- `SAMPLE_RATE` (R22). -/
  sampleRate : α
  /-- `MIN_DELAY_SECONDS` (R22). -/
  minDelaySeconds : α
  /-- `MAX_DELAY_SECONDS` (R22). -/
  maxDelaySeconds : α
  /-- `MATRIX_ATT` (R21). -/
  matrixAtt : α
  /-- `INV_MATRIX_ATT` (R21). -/
  invMatrixAtt : α
  /-- `INPUT_ATT` (R23). -/
  inputAtt : α
  /-- `INPUT_PAN` (R23). -/
  inputPan : α
  /-- `SEQ_POS` (R17). -/
  seqPos : Nat
  /-- `SEQ_REMAINING` (R17). -/
  seqRemaining : Nat
  /-- `SEQ_CHUNK` (R17). -/
  seqChunk : Nat
  /-- `DELAY[i]` (R13), line 0 first. -/
  delay : List Nat
  /-- `COEF[i]` (R14), line 0 first. -/
  coef : List α
  /-- `SIGN[i]` (R15), line 0 first. -/
  sign : List Sign
  /-- The ring of each line (R25), by line number. -/
  rings : Store (Ring α)
  /-- `inCacheL` (R27). -/
  inCacheL : List α
  /-- `inCacheR` (R27). -/
  inCacheR : List α
  /-- `accL` (R27). -/
  accL : List α
  /-- `accR` (R27). -/
  accR : List α
  /-- `att[i][k]` (R27), one row per line. -/
  att : List (List α)
  /-- The mixer's working vector `y[j]` (R27, R82). -/
  y : List α
  /-- The command in progress (R10). -/
  progress : Progress
  /-- The request on the internal interfaces, normally none (R46; log entry 13). -/
  request : Option Request
  /-- The grant last answered on the ring request interface (R54; log entry 13). -/
  grant : Nat
  /-- The vector on the mixer request interface (R55; log entry 28). -/
  mixIn : List α
  /-- The `RESET` wire (R11, R126; log entry 25). -/
  resetPin : Bool
  /-- The words the host offers at the `CMD` port, oldest first (R11). -/
  cmd : List Word
  /-- `IN_L` from position `SEQ_POS` on: the samples supplied and not yet passed (R11; log entry 9). -/
  inL : List α
  /-- `IN_R`, likewise. -/
  inR : List α
  /-- The samples produced on `OUT_L`, oldest first (R11; log entry 9). -/
  outL : List α
  /-- The samples produced on `OUT_R`, oldest first. -/
  outR : List α
  /-- How many more samples the host takes from `OUT_L` (R11; log entry 10). -/
  roomL : Nat
  /-- How many more samples the host takes from `OUT_R`. -/
  roomR : Nat
  /-- The answers the `RNG` port will give, next one first (R11, R67; log entry 4). -/
  rng : List Nat
  /-- The model's own: how many draws were made (log entry 4). -/
  draws : Nat
  /-- The model's own: how many free values were used (log entry 3). -/
  freeCount : Nat
deriving DecidableEq, Repr

/-- The state right after reset (R29, R126): what the spec gives is as it says; every register and list the spec
leaves `unspecified` holds `zero` or is empty (log entry 2). -/
def State.resetWith {α : Type} (zero : α) : State α where
  phase := .unbuilt
  shortfall := false
  faultCause := 0
  diagCount := 0
  numDelays := 0
  blockSize := 0
  fbShift := 0
  hasZeroTaps := false
  minDelaySamples := 0
  maxDelaySamples := 0
  sampleRate := zero
  minDelaySeconds := zero
  maxDelaySeconds := zero
  matrixAtt := zero
  invMatrixAtt := zero
  inputAtt := zero
  inputPan := zero
  seqPos := 0
  seqRemaining := 0
  seqChunk := 0
  delay := []
  coef := []
  sign := []
  rings := []
  inCacheL := []
  inCacheR := []
  accL := []
  accR := []
  att := []
  y := []
  progress := .rest
  request := none
  grant := 0
  mixIn := List.replicate 8 zero
  resetPin := false
  cmd := []
  inL := []
  inR := []
  outL := []
  outR := []
  roomL := 0
  roomR := 0
  rng := []
  draws := 0
  freeCount := 0

end Generic

/-- The state of the machine: samples are binary32 patterns (log entry 1). -/
abbrev State := Generic.State Sample

/-- The machine right after reset: registers the spec leaves `unspecified` hold the pattern of 0 (log entry 2). -/
def State.reset : State :=
  Generic.State.resetWith 0

/-- An access to storage that does not exist or holds no value, where the spec names no `refuse`. ConfigurationError and IllegalCommand are no
`Fault`: they are next states in phase `FAULT` (R120). -/
inductive Fault where
  /-- Raised by a ring operation and a window write on a line that has no ring, or that is at or above `NUM_DELAYS` of
  a network, where R33 defines no `MemWrite`. Safe: the model stops. -/
  | noSuchRing
  /-- Raised by a read of `DELAY`, `COEF` or `SIGN` of a line number that has no entry (R12). Safe. -/
  | noSuchLine
  /-- Raised by a read of an element of `att` that this chunk has not written (R27). Safe. -/
  | unwrittenScratch
  /-- Raised by a write to a cell number outside `0 .. CAP[i]-1` (R33). Safe. -/
  | noSuchCell
deriving DecidableEq, Repr

/-- The cases the spec gives no next state (`refuse`, R7, R117), and an instruction without a meaning. -/
inductive Refusal where
  /-- Raised by an arm of `exec` that has no meaning yet. Safe. -/
  | notModelled (mnemonic : String)
  /-- Raised by a `Sample` operand whose word `ofBits32` refuses (R8; `Num.real` only). Safe. -/
  | operandHasNoValue
  /-- Raised by `BUILD` and `SET_MAX_DELAY`: R70 item 1. Safe. -/
  | rateOrBoundNotUsable
  /-- Raised by `BUILD` and `SET_MAX_DELAY`: `truncToNat` has no value on the product (R8, R70 item 1). Safe. -/
  | secondsHaveNoSampleCount
  /-- Raised by `BUILD` and `SET_MAX_DELAY`: R70 item 2. Safe. -/
  | minDelayBelowOneSample
  /-- Raised by `BUILD` and `SET_MAX_DELAY`: R70 item 3. Safe. -/
  | delayRangeEmpty
  /-- Raised by `BUILD` and `SET_MAX_DELAY`: R70 item 4. Safe. -/
  | capacityTooLarge
  /-- Raised by `BUILD` and `SET_MAX_DELAY`: R70 item 5. Safe. -/
  | strideNotPermutation
  /-- Raised by `BUILD` and `SET_MAX_DELAY`: R70 item 6. Safe. -/
  | blockWiderThanHalf
  /-- Raised by a draw with `lo > hi` (R67). Safe. -/
  | emptyDrawRange
  /-- Raised by `SET_RT60`: R109. Safe. -/
  | decayTimeNotPositive
  /-- Raised by `SET_INPUT_PAN`: R111. Safe. -/
  | panOutOfRange
  /-- Raised by `RING_INIT` with `D + m = 0` (R59). Safe. -/
  | ringOfCapacityZero
  /-- Raised by `PEEK_READABLE` while a read window is outstanding (R60). Safe. -/
  | secondReadWindow
  /-- Raised by `PEEK_WRITABLE` while a write window is outstanding (R61). Safe. -/
  | secondWriteWindow
  /-- Raised by `COMMIT_WRITE` (R62). Safe. -/
  | commitBeyondWindow
  /-- Raised by `RELEASE_READ` (R63). Safe. -/
  | releaseBeyondWindow
  /-- Raised by `RdWin` (R35). Safe. -/
  | readOutsideWindow
  /-- Raised by `WrWin` and `WrWinRead` (R36). Safe. -/
  | writeOutsideWindow
  /-- Raised by a window read of a line or a cell that R33 does not define, or of a cell that holds `unspecified`
  ("read of an unwritten cell"). Safe. -/
  | readOfUnwrittenCell
  /-- Raised by a mixer request, or step 8 of `PROCESS`, whose vector does not have the samples of its block size
  (R81; log entry 28). Safe. -/
  | mixerVectorTooShort
  /-- Raised by step 8 of `PROCESS` when `BLOCK_SIZE` is none of 1, 2, 4, 8 (R20, R82). Safe. -/
  | noSuchBlockSize
  /-- Raised by a ring request of operation code `101`, `110` or `111` (R54). Safe. -/
  | reservedRingOp
deriving DecidableEq, Repr

end Sys2Proof.Machine
end

