-- ==== Sys2Proof/Machine/Operands.lean ====
section
/-! DEFINITION. Operand forms: `Sample` operand words (spec/30_encoding.md R48), the constants of `Num`
(spec/00_scope.md R8), the line registers and scratch as operands (spec/10_state.md R12, R15, R27), and the result
type of the shared operations. -/

namespace Sys2Proof.Machine

/-- Why an operation has no next state. -/
inductive Stop where
  /-- An access to storage that does not exist or holds no value. -/
  | fault (f : Fault)
  /-- A `refuse` of the spec (R117). -/
  | refusal (r : Refusal)
deriving DecidableEq, Repr

/-- The result of a shared operation: a value, or the reason there is none. -/
abbrev Res (β : Type) := Except Stop β

/-- The outcome of an instruction whose meaning is a shared operation. -/
def outcome {σ : Type} (r : Res σ) : Host.Outcome σ Fault Refusal :=
  match r with
  | .ok s => .next s
  | .error (.fault f) => .fault f
  | .error (.refusal x) => .refused x

/-- A value that must be there, or the stop that says why it is not. -/
def orStop {β : Type} (x : Option β) (e : Stop) : Res β :=
  match x with
  | some v => .ok v
  | none => .error e

/-- The constant 0 (R8). -/
def Num.zero {α : Type} (num : Num α) : α := num.ofNat 0

/-- The constant 1 (R8). -/
def Num.one {α : Type} (num : Num α) : α := num.ofNat 1

/-- The constant 2 (R8). -/
def Num.two {α : Type} (num : Num α) : α := num.ofNat 2

/-- The constant -3, the negation of `ofNat 3` (R8). -/
def Num.minusThree {α : Type} (num : Num α) : α := num.fneg (num.ofNat 3)

/-- `INPUT_PAN_INIT`, 0.5 (R6), exact in both instances (log entry 27). -/
def Num.inputPanInit {α : Type} (num : Num α) : α := num.fdiv num.one num.two

/-- A `Sample` operand word, `ofBits32(w)` (R48). -/
def sampleOperand {α : Type} (num : Num α) (w : Word) : Res α :=
  orStop (num.ofBits32 w) (.refusal .operandHasNoValue)

/-- `DELAY[i]` (R13). -/
def delayOf {α : Type} (s : Generic.State α) (i : Nat) : Res Nat :=
  orStop s.delay[i]? (.fault .noSuchLine)

/-- `COEF[i]` (R14). -/
def coefOf {α : Type} (s : Generic.State α) (i : Nat) : Res α :=
  orStop s.coef[i]? (.fault .noSuchLine)

/-- `SIGN[i]` (R15). -/
def signOf {α : Type} (s : Generic.State α) (i : Nat) : Res Sign :=
  orStop s.sign[i]? (.fault .noSuchLine)

/-- `CHAN[i]`, a function of the index, not stored (R15). -/
def chanOf (numDelays i : Nat) : Channel :=
  if i < numDelays / 2 then .left else .right

/-- The attenuated read window of line `i`, a row of `att` (R27). -/
def attRow {α : Type} (s : Generic.State α) (i : Nat) : Res (List α) :=
  orStop s.att[i]? (.fault .unwrittenScratch)

/-- `att[i][k]` (R27). -/
def attAt {α : Type} (s : Generic.State α) (i k : Nat) : Res α := do
  let row ← attRow s i
  orStop row[k]? (.fault .unwrittenScratch)

end Sys2Proof.Machine
end

