-- ==== Sys2Proof/Machine/Flags.lean ====
section
/-! DEFINITION. The flags: the `STATUS` word, the validation mask, the cause codes and the shortfall diagnostic
(spec/10_state.md R18, R24, spec/41_construction.md R69, spec/60_exceptions.md R114 to R116). No operation writes a
flag as a side effect of arithmetic (R18). -/

namespace Sys2Proof.Machine

/-- The code of a phase (R16). -/
def Phase.code (p : Phase) : Nat :=
  match p with
  | .unbuilt => 0
  | .idle => 1
  | .busy => 2
  | .fault => 3

/-- `STATUS` (R18): bits 1:0 `PHASE`, bit 2 `SHORTFALL`, bit 3 `ZERO_TAPS`, the rest 0. -/
def statusWord {α : Type} (s : Generic.State α) : Word :=
  BitVec.ofNat 32 (s.phase.code + (if s.shortfall then 4 else 0) + (if s.hasZeroTaps then 8 else 0))

/-- `BS_RANGE` (R24, R69): the block size is none of 1, 2, 4, 8. -/
def bsRange (blockSize : Nat) : Bool :=
  !(blockSize == 1 || blockSize == 2 || blockSize == 4 || blockSize == 8)

/-- `BS_GT_N` (R24, R69). -/
def bsGtN (numDelays blockSize : Nat) : Bool :=
  decide (numDelays < blockSize)

/-- `N_ODD` (R24, R69). -/
def nOdd (numDelays : Nat) : Bool :=
  decide (numDelays % 2 = 1)

/-- `N_NOT_DIV` (R24, R69); not set when the block size is 0. -/
def nNotDiv (numDelays blockSize : Nat) : Bool :=
  decide (blockSize ≠ 0 ∧ numDelays % blockSize ≠ 0)

/-- The mask of the checks of R69 that fail, as `FAULT_CAUSE` numbers them (R24). -/
def validationMask (numDelays blockSize : Nat) : BitVec 5 :=
  BitVec.ofNat 5
    ((if bsRange blockSize then 1 else 0) + (if bsGtN numDelays blockSize then 2 else 0)
      + (if nOdd numDelays then 4 else 0) + (if nNotDiv numDelays blockSize then 8 else 0))

/-- The cause of an IllegalCommand, bit 4 (R24, R115). -/
def illegalCommandCause : BitVec 5 := 0b10000

/-- `signal ResourceShortfall` (R116): sticky flag, saturating count. -/
@[simps]
def signalShortfall {α : Type} (s : Generic.State α) : Generic.State α :=
  { s with shortfall := true, diagCount := min (s.diagCount + 1) (2 ^ Config.diagBits - 1) }

end Sys2Proof.Machine
end

