-- ==== Sys2Proof/Machine/Memory.lean ====
section
/-! DEFINITION. The finite maps that hold the ring file and the cells of a ring (spec/20_memory.md R32, R33), in one
canonical form: numbers strictly rising. A number that is not listed has no value, and taking a value away removes
its pair, so equal maps are equal lists. -/

namespace Sys2Proof.Machine

/-- The value at number `a`, if it has one. -/
def Store.read {β : Type} (m : Store β) (a : Nat) : Option β :=
  match m with
  | [] => none
  | (b, v) :: rest => if a = b then some v else Store.read rest a

/-- Give number `a` the value `v`. -/
def Store.write {β : Type} (m : Store β) (a : Nat) (v : β) : Store β :=
  match m with
  | [] => [(a, v)]
  | (b, w) :: rest =>
    if a < b then (a, v) :: (b, w) :: rest
    else if a = b then (a, v) :: rest
    else (b, w) :: Store.write rest a v

/-- Take the value at number `a` away (`unspecified`). -/
def Store.erase {β : Type} (m : Store β) (a : Nat) : Store β :=
  match m with
  | [] => []
  | (b, w) :: rest => if a = b then Store.erase rest a else (b, w) :: Store.erase rest a

/-- The canonical form: numbers strictly rising. -/
def Store.wf {β : Type} (m : Store β) : Bool :=
  match m with
  | [] => true
  | (a, _) :: rest => rest.all (fun p => decide (a < p.1)) && Store.wf rest

/-- The numbers `0 .. n-1`, each with the value `v`: the pre-fill of a ring (R59). -/
def Store.filled {β : Type} (n : Nat) (v : β) : Store β :=
  (List.range n).map fun a => (a, v)

/-- The memory is in canonical form: the ring file, the cells of every ring, and no cell beyond its capacity (R25). -/
def Memory.wf {α : Type} (s : Generic.State α) : Bool :=
  Store.wf s.rings && s.rings.all fun p => Store.wf p.2.cells && p.2.cells.all fun c => decide (c.1 < p.2.cap)

end Sys2Proof.Machine
end

