-- ==== Sys2Proof/Machine/Ops.lean ====
section
/-! DEFINITION. The named operations over the state that the instructions share: rings and windows
(spec/20_memory.md), the random source (spec/41_construction.md R67), registers that become `unspecified`, fault entry
and the one way out of it (spec/60_exceptions.md R120, R121, spec/70_reset_and_hazards.md R126), and the gate that
lets a command in by phase (spec/30_encoding.md R56). -/

namespace Sys2Proof.Machine

/-! ## Rings, cells and windows -/

/-- Whether `i` numbers a line: `i < NUM_DELAYS` (R33). With no line register file there is no network, and
`NUM_DELAYS` is `unspecified` (R29, R30); a stand-alone ring then has any number (log entry 14). -/
abbrev LineInRange {α : Type} (s : Generic.State α) (i : Nat) : Prop :=
  s.delay = [] ∨ i < s.numDelays

/-- The ring of line `i`, if the line is in range and has one (R25, R33). -/
def ringAt {α : Type} (s : Generic.State α) (i : Nat) : Option (Ring α) :=
  if LineInRange s i then Store.read s.rings i else none

/-- The ring a ring operation or a window write acts on; there is nothing to act on without one (R33; log entry 15). -/
def ringOf {α : Type} (s : Generic.State α) (i : Nat) : Res (Ring α) :=
  orStop (ringAt s i) (.fault .noSuchRing)

/-- The ring a window read reads; without one the read is `refuse(read of an unwritten cell)` (R33). -/
def ringToRead {α : Type} (s : Generic.State α) (i : Nat) : Res (Ring α) :=
  orStop (ringAt s i) (.refusal .readOfUnwrittenCell)

/-- Replace or create the ring of line `i`. -/
@[simps]
def putRing {α : Type} (s : Generic.State α) (i : Nat) (r : Ring α) : Generic.State α :=
  { s with rings := Store.write s.rings i r }

/-- `MemRead((i, a), 1)` on the ring of the line (R33): outside `0 .. CAP[i]-1`, and on a cell that holds
`unspecified`, it is `refuse(read of an unwritten cell)`. -/
def Ring.memRead {α : Type} (r : Ring α) (a : Nat) : Res α :=
  if a < r.cap then orStop (Store.read r.cells a) (.refusal .readOfUnwrittenCell)
  else .error (.refusal .readOfUnwrittenCell)

/-- `MemWrite((i, a), 1, v)` on the ring of the line (R33), which gives no reaction outside `0 .. CAP[i]-1` (log
entry 15). -/
def Ring.memWrite {α : Type} (r : Ring α) (a : Nat) (v : α) : Res (Ring α) :=
  if a < r.cap then .ok { r with cells := Store.write r.cells a v } else .error (.fault .noSuchCell)

/-- The cell of element `k` of the read window (R34, R35). -/
def Ring.readCell {α : Type} (r : Ring α) (k : Nat) : Nat :=
  (r.rd + k) % r.cap

/-- The cell of element `k` of the write window (R34, R36). -/
def Ring.writeCell {α : Type} (r : Ring α) (k : Nat) : Nat :=
  (r.wr + k) % r.cap

/-- `RdWin(i, k)` (R35). -/
def rdWin {α : Type} (s : Generic.State α) (i k : Nat) : Res α := do
  let r ← ringToRead s i
  if k < r.rwin then r.memRead (r.readCell k) else .error (.refusal .readOutsideWindow)

/-- `WrWin(i, k, v)` (R36). -/
def wrWin {α : Type} (s : Generic.State α) (i k : Nat) (v : α) : Res (Generic.State α) := do
  let r ← ringOf s i
  if k < r.wwin then do
    let r' ← r.memWrite (r.writeCell k) v
    .ok (putRing s i r')
  else .error (.refusal .writeOutsideWindow)

/-- `WrWinRead(i, k)` (R36). -/
def wrWinRead {α : Type} (s : Generic.State α) (i k : Nat) : Res α := do
  let r ← ringToRead s i
  if k < r.wwin then r.memRead (r.writeCell k) else .error (.refusal .writeOutsideWindow)

/-! ## The random source -/

/-- The answer to draw number `s.draws` of `(lo, hi)`, `lo ≤ hi`: the listed answer if there is one in range, else the
uninterpreted oracle's, brought into range (R67; log entry 4). -/
def drawAnswer {α : Type} (P : Params α) (lo hi : Nat) (s : Generic.State α) : Nat :=
  match s.rng with
  | a :: _ => if lo ≤ a ∧ a ≤ hi then a else lo + P.rngAnswer s.draws lo hi % (hi - lo + 1)
  | [] => lo + P.rngAnswer s.draws lo hi % (hi - lo + 1)

/-- One answer has been taken from the `RNG` port. -/
@[simps]
def afterDraw {α : Type} (s : Generic.State α) : Generic.State α :=
  { s with rng := s.rng.tail, draws := s.draws + 1 }

/-- `draw(lo, hi)` (R67). -/
def draw {α : Type} (P : Params α) (lo hi : Nat) (s : Generic.State α) : Res (Nat × Generic.State α) :=
  if hi < lo then .error (.refusal .emptyDrawRange) else .ok (drawAnswer P lo hi s, afterDraw s)

/-! ## Losing the network, taking a fault, and reset -/

/-- The line register file and every ring cease to exist (R30). -/
@[simps]
def dropNetwork {α : Type} (s : Generic.State α) : Generic.State α :=
  { s with delay := [], coef := [], sign := [], rings := [] }

/-- Registers 3 to 5 and 7 to 18 become `unspecified` (R80, R120, R126): each takes a free value (log entry 3). -/
@[simps]
def loseRegisters {α : Type} (P : Params α) (s : Generic.State α) : Generic.State α :=
  let k := s.freeCount
  { s with
    numDelays := P.freeNat k
    blockSize := P.freeNat (k + 1)
    fbShift := P.freeNat (k + 2)
    minDelaySamples := P.freeNat (k + 3)
    maxDelaySamples := P.freeNat (k + 4)
    seqPos := P.freeNat (k + 5)
    seqRemaining := P.freeNat (k + 6)
    seqChunk := P.freeNat (k + 7)
    sampleRate := P.freeSample (k + 8)
    minDelaySeconds := P.freeSample (k + 9)
    maxDelaySeconds := P.freeSample (k + 10)
    matrixAtt := P.freeSample (k + 11)
    invMatrixAtt := P.freeSample (k + 12)
    inputAtt := P.freeSample (k + 13)
    inputPan := P.freeSample (k + 14)
    freeCount := k + 15 }

/-- What `DESTROY`, a fault and `RESET` share: no network, `HAS_ZERO_TAPS` 0, the network's registers `unspecified`,
no command in progress. `STATUS.SHORTFALL`, `DIAG_COUNT` and `FAULT_CAUSE` stand as they are. -/
@[simps]
def clearNetwork {α : Type} (P : Params α) (s : Generic.State α) : Generic.State α :=
  { loseRegisters P (dropNetwork s) with hasZeroTaps := false, progress := .rest }

/-- Fault entry (R120): the cause is recorded, the phase is `FAULT`, the network is gone; nothing else is saved. -/
@[simps]
def faultEntry {α : Type} (P : Params α) (cause : BitVec 5) (s : Generic.State α) : Generic.State α :=
  { clearNetwork P s with faultCause := cause, phase := .fault }

/-- `raise IllegalCommand` (R115). -/
def raiseIllegal {α : Type} (P : Params α) (s : Generic.State α) : Generic.State α :=
  faultEntry P illegalCommandCause s

/-- The `RESET` wire (R126), the only way out of `FAULT` (R121): a command in progress and a standing internal request
are abandoned; what the host offers at the ports stays, and so do the last grant and the mixer request vector, of which
R29 and R126 say nothing (log entry 25). -/
@[simps]
def resetEffect {α : Type} (P : Params α) (s : Generic.State α) : Generic.State α :=
  { clearNetwork P s with
    phase := .unbuilt
    shortfall := false
    faultCause := 0
    diagCount := 0
    request := none
    resetPin := false }

/-! ## Which commands a phase lets in -/

/-- The `CMD` port is ready exactly in `UNBUILT` and `IDLE` (R11). -/
def Phase.ready (p : Phase) : Bool :=
  match p with
  | .unbuilt => true
  | .idle => true
  | .busy => false
  | .fault => false

/-- Whether a phase allows a command of an opcode: in `UNBUILT` only `BUILD`, in `IDLE` everything but `BUILD` (R56
item 4). -/
def phaseAllows (p : Phase) (op : Nat) : Bool :=
  match p with
  | .unbuilt => op == 1
  | .idle => op != 1
  | .busy => false
  | .fault => false

/-- A command that is legal in `UNBUILT` only (R56 item 4); with the port not ready nothing is taken (R11). -/
def inUnbuilt {α : Type} (P : Params α) (s : Generic.State α) (effect : Res (Generic.State α)) :
    Res (Generic.State α) :=
  match s.phase with
  | .unbuilt => effect
  | .idle => .ok (raiseIllegal P s)
  | .busy => .ok s
  | .fault => .ok s

/-- A command that is legal in `IDLE` only (R56 item 4); with the port not ready nothing is taken (R11). -/
def inIdle {α : Type} (P : Params α) (s : Generic.State α) (effect : Res (Generic.State α)) :
    Res (Generic.State α) :=
  match s.phase with
  | .idle => effect
  | .unbuilt => .ok (raiseIllegal P s)
  | .busy => .ok s
  | .fault => .ok s

end Sys2Proof.Machine
end

