-- ==== Sys2Proof/Machine/Ring.lean ====
section
/-! DEFINITION. The five ring operations (spec/40_ring_delay_line.md R59 to R63): the effect on one ring, the shared
operation on the ring of a line, and the meaning of each instruction. -/

namespace Sys2Proof.Machine

/-! ## On one ring -/

/-- The ring of `RING_INIT D, m` (R59), whose first `D` cells hold `zero`. -/
def Ring.initial {α : Type} (zero : α) (D m : Nat) : Ring α where
  cap := D + m
  rd := 0
  wr := D % (D + m)
  fill := D
  rwin := 0
  wwin := 0
  cells := Store.filled D zero

/-- The grant of `PEEK_READABLE n` (R60). -/
def Ring.readGrant {α : Type} (r : Ring α) (n : Nat) : Nat :=
  min n r.fill

/-- The grant of `PEEK_WRITABLE n` (R61). -/
def Ring.writeGrant {α : Type} (r : Ring α) (n : Nat) : Nat :=
  min n (r.cap - r.fill)

/-- The cells with the numbers `cell 0 .. cell (n-1)` become `unspecified`. -/
def eraseCells {α : Type} (cells : Store α) (cell : Nat → Nat) (n : Nat) : Store α :=
  (List.range n).foldl (fun m k => Store.erase m (cell k)) cells

/-- `COMMIT_WRITE n` (R62); the window's cells beyond `n` return to free space (log entry 18). -/
def Ring.commit {α : Type} (r : Ring α) (n : Nat) : Ring α :=
  { r with
    wr := (r.wr + n) % r.cap
    fill := r.fill + n
    wwin := 0
    cells := eraseCells r.cells (fun k => r.writeCell (n + k)) (r.wwin - n) }

/-- `RELEASE_READ n` (R63). -/
def Ring.release {α : Type} (r : Ring α) (n : Nat) : Ring α :=
  { r with
    rd := (r.rd + n) % r.cap
    fill := r.fill - n
    rwin := 0
    cells := eraseCells r.cells r.readCell n }

/-! ## On the ring of a line -/

/-- `RING_INIT i, D, m` (R59). On a network the line must be below `NUM_DELAYS`, since R33 defines the zero writes for no
other (log entry 14). A stand-alone request can ask for a capacity of `2 ^ 32` or more, which R6 says no ring has and
R59 does not refuse: the ring is made all the same (log entry 33). -/
def ringInit {α : Type} (P : Params α) (i D m : Nat) (s : Generic.State α) : Res (Generic.State α) :=
  if D + m = 0 then .error (.refusal .ringOfCapacityZero)
  else if LineInRange s i then .ok (putRing s i (Ring.initial P.num.zero D m))
  else .error (.fault .noSuchRing)

/-- `PEEK_READABLE i, n` (R60): the grant, and the state with the window open. -/
def peekReadable {α : Type} (i n : Nat) (s : Generic.State α) : Res (Nat × Generic.State α) := do
  let r ← ringOf s i
  if r.rwin ≠ 0 then .error (.refusal .secondReadWindow)
  else .ok (r.readGrant n, { putRing s i { r with rwin := r.readGrant n } with grant := r.readGrant n })

/-- `PEEK_WRITABLE i, n` (R61): the grant, and the state with the window open. -/
def peekWritable {α : Type} (i n : Nat) (s : Generic.State α) : Res (Nat × Generic.State α) := do
  let r ← ringOf s i
  if r.wwin ≠ 0 then .error (.refusal .secondWriteWindow)
  else .ok (r.writeGrant n, { putRing s i { r with wwin := r.writeGrant n } with grant := r.writeGrant n })

/-- `COMMIT_WRITE i, n` (R62). -/
def commitWrite {α : Type} (i n : Nat) (s : Generic.State α) : Res (Generic.State α) := do
  let r ← ringOf s i
  if r.wwin < n then .error (.refusal .commitBeyondWindow) else .ok (putRing s i (r.commit n))

/-- `RELEASE_READ i, n` (R63). -/
def releaseRead {α : Type} (i n : Nat) (s : Generic.State α) : Res (Generic.State α) := do
  let r ← ringOf s i
  if r.rwin < n then .error (.refusal .releaseBeyondWindow) else .ok (putRing s i (r.release n))

/-! ## The instructions -/

/-- `RING_INIT` (R59), in any phase: a stand-alone request in `UNBUILT` or `FAULT` makes a ring where R16 has none (log
entry 13). -/
def execRingInit (line n m : Nat) (s : State) : Host.Outcome State Fault Refusal :=
  outcome (ringInit F32.params line n m s)

/-- `PEEK_READABLE` (R60). -/
def execPeekReadable (line n : Nat) (s : State) : Host.Outcome State Fault Refusal :=
  outcome ((peekReadable line n s).map Prod.snd)

/-- `PEEK_WRITABLE` (R61). -/
def execPeekWritable (line n : Nat) (s : State) : Host.Outcome State Fault Refusal :=
  outcome ((peekWritable line n s).map Prod.snd)

/-- `COMMIT_WRITE` (R62). -/
def execCommitWrite (line n : Nat) (s : State) : Host.Outcome State Fault Refusal :=
  outcome (commitWrite line n s)

/-- `RELEASE_READ` (R63). -/
def execReleaseRead (line n : Nat) (s : State) : Host.Outcome State Fault Refusal :=
  outcome (releaseRead line n s)

end Sys2Proof.Machine
end

