-- ==== Sys2Proof/Machine/Construction.lean ====
section
/-! DEFINITION. Construction and destruction (spec/41_construction.md): the steps of `BUILD` as rules R69 to R78 give
them, the coefficient function they share with `SET_RT60` (spec/44_setters.md R108), and the meanings of `BUILD` and
`DESTROY`. -/

namespace Sys2Proof.Machine

/-- The operands of a construction (R68), `Sample` operands by value. -/
structure Topology (α : Type) where
  /-- `numDelays`. -/
  numDelays : Nat
  /-- `blockSize`. -/
  blockSize : Nat
  /-- `feedbackShiftByBlock`. -/
  feedbackShiftByBlock : Nat
  /-- `hasZeroTaps`. -/
  hasZeroTaps : Bool
  /-- `minDelaySeconds`. -/
  minDelaySeconds : α
  /-- `maxDelaySeconds`. -/
  maxDelaySeconds : α
  /-- `sampleRate`. -/
  sampleRate : α
deriving DecidableEq, Repr

/-! ## Preconditions and registers -/

/-- `truncToNat(fmul(seconds, sampleRate))` (R22, R71). -/
def sampleCount {α : Type} (num : Num α) (seconds sampleRate : α) : Res Nat :=
  orStop (num.truncToNat (num.fmul seconds sampleRate)) (.refusal .secondsHaveNoSampleCount)

/-- A delay bound that is negative, NaN or infinite (R70 item 1). -/
def badBound {α : Type} (num : Num α) (seconds : α) : Bool :=
  !num.isFinite seconds || num.lt seconds num.zero

/-- A sample rate that is not a finite positive value (R70 item 1). -/
def badRate {α : Type} (num : Num α) (rate : α) : Bool :=
  !(num.isFinite rate && num.lt num.zero rate)

/-- R70 items 2 to 6, in order, on the bounds in samples. -/
def checkRange {α : Type} (t : Topology α) (minSamples maxSamples : Nat) : Res Unit :=
  if minSamples < 1 then .error (.refusal .minDelayBelowOneSample)
  else if maxSamples < minSamples then .error (.refusal .delayRangeEmpty)
  else if 2 ^ Config.ringCountBits ≤ maxSamples + minSamples then .error (.refusal .capacityTooLarge)
  else if Nat.gcd t.numDelays Config.stride ≠ 1 then .error (.refusal .strideNotPermutation)
  else if 0 < t.feedbackShiftByBlock * t.blockSize ∧ t.numDelays / 2 < t.blockSize then
    .error (.refusal .blockWiderThanHalf)
  else .ok ()

/-- The preconditions of R70; the answer is `MIN_DELAY_SAMPLES` and `MAX_DELAY_SAMPLES`. -/
def checkPreconditions {α : Type} (num : Num α) (t : Topology α) : Res (Nat × Nat) :=
  if badRate num t.sampleRate || badBound num t.minDelaySeconds || badBound num t.maxDelaySeconds then
    .error (.refusal .rateOrBoundNotUsable)
  else do
    let minSamples ← sampleCount num t.minDelaySeconds t.sampleRate
    let maxSamples ← sampleCount num t.maxDelaySeconds t.sampleRate
    checkRange t minSamples maxSamples
    .ok (minSamples, maxSamples)

/-- `MATRIX_ATT` of a block size (R21, R71). -/
def matrixAttOf {α : Type} (num : Num α) (blockSize : Nat) : α :=
  num.fsqrt (num.fdiv num.one (num.ofNat blockSize))

/-- `INV_MATRIX_ATT` of a block size (R21, R71). -/
def invMatrixAttOf {α : Type} (num : Num α) (blockSize : Nat) : α :=
  num.fdiv num.one (matrixAttOf num blockSize)

/-- The register writes of construction (R71). -/
@[simps]
def writeTopology {α : Type} (P : Params α) (t : Topology α) (minSamples maxSamples : Nat)
    (s : Generic.State α) : Generic.State α :=
  { s with
    numDelays := t.numDelays
    blockSize := t.blockSize
    fbShift := t.feedbackShiftByBlock * t.blockSize
    hasZeroTaps := t.hasZeroTaps
    minDelaySeconds := t.minDelaySeconds
    maxDelaySeconds := t.maxDelaySeconds
    sampleRate := t.sampleRate
    minDelaySamples := minSamples
    maxDelaySamples := maxSamples
    matrixAtt := matrixAttOf P.num t.blockSize
    invMatrixAtt := invMatrixAttOf P.num t.blockSize
    inputPan := P.num.inputPanInit }

/-! ## Delay lengths -/

/-- `count` draws of `(lo, hi)`, in order (R72). -/
def drawMany {α : Type} (P : Params α) (lo hi : Nat) :
    Nat → Generic.State α → Res (List Nat × Generic.State α)
  | 0, s => .ok ([], s)
  | count + 1, s => do
    let (v, s1) ← draw P lo hi s
    let (vs, s2) ← drawMany P lo hi count s1
    .ok (v :: vs, s2)

/-- Insertion into a list in non-decreasing order. -/
def insertSorted (v : Nat) : List Nat → List Nat
  | [] => [v]
  | w :: rest => if v ≤ w then v :: w :: rest else w :: insertSorted v rest

/-- A list in non-decreasing order (R72). -/
def sortAscending : List Nat → List Nat
  | [] => []
  | v :: rest => insertSorted v (sortAscending rest)

/-- The line that receives the sorted length number `i` (R73). -/
def strideIndex (numDelays i : Nat) : Nat :=
  i * Config.stride % numDelays

/-- `DELAY[]` from the sorted lengths (R73). -/
def permuted (sorted : List Nat) : List Nat :=
  sorted.zipIdx.foldl (fun file p => file.set (strideIndex sorted.length p.2) p.1) (List.replicate sorted.length 0)

/-- Steps 2 and 3: draw, sort, permute (R72, R73). -/
def drawDelays {α : Type} (P : Params α) (s : Generic.State α) : Res (Generic.State α) := do
  let (raw, s1) ← drawMany P s.minDelaySamples s.maxDelaySamples s.numDelays s
  .ok { s1 with delay := permuted (sortAscending raw) }

/-! ## Rings -/

/-- Step 4: one ring per line, in ascending order (R74). -/
def initRings {α : Type} (P : Params α) (s : Generic.State α) : Res (Generic.State α) :=
  (List.range s.numDelays).foldlM (fun s1 i => do
    let d ← delayOf s1 i
    ringInit P i d s1.minDelaySamples s1) s

/-! ## Tap signs -/

/-- The alternation of R75: +1 at even indices. -/
def alternating (numDelays : Nat) : List Sign :=
  (List.range numDelays).map fun i => if i % 2 = 0 then .plus else .minus

/-- The list with the entries at `i` and `j` exchanged (R75). -/
def swapped (signs : List Sign) (i j : Nat) : List Sign :=
  match signs[i]?, signs[j]? with
  | some a, some b => (signs.set i b).set j a
  | _, _ => signs

/-- The descending shuffle of the half that begins at `base`, from `j` down to 1 (R75). -/
def shuffleFrom {α : Type} (P : Params α) (base : Nat) :
    Nat → List Sign → Generic.State α → Res (List Sign × Generic.State α)
  | 0, signs, s => .ok (signs, s)
  | j + 1, signs, s => do
    let (r, s1) ← draw P 0 (j + 1) s
    shuffleFrom P base j (swapped signs (base + (j + 1)) (base + r)) s1

/-- Step 5: alternate, shuffle the left half, then the right half (R75). -/
def assignSigns {α : Type} (P : Params α) (s : Generic.State α) : Res (Generic.State α) := do
  let half := s.numDelays / 2
  let (left, s1) ← shuffleFrom P 0 (half - 1) (alternating s.numDelays) s
  let (both, s2) ← shuffleFrom P half (half - 1) left s1
  .ok { s2 with sign := both }

/-! ## Input attenuation and decay -/

/-- `numInputsPerChannel` (R76). -/
def numInputsPerChannel (numDelays blockSize fbShift : Nat) (hasZeroTaps : Bool) : Nat :=
  (if 0 < fbShift then blockSize else numDelays / 2) + (if hasZeroTaps then 1 else 0)

/-- Step 6 (R76). -/
@[simps]
def writeInputAtt {α : Type} (P : Params α) (s : Generic.State α) : Generic.State α :=
  { s with
    inputAtt := P.num.fsqrt (P.num.fdiv P.num.one
      (P.num.ofNat (numInputsPerChannel s.numDelays s.blockSize s.fbShift s.hasZeroTaps))) }

/-- `coefficient(i, seconds)` for a line of delay `delay` (R108). -/
def coefficient {α : Type} (num : Num α) (matrixAtt sampleRate : α) (delay : Nat) (seconds : α) : α :=
  let dts := num.fdiv (num.ofNat delay) sampleRate
  let e := num.fdiv (num.fmul num.minusThree dts) seconds
  num.fmul matrixAtt (num.fpow10 e)

/-- `COEF[i] <- coefficient(i, seconds)` for every line (R77, R109). -/
@[simps]
def writeCoefs {α : Type} (P : Params α) (seconds : α) (s : Generic.State α) : Generic.State α :=
  { s with coef := s.delay.map fun d => coefficient P.num s.matrixAtt s.sampleRate d seconds }

/-! ## The whole -/

/-- The construction proper, rules R71 to R78, on a state that has no network. -/
def constructNetwork {α : Type} (P : Params α) (t : Topology α) (minSamples maxSamples : Nat)
    (s : Generic.State α) : Res (Generic.State α) := do
  let s1 ← drawDelays P (writeTopology P t minSamples maxSamples s)
  let s2 ← initRings P s1
  let s3 ← assignSigns P s2
  .ok { writeCoefs P P.defaultDecaySeconds (writeInputAtt P s3) with phase := .idle }

/-- Rules R70 to R78, the part `BUILD` and `SET_MAX_DELAY` share (R110). -/
def construct {α : Type} (P : Params α) (t : Topology α) (s : Generic.State α) : Res (Generic.State α) := do
  let (minSamples, maxSamples) ← checkPreconditions P.num t
  constructNetwork P t minSamples maxSamples s

/-- The effect of `BUILD` in `UNBUILT` (R68): validation first (R69, R119), then the rest. -/
def buildEffect {α : Type} (P : Params α) (numDelays blockSize feedbackShiftByBlock : Nat) (hasZeroTaps : Bool)
    (minDelaySeconds maxDelaySeconds sampleRate : Word) (s : Generic.State α) : Res (Generic.State α) :=
  if validationMask numDelays blockSize ≠ 0 then .ok (faultEntry P (validationMask numDelays blockSize) s)
  else do
    let lo ← sampleOperand P.num minDelaySeconds
    let hi ← sampleOperand P.num maxDelaySeconds
    let rate ← sampleOperand P.num sampleRate
    construct P
      { numDelays := numDelays, blockSize := blockSize, feedbackShiftByBlock := feedbackShiftByBlock,
        hasZeroTaps := hasZeroTaps, minDelaySeconds := lo, maxDelaySeconds := hi, sampleRate := rate }
      (dropNetwork s)

/-- The effect of `DESTROY` in `IDLE` (R80). -/
@[simps]
def destroyEffect {α : Type} (P : Params α) (s : Generic.State α) : Generic.State α :=
  { clearNetwork P s with phase := .unbuilt }

/-- `BUILD` (R68). -/
def execBuild (numDelays blockSize feedbackShiftByBlock : Nat) (hasZeroTaps : Bool)
    (minDelaySeconds maxDelaySeconds sampleRate : Word) (s : State) : Host.Outcome State Fault Refusal :=
  outcome (inUnbuilt F32.params s
    (buildEffect F32.params numDelays blockSize feedbackShiftByBlock hasZeroTaps minDelaySeconds maxDelaySeconds
      sampleRate s))

/-- `DESTROY` (R80). -/
def execDestroy (s : State) : Host.Outcome State Fault Refusal :=
  outcome (inIdle F32.params s (.ok (destroyEffect F32.params s)))

end Sys2Proof.Machine
end

