-- ==== Sys2Proof/Machine/Mixer.lean ====
section
/-! DEFINITION. The block mixer (spec/42_block_mixer.md): the butterfly as R82 gives it, the four transforms as R83 to
R86 unroll it, the rotation (R88), and the meaning of each mixer instruction. -/

namespace Sys2Proof.Machine

/-- One stage of the butterfly (R82) on a vector of `2 * h` elements: sums first, then lower minus higher. -/
def butterfly {α : Type} (num : Num α) (low high : List α) : List α :=
  List.zipWith num.fadd low high ++ List.zipWith num.fsub low high

/-- The transform of a vector of `2 ^ lg` samples (R82): the stages below act inside each half, the last one between
the halves. -/
def hadamard {α : Type} (num : Num α) : Nat → List α → List α
  | 0, x => x
  | lg + 1, x => butterfly num (hadamard num lg (x.take (2 ^ lg))) (hadamard num lg (x.drop (2 ^ lg)))

/-- `HAD1` (R83). -/
def had1 {α : Type} (x0 : α) : List α :=
  [x0]

/-- `HAD2` (R84). -/
def had2 {α : Type} (num : Num α) (x0 x1 : α) : List α :=
  [num.fadd x0 x1, num.fsub x0 x1]

/-- `HAD4` (R85). -/
def had4 {α : Type} (num : Num α) (x0 x1 x2 x3 : α) : List α :=
  let t0 := num.fadd x0 x1
  let t1 := num.fsub x0 x1
  let t2 := num.fadd x2 x3
  let t3 := num.fsub x2 x3
  [num.fadd t0 t2, num.fadd t1 t3, num.fsub t0 t2, num.fsub t1 t3]

/-- `HAD8` (R86): `HAD4` of each half, then the stage between the halves. -/
def had8 {α : Type} (num : Num α) (x0 x1 x2 x3 x4 x5 x6 x7 : α) : List α :=
  butterfly num (had4 num x0 x1 x2 x3) (had4 num x4 x5 x6 x7)

/-- `HAD1` of the first sample of a vector. -/
def mix1 {α : Type} (x : List α) : Res (List α) :=
  match x with
  | x0 :: _ => .ok (had1 x0)
  | _ => .error (.refusal .mixerVectorTooShort)

/-- `HAD2` of the first two samples of a vector. -/
def mix2 {α : Type} (num : Num α) (x : List α) : Res (List α) :=
  match x with
  | x0 :: x1 :: _ => .ok (had2 num x0 x1)
  | _ => .error (.refusal .mixerVectorTooShort)

/-- `HAD4` of the first four samples of a vector. -/
def mix4 {α : Type} (num : Num α) (x : List α) : Res (List α) :=
  match x with
  | x0 :: x1 :: x2 :: x3 :: _ => .ok (had4 num x0 x1 x2 x3)
  | _ => .error (.refusal .mixerVectorTooShort)

/-- `HAD8` of the first eight samples of a vector. -/
def mix8 {α : Type} (num : Num α) (x : List α) : Res (List α) :=
  match x with
  | x0 :: x1 :: x2 :: x3 :: x4 :: x5 :: x6 :: x7 :: _ => .ok (had8 num x0 x1 x2 x3 x4 x5 x6 x7)
  | _ => .error (.refusal .mixerVectorTooShort)

/-- The transform the sequencer issues, fixed by the block size (R55, R81). -/
def mixBlock {α : Type} (num : Num α) (blockSize : Nat) (x : List α) : Res (List α) :=
  if blockSize = 1 then mix1 x
  else if blockSize = 2 then mix2 num x
  else if blockSize = 4 then mix4 num x
  else if blockSize = 8 then mix8 num x
  else .error (.refusal .noSuchBlockSize)

/-- The rotation: the line whose write window receives element `j` of the transformed block `b` (R88). -/
def rotated (blockSize fbShift numDelays b j : Nat) : Nat :=
  (b * blockSize + j + fbShift) % numDelays

/-- The answer of the mixer stands in its working vector (R27, R82). -/
@[simps]
def setMixed {α : Type} (s : Generic.State α) (y : List α) : Generic.State α :=
  { s with y := y }

/-- `HAD1` (R83) of the vector on the mixer request interface. -/
def execHad1 (s : State) : Host.Outcome State Fault Refusal :=
  outcome ((mix1 s.mixIn).map (setMixed s))

/-- `HAD2` (R84). -/
def execHad2 (s : State) : Host.Outcome State Fault Refusal :=
  outcome ((mix2 F32.num s.mixIn).map (setMixed s))

/-- `HAD4` (R85). -/
def execHad4 (s : State) : Host.Outcome State Fault Refusal :=
  outcome ((mix4 F32.num s.mixIn).map (setMixed s))

/-- `HAD8` (R86). -/
def execHad8 (s : State) : Host.Outcome State Fault Refusal :=
  outcome ((mix8 F32.num s.mixIn).map (setMixed s))

end Sys2Proof.Machine
end

