-- ==== Sys2Proof/Machine/Process.lean ====
section
/-! DEFINITION. `PROCESS` (spec/43_process.md): one definition per step of a chunk, in the order of R90, the loop, and
the meaning of the instruction. "For every line" is ascending, "for every k" is ascending (R90). -/

namespace Sys2Proof.Machine

/-! ## The steps of one chunk -/

/-- The gain of the left input (R91). -/
def gainL {α : Type} (num : Num α) (inputAtt pan : α) : α :=
  num.fmul inputAtt (num.fsqrt (num.fmul num.two (num.fsub num.one pan)))

/-- The gain of the right input (R91). -/
def gainR {α : Type} (num : Num α) (inputAtt pan : α) : α :=
  num.fmul inputAtt (num.fsqrt (num.fmul num.two pan))

/-- Step 1, the input cache (R91): positions `SEQ_POS + k`, `k < SEQ_CHUNK`. -/
@[simps]
def stepCache {α : Type} (P : Params α) (s : Generic.State α) : Generic.State α :=
  { s with
    inCacheL := (s.inL.take s.seqChunk).map fun x => P.num.fmul x (gainL P.num s.inputAtt s.inputPan)
    inCacheR := (s.inR.take s.seqChunk).map fun x => P.num.fmul x (gainR P.num s.inputAtt s.inputPan) }

/-- Step 2 (R92). -/
@[simps]
def stepZero {α : Type} (P : Params α) (s : Generic.State α) : Generic.State α :=
  { s with
    accL := List.replicate s.seqChunk P.num.zero
    accR := List.replicate s.seqChunk P.num.zero }

/-- Step 3 for one line: both windows asked for `req`, the chunk shrunk to what they grant (R93). -/
def openWindows {α : Type} (req : Nat) (s : Generic.State α) (i : Nat) : Res (Generic.State α) := do
  let (gr, s1) ← peekReadable i req s
  let (gw, s2) ← peekWritable i req s1
  .ok { s2 with seqChunk := min s2.seqChunk (min gr gw) }

/-- Step 3 (R93): every line is asked for the same count; a shortfall is signalled once. -/
def stepWindows {α : Type} (s : Generic.State α) : Res (Generic.State α) := do
  let s1 ← (List.range s.numDelays).foldlM (openWindows s.seqChunk) s
  .ok (if s1.seqChunk < s.seqChunk then signalShortfall s1 else s1)

/-- Step 4 for one line: its read window times its coefficient (R94). -/
def attenuated {α : Type} (P : Params α) (s : Generic.State α) (i : Nat) : Res (List α) := do
  let c ← coefOf s i
  (List.range s.seqChunk).mapM fun k => do
    let x ← rdWin s i k
    .ok (P.num.fmul x c)

/-- Step 4 (R94). -/
def stepDecay {α : Type} (P : Params α) (s : Generic.State α) : Res (Generic.State α) := do
  let rows ← (List.range s.numDelays).mapM (attenuated P s)
  .ok { s with att := rows }

/-- `fadd` or `fsub` by the tap sign (R95). -/
def tapped {α : Type} (num : Num α) (sign : Sign) (acc a : α) : α :=
  match sign with
  | .plus => num.fadd acc a
  | .minus => num.fsub acc a

/-- Step 5 for one line, into the accumulator of its channel (R95). -/
def tapLine {α : Type} (P : Params α) (s : Generic.State α) (i : Nat) : Res (Generic.State α) := do
  let sg ← signOf s i
  let row ← attRow s i
  match chanOf s.numDelays i with
  | .left => .ok { s with accL := List.zipWith (tapped P.num sg) s.accL row }
  | .right => .ok { s with accR := List.zipWith (tapped P.num sg) s.accR row }

/-- Step 5 (R95). -/
def stepTaps {α : Type} (P : Params α) (s : Generic.State α) : Res (Generic.State α) :=
  (List.range s.numDelays).foldlM (tapLine P) s

/-- Step 6 (R96). -/
@[simps]
def stepUnity {α : Type} (P : Params α) (s : Generic.State α) : Generic.State α :=
  { s with
    accL := s.accL.map fun a => P.num.fmul a s.invMatrixAtt
    accR := s.accR.map fun a => P.num.fmul a s.invMatrixAtt }

/-- Step 7 (R97). -/
def stepZeroTap {α : Type} (P : Params α) (s : Generic.State α) : Generic.State α :=
  if s.hasZeroTaps then
    { s with
      accL := List.zipWith P.num.fadd s.accL s.inCacheL
      accR := List.zipWith P.num.fadd s.accR s.inCacheR }
  else s

/-- The output write (R98). -/
@[simps]
def stepOutput {α : Type} (s : Generic.State α) : Generic.State α :=
  { s with
    outL := s.outL ++ s.accL.take s.seqChunk
    outR := s.outR ++ s.accR.take s.seqChunk
    roomL := s.roomL - s.seqChunk
    roomR := s.roomR - s.seqChunk }

/-- The transformed element `j` of block `b` into the write window the rotation gives it (R88, R99). -/
def writeMixed {α : Type} (b k : Nat) (s : Generic.State α) (p : α × Nat) : Res (Generic.State α) :=
  wrWin s (rotated s.blockSize s.fbShift s.numDelays b p.2) k p.1

/-- Step 8 for one block at one sample index (R99). -/
def mixAt {α : Type} (P : Params α) (b : Nat) (s : Generic.State α) (k : Nat) : Res (Generic.State α) := do
  let x ← (List.range s.blockSize).mapM fun j => attAt s (b * s.blockSize + j) k
  let y ← mixBlock P.num s.blockSize x
  y.zipIdx.foldlM (writeMixed b k) (setMixed s y)

/-- Step 8 for one block (R99). -/
def mixLines {α : Type} (P : Params α) (s : Generic.State α) (b : Nat) : Res (Generic.State α) :=
  (List.range s.seqChunk).foldlM (mixAt P b) s

/-- Step 8, mix and rotate (R99). -/
def stepMix {α : Type} (P : Params α) (s : Generic.State α) : Res (Generic.State α) :=
  (List.range (s.numDelays / s.blockSize)).foldlM (mixLines P) s

/-- One injection: `WrWin(i, k, fadd(WrWinRead(i, k), u))` (R100). -/
def injectAt {α : Type} (P : Params α) (i : Nat) (s : Generic.State α) (p : α × Nat) : Res (Generic.State α) := do
  let v ← wrWinRead s i p.2
  wrWin s i p.2 (P.num.fadd v p.1)

/-- One channel's injection into one line (R100). -/
def injectLine {α : Type} (P : Params α) (cache : List α) (s : Generic.State α) (i : Nat) : Res (Generic.State α) :=
  (cache.take s.seqChunk).zipIdx.foldlM (injectAt P i) s

/-- The lines of an injection set are `first .. first + injectCount - 1` (R100): `BLOCK_SIZE` of them with a rotation,
a stereo half without. -/
def injectCount (numDelays blockSize fbShift : Nat) : Nat :=
  if 0 < fbShift then blockSize else numDelays / 2

/-- Step 9 (R100): the left cache into `Lset`, which starts at line 0, then the right cache into `Rset`, which starts
at the second half. -/
def stepInject {α : Type} (P : Params α) (s : Generic.State α) : Res (Generic.State α) := do
  let count := injectCount s.numDelays s.blockSize s.fbShift
  let s1 ← (List.range count).foldlM (injectLine P s.inCacheL) s
  ((List.range count).map (s.numDelays / 2 + ·)).foldlM (injectLine P s.inCacheR) s1

/-- Step 10 for one line (R101). -/
def closeWindows {α : Type} (n : Nat) (s : Generic.State α) (i : Nat) : Res (Generic.State α) := do
  let s1 ← releaseRead i n s
  commitWrite i n s1

/-- Step 10 (R101). -/
def stepCommit {α : Type} (s : Generic.State α) : Res (Generic.State α) :=
  (List.range s.numDelays).foldlM (closeWindows s.seqChunk) s

/-- Step 11 (R102): the external pointers move past the chunk. -/
@[simps]
def stepAdvance {α : Type} (s : Generic.State α) : Generic.State α :=
  { s with
    seqPos := s.seqPos + s.seqChunk
    seqRemaining := s.seqRemaining - s.seqChunk
    inL := s.inL.drop s.seqChunk
    inR := s.inR.drop s.seqChunk }

/-! ## The loop -/

/-- The chunk length at the head of the loop (R90). -/
@[simps]
def beginChunk {α : Type} (s : Generic.State α) : Generic.State α :=
  { s with seqChunk := min s.seqRemaining s.minDelaySamples }

/-- The host has supplied the samples of the chunk (R11; log entry 9). -/
def inputOffered {α : Type} (s : Generic.State α) : Bool :=
  decide (s.seqChunk ≤ s.inL.length) && decide (s.seqChunk ≤ s.inR.length)

/-- The host takes the samples of the chunk (R11; log entry 10). -/
def outputTaken {α : Type} (s : Generic.State α) : Bool :=
  decide (s.seqChunk ≤ s.roomL) && decide (s.seqChunk ≤ s.roomR)

/-- Steps 1 to 7 (R90). -/
def chunkFront {α : Type} (P : Params α) (s : Generic.State α) : Res (Generic.State α) := do
  let s1 ← stepWindows (stepZero P (stepCache P s))
  let s2 ← stepDecay P s1
  let s3 ← stepTaps P s2
  .ok { stepZeroTap P (stepUnity P s3) with progress := .outputWrite }

/-- The output write and steps 8 to 11 (R90). -/
def chunkBack {α : Type} (P : Params α) (s : Generic.State α) : Res (Generic.State α) := do
  let s1 ← stepMix P (stepOutput s)
  let s2 ← stepInject P s1
  let s3 ← stepCommit s2
  .ok { stepAdvance s3 with progress := .loopHead }

/-- The end of the command (R90). -/
@[simps]
def finishProcess {α : Type} (s : Generic.State α) : Generic.State α :=
  { s with phase := .idle, progress := .rest }

/-- A `PROCESS` in progress runs on for at most `fuel` moves, until it completes or the host must act
(R11, R90; log entries 8, 9, 29). -/
def runProcess {α : Type} (P : Params α) : Nat → Generic.State α → Res (Generic.State α)
  | 0, s => .ok s
  | fuel + 1, s =>
    match s.progress with
    | .loopHead =>
      if s.seqRemaining = 0 then .ok (finishProcess s)
      else if inputOffered (beginChunk s) then do
        let s1 ← chunkFront P (beginChunk s)
        runProcess P fuel s1
      else .ok (beginChunk s)
    | .outputWrite =>
      if outputTaken s then do
        let s1 ← chunkBack P s
        runProcess P fuel s1
      else .ok s
    | .rest => .ok s
    | .receiving _ _ => .ok s

/-- The moves of the loop one step runs at most: two halves of a chunk for every sample that remains, and the end of
the command. -/
def processFuel {α : Type} (s : Generic.State α) : Nat :=
  2 * s.seqRemaining + 1

/-- A `PROCESS` in progress goes on. -/
def continueProcess {α : Type} (P : Params α) (s : Generic.State α) : Res (Generic.State α) :=
  runProcess P (processFuel s) s

/-- The start of the command (R90). -/
@[simps]
def beginProcess {α : Type} (numSamples : Nat) (s : Generic.State α) : Generic.State α :=
  { s with phase := .busy, seqPos := 0, seqRemaining := numSamples, progress := .loopHead }

/-- The effect of `PROCESS` in `IDLE` (R89, R90). -/
def processEffect {α : Type} (P : Params α) (numSamples : Nat) (s : Generic.State α) : Res (Generic.State α) :=
  continueProcess P (beginProcess numSamples s)

/-- `PROCESS` (R89). -/
def execProcess (numSamples : Nat) (s : State) : Host.Outcome State Fault Refusal :=
  outcome (inIdle F32.params s (processEffect F32.params numSamples s))

end Sys2Proof.Machine
end

