-- ==== Sys2Proof/Machine/Setters.lean ====
section
/-! DEFINITION. The setters (spec/44_setters.md): `SET_RT60`, `SET_MAX_DELAY`, `SET_INPUT_PAN`. Each is legal in
`IDLE` only; the phase is checked before the operand (R119). -/

namespace Sys2Proof.Machine

/-- The effect of `SET_RT60` in `IDLE` (R109). -/
def setRt60Effect {α : Type} (P : Params α) (seconds : Word) (s : Generic.State α) : Res (Generic.State α) := do
  let v ← sampleOperand P.num seconds
  if P.num.isFinite v && P.num.lt P.num.zero v then .ok (writeCoefs P v s)
  else .error (.refusal .decayTimeNotPositive)

/-- The operands of the rebuild inside `SET_MAX_DELAY` (R110). -/
def rebuildTopology {α : Type} (s : Generic.State α) (seconds : α) : Topology α where
  numDelays := s.numDelays
  blockSize := s.blockSize
  feedbackShiftByBlock := s.fbShift / s.blockSize
  hasZeroTaps := s.hasZeroTaps
  minDelaySeconds := s.minDelaySeconds
  maxDelaySeconds := seconds
  sampleRate := s.sampleRate

/-- The effect of `SET_MAX_DELAY` in `IDLE` (R110): the network ceases to exist and R70 to R78 run again. -/
def setMaxDelayEffect {α : Type} (P : Params α) (seconds : Word) (s : Generic.State α) : Res (Generic.State α) := do
  let v ← sampleOperand P.num seconds
  construct P (rebuildTopology s v) (dropNetwork s)

/-- The effect of `SET_INPUT_PAN` in `IDLE` (R111). -/
def setInputPanEffect {α : Type} (P : Params α) (pan : Word) (s : Generic.State α) : Res (Generic.State α) := do
  let v ← sampleOperand P.num pan
  if P.num.le P.num.zero v && P.num.le v P.num.one then .ok { s with inputPan := v }
  else .error (.refusal .panOutOfRange)

/-- `SET_RT60` (R109). -/
def execSetRt60 (seconds : Word) (s : State) : Host.Outcome State Fault Refusal :=
  outcome (inIdle F32.params s (setRt60Effect F32.params seconds s))

/-- `SET_MAX_DELAY` (R110). -/
def execSetMaxDelay (seconds : Word) (s : State) : Host.Outcome State Fault Refusal :=
  outcome (inIdle F32.params s (setMaxDelayEffect F32.params seconds s))

/-- `SET_INPUT_PAN` (R111). -/
def execSetInputPan (pan : Word) (s : State) : Host.Outcome State Fault Refusal :=
  outcome (inIdle F32.params s (setInputPanEffect F32.params pan s))

end Sys2Proof.Machine
end

