-- ==== Sys2Proof/Machine/Dispatch.lean ====
section
/-! DEFINITION. The dispatch: one arm per constructor of Instr, each one call of the instruction's meaning. -/

namespace Sys2Proof.Machine

def exec (i : Instr) (s : State) : Host.Outcome State Fault Refusal :=
  match i with
  | .build n bs shift zt lo hi rate => Sys2Proof.Machine.execBuild n bs shift zt lo hi rate s
  | .destroy => Sys2Proof.Machine.execDestroy s
  | .process numSamples => Sys2Proof.Machine.execProcess numSamples s
  | .setRt60 seconds => Sys2Proof.Machine.execSetRt60 seconds s
  | .setMaxDelay seconds => Sys2Proof.Machine.execSetMaxDelay seconds s
  | .setInputPan pan => Sys2Proof.Machine.execSetInputPan pan s
  | .peekReadable line n => Sys2Proof.Machine.execPeekReadable line n s
  | .peekWritable line n => Sys2Proof.Machine.execPeekWritable line n s
  | .commitWrite line n => Sys2Proof.Machine.execCommitWrite line n s
  | .releaseRead line n => Sys2Proof.Machine.execReleaseRead line n s
  | .ringInit line n m => Sys2Proof.Machine.execRingInit line n m s
  | .had1 => Sys2Proof.Machine.execHad1 s
  | .had2 => Sys2Proof.Machine.execHad2 s
  | .had4 => Sys2Proof.Machine.execHad4 s
  | .had8 => Sys2Proof.Machine.execHad8 s

end Sys2Proof.Machine
end

