-- ==== Sys2Proof/WellFormed.lean ====
section
/-! DEFINITION. Which operations can be encoded: every integer operand fits the field that carries it
(spec/00_scope.md R6, spec/30_encoding.md R47, R48, R54). -/

namespace Sys2Proof

/-- Every integer operand of `i` fits its field. -/
def Instr.wellFormed (i : Instr) : Bool :=
  match i with
  | .build numDelays blockSize feedbackShiftByBlock _ _ _ _ =>
    decide (numDelays < 2 ^ Config.numDelaysBits) && decide (blockSize < 2 ^ Config.blockSizeBits)
      && decide (feedbackShiftByBlock < 2 ^ Config.numDelaysBits)
  | .destroy => true
  | .process numSamples => decide (numSamples < 2 ^ Config.numSamplesBits)
  | .setRt60 _ => true
  | .setMaxDelay _ => true
  | .setInputPan _ => true
  | .peekReadable line n => decide (line < 2 ^ Config.numDelaysBits) && decide (n < 2 ^ Config.ringCountBits)
  | .peekWritable line n => decide (line < 2 ^ Config.numDelaysBits) && decide (n < 2 ^ Config.ringCountBits)
  | .commitWrite line n => decide (line < 2 ^ Config.numDelaysBits) && decide (n < 2 ^ Config.ringCountBits)
  | .releaseRead line n => decide (line < 2 ^ Config.numDelaysBits) && decide (n < 2 ^ Config.ringCountBits)
  | .ringInit line n m =>
    decide (line < 2 ^ Config.numDelaysBits) && decide (n < 2 ^ Config.ringCountBits)
      && decide (m < 2 ^ Config.ringCountBits)
  | .had1 => true
  | .had2 => true
  | .had4 => true
  | .had8 => true

end Sys2Proof
end

