-- ==== Sys2Proof/Decode.lean ====
section
/-! DEFINITION. Decoder and encoder of the three interfaces (spec/30_encoding.md). The decoder is total; it rejects by
name, and a rejection of a host command says how many words have been taken when the offending one was (R56). -/

namespace Sys2Proof

/-- The field `w[hi:lo]` (R7), read as an unsigned integer (R48). -/
def field (w : Word) (hi lo : Nat) : Nat :=
  w.toNat / 2 ^ lo % 2 ^ (hi + 1 - lo)

/-- Why a sequence of words or a request is no operation. -/
inductive DecodeError where
  /-- R56 item 1: opcode `0x00` or `0x07` to `0xFF`. -/
  | reservedOpcode
  /-- R56 item 2: a reserved field of the header word is not 0. -/
  | reservedHeaderField
  /-- R56 item 3: `w1[31:17]` of a `BUILD` is not 0. -/
  | reservedBuildField
  /-- Not illegal: operand words of the command are still to come (R57). -/
  | truncated
  /-- R54: ring operation codes `101`, `110`, `111`. -/
  | reservedRingOp
deriving DecidableEq, Repr

/-- The number of words taken when the offending word is taken (R56). -/
def DecodeError.wordsTaken (e : DecodeError) : Nat :=
  match e with
  | .reservedBuildField => 2
  | .reservedOpcode => 1
  | .reservedHeaderField => 1
  | .truncated => 0
  | .reservedRingOp => 0

/-- The opcode, `w0[31:24]` (R47). -/
def opcode (w0 : Word) : Nat :=
  field w0 31 24

/-- The length of a command in words, a function of the opcode alone (R57); a reserved opcode is one word, since no
word that follows it is taken (R56). -/
def commandLength (op : Nat) : Nat :=
  if op = 1 then 5 else if op = 2 then 1 else if 3 ≤ op ∧ op ≤ 6 then 2 else 1

/-- What is wrong with a header word by itself (R56 items 1 and 2). -/
def headerError (w0 : Word) : Option DecodeError :=
  if opcode w0 = 1 then
    if field w0 23 20 = 0 then none else some .reservedHeaderField
  else if 2 ≤ opcode w0 ∧ opcode w0 ≤ 6 then
    if field w0 23 0 = 0 then none else some .reservedHeaderField
  else some .reservedOpcode

/-- The operand words of `BUILD`, format `B` (R47, R50). -/
def decodeBuild (w0 : Word) (operands : List Word) : Except DecodeError (Instr × List Word) :=
  match operands with
  | [] => .error .truncated
  | w1 :: more =>
    if field w1 31 17 = 0 then
      match more with
      | w2 :: w3 :: w4 :: rest =>
        .ok (.build (field w0 15 0) (field w0 19 16) (field w1 15 0) (decide (field w1 16 16 = 1)) w2 w3 w4, rest)
      | _ => .error .truncated
    else .error .reservedBuildField

/-- A command of format `N` or `F` (R47): one operand word after the header. -/
def decodeOneOperand (make : Word → Instr) (operands : List Word) : Except DecodeError (Instr × List Word) :=
  match operands with
  | w1 :: rest => .ok (make w1, rest)
  | [] => .error .truncated

/-- The host command at the front of a word sequence and the words after it (R47 to R53, R56, R57). -/
def decodeCommand (words : List Word) : Except DecodeError (Instr × List Word) :=
  match words with
  | [] => .error .truncated
  | w0 :: operands =>
    match headerError w0 with
    | some e => .error e
    | none =>
      if opcode w0 = 1 then decodeBuild w0 operands
      else if opcode w0 = 2 then .ok (.destroy, operands)
      else if opcode w0 = 3 then decodeOneOperand (fun w => .process w.toNat) operands
      else if opcode w0 = 4 then decodeOneOperand .setRt60 operands
      else if opcode w0 = 5 then decodeOneOperand .setMaxDelay operands
      else decodeOneOperand .setInputPan operands

/-- The operation of an internal request (R54, R55). -/
def decodeRequest (r : Request) : Except DecodeError Instr :=
  match r with
  | .ring pattern line m =>
    let op := pattern.toNat / 2 ^ 32
    let n := pattern.toNat % 2 ^ 32
    if op = 0 then .ok (.peekReadable line n)
    else if op = 1 then .ok (.peekWritable line n)
    else if op = 2 then .ok (.commitWrite line n)
    else if op = 3 then .ok (.releaseRead line n)
    else if op = 4 then .ok (.ringInit line n m)
    else .error .reservedRingOp
  | .mix lg =>
    if lg.toNat = 0 then .ok .had1
    else if lg.toNat = 1 then .ok .had2
    else if lg.toNat = 2 then .ok .had4
    else .ok .had8

/-- The operation of an encoded form, alone on its interface. -/
def decode (e : Encoded) : Except DecodeError (Instr × List Word) :=
  match e with
  | .command words => decodeCommand words
  | .request r => (decodeRequest r).map fun i => (i, [])

/-! ## The encoder -/

/-- A header word of opcode `op` whose other bits are `low` (R47). -/
def header (op low : Nat) : Word :=
  BitVec.ofNat 32 (op * 2 ^ 24 + low)

/-- A ring request of operation code `op` and count `n` (R54). -/
def ringPattern (op n : Nat) : BitVec 35 :=
  BitVec.ofNat 35 (op * 2 ^ 32 + n)

/-- The encoding of an operation, from the tables of R47, R49, R54 and R55. -/
def encode (i : Instr) : Encoded :=
  match i with
  | .build numDelays blockSize feedbackShiftByBlock hasZeroTaps minDelaySeconds maxDelaySeconds sampleRate =>
    .command
      [header 1 (blockSize * 2 ^ 16 + numDelays),
       BitVec.ofNat 32 ((if hasZeroTaps then 1 else 0) * 2 ^ 16 + feedbackShiftByBlock),
       minDelaySeconds, maxDelaySeconds, sampleRate]
  | .destroy => .command [header 2 0]
  | .process numSamples => .command [header 3 0, BitVec.ofNat 32 numSamples]
  | .setRt60 seconds => .command [header 4 0, seconds]
  | .setMaxDelay seconds => .command [header 5 0, seconds]
  | .setInputPan pan => .command [header 6 0, pan]
  | .peekReadable line n => .request (.ring (ringPattern 0 n) line 0)
  | .peekWritable line n => .request (.ring (ringPattern 1 n) line 0)
  | .commitWrite line n => .request (.ring (ringPattern 2 n) line 0)
  | .releaseRead line n => .request (.ring (ringPattern 3 n) line 0)
  | .ringInit line n m => .request (.ring (ringPattern 4 n) line m)
  | .had1 => .request (.mix 0)
  | .had2 => .request (.mix 1)
  | .had4 => .request (.mix 2)
  | .had8 => .request (.mix 3)

/-! ## Textual syntax -/

/-- Words separated by one space. -/
def spaced (words : List String) : String :=
  " ".intercalate words

/-- The textual form of an operation (R58). `sample` writes a `Sample` operand as a decimal real; the streams of a
`PROCESS` and the vector of a mixer operation are data and are written beside it. -/
def Instr.text (sample : Word → String) (i : Instr) : String :=
  match i with
  | .build numDelays blockSize feedbackShiftByBlock hasZeroTaps minDelaySeconds maxDelaySeconds sampleRate =>
    spaced ["BUILD", "n=" ++ numDelays.repr, "bs=" ++ blockSize.repr, "shift=" ++ feedbackShiftByBlock.repr,
      if hasZeroTaps then "zt=1" else "zt=0", "min=" ++ sample minDelaySeconds, "max=" ++ sample maxDelaySeconds,
      "sr=" ++ sample sampleRate]
  | .destroy => "DESTROY"
  | .process numSamples => spaced ["PROCESS", numSamples.repr]
  | .setRt60 seconds => spaced ["SET_RT60", sample seconds]
  | .setMaxDelay seconds => spaced ["SET_MAX_DELAY", sample seconds]
  | .setInputPan pan => spaced ["SET_INPUT_PAN", sample pan]
  | .peekReadable line n => spaced ["PEEK_READABLE", line.repr, n.repr]
  | .peekWritable line n => spaced ["PEEK_WRITABLE", line.repr, n.repr]
  | .commitWrite line n => spaced ["COMMIT_WRITE", line.repr, n.repr]
  | .releaseRead line n => spaced ["RELEASE_READ", line.repr, n.repr]
  | .ringInit line n m => spaced ["RING_INIT", line.repr, n.repr, m.repr]
  | .had1 => "HAD1"
  | .had2 => "HAD2"
  | .had4 => "HAD4"
  | .had8 => "HAD8"

/-! ## The host's numbering of table words -/

/-- The encoded form whose bits are `w`, numbered as spec/opcode_table.json numbers them, bits above `nbits` zero
(log entry 23): at most 8 bits are a mixer request, 33 to 40 bits a ring request of line 0 and `m` = 0, any other
number the words of a host command, cut to the command's length (R57). -/
def tableForm (nbits w : Nat) : Encoded :=
  let v := w % 2 ^ nbits
  if nbits ≤ 8 then .request (.mix (BitVec.ofNat 2 v))
  else if 33 ≤ nbits ∧ nbits ≤ 40 then .request (.ring (BitVec.ofNat 35 v) 0 0)
  else
    let words := (List.range 5).map fun k => BitVec.ofNat 32 (v / 2 ^ (32 * k))
    .command (words.take (commandLength (opcode (BitVec.ofNat 32 v))))

/-- The instruction the decoder reads from an instruction whose bits are `w`. -/
def decodeTableWord (nbits w : Nat) : Option Instr :=
  match decode (tableForm nbits w) with
  | .ok (i, _) => some i
  | .error _ => none

end Sys2Proof
end

