-- ==== Sys2Proof/Machine/Ports.lean ====
section
/-! DEFINITION. The ports (spec/10_state.md R11): the read-only `REG` port (R19, R31), the wires, and what the host
can do between two steps. -/

namespace Sys2Proof.Machine

/-! ## The `REG` port -/

/-- A natural-number register reads as `zext_32` of its value (R19). A count that 32 bits do not hold (only a
stand-alone `RING_INIT` can make one) has no such word and reads as a free value (log entry 33). -/
def natWord {α : Type} (P : Params α) (nonce no n : Nat) : Option Word :=
  some (if n < 2 ^ 32 then BitVec.ofNat 32 n else P.freeRead nonce no)

/-- A control register by number (R19); `SEQ_*` have no fixed value outside `PROCESS`, and inside it the port does
not show them (R17, R31), so they read as a free value. -/
def controlWord {α : Type} (P : Params α) (nonce no : Nat) (s : Generic.State α) : Option Word :=
  match no with
  | 0 => some (statusWord s)
  | 1 => some (s.faultCause.zeroExtend 32)
  | 2 => natWord P nonce no s.diagCount
  | 3 => natWord P nonce no s.numDelays
  | 4 => natWord P nonce no s.blockSize
  | 5 => natWord P nonce no s.fbShift
  | 6 => some (if s.hasZeroTaps then 1 else 0)
  | 7 => natWord P nonce no s.minDelaySamples
  | 8 => natWord P nonce no s.maxDelaySamples
  | 9 => P.num.toBits32 s.sampleRate
  | 10 => P.num.toBits32 s.minDelaySeconds
  | 11 => P.num.toBits32 s.maxDelaySeconds
  | 12 => P.num.toBits32 s.matrixAtt
  | 13 => P.num.toBits32 s.invMatrixAtt
  | 14 => P.num.toBits32 s.inputAtt
  | 15 => P.num.toBits32 s.inputPan
  | 16 => some (P.freeRead nonce 16)
  | 17 => some (P.freeRead nonce 17)
  | 18 => some (P.freeRead nonce 18)
  | _ => some 0

/-- Register `f` of line `i` (R31): 0 `DELAY`, 1 `COEF`, 2 `SIGN`, 3 `CHAN`; a line without an entry reads 0. -/
def lineWord {α : Type} (P : Params α) (nonce no i f : Nat) (s : Generic.State α) : Option Word :=
  if f = 0 then natWord P nonce no (s.delay.getD i 0)
  else if f = 1 then
    match s.coef[i]? with
    | some c => P.num.toBits32 c
    | none => some 0
  else if f = 2 then some (if s.sign[i]? = some .minus then 1 else 0)
  else some (if chanOf s.numDelays i = .right then 1 else 0)

/-- Register `f` of the ring of line `i` (R31): 0 `CAP`, 1 `RD`, 2 `WR`, 3 `FILL`, 4 `RWIN`, 5 `WWIN`; a line without a
ring reads 0. -/
def ringWord {α : Type} (P : Params α) (nonce no i f : Nat) (s : Generic.State α) : Option Word :=
  match Store.read s.rings i with
  | none => some 0
  | some r =>
    if f = 0 then natWord P nonce no r.cap
    else if f = 1 then natWord P nonce no r.rd
    else if f = 2 then natWord P nonce no r.wr
    else if f = 3 then natWord P nonce no r.fill
    else if f = 4 then natWord P nonce no r.rwin
    else natWord P nonce no r.wwin

/-- The per-line registers begin at `lineBase`, four to a line (R31). -/
def lineBase : Nat := 0x00010000

/-- The ring registers begin at `ringBase`, eight numbers to a line, of which the last two are spare (R31). -/
def ringBase : Nat := 0x00100000

/-- A per-line register (R31); in `UNBUILT` and `FAULT` none exists, and the number reads 0. -/
def perLineWord {α : Type} (P : Params α) (nonce no : Nat) (s : Generic.State α) : Option Word :=
  if s.phase = .unbuilt ∨ s.phase = .fault then some 0
  else if ringBase ≤ no then ringWord P nonce no ((no - ringBase) / 8) ((no - ringBase) % 8) s
  else lineWord P nonce no ((no - lineBase) / 4) ((no - lineBase) % 4) s

/-- Whether a `REG` number is that of a register: numbers 0 to 18 (R19), the four registers of each line below
`NUM_DELAYS`, and the six of its ring (R31). -/
def namesRegister {α : Type} (no : Nat) (s : Generic.State α) : Bool :=
  if no < lineBase then decide (no < 19)
  else if no < ringBase then decide ((no - lineBase) / 4 < s.numDelays)
  else decide ((no - ringBase) / 8 < s.numDelays) && decide ((no - ringBase) % 8 < 6)

/-- The word read number `nonce` of register `no` gives (R19, R31); `none` where `toBits32` refuses (R8). A number that
names no register reads 0 in every phase; in `BUSY` every register but `STATUS` reads as a free value (log entry 20).
It does not change the state. -/
def readReg {α : Type} (P : Params α) (nonce no : Nat) (s : Generic.State α) : Option Word :=
  if namesRegister no s = false then some 0
  else if s.phase = .busy ∧ no ≠ 0 then some (P.freeRead nonce no)
  else if no < lineBase then controlWord P nonce no s
  else perLineWord P nonce no s

/-! ## Wires -/

/-- The `fault` wire (R11). -/
def faultWire {α : Type} (s : Generic.State α) : Bool :=
  decide (s.phase = .fault)

/-- The `diag` wire (R11, R116). -/
def diagWire {α : Type} (s : Generic.State α) : Bool :=
  s.shortfall

/-- The `CMD` port is ready (R11). -/
def cmdReady {α : Type} (s : Generic.State α) : Bool :=
  s.phase.ready

/-! ## What the host does between two steps -/

/-- The host offers command words; they wait at the port until it takes them (R11, R112). -/
@[simps]
def offerWords {α : Type} (words : List Word) (s : Generic.State α) : Generic.State α :=
  { s with cmd := s.cmd ++ words }

/-- The host supplies input samples (R11). -/
@[simps]
def supplyInput {α : Type} (left right : List α) (s : Generic.State α) : Generic.State α :=
  { s with inL := s.inL ++ left, inR := s.inR ++ right }

/-- The host will take more output samples (R11). -/
@[simps]
def offerRoom {α : Type} (left right : Nat) (s : Generic.State α) : Generic.State α :=
  { s with roomL := s.roomL + left, roomR := s.roomR + right }

/-- The answers the random source will give next (R11, R67). -/
@[simps]
def supplyRng {α : Type} (answers : List Nat) (s : Generic.State α) : Generic.State α :=
  { s with rng := s.rng ++ answers }

/-- The `RESET` wire is asserted (R11, R126). -/
@[simps]
def assertReset {α : Type} (s : Generic.State α) : Generic.State α :=
  { s with resetPin := true }

end Sys2Proof.Machine
end

