-- ==== Sys2Proof/Machine/Fetch.lean ====
section
/-! DEFINITION. How the sequencer comes by its next operation (spec/10_state.md R11, R16, spec/30_encoding.md R56,
R57): what the words at the `CMD` port, or a standing internal request, ask for. The step only acts on the answer. -/

namespace Sys2Proof.Machine

/-- What the sequencer does next. -/
inductive Next (σ : Type) where
  /-- Run an operation in a state from which its words have been taken. -/
  | run (i : Instr) (s : σ)
  /-- Go to a state: a fault entry, a wait for more words, a reset. -/
  | goto (s : σ)
  /-- Go on with the `PROCESS` in progress. -/
  | resume (s : σ)
  /-- A refusal of the spec. -/
  | refuse (r : Refusal)
deriving Repr

/-- The state with the first `n` offered words taken. -/
@[simps]
def takeWords {α : Type} (n : Nat) (s : Generic.State α) : Generic.State α :=
  { s with cmd := s.cmd.drop n }

/-- The words of an unfinished command given back to the port and the phase it was taken in restored: decoding is a
function of the word sequence alone (R57), so a command whose words come late is taken as if they had come together
(log entry 11). -/
def untake {α : Type} (s : Generic.State α) : Generic.State α :=
  match s.progress with
  | .receiving startedIn taken => { s with phase := startedIn, cmd := taken ++ s.cmd, progress := .rest }
  | .rest => s
  | .loopHead => s
  | .outputWrite => s

/-- All offered words are taken and the rest of the command is awaited: `PHASE` is `BUSY` from the first word on
(R16). -/
@[simps]
def awaitWords {α : Type} (s : Generic.State α) : Generic.State α :=
  { s with cmd := [], phase := .busy, progress := .receiving s.phase s.cmd }

/-- Whether a header word is illegal in a phase (R56 items 1, 2 and 4). -/
def headerIllegal (p : Phase) (w0 : Word) : Bool :=
  (headerError w0).isSome || !phaseAllows p (opcode w0)

/-- The next command at a port that is ready (R56): IllegalCommand is raised when the offending word is taken, and no
word after it is taken. -/
def nextCommand {α : Type} (P : Params α) (s : Generic.State α) : Next (Generic.State α) :=
  match s.cmd with
  | [] => .goto s
  | w0 :: _ =>
    if headerIllegal s.phase w0 then .goto (raiseIllegal P (takeWords 1 s))
    else
      match decodeCommand s.cmd with
      | .ok (i, rest) => .run i { s with cmd := rest }
      | .error .truncated => .goto (awaitWords s)
      | .error e => .goto (raiseIllegal P (takeWords e.wordsTaken s))

/-- The next operation on an internal interface (R54, R55). -/
def nextRequest {α : Type} (r : Request) (s : Generic.State α) : Next (Generic.State α) :=
  match decodeRequest r with
  | .ok i => .run i { s with request := none }
  | .error _ => .refuse .reservedRingOp

/-- What the sequencer does next: `RESET` overrides everything (R119 item 5); an internal request is served, in any
phase, also in `UNBUILT` and `FAULT`, where R16 has no network for it (log entry 13); a `PROCESS` in progress goes on;
else the `CMD` port, if ready, is looked at. With nothing to do the state stays (log entry 12). -/
def nextMove {α : Type} (P : Params α) (s : Generic.State α) : Next (Generic.State α) :=
  if s.resetPin then .goto (resetEffect P s)
  else
    match s.request with
    | some r => nextRequest r s
    | none =>
      match s.progress with
      | .loopHead => .resume s
      | .outputWrite => .resume s
      | .receiving _ _ => nextCommand P (untake s)
      | .rest => if s.phase.ready then nextCommand P s else .goto s

/-- The state with an encoded operation standing where the sequencer looks for its next one. -/
def withForm {α : Type} (s : Generic.State α) (e : Encoded) : Generic.State α :=
  match e with
  | .command words => { s with cmd := words, request := none, resetPin := false, progress := .rest }
  | .request r => { s with request := some r, resetPin := false }

end Sys2Proof.Machine
end

