-- ==== Sys2Proof/Machine/Step.lean ====
section
/-! DEFINITION. One step of the machine (log entry 8): one command, as far as it can run until the host must act; one
internal request; or one reset. -/

namespace Sys2Proof.Machine

/-- One step. -/
def step (s : State) : Host.Outcome State Fault Refusal :=
  match nextMove F32.params s with
  | .run i s' => exec i s'
  | .goto s' => .next s'
  | .resume s' => outcome (continueProcess F32.params s')
  | .refuse r => .refused r

/-- `s` with the instruction whose bits are `w` (numbered as spec/opcode_table.json numbers them) standing where `step`
fetches its next one: at the `CMD` port, or on an internal request interface (log entries 23 and 24). -/
def State.withFetchWord (s : State) (nbits w : Nat) : State :=
  withForm s (tableForm nbits w)

end Sys2Proof.Machine
end

