-- ==== Sys2Proof/Machine/NumReal.lean ====
section
/-! DEFINITION. The instance `Num.real` (spec/00_scope.md R6, R8): exact real arithmetic. The fixed interface runs the
instance `Num.f32` (log entry 1); this one serves the statements the spec makes "under `Num.real`". -/

namespace Sys2Proof.Machine.ExactReal

/-- The real number a finite binary32 pattern denotes (R8, R38). -/
noncomputable def value (w : Sample) : ℝ :=
  (if F32.signBit w then -1 else 1) * (F32.mantissa w : ℝ) * (2 : ℝ) ^ F32.exponent w

/-- `ofBits32` (R8): refused on a NaN and on an infinity. -/
noncomputable def ofBits32 (w : Word) : Option ℝ :=
  if F32.isFinite w then some (value w) else none

/-- A pattern that denotes a real number; 0 has the pattern of +0. -/
def Denotes (w : Word) (v : ℝ) : Prop :=
  F32.isFinite w = true ∧ (F32.magnitude w = 0 → F32.signBit w = false) ∧ value w = v

open Classical in
/-- `toBits32` (R8): refused unless the number is exactly a binary32 value. -/
noncomputable def toBits32 (v : ℝ) : Option Word :=
  if h : ∃ w, Denotes w v then some h.choose else none

/-- `truncToNat` (R8): refused below 0. -/
noncomputable def truncToNat (v : ℝ) : Option Nat :=
  if 0 ≤ v then some ⌊v⌋₊ else none

/-- The record `Num.real` (R6, R8). The quotient is the spec's where the divisor is not 0, the root where the argument
is not negative; the core uses neither elsewhere. -/
noncomputable def num : Num ℝ where
  fadd := fun a b => a + b
  fsub := fun a b => a - b
  fmul := fun a b => a * b
  fdiv := fun a b => a / b
  fneg := fun a => -a
  fsqrt := Real.sqrt
  fpow10 := fun e => (10 : ℝ) ^ e
  ofNat := fun n => (n : ℝ)
  ofBits32 := ofBits32
  toBits32 := toBits32
  truncToNat := truncToNat
  isFinite := fun _ => true
  lt := fun a b => decide (a < b)
  le := fun a b => decide (a ≤ b)

end Sys2Proof.Machine.ExactReal
end

