-- ==== Sys2Proof/Machine/Recurrence.lean ====
section
/-! DEFINITION. The per-sample form of `PROCESS` (spec/43_process.md R104), written independently of the chunked
machine: every line is a first-in first-out queue, and each sample takes one from every queue and puts one into every
queue. No step of the machine calls it; statements compare the two. -/

namespace Sys2Proof.Machine

/-- The unconsumed samples of a ring, oldest first (R26 item 4). -/
def liveSamples {α : Type} (r : Ring α) : List α :=
  (List.range r.fill).filterMap fun k => Store.read r.cells (r.readCell k)

/-- The unconsumed samples of line `i`; none where there is no ring. -/
def queueOf {α : Type} (s : Generic.State α) (i : Nat) : List α :=
  match Store.read s.rings i with
  | some r => liveSamples r
  | none => []

/-- The queue of every line, line 0 first. -/
def queues {α : Type} (s : Generic.State α) : List (List α) :=
  (List.range s.numDelays).map (queueOf s)

/-- `a_i(t)`: the oldest sample of line `i` times its coefficient (R104). -/
def attenuatedSample {α : Type} (P : Params α) (s : Generic.State α) (qs : List (List α)) (i : Nat) : α :=
  P.num.fmul ((qs.getD i []).headD P.num.zero) (s.coef.getD i P.num.zero)

/-- The signed sum of `count` lines from `first`, starting from 0 (R95, R104). -/
def signedSum {α : Type} (P : Params α) (s : Generic.State α) (a : Nat → α) (first count : Nat) : α :=
  (List.range count).foldl (fun acc i => tapped P.num (s.sign.getD (first + i) .plus) acc (a (first + i))) P.num.zero

/-- `outL(t)` or `outR(t)`: the sum of a half, step 6, and the zero tap `u` (R104). -/
def outputSample {α : Type} (P : Params α) (s : Generic.State α) (a : Nat → α) (first : Nat) (u : α) : α :=
  let v := P.num.fmul (signedSum P s a first (s.numDelays / 2)) s.invMatrixAtt
  if s.hasZeroTaps then P.num.fadd v u else v

/-- The base-2 logarithm of the block size (R55). -/
def log2BlockSize (blockSize : Nat) : Nat :=
  if blockSize = 1 then 0 else if blockSize = 2 then 1 else if blockSize = 4 then 2 else 3

/-- The line whose block and place feed line `d` (R88 read backwards). -/
def sourceLine {α : Type} (s : Generic.State α) (d : Nat) : Nat :=
  (d + (s.numDelays - s.fbShift % s.numDelays)) % s.numDelays

/-- `m_d(t)` (R104): the element of the transformed source block that the rotation sends to line `d`. -/
def mixedSample {α : Type} (P : Params α) (s : Generic.State α) (a : Nat → α) (d : Nat) : α :=
  let e := sourceLine s d
  let block := (List.range s.blockSize).map fun j => a (e / s.blockSize * s.blockSize + j)
  (hadamard P.num (log2BlockSize s.blockSize) block).getD (e % s.blockSize) P.num.zero

/-- `w_d(t)` (R104): the mixed sample, with the injection of step 9. -/
def writtenSample {α : Type} (P : Params α) (s : Generic.State α) (a : Nat → α) (uL uR : α) (d : Nat) : α :=
  let m := mixedSample P s a d
  let count := injectCount s.numDelays s.blockSize s.fbShift
  if d < count then P.num.fadd m uL
  else if s.numDelays / 2 ≤ d ∧ d < s.numDelays / 2 + count then P.num.fadd m uR
  else m

/-- One sample of the network: the queues after it, and the two output samples (R104). -/
def sampleStep {α : Type} (P : Params α) (s : Generic.State α) (qs : List (List α)) (inL inR : α) :
    List (List α) × α × α :=
  let uL := P.num.fmul inL (gainL P.num s.inputAtt s.inputPan)
  let uR := P.num.fmul inR (gainR P.num s.inputAtt s.inputPan)
  let a := attenuatedSample P s qs
  ((List.range s.numDelays).map fun d => (qs.getD d []).tail ++ [writtenSample P s a uL uR d],
   outputSample P s a 0 uL,
   outputSample P s a (s.numDelays / 2) uR)

/-- The network over a stream of stereo samples: the queues after it, and the two output streams (R104). -/
def recurrence {α : Type} (P : Params α) (s : Generic.State α) :
    List (α × α) → List (List α) → List (List α) × List α × List α
  | [], qs => (qs, [], [])
  | u :: us, qs =>
    let one := sampleStep P s qs u.1 u.2
    let rest := recurrence P s us one.1
    (rest.1, one.2.1 :: rest.2.1, one.2.2 :: rest.2.2)

end Sys2Proof.Machine
end

