-- ==== Sys2Proof/Safety.lean ====
section
/-! DEFINITION. What a safe run is, in the terms the statements use: the ring invariants (spec/10_state.md R26), the
topology and the line file of a network (R13, R20), the state at chunk boundaries (spec/43_process.md R103), the
machine's invariant, and the end of a run (spec/70_reset_and_hazards.md R135). -/

namespace Sys2Proof.Machine

/-- R26 items 1, 2 and 4, with the cursor bounds of R25: the live cells hold samples, and no cell outside the live
cells and the write window does. -/
abbrev RingInv {α : Type} (r : Ring α) : Prop :=
  0 < r.cap ∧ r.rd < r.cap ∧ r.fill ≤ r.cap ∧ r.wr = (r.rd + r.fill) % r.cap
    ∧ r.rwin ≤ r.fill ∧ r.wwin ≤ r.cap - r.fill
    ∧ Store.wf r.cells = true
    ∧ (∀ k < r.fill, (Store.read r.cells (r.readCell k)).isSome = true)
    ∧ (∀ c ∈ r.cells, ∃ k < r.fill + r.wwin, c.1 = r.readCell k)

/-- R20 and what R70 lets through: the topology of a network, its delay range, and an injection set that does not
leave a stereo half. -/
abbrev TopologyInv {α : Type} (s : Generic.State α) : Prop :=
  (s.blockSize = 1 ∨ s.blockSize = 2 ∨ s.blockSize = 4 ∨ s.blockSize = 8)
    ∧ s.numDelays % 2 = 0 ∧ s.blockSize ≤ s.numDelays ∧ s.numDelays % s.blockSize = 0
    ∧ s.fbShift % s.blockSize = 0 ∧ (0 < s.fbShift → s.blockSize ≤ s.numDelays / 2)
    ∧ Nat.gcd s.numDelays Config.stride = 1
    ∧ 1 ≤ s.minDelaySamples ∧ s.minDelaySamples ≤ s.maxDelaySamples
    ∧ s.maxDelaySamples + s.minDelaySamples < 2 ^ Config.ringCountBits

/-- R12, R13: one entry per line in each file, every delay length within the range. -/
abbrev LinesInv {α : Type} (s : Generic.State α) : Prop :=
  s.delay.length = s.numDelays ∧ s.coef.length = s.numDelays ∧ s.sign.length = s.numDelays
    ∧ ∀ d ∈ s.delay, s.minDelaySamples ≤ d ∧ d ≤ s.maxDelaySamples

/-- R103 and R26 item 5: every line has a ring with the invariants, sized by R74, full to its delay, with windows of
length `window`; no other ring exists. -/
abbrev RingsInv {α : Type} (window : Nat) (s : Generic.State α) : Prop :=
  Store.wf s.rings = true ∧ (∀ p ∈ s.rings, p.1 < s.numDelays)
    ∧ ∀ i < s.numDelays, ∃ r ∈ Store.read s.rings i,
      RingInv r ∧ r.cap = s.delay.getD i 0 + s.minDelaySamples ∧ r.fill = s.delay.getD i 0
        ∧ r.rwin = window ∧ r.wwin = window

/-- A network whose rings have windows of length `window` outstanding. -/
abbrev NetworkInv {α : Type} (window : Nat) (s : Generic.State α) : Prop :=
  TopologyInv s ∧ LinesInv s ∧ RingsInv window s

/-- The scratch between step 7 and the output write of a chunk (R27): every buffer holds the chunk. -/
abbrev ScratchInv {α : Type} (s : Generic.State α) : Prop :=
  s.inCacheL.length = s.seqChunk ∧ s.inCacheR.length = s.seqChunk
    ∧ s.accL.length = s.seqChunk ∧ s.accR.length = s.seqChunk
    ∧ s.att.length = s.numDelays ∧ (∀ row ∈ s.att, row.length = s.seqChunk)

/-- R30: no line register and no ring exists, and `HAS_ZERO_TAPS` is 0 (R29, R80, R120). -/
abbrev NoNetwork {α : Type} (s : Generic.State α) : Prop :=
  s.delay = [] ∧ s.coef = [] ∧ s.sign = [] ∧ s.rings = [] ∧ s.hasZeroTaps = false

/-- What each phase of a machine without a command in progress means (R16). -/
abbrev PhaseInv {α : Type} (p : Phase) (s : Generic.State α) : Prop :=
  match p with
  | .unbuilt => NoNetwork s
  | .idle => NetworkInv 0 s
  | .busy => False
  | .fault => NoNetwork s

/-- What a command in progress means: `PHASE` is `BUSY`, and the network is at a chunk boundary or, at the output
write, in the middle of a chunk of at least one sample (R16, R90, R103). -/
abbrev ProgressInv {α : Type} (s : Generic.State α) : Prop :=
  match s.progress with
  | .rest => PhaseInv s.phase s
  | .receiving p _ => s.phase = .busy ∧ p.ready = true ∧ PhaseInv p s
  | .loopHead => s.phase = .busy ∧ NetworkInv 0 s
  | .outputWrite =>
    s.phase = .busy ∧ NetworkInv s.seqChunk s ∧ ScratchInv s ∧ 1 ≤ s.seqChunk ∧ s.seqChunk ≤ s.seqRemaining

/-- The invariant of the machine: no internal request stands outside a command, `FAULT_CAUSE` is 0 exactly outside
`FAULT` (R24), no shortfall was ever signalled (R103, R116), and the network is as its phase says. -/
abbrev MachineInv {α : Type} (s : Generic.State α) : Prop :=
  s.request = none ∧ (s.phase = .fault ↔ s.faultCause ≠ 0)
    ∧ s.shortfall = false ∧ s.diagCount = 0
    ∧ ProgressInv s

/-- The legal values of the registers 7 to 15 (R19, R21 to R23, R76), and the width of `NUM_DELAYS` (R6), while a network
stands, that is while there is a line register. -/
abbrev RegistersLegal {α : Type} (num : Num α) (s : Generic.State α) : Prop :=
  s.delay ≠ [] →
    s.numDelays < 2 ^ Config.numDelaysBits
      ∧ badRate num s.sampleRate = false
      ∧ badBound num s.minDelaySeconds = false ∧ badBound num s.maxDelaySeconds = false
      ∧ num.truncToNat (num.fmul s.minDelaySeconds s.sampleRate) = some s.minDelaySamples
      ∧ num.truncToNat (num.fmul s.maxDelaySeconds s.sampleRate) = some s.maxDelaySamples
      ∧ s.matrixAtt = matrixAttOf num s.blockSize ∧ s.invMatrixAtt = invMatrixAttOf num s.blockSize
      ∧ s.inputAtt = num.fsqrt (num.fdiv num.one
          (num.ofNat (numInputsPerChannel s.numDelays s.blockSize s.fbShift s.hasZeroTaps)))
      ∧ num.le num.zero s.inputPan = true ∧ num.le s.inputPan num.one = true

/-- Topology operands that pass the validation of R69. -/
abbrev ValidTopology (numDelays blockSize : Nat) : Prop :=
  (blockSize = 1 ∨ blockSize = 2 ∨ blockSize = 4 ∨ blockSize = 8) ∧ blockSize ≤ numDelays
    ∧ numDelays % 2 = 0 ∧ numDelays % blockSize = 0

/-- A delay bound and a sample rate whose conversion to samples gives `count` (R70 item 1, R71). -/
abbrev BoundInSamples (seconds rate : Sample) (count : Nat) : Prop :=
  F32.isFinite seconds = true ∧ F32.lt seconds 0 = false
    ∧ F32.truncToNat (F32.fmul seconds rate) = some count

/-- Operands of a construction that R69 and R70 let through, with the bounds `lo` and `hi` in samples. -/
abbrev Buildable (numDelays blockSize shift : Nat) (minSeconds maxSeconds rate : Sample) (lo hi : Nat) : Prop :=
  ValidTopology numDelays blockSize
    ∧ F32.isFinite rate = true ∧ F32.lt 0 rate = true
    ∧ BoundInSamples minSeconds rate lo ∧ BoundInSamples maxSeconds rate hi
    ∧ 1 ≤ lo ∧ lo ≤ hi ∧ hi + lo < 2 ^ 32 ∧ Nat.gcd numDelays 39 = 1
    ∧ (0 < shift * blockSize → blockSize ≤ numDelays / 2)

/-- The host has supplied `n` samples of each input and will take `n` of each output (R11). -/
abbrev Supplied {α : Type} (n : Nat) (s : Generic.State α) : Prop :=
  n ≤ s.inL.length ∧ n ≤ s.inR.length ∧ n ≤ s.roomL ∧ n ≤ s.roomR

/-- Between two steps the host supplies samples of each input and takes more of each output (R11). -/
abbrev hostGives {α : Type} (left right : List α) (roomL roomR : Nat) (s : Generic.State α) : Generic.State α :=
  offerRoom roomL roomR (supplyInput left right s)

/-- The stereo samples the next `n` positions of the input ports offer (R7, R11). -/
abbrev offered {α : Type} (n : Nat) (s : Generic.State α) : List (α × α) :=
  (s.inL.take n).zip (s.inR.take n)

/-- Nothing but a host command can come next: no `RESET`, no internal request, no command in progress. -/
abbrev AtRest {α : Type} (s : Generic.State α) : Prop :=
  s.resetPin = false ∧ s.request = none ∧ s.progress = .rest

/-- The state of the ports and of the internal interfaces is the same. -/
abbrev SamePorts {α : Type} (s t : Generic.State α) : Prop :=
  t.request = s.request ∧ t.grant = s.grant ∧ t.mixIn = s.mixIn ∧ t.resetPin = s.resetPin ∧ t.cmd = s.cmd
    ∧ t.inL = s.inL ∧ t.inR = s.inR ∧ t.outL = s.outL ∧ t.outR = s.outR ∧ t.roomL = s.roomL ∧ t.roomR = s.roomR

/-- The flags and the counters are the same (R18, R24, R116). -/
abbrev SameDiagnostics {α : Type} (s t : Generic.State α) : Prop :=
  t.shortfall = s.shortfall ∧ t.diagCount = s.diagCount

/-- The registers that only a construction writes are the same (R19 numbers 3 to 14). -/
abbrev SameTopology {α : Type} (s t : Generic.State α) : Prop :=
  t.numDelays = s.numDelays ∧ t.blockSize = s.blockSize ∧ t.fbShift = s.fbShift ∧ t.hasZeroTaps = s.hasZeroTaps
    ∧ t.minDelaySamples = s.minDelaySamples ∧ t.maxDelaySamples = s.maxDelaySamples
    ∧ t.sampleRate = s.sampleRate ∧ t.minDelaySeconds = s.minDelaySeconds ∧ t.maxDelaySeconds = s.maxDelaySeconds
    ∧ t.matrixAtt = s.matrixAtt ∧ t.invMatrixAtt = s.invMatrixAtt ∧ t.inputAtt = s.inputAtt

/-- The line file and the capacities of the rings are the same (R13, R15, R30). -/
abbrev SameLines {α : Type} (s t : Generic.State α) : Prop :=
  t.delay = s.delay ∧ t.sign = s.sign ∧ ∀ d < s.numDelays, ∃ r r', Store.read s.rings d = some r ∧
    Store.read t.rings d = some r' ∧ r'.cap = r.cap

/-- Registers 3 to 5 and 7 to 18 (and 6) hold the same values in two states. -/
abbrev SameUnspecified {α : Type} (s t : Generic.State α) : Prop :=
  SameTopology s t ∧ t.inputPan = s.inputPan ∧ t.seqPos = s.seqPos ∧ t.seqRemaining = s.seqRemaining
    ∧ t.seqChunk = s.seqChunk

/-- What a `PROCESS` leaves alone, however far it comes (R89): the line file, the registers 3 to 15, the flags, and
everything that is not a stream, a ring, its own position or scratch. -/
abbrev ProcessKeeps {α : Type} (s t : Generic.State α) : Prop :=
  SameTopology s t ∧ SameLines s t ∧ t.coef = s.coef ∧ t.inputPan = s.inputPan
    ∧ SameDiagnostics s t ∧ t.faultCause = s.faultCause ∧ t.request = s.request ∧ t.mixIn = s.mixIn
    ∧ t.resetPin = s.resetPin ∧ t.cmd = s.cmd ∧ t.rng = s.rng ∧ t.draws = s.draws ∧ t.freeCount = s.freeCount

/-- `n` samples of each input have been taken and `n` of each output produced (R11, R89). -/
abbrev ProcessPassed {α : Type} (n : Nat) (s t : Generic.State α) : Prop :=
  t.inL = s.inL.drop n ∧ t.inR = s.inR.drop n ∧ t.roomL = s.roomL - n ∧ t.roomR = s.roomR - n
    ∧ t.outL.length = s.outL.length + n ∧ t.outR.length = s.outR.length + n

/-- A `PROCESS` is in progress and nothing but the host holds it up (R11, R90). -/
abbrev Interrupted {α : Type} (s : Generic.State α) : Prop :=
  MachineInv s ∧ s.resetPin = false ∧ (s.progress = .loopHead ∨ s.progress = .outputWrite)

/-- The end of a run (R135): the last command has completed, no further one is offered, and `PHASE` is `IDLE` or
`UNBUILT`. -/
def runEnded {α : Type} (s : Generic.State α) : Bool :=
  s.phase.ready && decide (s.progress = .rest) && s.cmd.isEmpty

/-- A refusal an operand of a command can cause (spec/93_implementation_defined.md part 2, items 1 to 8): no ring or
mixer request of the sequencer is among them. -/
def Refusal.ofOperand (r : Refusal) : Bool :=
  [Refusal.operandHasNoValue, .rateOrBoundNotUsable, .secondsHaveNoSampleCount, .minDelayBelowOneSample,
    .delayRangeEmpty, .capacityTooLarge, .strideNotPermutation, .blockWiderThanHalf, .decayTimeNotPositive,
    .panOutOfRange].contains r

end Sys2Proof.Machine
end

