-- ==== Sys2Proof/Certificates/Slice0/Obligations.lean ====
section
/-! DEFINITION. The statements for the provers, each with the rule of spec/ it formalises. A statement that rests on a
choice of the model names its log entry (notes/assumptions/). -/

open Sys2Proof Sys2Proof.Machine

/-! ## Encoding (spec/30_encoding.md) -/

/-- Decode and encode agree: every well-formed operation, with every operand at every value its field admits, decodes
from its encoding, alone or followed by other words (R47 to R55). -/
def Obligations.DecodeOfEncodeIsIdentity : Prop :=
  ∀ i : Instr, i.wellFormed = true →
    decode (encode i) = .ok (i, []) ∧
    ∀ words rest, encode i = .command words → decodeCommand (words ++ rest) = .ok (i, rest)

/-- The other direction: what the decoder accepts is well-formed and is the encoding of what it gives. The side field
`m` counts for `RING_INIT` only (R54). -/
def Obligations.EncodeOfDecodeIsIdentity : Prop :=
  (∀ words i rest, decodeCommand words = .ok (i, rest) →
    i.wellFormed = true ∧ ∃ taken, words = taken ++ rest ∧ encode i = .command taken) ∧
  (∀ (pattern : BitVec 35) (line m : Nat) (i : Instr), line < 2 ^ 16 → m < 2 ^ 32 →
    decodeRequest (.ring pattern line m) = .ok i →
      i.wellFormed = true ∧ ∃ m', encode i = .request (.ring pattern line m') ∧ (pattern.toNat / 2 ^ 32 = 4 → m' = m)) ∧
  (∀ (lg : BitVec 2) (i : Instr), decodeRequest (.mix lg) = .ok i → encode i = .request (.mix lg))

/-- The command words of R51, R52 and R53, for every operand word, and their worked encodings. -/
def Obligations.CommandWordsDecode : Prop :=
  decodeCommand [0x02000000] = .ok (.destroy, []) ∧
  (∀ w : Word, decodeCommand [0x03000000, w] = .ok (.process w.toNat, [])) ∧
  decodeCommand [0x03000000, 0x00000200] = .ok (.process 512, []) ∧
  (∀ w : Word, decodeCommand [0x04000000, w] = .ok (.setRt60 w, [])) ∧
  (∀ w : Word, decodeCommand [0x05000000, w] = .ok (.setMaxDelay w, [])) ∧
  (∀ w : Word, decodeCommand [0x06000000, w] = .ok (.setInputPan w, [])) ∧
  encode (.setRt60 0x40000000) = .command [0x04000000, 0x40000000] ∧
  encode (.setInputPan 0x3F000000) = .command [0x06000000, 0x3F000000] ∧
  F32.ofNat 2 = 0x40000000 ∧ F32.fdiv (F32.ofNat 1) (F32.ofNat 2) = 0x3F000000

/-- A few words written out from the tables of R50, R54 and R55: the worked `BUILD`, one ring request of each code, the
four mixer codes. -/
def Obligations.SpecPatternsDecode : Prop :=
  decodeCommand [0x01080010, 0x00000001, 0x3CA3D70A, 0x3F4CCCCD, 0x473B8000]
    = .ok (.build 16 8 1 false 0x3CA3D70A 0x3F4CCCCD 0x473B8000, []) ∧
  decodeRequest (.ring 0b00000000000000000000000000000000101 3 0) = .ok (.peekReadable 3 5) ∧
  decodeRequest (.ring 0b00100000000000000000000000000000101 3 0) = .ok (.peekWritable 3 5) ∧
  decodeRequest (.ring 0b01000000000000000000000000000000101 3 0) = .ok (.commitWrite 3 5) ∧
  decodeRequest (.ring 0b01100000000000000000000000000000101 3 0) = .ok (.releaseRead 3 5) ∧
  decodeRequest (.ring 0b10000000000000000000000000000000101 3 7) = .ok (.ringInit 3 5 7) ∧
  decodeRequest (.mix 0b00) = .ok .had1 ∧ decodeRequest (.mix 0b01) = .ok .had2 ∧
  decodeRequest (.mix 0b10) = .ok .had4 ∧ decodeRequest (.mix 0b11) = .ok .had8

/-- R57: the length of a command is a function of its opcode alone, and the decoder is total: a sequence that begins
with a legal header has a whole command at its front, or too few words, or a word that R56 makes illegal. -/
def Obligations.CommandLengthIsAFunctionOfTheOpcode : Prop :=
  ∀ (w0 : Word) (ws : List Word),
    let op := w0.toNat / 2 ^ 24
    let length := if op = 1 then 5 else if op = 2 then 1 else 2
    let legalHeader := (op = 1 ∧ w0.toNat / 2 ^ 20 % 2 ^ 4 = 0) ∨ (2 ≤ op ∧ op ≤ 6 ∧ w0.toNat % 2 ^ 24 = 0)
    let badOperand := op = 1 ∧ ∃ w1 more, ws = w1 :: more ∧ w1.toNat / 2 ^ 17 ≠ 0
    (legalHeader → ¬badOperand → length ≤ ws.length + 1 →
      ∃ i, decodeCommand (w0 :: ws) = .ok (i, (w0 :: ws).drop length)) ∧
    (legalHeader → ¬badOperand → ws.length + 1 < length → decodeCommand (w0 :: ws) = .error .truncated) ∧
    (legalHeader → badOperand → decodeCommand (w0 :: ws) = .error .reservedBuildField) ∧
    (¬legalHeader → ∃ e, decodeCommand (w0 :: ws) = .error e ∧ e ≠ .truncated ∧ e.wordsTaken = 1)

/-- R56 and R115: at a ready port, a header word with a reserved opcode or a non-zero reserved field, a command the
phase does not allow, and a `BUILD` operand word with a non-zero reserved field raise IllegalCommand: the offending
word is taken and none after it, the machine is in phase `FAULT` with cause `0b10000`, the network is gone, and the
diagnostics stand. That the registers R120 makes `unspecified` take free values, the same whatever they held, is the
model's choice (log entry 3). -/
def Obligations.IllegalCommandsFault : Prop :=
  ∀ (s : State) (w0 : Word) (rest left : List Word), AtRest s → (s.phase = .unbuilt ∨ s.phase = .idle) →
    s.cmd = w0 :: rest →
    (((w0.toNat / 2 ^ 24 = 0 ∨ 7 ≤ w0.toNat / 2 ^ 24) ∧ left = rest) ∨
     (w0.toNat / 2 ^ 24 = 1 ∧ w0.toNat / 2 ^ 20 % 2 ^ 4 ≠ 0 ∧ left = rest) ∨
     (2 ≤ w0.toNat / 2 ^ 24 ∧ w0.toNat / 2 ^ 24 ≤ 6 ∧ w0.toNat % 2 ^ 24 ≠ 0 ∧ left = rest) ∨
     (s.phase = .unbuilt ∧ w0.toNat / 2 ^ 24 ≠ 1 ∧ left = rest) ∨
     (s.phase = .idle ∧ w0.toNat / 2 ^ 24 = 1 ∧ left = rest) ∨
     (s.phase = .unbuilt ∧ w0.toNat / 2 ^ 24 = 1 ∧ w0.toNat / 2 ^ 20 % 2 ^ 4 = 0 ∧
        ∃ w1, rest = w1 :: left ∧ w1.toNat / 2 ^ 17 ≠ 0)) →
    ∃ t, step s = .next t ∧ t.phase = .fault ∧ t.faultCause = 0b10000 ∧ t.cmd = left ∧ NoNetwork t ∧
      SameDiagnostics s t ∧
      ∀ s' : State, AtRest s' → s'.phase = s.phase → s'.cmd = s.cmd → s'.freeCount = s.freeCount →
        ∃ t', step s' = .next t' ∧ SameUnspecified t t'

/-! ## The step -/

/-- A step runs the decoded command: at a ready port, when the offered words begin with a command the phase allows, the
step is that command's meaning on the state from which its words have been taken (R10, R11, R56, R57). -/
def Obligations.StepRunsTheDecodedCommand : Prop :=
  ∀ (s : State) (w0 : Word) (ws rest : List Word) (i : Instr), AtRest s → s.cmd = w0 :: ws →
    ((s.phase = .unbuilt ∧ w0.toNat / 2 ^ 24 = 1) ∨ (s.phase = .idle ∧ w0.toNat / 2 ^ 24 ≠ 1)) →
    decodeCommand s.cmd = .ok (i, rest) →
    step s = exec i { s with cmd := rest }

/-- A step serves an internal request before anything but `RESET` (R46, R54; log entry 13): the decoded operation's
meaning on the state without the request; a reserved ring code is refused. -/
def Obligations.StepRunsTheDecodedRequest : Prop :=
  ∀ (s : State) (r : Request), s.resetPin = false → s.request = some r →
    (∀ i, decodeRequest r = .ok i → step s = exec i { s with request := none }) ∧
    (∀ e, decodeRequest r = .error e → step s = .refused .reservedRingOp)

/-- What a step does when there is no whole command to run. A command whose words have not all come: `PHASE` is `BUSY`
from the first word on (R16), and the words that come later are taken as if all had come together (R57; log entry 11).
With a `PROCESS` in progress the step goes on with it and takes no word; with nothing to do, or in `FAULT`, a step
changes nothing, whatever is offered at the `CMD` port (R11, R120; log entries 12 and 29). -/
def Obligations.StepAwaitsResumesOrWaits : Prop :=
  (∀ s : State, AtRest s → ∀ w0 ws, s.cmd = w0 :: ws →
    ((s.phase = .unbuilt ∧ w0.toNat / 2 ^ 24 = 1) ∨ (s.phase = .idle ∧ w0.toNat / 2 ^ 24 ≠ 1)) →
    decodeCommand s.cmd = .error .truncated →
    step s = .next { s with cmd := [], phase := .busy, progress := .receiving s.phase s.cmd }) ∧
  (∀ (s : State) (p : Phase) (taken : List Word), s.resetPin = false → s.request = none →
    (p = .unbuilt ∨ p = .idle) → s.progress = .receiving p taken →
    step s = step { s with phase := p, cmd := taken ++ s.cmd, progress := .rest }) ∧
  (∀ s : State, s.resetPin = false → s.request = none →
    (s.progress = .loopHead ∨ s.progress = .outputWrite →
      step s = outcome (runProcess F32.params (2 * s.seqRemaining + 1) s)) ∧
    (s.progress = .rest → s.phase = .fault ∨ s.phase = .busy ∨ s.cmd = [] → step s = .next s))

/-- R126: the `RESET` wire, in any phase and at any point of any command. Every register but the ones named takes a
free value (log entry 3); the words not yet taken stay at the port (log entry 25). -/
def Obligations.ResetWireClearsTheMachine : Prop :=
  ∀ s : State, s.resetPin = true →
    ∃ t, step s = .next t ∧ t.phase = .unbuilt ∧ t.shortfall = false ∧ t.hasZeroTaps = false ∧ t.faultCause = 0 ∧
      t.diagCount = 0 ∧ NoNetwork t ∧ t.progress = .rest ∧ t.request = none ∧ t.resetPin = false ∧ t.cmd = s.cmd ∧
      t.outL = s.outL ∧ t.outR = s.outR ∧ field (statusWord t) 31 0 = 0 ∧
      ∀ s' : State, s'.resetPin = true → s'.freeCount = s.freeCount → ∃ t', step s' = .next t' ∧
        SameUnspecified t t'

/-- R121: no command leaves `FAULT`, on any step and by any operation; `RESET` does, to `UNBUILT`. -/
def Obligations.OnlyResetLeavesFault : Prop :=
  ∀ s t : State, s.phase = .fault → s.progress = .rest → step s = .next t →
    (s.resetPin = false → t.phase = .fault ∧ t.progress = .rest) ∧ (s.resetPin = true → t.phase = .unbuilt)

/-! ## Construction and destruction (spec/41_construction.md) -/

/-- R69: the four checks, each with its bit, all that fail reported together; the fault comes before anything else of
the command, so no draw is made and no network is left. The registers R120 makes `unspecified` take free values, the
same whatever they held (log entry 3). -/
def Obligations.BuildValidationFaults : Prop :=
  ∀ (n bs shift : Nat) (zt : Bool) (lo hi rate : Word) (s : State), s.phase = .unbuilt → ¬ValidTopology n bs →
    ∃ t, exec (.build n bs shift zt lo hi rate) s = .next t ∧ t.phase = .fault ∧
      (t.faultCause.getLsbD 0 = true ↔ ¬(bs = 1 ∨ bs = 2 ∨ bs = 4 ∨ bs = 8)) ∧
      (t.faultCause.getLsbD 1 = true ↔ n < bs) ∧
      (t.faultCause.getLsbD 2 = true ↔ n % 2 = 1) ∧
      (t.faultCause.getLsbD 3 = true ↔ bs ≠ 0 ∧ n % bs ≠ 0) ∧
      t.faultCause.getLsbD 4 = false ∧
      NoNetwork t ∧ t.rng = s.rng ∧ t.draws = s.draws ∧ SameDiagnostics s t ∧ SamePorts s t ∧
      ∀ s' : State, s'.phase = .unbuilt → s'.freeCount = s.freeCount →
        ∃ t', exec (.build n bs shift zt lo hi rate) s' = .next t' ∧ SameUnspecified t t'

/-- R70: with each of the six preconditions broken, a `BUILD` that passes validation is refused. -/
def Obligations.BuildPreconditionsRefuse : Prop :=
  ∀ (n bs shift : Nat) (zt : Bool) (lo hi rate : Word) (s : State), s.phase = .unbuilt → ValidTopology n bs →
    ((F32.isFinite rate = false ∨ F32.lt 0 rate = false ∨ F32.isFinite lo = false ∨ F32.lt lo 0 = true ∨
        F32.isFinite hi = false ∨ F32.lt hi 0 = true) ∨
     (∃ minS maxS, F32.truncToNat (F32.fmul lo rate) = some minS ∧ F32.truncToNat (F32.fmul hi rate) = some maxS ∧
        (minS < 1 ∨ maxS < minS ∨ 2 ^ 32 ≤ maxS + minS)) ∨
     Nat.gcd n 39 ≠ 1 ∨
     (0 < shift * bs ∧ n / 2 < bs)) →
    ∃ r, exec (.build n bs shift zt lo hi rate) s = .refused r ∧ r.ofOperand = true

/-- R71, R76 and R77: what construction writes, and that it completes. The gains follow the block size, the pan is
0.5, the input attenuation counts the injection lines (tested on the stored shift) and the zero tap, and the
coefficients are those of the default decay time. The flags, the counters and the ports stand. -/
def Obligations.BuildWritesTheRegisters : Prop :=
  ∀ (n bs shift : Nat) (zt : Bool) (lo hi rate : Word) (minS maxS : Nat) (s : State), s.phase = .unbuilt →
    Buildable n bs shift lo hi rate minS maxS →
    ∃ t, exec (.build n bs shift zt lo hi rate) s = .next t ∧
      t.numDelays = n ∧ t.blockSize = bs ∧ t.fbShift = shift * bs ∧
      t.hasZeroTaps = zt ∧ field (statusWord t) 3 3 = (if zt then 1 else 0) ∧
      t.minDelaySeconds = lo ∧ t.maxDelaySeconds = hi ∧ t.sampleRate = rate ∧
      t.minDelaySamples = minS ∧ t.maxDelaySamples = maxS ∧
      t.matrixAtt = F32.fsqrt (F32.fdiv (F32.ofNat 1) (F32.ofNat bs)) ∧
      t.invMatrixAtt = F32.fdiv (F32.ofNat 1) t.matrixAtt ∧
      t.inputPan = 0x3F000000 ∧
      t.inputAtt = F32.fsqrt (F32.fdiv (F32.ofNat 1)
        (F32.ofNat ((if 0 < shift * bs then bs else n / 2) + (if zt then 1 else 0)))) ∧
      t.coef.length = n ∧
      (∀ i < n, t.coef[i]? =
        some (coefficient F32.num t.matrixAtt rate (t.delay.getD i 0) F32.params.defaultDecaySeconds)) ∧
      SameDiagnostics s t ∧ t.faultCause = s.faultCause ∧ SamePorts s t ∧ t.progress = s.progress

/-- R72 and R73: the first `n` draws, sorted, go through the stride map. The answers listed at the `RNG` port are used
in order where they are in range. -/
def Obligations.BuildDrawsSortsAndPermutesDelays : Prop :=
  ∀ (n bs shift : Nat) (zt : Bool) (lo hi rate : Word) (minS maxS : Nat) (s : State), s.phase = .unbuilt →
    Buildable n bs shift lo hi rate minS maxS →
    ∃ (t : State) (raw sorted : List Nat), exec (.build n bs shift zt lo hi rate) s = .next t ∧
      raw.length = n ∧ (∀ v ∈ raw, minS ≤ v ∧ v ≤ maxS) ∧
      (n ≤ s.rng.length → (∀ v ∈ s.rng.take n, minS ≤ v ∧ v ≤ maxS) → raw = s.rng.take n) ∧
      sorted.Perm raw ∧ sorted.Pairwise (· ≤ ·) ∧
      t.delay.length = n ∧ ∀ i < n, t.delay[i * 39 % n]? = sorted[i]?

/-- R75: the signs are the alternation, shuffled in the left half and then in the right half: `j` runs from `h - 1` down
to 1, `r` is drawn in `[0, j]`, and the entries `base + j` and `base + r` are exchanged. The draws come after those of
the delays, the listed answers at the `RNG` port used in order where they are all in range. Each half is a rearrangement,
so the left half has `(h + 1) div 2` entries +1 and the right half `h div 2`; with `h` = 1 the signs are +1, -1. -/
def Obligations.BuildShufflesTheSigns : Prop :=
  ∀ (n bs shift : Nat) (zt : Bool) (lo hi rate : Word) (minS maxS : Nat) (s : State), s.phase = .unbuilt →
    Buildable n bs shift lo hi rate minS maxS →
    let h := n / 2
    let swap := fun (signs : List Sign) (a b : Nat) => (signs.set a (signs.getD b .plus)).set b (signs.getD a .plus)
    let shuffle := fun (base : Nat) (r : List Nat) (signs : List Sign) =>
      (List.range (h - 1)).foldl (fun signs k => swap signs (base + (h - 1 - k)) (base + r.getD k 0)) signs
    ∃ (t : State) (left right : List Nat), exec (.build n bs shift zt lo hi rate) s = .next t ∧
      left.length = h - 1 ∧ right.length = h - 1 ∧
      (∀ k < h - 1, left.getD k 0 ≤ h - 1 - k ∧ right.getD k 0 ≤ h - 1 - k) ∧
      (n + 2 * (h - 1) ≤ s.rng.length → (∀ v ∈ s.rng.take n, minS ≤ v ∧ v ≤ maxS) →
        (∀ k < h - 1, s.rng.getD (n + k) 0 ≤ h - 1 - k ∧ s.rng.getD (n + (h - 1) + k) 0 ≤ h - 1 - k) →
        left ++ right = (s.rng.drop n).take (2 * (h - 1))) ∧
      t.sign = shuffle h right (shuffle 0 left ((List.range n).map fun i => if i % 2 = 0 then .plus else .minus)) ∧
      t.sign.length = n ∧ (t.sign.take h).count .plus = (h + 1) / 2 ∧ (t.sign.drop h).count .plus = h / 2 ∧
      (n = 2 → t.sign = [.plus, .minus])

/-- R74 and R78: one ring per line, its capacity the delay plus `MIN_DELAY_SAMPLES`, full of zeros to its delay, no
window open; `PHASE` is `IDLE`; exactly `n + 2 * (n div 2 - 1)` draws were made (R78). That each draw takes one listed
answer from the `RNG` port, even one out of range, is the model's choice (log entry 4). -/
def Obligations.BuildLeavesTimeZero : Prop :=
  ∀ (n bs shift : Nat) (zt : Bool) (lo hi rate : Word) (minS maxS : Nat) (s : State), s.phase = .unbuilt →
    Buildable n bs shift lo hi rate minS maxS →
    ∃ t, exec (.build n bs shift zt lo hi rate) s = .next t ∧ t.phase = .idle ∧
      t.draws = s.draws + (n + 2 * (n / 2 - 1)) ∧ t.rng = s.rng.drop (n + 2 * (n / 2 - 1)) ∧
      NetworkInv 0 t ∧
      ∀ i < n, ∃ r, Store.read t.rings i = some r ∧ r.cap = t.delay.getD i 0 + minS ∧ r.rd = 0 ∧
        r.wr = t.delay.getD i 0 ∧ r.fill = t.delay.getD i 0 ∧ r.rwin = 0 ∧ r.wwin = 0 ∧
        (∀ a, Store.read r.cells a = if a < t.delay.getD i 0 then some 0 else none) ∧
        queueOf t i = List.replicate (t.delay.getD i 0) 0

/-- R80: `DESTROY` in `IDLE` leaves no network and the diagnostics; the registers R80 makes `unspecified` take free
values, the same whatever they held (log entry 3); the flags, the ports and the random source stand. -/
def Obligations.DestroyRemovesTheNetwork : Prop :=
  ∀ s : State, s.phase = .idle →
    ∃ t, exec .destroy s = .next t ∧ t.phase = .unbuilt ∧ NoNetwork t ∧ field (statusWord t) 3 3 = 0 ∧
      SameDiagnostics s t ∧ t.faultCause = s.faultCause ∧ SamePorts s t ∧ t.rng = s.rng ∧ t.draws = s.draws ∧
      ∀ s' : State, s'.phase = .idle → s'.freeCount = s.freeCount →
        ∃ t', exec .destroy s' = .next t' ∧ SameUnspecified t t'

/-- R56 item 4 by operation: a host command in the phase that does not allow it takes the IllegalCommand entry, the
operands never looked at (R119 item 1); while the port is not ready it changes nothing (R11; log entry 16). -/
def Obligations.OutOfPhaseCommandsFault : Prop :=
  ∀ (i : Instr) (s : State), (∃ words, encode i = .command words) →
    ((s.phase = .unbuilt ∧ ∀ n bs shift zt lo hi rate, i ≠ .build n bs shift zt lo hi rate) ∨
     (s.phase = .idle ∧ ∃ n bs shift zt lo hi rate, i = .build n bs shift zt lo hi rate) →
      ∃ t, exec i s = .next t ∧ t.phase = .fault ∧ t.faultCause = 0b10000 ∧ NoNetwork t ∧ SameDiagnostics s t ∧
        SamePorts s t) ∧
    (s.phase = .busy ∨ s.phase = .fault → exec i s = .next s)

/-! ## Setters (spec/44_setters.md) -/

/-- R109: `SET_RT60` of a finite positive time writes every coefficient by R108 and nothing else; another time is
refused; in `UNBUILT` it is an illegal command. -/
def Obligations.SetRt60WritesTheCoefficients : Prop :=
  ∀ (seconds : Word) (s : State),
    (s.phase = .idle → F32.isFinite seconds = true → F32.lt 0 seconds = true →
      exec (.setRt60 seconds) s = .next { s with
        coef := s.delay.map fun d =>
          F32.fmul s.matrixAtt (F32.fpow10 (F32.fdiv
            (F32.fmul (F32.fneg (F32.ofNat 3)) (F32.fdiv (F32.ofNat d) s.sampleRate)) seconds)) }) ∧
    (s.phase = .idle → F32.isFinite seconds = false ∨ F32.lt 0 seconds = false →
      exec (.setRt60 seconds) s = .refused .decayTimeNotPositive) ∧
    (s.phase = .unbuilt → ∃ t, exec (.setRt60 seconds) s = .next t ∧ t.phase = .fault ∧ t.faultCause = 0b10000)

/-- R110: `SET_MAX_DELAY` is a `BUILD` with the registers' operands and the new upper bound, on the state from which the
network has been removed, whatever comes of it (a network or a refusal). -/
def Obligations.SetMaxDelayIsARebuild : Prop :=
  ∀ (seconds : Word) (s : State), s.phase = .idle → ValidTopology s.numDelays s.blockSize →
    exec (.setMaxDelay seconds) s =
      exec (.build s.numDelays s.blockSize (s.fbShift / s.blockSize) s.hasZeroTaps s.minDelaySeconds seconds
        s.sampleRate) { s with phase := .unbuilt, delay := [], coef := [], sign := [], rings := [] }

/-- `SET_MAX_DELAY` completes on a network whose new bounds R70 lets through: the topology is the same, the upper bound
is the new one, every ring is silent, pan and decay time are the initial ones, the diagnostics stand (R110, R132). -/
def Obligations.SetMaxDelayCompletes : Prop :=
  ∀ (seconds : Word) (minS maxS : Nat) (s : State), s.phase = .idle → TopologyInv s →
    Buildable s.numDelays s.blockSize (s.fbShift / s.blockSize) s.minDelaySeconds seconds s.sampleRate minS maxS →
    ∃ t, exec (.setMaxDelay seconds) s = .next t ∧ t.phase = .idle ∧
      t.numDelays = s.numDelays ∧ t.blockSize = s.blockSize ∧ t.fbShift = s.fbShift ∧ t.hasZeroTaps = s.hasZeroTaps ∧
      t.minDelaySeconds = s.minDelaySeconds ∧ t.sampleRate = s.sampleRate ∧ t.maxDelaySeconds = seconds ∧
      t.minDelaySamples = minS ∧ t.maxDelaySamples = maxS ∧ t.inputPan = 0x3F000000 ∧
      (∀ i < s.numDelays, queueOf t i = List.replicate (t.delay.getD i 0) 0 ∧
        t.coef[i]? = some (coefficient F32.num t.matrixAtt s.sampleRate (t.delay.getD i 0)
          F32.params.defaultDecaySeconds)) ∧
      NetworkInv 0 t ∧ SameDiagnostics s t ∧ t.faultCause = s.faultCause ∧ SamePorts s t

/-- R111: `SET_INPUT_PAN` of a value in [0, 1] writes `INPUT_PAN` and nothing else; another value, and a NaN, is refused;
in `UNBUILT` it is an illegal command. -/
def Obligations.SetInputPanWritesThePan : Prop :=
  ∀ (pan : Word) (s : State),
    (s.phase = .idle → F32.le 0 pan = true → F32.le pan (F32.ofNat 1) = true →
      exec (.setInputPan pan) s = .next { s with inputPan := pan }) ∧
    (s.phase = .idle → F32.le 0 pan = false ∨ F32.le pan (F32.ofNat 1) = false →
      exec (.setInputPan pan) s = .refused .panOutOfRange) ∧
    (F32.isNaN pan = true → F32.le 0 pan = false) ∧
    (s.phase = .unbuilt → ∃ t, exec (.setInputPan pan) s = .next t ∧ t.phase = .fault ∧ t.faultCause = 0b10000)

/-! ## `PROCESS` (spec/43_process.md) -/

/-- R89, R90 and R103: on a network in `IDLE`, with the input and the room of `n` samples given, `PROCESS n` completes in
`IDLE`, takes `n` samples of each input, uses the room of `n` outputs, signals nothing, and writes no line register, no
capacity and none of the registers 3 to 15. With less given it comes as far as it can, with the same frame; and so does
the step that goes on with a `PROCESS` that waited, which completes once all that remains is given (R11). -/
def Obligations.ProcessCompletesAndKeepsTheRegisters : Prop :=
  (∀ (n : Nat) (s : State), s.phase = .idle → NetworkInv 0 s →
    ∃ t m, exec (.process n) s = .next t ∧ m ≤ n ∧ ProcessKeeps s t ∧ ProcessPassed m s t ∧
      (t.phase = .idle ∨ t.phase = .busy) ∧
      (Supplied n s → m = n ∧ t.phase = .idle ∧ t.progress = .rest ∧ NetworkInv 0 t)) ∧
  (∀ s : State, Interrupted s →
    ∃ t m, step s = .next t ∧ m ≤ s.seqRemaining ∧ ProcessKeeps s t ∧ ProcessPassed m s t ∧
      (t.phase = .idle ∨ t.phase = .busy) ∧
      (Supplied s.seqRemaining s → m = s.seqRemaining ∧ t.phase = .idle ∧ t.progress = .rest ∧ NetworkInv 0 t))

/-- R104: the chunked form and the per-sample form give the same outputs and the same live ring contents, whether the
host has given all input and room before the command, or the command waited (with some of its chunks done) and the step
after the host acted goes on with it. The recurrence (Machine/Recurrence.lean) is written over queues, one sample at a
time, and no step of the machine calls it. -/
def Obligations.ProcessComputesThePerSampleForm : Prop :=
  (∀ (n : Nat) (s : State), s.phase = .idle → NetworkInv 0 s → Supplied n s →
    ∃ t, exec (.process n) s = .next t ∧
      let r := recurrence F32.params s (offered n s) (queues s)
      queues t = r.1 ∧ t.outL = s.outL ++ r.2.1 ∧ t.outR = s.outR ++ r.2.2) ∧
  (∀ (n : Nat) (s w : State) (left right : List Sample) (roomL roomR : Nat), s.phase = .idle → NetworkInv 0 s →
    s.resetPin = false → s.request = none → exec (.process n) s = .next w → w.phase = .busy →
    Supplied n (hostGives left right roomL roomR s) →
    ∃ t, step (hostGives left right roomL roomR w) = .next t ∧ t.phase = .idle ∧
      let r := recurrence F32.params s (offered n (hostGives left right roomL roomR s)) (queues s)
      queues t = r.1 ∧ t.outL = s.outL ++ r.2.1 ∧ t.outR = s.outR ++ r.2.2)

/-- R105, for every instance of `Num` and every value of the open parameters: one `PROCESS` of `a + b` samples and two
of `a` and `b` give the same outputs, the same live contents, read and write cursors of every ring, the same
registers, line file and flags, and the same state of the ports. -/
def Obligations.ProcessIsChunkSizeIndependent : Prop :=
  ∀ (α : Type) (P : Params α) (a b : Nat) (s : Generic.State α), NetworkInv 0 s → Supplied (a + b) s →
    ∃ s1 s2 t, processEffect P a s = .ok s1 ∧ processEffect P b s1 = .ok s2 ∧ processEffect P (a + b) s = .ok t ∧
      t.phase = s2.phase ∧ t.outL = s2.outL ∧ t.outR = s2.outR ∧ t.inL = s2.inL ∧ t.inR = s2.inR ∧
      t.roomL = s2.roomL ∧ t.roomR = s2.roomR ∧ ProcessKeeps s2 t ∧
      ∀ i < s.numDelays, ∃ r r', Store.read s2.rings i = some r ∧ Store.read t.rings i = some r' ∧
        liveSamples r' = liveSamples r ∧ r'.rd = r.rd ∧ r'.wr = r.wr ∧ r'.cap = r.cap

/-- R107 item 1: no sample is taken or produced, no ring changes. The position registers have no value the spec fixes
outside `PROCESS` (log entry 19). -/
def Obligations.ProcessOfNoSamplesChangesNothing : Prop :=
  ∀ s : State, s.phase = .idle →
    exec (.process 0) s = .next { s with phase := .idle, progress := .rest, seqPos := 0, seqRemaining := 0 }

/-- R107 item 3 under `Num.f32`: from silent rings, without the zero tap, the first outputs are exactly +0 on both
channels, whatever the input, for as many samples as the shortest line is long; the coefficients and
`INV_MATRIX_ATT` finite, the latter not negative. -/
def Obligations.OutputIsZeroBeforeTheShortestDelay : Prop :=
  ∀ (n : Nat) (s : State), s.phase = .idle → NetworkInv 0 s → Supplied n s → s.hasZeroTaps = false →
    (∀ i < s.numDelays, queueOf s i = List.replicate (s.delay.getD i 0) 0) → (∀ d ∈ s.delay, n ≤ d) →
    (∀ c ∈ s.coef, F32.isFinite c = true) → F32.isFinite s.invMatrixAtt = true → F32.signBit s.invMatrixAtt = false →
    ∃ t, exec (.process n) s = .next t ∧ t.outL = s.outL ++ List.replicate n 0 ∧
      t.outR = s.outR ++ List.replicate n 0

/-- R11: a `PROCESS` whose first chunk the host has not supplied, or whose first output it does not take, has no step
until the host acts: it stays in `BUSY`. That the chunk waits as a whole (log entries 9 and 10) and that a step without
effect answers the same state (log entry 12) are the model's choices. Wherever a `PROCESS` waits and whatever the host
then gives, the step that goes on with it has the outcome of the command with the same given beforehand; so a command
that waits any number of times ends as one that never waited. -/
def Obligations.ProcessWaitsForTheHost : Prop :=
  (∀ (n : Nat) (s : State), s.phase = .idle → NetworkInv 0 s → s.resetPin = false → s.request = none → 0 < n →
    let chunk := min n s.minDelaySamples
    (s.inL.length < chunk ∨ s.inR.length < chunk →
      let t := { s with
        phase := .busy, progress := .loopHead, seqPos := 0, seqRemaining := n, seqChunk := chunk }
      exec (.process n) s = .next t ∧ step t = .next t) ∧
    (chunk ≤ s.inL.length → chunk ≤ s.inR.length → s.roomL < chunk ∨ s.roomR < chunk →
      ∃ t, exec (.process n) s = .next t ∧ t.phase = .busy ∧ t.progress = .outputWrite ∧ t.seqChunk = chunk ∧
        t.inL = s.inL ∧ t.inR = s.inR ∧ t.outL = s.outL ∧ t.outR = s.outR ∧ step t = .next t)) ∧
  (∀ (n : Nat) (s w : State) (left right : List Sample) (roomL roomR : Nat), s.phase = .idle → NetworkInv 0 s →
    s.resetPin = false → s.request = none → exec (.process n) s = .next w → w.phase = .busy →
    step (hostGives left right roomL roomR w) = exec (.process n) (hostGives left right roomL roomR s))

/-- R65: at a chunk boundary every ring grants the whole chunk, nothing is signalled, and every window has the length of
the chunk. -/
def Obligations.WindowsAreGrantedInFull : Prop :=
  ∀ (α : Type) (s : Generic.State α), NetworkInv 0 s → s.seqChunk ≤ s.minDelaySamples →
    ∃ t, stepWindows s = .ok t ∧ t.seqChunk = s.seqChunk ∧ SameDiagnostics s t ∧ NetworkInv s.seqChunk t

/-- R93 and R116: every line is asked for the same count, the chunk shrinks to the least grant, and a shrunk chunk is
counted once: `STATUS.SHORTFALL` is set and `DIAG_COUNT` rises by one, saturating. -/
def Obligations.ShortGrantShrinksTheChunkAndIsCounted : Prop :=
  ∀ (α : Type) (s : Generic.State α),
    (∀ i < s.numDelays, ∃ r, Store.read s.rings i = some r ∧ r.rwin = 0 ∧ r.wwin = 0) →
    ∃ t, stepWindows s = .ok t ∧ t.seqChunk ≤ s.seqChunk ∧
      (∀ i < s.numDelays, ∀ r, Store.read s.rings i = some r → t.seqChunk ≤ r.fill ∧ t.seqChunk ≤ r.cap - r.fill ∧
        Store.read t.rings i =
          some { r with rwin := min s.seqChunk r.fill, wwin := min s.seqChunk (r.cap - r.fill) }) ∧
      (t.seqChunk = s.seqChunk ∨ ∃ i < s.numDelays, ∃ r, Store.read s.rings i = some r ∧
        (t.seqChunk = r.fill ∨ t.seqChunk = r.cap - r.fill)) ∧
      (t.seqChunk < s.seqChunk → t.shortfall = true ∧ t.diagCount = min (s.diagCount + 1) (2 ^ 32 - 1)) ∧
      (t.seqChunk = s.seqChunk → SameDiagnostics s t)

/-! ## Rings (spec/20_memory.md, spec/40_ring_delay_line.md) -/

/-- R59: `RING_INIT` of a capacity that is not 0 gives line `i` a ring of `D` zeros and `m` free cells; every other
ring, and everything else, stands. Capacity 0 is refused. On a network the line is one below `NUM_DELAYS` (R33). The
model's choices: with no line register file, where R16 has no ring, any line gets one, in any phase (log entries 13 and
14); a line at or above `NUM_DELAYS` of a network stops the machine by the fault `noSuchRing` (log entry 14); a ring of
a capacity of `2 ^ 32` or more, which R6 says no ring has, is made too (log entry 33). -/
def Obligations.RingInitMakesARingOfZeros : Prop :=
  ∀ (i D m : Nat) (s : State),
    (D + m ≠ 0 → s.delay = [] ∨ i < s.numDelays → ∃ t r, exec (.ringInit i D m) s = .next t ∧
      t = { s with rings := t.rings } ∧ Store.read t.rings i = some r ∧ r.cap = D + m ∧ r.rd = 0 ∧ r.wr = D % (D + m) ∧ r.fill = D ∧ r.rwin = 0 ∧
      r.wwin = 0 ∧ (∀ a, Store.read r.cells a = if a < D then some 0 else none) ∧
      ∀ j, j ≠ i → Store.read t.rings j = Store.read s.rings j) ∧
    (D + m = 0 → exec (.ringInit i D m) s = .refused .ringOfCapacityZero) ∧
    (D + m ≠ 0 → s.delay ≠ [] → s.numDelays ≤ i → exec (.ringInit i D m) s = .fault .noSuchRing)

/-- R60 and R61: `PEEK_READABLE` on a ring without a read window opens one of the length of the grant, the lesser of
the count and `FILL`, and answers the grant; no cell and no cursor changes, and no other ring. `PEEK_WRITABLE` does the
same for the write window and the free space. A second window is refused. The model's choices: on a line that has no
ring, or is at or above `NUM_DELAYS` of a network, the peeks, `COMMIT_WRITE` and `RELEASE_READ` stop the machine by the
fault `noSuchRing`, and so does `WrWin` (log entries 14 and 15, from R33); with no network a stand-alone ring serves any
line (log entry 14). -/
def Obligations.PeeksOpenTheWindows : Prop :=
  ∀ (i n : Nat) (s : State),
    (∀ r, LineInRange s i → Store.read s.rings i = some r →
      (r.rwin = 0 → ∃ t, exec (.peekReadable i n) s = .next t ∧ t.grant = min n r.fill ∧
        t = { s with rings := t.rings, grant := t.grant } ∧
        Store.read t.rings i = some { r with rwin := min n r.fill } ∧
        ∀ j, j ≠ i → Store.read t.rings j = Store.read s.rings j) ∧
      (r.wwin = 0 → ∃ t, exec (.peekWritable i n) s = .next t ∧ t.grant = min n (r.cap - r.fill) ∧
        t = { s with rings := t.rings, grant := t.grant } ∧
        Store.read t.rings i = some { r with wwin := min n (r.cap - r.fill) } ∧
        ∀ j, j ≠ i → Store.read t.rings j = Store.read s.rings j) ∧
      (r.rwin ≠ 0 → exec (.peekReadable i n) s = .refused .secondReadWindow) ∧
      (r.wwin ≠ 0 → exec (.peekWritable i n) s = .refused .secondWriteWindow)) ∧
    (¬LineInRange s i ∨ Store.read s.rings i = none →
      exec (.peekReadable i n) s = .fault .noSuchRing ∧ exec (.peekWritable i n) s = .fault .noSuchRing ∧
      exec (.commitWrite i n) s = .fault .noSuchRing ∧ exec (.releaseRead i n) s = .fault .noSuchRing ∧
      ∀ k v, wrWin s i k v = .error (.fault .noSuchRing))

/-- R62: `COMMIT_WRITE` of at most the window makes its first `n` cells unconsumed samples and closes it; the window's
cells beyond `n` hold `unspecified` (log entry 18), every other cell and every other ring stands. More than the window
is refused. (On a line without a ring: PeeksOpenTheWindows.) -/
def Obligations.CommitWritePublishesTheWindow : Prop :=
  ∀ (i n : Nat) (s : State) (r : Machine.Ring Sample), LineInRange s i → Store.read s.rings i = some r →
    (n ≤ r.wwin → ∃ t r', exec (.commitWrite i n) s = .next t ∧ t = { s with rings := t.rings } ∧
      Store.read t.rings i = some r' ∧ r'.cap = r.cap ∧ r'.rd = r.rd ∧ r'.wr = (r.wr + n) % r.cap ∧
      r'.fill = r.fill + n ∧ r'.rwin = r.rwin ∧ r'.wwin = 0 ∧
      (∀ k, n ≤ k → k < r.wwin → Store.read r'.cells ((r.wr + k) % r.cap) = none) ∧
      (∀ a, (∀ k, n ≤ k → k < r.wwin → a ≠ (r.wr + k) % r.cap) → Store.read r'.cells a = Store.read r.cells a) ∧
      ∀ j, j ≠ i → Store.read t.rings j = Store.read s.rings j) ∧
    (r.wwin < n → exec (.commitWrite i n) s = .refused .commitBeyondWindow)

/-- R63: `RELEASE_READ` of at most the window consumes its first `n` samples and closes it: those cells hold
`unspecified`, every other cell and every other ring stands. More than the window is refused. (On a line
without a ring: PeeksOpenTheWindows.) -/
def Obligations.ReleaseReadFreesTheWindow : Prop :=
  ∀ (i n : Nat) (s : State) (r : Machine.Ring Sample), LineInRange s i → Store.read s.rings i = some r →
    (n ≤ r.rwin → ∃ t r', exec (.releaseRead i n) s = .next t ∧ t = { s with rings := t.rings } ∧
      Store.read t.rings i = some r' ∧ r'.cap = r.cap ∧ r'.rd = (r.rd + n) % r.cap ∧ r'.wr = r.wr ∧
      r'.fill = r.fill - n ∧ r'.rwin = 0 ∧ r'.wwin = r.wwin ∧
      (∀ k < n, Store.read r'.cells ((r.rd + k) % r.cap) = none) ∧
      (∀ a, (∀ k < n, a ≠ (r.rd + k) % r.cap) → Store.read r'.cells a = Store.read r.cells a) ∧
      ∀ j, j ≠ i → Store.read t.rings j = Store.read s.rings j) ∧
    (r.rwin < n → exec (.releaseRead i n) s = .refused .releaseBeyondWindow)

/-- R26 and R64: the ring invariants hold after every ring operation and every window write; a commit must cover
written cells only, as every commit of `PROCESS` does (R99). -/
def Obligations.RingOperationsKeepTheInvariants : Prop :=
  ∀ (α : Type) (r : Machine.Ring α),
    (∀ (zero : α) (D m : Nat), 0 < D + m → RingInv (Ring.initial zero D m)) ∧
    (RingInv r → ∀ n,
      RingInv { r with rwin := r.readGrant n } ∧
      (r.wwin = 0 → RingInv { r with wwin := r.writeGrant n }) ∧
      (n ≤ r.rwin → RingInv (r.release n)) ∧
      (n ≤ r.wwin → (∀ k < n, (Store.read r.cells (r.writeCell k)).isSome = true) → RingInv (r.commit n)) ∧
      (∀ k < r.wwin, ∀ v, ∃ r', r.memWrite (r.writeCell k) v = .ok r' ∧ RingInv r'))

/-- R37: the two windows of a line share no cell, and neither has a cell twice. -/
def Obligations.WindowsShareNoCell : Prop :=
  ∀ (α : Type) (r : Machine.Ring α), RingInv r →
    (∀ j < r.rwin, ∀ k < r.wwin, (r.rd + j) % r.cap ≠ (r.wr + k) % r.cap) ∧
    (∀ j < r.rwin, ∀ k < r.rwin, (r.rd + j) % r.cap = (r.rd + k) % r.cap → j = k) ∧
    (∀ j < r.wwin, ∀ k < r.wwin, (r.wr + j) % r.cap = (r.wr + k) % r.cap → j = k)

/-- R33 and R35: `RdWin(i, k)` is the cell `(RD + k) mod CAP` for `k` in the window and refused outside it; `RdWin(i, 0)`
is the oldest unconsumed sample. A read of a cell that holds `unspecified`, or of no cell, is refused as a read of an
unwritten cell, and so is one of a line without a ring or at or above `NUM_DELAYS` of a network. -/
def Obligations.RdWinReadsTheWindow : Prop :=
  ∀ (α : Type) (s : Generic.State α) (i : Nat),
    (∀ r, LineInRange s i → Store.read s.rings i = some r →
      (RingInv r → ∀ k < r.rwin, ∃ v, Store.read r.cells ((r.rd + k) % r.cap) = some v ∧ rdWin s i k = .ok v ∧
        (liveSamples r)[k]? = some v) ∧
      (∀ k < r.rwin, Store.read r.cells ((r.rd + k) % r.cap) = none ∨ r.cap = 0 →
        rdWin s i k = .error (.refusal .readOfUnwrittenCell)) ∧
      (∀ k, r.rwin ≤ k → rdWin s i k = .error (.refusal .readOutsideWindow))) ∧
    (¬LineInRange s i ∨ Store.read s.rings i = none → ∀ k, rdWin s i k = .error (.refusal .readOfUnwrittenCell))

/-- R33 and R36: `WrWin(i, k, v)` writes the cell `(WR + k) mod CAP` for `k` in the window, that cell and no other, and
`WrWinRead` reads it back; both are refused outside the window; the unconsumed samples stand until `COMMIT_WRITE`. A
`WrWinRead` of a cell not yet written is refused as a read of an unwritten cell, and so is one of a line without a ring
or at or above `NUM_DELAYS` of a network. (`WrWin` there: PeeksOpenTheWindows.) -/
def Obligations.WrWinWritesTheWindow : Prop :=
  ∀ (α : Type) (s : Generic.State α) (i : Nat),
    (∀ r, LineInRange s i → Store.read s.rings i = some r →
      (RingInv r → ∀ k < r.wwin, ∀ v, ∃ t r', wrWin s i k v = .ok t ∧ t = { s with rings := t.rings } ∧
        Store.read t.rings i = some r' ∧ r' = { r with cells := r'.cells } ∧
        (∀ a, Store.read r'.cells a = if a = (r.wr + k) % r.cap then some v else Store.read r.cells a) ∧
        (∀ j, j ≠ i → Store.read t.rings j = Store.read s.rings j) ∧
        wrWinRead t i k = .ok v ∧ liveSamples r' = liveSamples r) ∧
      (∀ k < r.wwin, Store.read r.cells ((r.wr + k) % r.cap) = none →
        wrWinRead s i k = .error (.refusal .readOfUnwrittenCell)) ∧
      (∀ k, r.wwin ≤ k → ∀ v, wrWin s i k v = .error (.refusal .writeOutsideWindow) ∧
        wrWinRead s i k = .error (.refusal .writeOutsideWindow))) ∧
    (¬LineInRange s i ∨ Store.read s.rings i = none → ∀ k, wrWinRead s i k = .error (.refusal .readOfUnwrittenCell))

/-- R43 and R104: a ring is a first-in first-out queue. A release takes the oldest `n` samples off, a commit of written
cells puts them behind the newest, in window order. -/
def Obligations.RingIsAQueue : Prop :=
  ∀ (α : Type) (r : Machine.Ring α) (n : Nat), RingInv r →
    (n ≤ r.rwin → liveSamples (r.release n) = (liveSamples r).drop n) ∧
    (n ≤ r.wwin → ∀ w : Nat → α, (∀ k < n, Store.read r.cells (r.writeCell k) = some (w k)) →
      liveSamples (r.commit n) = liveSamples r ++ (List.range n).map w)

/-! ## The block mixer (spec/42_block_mixer.md) -/

/-- R83, R84 and R85: `HAD1` passes its sample bit for bit, `HAD2` answers the sum and the difference, `HAD4` works by
stages, and is a matrix under `Num.real`. The answer stands in the mixer's vector and nothing else changes. That a
request without its samples is refused is the model's choice (log entry 28). -/
def Obligations.Had1Had2Had4Transform : Prop :=
  (∀ (s : State) (x0 : Sample) (rest : List Sample), s.mixIn = x0 :: rest →
    exec .had1 s = .next { s with y := [x0] }) ∧
  (∀ (s : State) (x0 x1 : Sample) (rest : List Sample), s.mixIn = x0 :: x1 :: rest →
    exec .had2 s = .next { s with y := [F32.fadd x0 x1, F32.fsub x0 x1] }) ∧
  (∀ (s : State) (x0 x1 x2 x3 : Sample) (rest : List Sample), s.mixIn = x0 :: x1 :: x2 :: x3 :: rest →
    exec .had4 s = .next { s with
      y := [F32.fadd (F32.fadd x0 x1) (F32.fadd x2 x3), F32.fadd (F32.fsub x0 x1) (F32.fsub x2 x3),
            F32.fsub (F32.fadd x0 x1) (F32.fadd x2 x3), F32.fsub (F32.fsub x0 x1) (F32.fsub x2 x3)] }) ∧
  (∀ s : State,
    (s.mixIn = [] → exec .had1 s = .refused .mixerVectorTooShort) ∧
    (s.mixIn.length < 2 → exec .had2 s = .refused .mixerVectorTooShort) ∧
    (s.mixIn.length < 4 → exec .had4 s = .refused .mixerVectorTooShort)) ∧
  (∀ x0 x1 x2 x3 : ℝ, had2 ExactReal.num x0 x1 = [x0 + x1, x0 - x1] ∧
    had4 ExactReal.num x0 x1 x2 x3 =
      [x0 + x1 + x2 + x3, x0 - x1 + x2 - x3, x0 + x1 - x2 - x3, x0 - x1 - x2 + x3])

/-- R86: `HAD8` is `HAD4` of each half and the stage between the halves, and as a matrix under `Num.real`. That a request
without eight samples is refused is the model's choice (log entry 28). -/
def Obligations.Had8Transforms : Prop :=
  (∀ (s : State) (x0 x1 x2 x3 x4 x5 x6 x7 : Sample) (rest u v : List Sample),
    s.mixIn = x0 :: x1 :: x2 :: x3 :: x4 :: x5 :: x6 :: x7 :: rest →
    had4 F32.num x0 x1 x2 x3 = u → had4 F32.num x4 x5 x6 x7 = v →
    ∃ t, exec .had8 s = .next t ∧ t = { s with y := t.y } ∧ t.y.length = 8 ∧
      ∀ j < 4, t.y.getD j 0 = F32.fadd (u.getD j 0) (v.getD j 0) ∧
        t.y.getD (j + 4) 0 = F32.fsub (u.getD j 0) (v.getD j 0)) ∧
  (∀ s : State, s.mixIn.length < 8 → exec .had8 s = .refused .mixerVectorTooShort) ∧
  (∀ x0 x1 x2 x3 x4 x5 x6 x7 : ℝ, had8 ExactReal.num x0 x1 x2 x3 x4 x5 x6 x7 =
    [x0 + x1 + x2 + x3 + x4 + x5 + x6 + x7, x0 - x1 + x2 - x3 + x4 - x5 + x6 - x7,
     x0 + x1 - x2 - x3 + x4 + x5 - x6 - x7, x0 - x1 - x2 + x3 + x4 - x5 - x6 + x7,
     x0 + x1 + x2 + x3 - x4 - x5 - x6 - x7, x0 - x1 + x2 - x3 - x4 + x5 - x6 + x7,
     x0 + x1 - x2 - x3 - x4 - x5 + x6 + x7, x0 - x1 - x2 + x3 - x4 + x5 + x6 - x7])

/-- R82: the butterfly loop, stage after stage in the order h = 1, 2, 4, each stage pairing the elements whose indices
differ in the bit of its `h`, gives the transforms of R83 to R86, in every instance of `Num`. -/
def Obligations.ButterflyStagesGiveTheTransforms : Prop :=
  ∀ (α : Type) (num : Num α) (x : Nat → α),
    let stage := fun (h : Nat) (y : Nat → α) (j : Nat) =>
      if j / h % 2 = 0 then num.fadd (y j) (y (j + h)) else num.fsub (y (j - h)) (y j)
    had1 (x 0) = (List.range 1).map x ∧
    had2 num (x 0) (x 1) = (List.range 2).map (stage 1 x) ∧
    had4 num (x 0) (x 1) (x 2) (x 3) = (List.range 4).map (stage 2 (stage 1 x)) ∧
    had8 num (x 0) (x 1) (x 2) (x 3) (x 4) (x 5) (x 6) (x 7)
      = (List.range 8).map (stage 4 (stage 2 (stage 1 x))) ∧
    ∀ lg ≤ 3, mixBlock num (2 ^ lg) ((List.range (2 ^ lg)).map x)
      = .ok (hadamard num lg ((List.range (2 ^ lg)).map x))

/-- R87 under `Num.real`, for the block size `2 ^ lg` and every `lg`: the closed form by the parity of the common bits,
the self-inverse law, the energy law, and the sign counts of the rows. -/
def Obligations.HadamardLawsOverTheReals : Prop :=
  ∀ (lg : Nat) (x : List ℝ), x.length = 2 ^ lg →
    let y := hadamard ExactReal.num lg x
    let sign := fun j m : Nat => (-1 : ℝ) ^ ((List.range lg).countP fun b => j.testBit b && m.testBit b)
    y.length = 2 ^ lg ∧
    (∀ j < 2 ^ lg, y.getD j 0 = ∑ m ∈ Finset.range (2 ^ lg), sign j m * x.getD m 0) ∧
    hadamard ExactReal.num lg y = x.map (2 ^ lg * ·) ∧
    (y.map (· ^ 2)).sum = 2 ^ lg * (x.map (· ^ 2)).sum ∧
    y.getD 0 0 = x.sum ∧
    ∀ j, 0 < j → j < 2 ^ lg →
      2 * ((List.range (2 ^ lg)).countP fun m => decide (sign j m = 1)) = 2 ^ lg

/-- R88: the rotation sends block `b` onto the whole of block `(b + FB_SHIFT div BLOCK_SIZE) mod (N div BLOCK_SIZE)`, keeps
the place in the block, and reaches every line exactly once. -/
def Obligations.RotationIsABijectionOfTheLines : Prop :=
  ∀ (B fb N : Nat), 0 < B → 0 < N → N % B = 0 → fb % B = 0 →
    (∀ b j, b < N / B → j < B → rotated B fb N b j = (b * B + j + fb) % N ∧
      rotated B fb N b j = (b + fb / B) % (N / B) * B + j) ∧
    (∀ b j b' j', b < N / B → j < B → b' < N / B → j' < B → rotated B fb N b j = rotated B fb N b' j' →
      b = b' ∧ j = j') ∧
    (∀ d < N, ∃ b j, b < N / B ∧ j < B ∧ rotated B fb N b j = d) ∧
    (fb % N = 0 → ∀ b j, b < N / B → j < B → rotated B fb N b j / B = b)

/-- R73: the stride map is a bijection of the lines exactly when 39 and the number of lines have no common factor, and
its table for the smallest networks. -/
def Obligations.StridePermutationIsABijection : Prop :=
  (∀ N, 0 < N → (Nat.gcd N 39 = 1 ↔ ∀ d < N, ∃ i < N, strideIndex N i = d ∧ ∀ i' < N, strideIndex N i' = d → i' = i)) ∧
  (List.range 2).map (strideIndex 2) = [0, 1] ∧ (List.range 4).map (strideIndex 4) = [0, 3, 2, 1] ∧
  (List.range 8).map (strideIndex 8) = [0, 7, 6, 5, 4, 3, 2, 1] ∧
  (List.range 10).map (strideIndex 10) = [0, 9, 8, 7, 6, 5, 4, 3, 2, 1] ∧
  (List.range 14).map (strideIndex 14) = [0, 11, 8, 5, 2, 13, 10, 7, 4, 1, 12, 9, 6, 3] ∧
  (List.range 16).map (strideIndex 16) = [0, 7, 14, 5, 12, 3, 10, 1, 8, 15, 6, 13, 4, 11, 2, 9]

/-! ## Numbers (spec/00_scope.md R8, spec/10_state.md R21, spec/44_setters.md R108) -/

/-- R21: the two gains are computed in that order; their product is exactly 1 over the reals; the bit patterns under
`Num.f32`, exact for block sizes 1 and 4 and one unit in the last place below 1 for 2 and 8. -/
def Obligations.UnityGainIdentity : Prop :=
  (∀ (α : Type) (num : Num α) (B : Nat),
    matrixAttOf num B = num.fsqrt (num.fdiv (num.ofNat 1) (num.ofNat B)) ∧
    invMatrixAttOf num B = num.fdiv (num.ofNat 1) (matrixAttOf num B)) ∧
  (∀ B : Nat, 0 < B → matrixAttOf ExactReal.num B * invMatrixAttOf ExactReal.num B = 1) ∧
  (∀ row ∈ ([(1, 0x3F800000, 0x3F800000, 0x3F800000), (2, 0x3F3504F3, 0x3FB504F3, 0x3F7FFFFF),
      (4, 0x3F000000, 0x40000000, 0x3F800000), (8, 0x3EB504F3, 0x403504F3, 0x3F7FFFFF)] :
      List (Nat × Sample × Sample × Sample)),
    matrixAttOf F32.num row.1 = row.2.1 ∧ invMatrixAttOf F32.num row.1 = row.2.2.1 ∧
    F32.fmul row.2.1 row.2.2.1 = row.2.2.2)

/-- R106 and R108 over the reals: step 6 cancels the matrix factor of a coefficient, so a tap has gain
`10 ^ (-3 * D / (rate * seconds))`; over lines whose delays sum to `D` the gains multiply to the gain of `D`, which is
`10 ^ -3` (-60 dB) where `D / rate = seconds`; the coefficient lies in (0, `MATRIX_ATT`], and a longer line has a
smaller one. -/
def Obligations.GainAlgebraOverTheReals : Prop :=
  ∀ (B : Nat) (rate seconds : ℝ), 0 < B → 0 < rate → 0 < seconds →
    let att := matrixAttOf ExactReal.num B
    let gain := fun d : Nat => (10 : ℝ) ^ (-3 * (d : ℝ) / (rate * seconds))
    let coef := fun d : Nat => coefficient ExactReal.num att rate d seconds
    (∀ d, coef d = att * gain d) ∧
    (∀ d, invMatrixAttOf ExactReal.num B * coef d = gain d) ∧
    (∀ ds : List Nat, (ds.map gain).prod = gain ds.sum) ∧
    (∀ d : Nat, (d : ℝ) / rate = seconds → gain d = 1 / 1000) ∧
    (∀ d, 0 < coef d ∧ coef d ≤ att) ∧
    ∀ d d', d < d' → coef d' < coef d

/-- R8: the three properties of `fpow10` under `Num.f32`, whatever the open functions of Config are (log entry 6). -/
def Obligations.Pow10HasItsThreeProperties : Prop :=
  F32.fpow10 0 = 0x3F800000 ∧
  (∀ a b : Sample, F32.le a b = true → F32.le (F32.fpow10 a) (F32.fpow10 b) = true) ∧
  (∀ e : Sample, F32.isFinite e = true → F32.le e 0 = true →
    F32.lt 0 (F32.fpow10 e) = true ∧ F32.le (F32.fpow10 e) 0x3F800000 = true)

/-- R8: under `Num.f32` the comparisons are those of the values, `truncToNat` is the integer part of a value that is not
negative, and `ofNat` is exact for the numbers a binary32 fraction holds. -/
def Obligations.Binary32ConversionsFollowTheValue : Prop :=
  (∀ a b : Sample, F32.isFinite a = true → F32.isFinite b = true →
    (F32.lt a b = true ↔ ExactReal.value a < ExactReal.value b) ∧
    (F32.le a b = true ↔ ExactReal.value a ≤ ExactReal.value b)) ∧
  (∀ w : Sample, F32.isFinite w = true → 0 ≤ ExactReal.value w → F32.truncToNat w = some ⌊ExactReal.value w⌋₊) ∧
  (∀ w : Sample, F32.isFinite w = false ∨ ExactReal.value w < 0 → F32.truncToNat w = none) ∧
  (∀ n : Nat, n ≤ 2 ^ 24 → F32.isFinite (F32.ofNat n) = true ∧ ExactReal.value (F32.ofNat n) = n)

/-- R8: `fadd`, `fsub` and `fmul` under `Num.f32` of finite operands answer the finite value nearest to the exact one,
the even pattern on a tie, unless the exact one is too large. -/
def Obligations.AddSubMulRoundToNearestEven : Prop :=
  ∀ a b : Sample, F32.isFinite a = true → F32.isFinite b = true →
    ∀ op ∈ ([(F32.fadd a b, ExactReal.value a + ExactReal.value b), (F32.fsub a b, ExactReal.value a - ExactReal.value b),
        (F32.fmul a b, ExactReal.value a * ExactReal.value b)] : List (Sample × ℝ)),
      (F32.isFinite op.1 = true ↔ |op.2| < (2 ^ 25 - 1) * 2 ^ 103) ∧
      (F32.isFinite op.1 = true → ∀ w : Sample, F32.isFinite w = true →
        |ExactReal.value op.1 - op.2| ≤ |ExactReal.value w - op.2| ∧
        (|ExactReal.value op.1 - op.2| = |ExactReal.value w - op.2| → ExactReal.value w ≠ ExactReal.value op.1 →
          F32.magnitude op.1 % 2 = 0))

/-- R8: `fdiv` by a value that is not 0 and `fsqrt` of a value that is not negative, likewise. -/
def Obligations.DivSqrtRoundToNearestEven : Prop :=
  ∀ a b : Sample, F32.isFinite a = true → F32.isFinite b = true → ExactReal.value b ≠ 0 →
    ∀ op ∈ ([(F32.fdiv a b, ExactReal.value a / ExactReal.value b)] ++
        (if F32.signBit a = false then [(F32.fsqrt a, Real.sqrt (ExactReal.value a))] else []) : List (Sample × ℝ)),
      (F32.isFinite op.1 = true ↔ |op.2| < (2 ^ 25 - 1) * 2 ^ 103) ∧
      (F32.isFinite op.1 = true → ∀ w : Sample, F32.isFinite w = true →
        |ExactReal.value op.1 - op.2| ≤ |ExactReal.value w - op.2| ∧
        (|ExactReal.value op.1 - op.2| = |ExactReal.value w - op.2| → ExactReal.value w ≠ ExactReal.value op.1 →
          F32.magnitude op.1 % 2 = 0))

/-! ## Registers at the `REG` port (spec/10_state.md) -/

/-- R16 and R18: the fields of `STATUS`. -/
def Obligations.StatusWordHoldsTheFlags : Prop :=
  ∀ s : State,
    field (statusWord s) 1 0 = (match s.phase with
      | .unbuilt => 0
      | .idle => 1
      | .busy => 2
      | .fault => 3) ∧
    field (statusWord s) 2 2 = (if s.shortfall then 1 else 0) ∧
    field (statusWord s) 3 3 = (if s.hasZeroTaps then 1 else 0) ∧
    field (statusWord s) 31 4 = 0

/-- R19: the control registers by number, outside `BUSY`, and 0 for a number that names none, in every phase. Numbers 16
to 18 have no value the spec fixes (log entry 19). -/
def Obligations.RegPortReadsTheControlRegisters : Prop :=
  ∀ (s : State) (nonce : Nat),
    let read := fun no => readReg F32.params nonce no s
    (∀ no, 19 ≤ no → no < 0x00010000 → read no = some 0) ∧
    (s.phase ≠ .busy →
      read 0 = some (statusWord s) ∧ read 1 = some (s.faultCause.zeroExtend 32) ∧
      (s.diagCount < 2 ^ 32 → ∃ w, read 2 = some w ∧ w.toNat = s.diagCount) ∧
      (s.numDelays < 2 ^ 32 → ∃ w, read 3 = some w ∧ w.toNat = s.numDelays) ∧
      (s.blockSize < 2 ^ 32 → ∃ w, read 4 = some w ∧ w.toNat = s.blockSize) ∧
      (s.fbShift < 2 ^ 32 → ∃ w, read 5 = some w ∧ w.toNat = s.fbShift) ∧
      read 6 = some (if s.hasZeroTaps then 1 else 0) ∧
      (s.minDelaySamples < 2 ^ 32 → ∃ w, read 7 = some w ∧ w.toNat = s.minDelaySamples) ∧
      (s.maxDelaySamples < 2 ^ 32 → ∃ w, read 8 = some w ∧ w.toNat = s.maxDelaySamples) ∧
      read 9 = some s.sampleRate ∧ read 10 = some s.minDelaySeconds ∧ read 11 = some s.maxDelaySeconds ∧
      read 12 = some s.matrixAtt ∧ read 13 = some s.invMatrixAtt ∧ read 14 = some s.inputAtt ∧
      read 15 = some s.inputPan)

/-- R31: the per-line registers of a network in `IDLE` by number; 0 for a line that does not exist, for the two spare
numbers of a ring, and in `UNBUILT` and `FAULT`; in `BUSY`, of the registers, only `STATUS` has a value the spec fixes
(log entry 20). -/
def Obligations.RegPortReadsTheLines : Prop :=
  ∀ (s : State) (nonce : Nat),
    (s.phase = .idle → NetworkInv 0 s → s.numDelays < 2 ^ 16 → ∀ i < s.numDelays, ∃ d c g r,
      s.delay[i]? = some d ∧ s.coef[i]? = some c ∧ s.sign[i]? = some g ∧ Store.read s.rings i = some r ∧
      readReg F32.params nonce (0x00010000 + 4 * i) s = some (BitVec.ofNat 32 d) ∧
      readReg F32.params nonce (0x00010000 + 4 * i + 1) s = some c ∧
      readReg F32.params nonce (0x00010000 + 4 * i + 2) s = some (if g = .plus then 0 else 1) ∧
      readReg F32.params nonce (0x00010000 + 4 * i + 3) s = some (if i < s.numDelays / 2 then 0 else 1) ∧
      readReg F32.params nonce (0x00100000 + 8 * i) s = some (BitVec.ofNat 32 r.cap) ∧
      readReg F32.params nonce (0x00100000 + 8 * i + 1) s = some (BitVec.ofNat 32 r.rd) ∧
      readReg F32.params nonce (0x00100000 + 8 * i + 2) s = some (BitVec.ofNat 32 r.wr) ∧
      readReg F32.params nonce (0x00100000 + 8 * i + 3) s = some (BitVec.ofNat 32 r.fill) ∧
      readReg F32.params nonce (0x00100000 + 8 * i + 4) s = some (BitVec.ofNat 32 r.rwin) ∧
      readReg F32.params nonce (0x00100000 + 8 * i + 5) s = some (BitVec.ofNat 32 r.wwin)) ∧
    (∀ i < 2 ^ 16, readReg F32.params nonce (0x00100000 + 8 * i + 6) s = some 0 ∧
      readReg F32.params nonce (0x00100000 + 8 * i + 7) s = some 0) ∧
    (∀ i, s.numDelays ≤ i → i < 2 ^ 16 →
      (∀ f < 4, readReg F32.params nonce (0x00010000 + 4 * i + f) s = some 0) ∧
      ∀ f < 8, readReg F32.params nonce (0x00100000 + 8 * i + f) s = some 0) ∧
    (s.phase = .unbuilt ∨ s.phase = .fault → ∀ no, 0x00010000 ≤ no → readReg F32.params nonce no s = some 0) ∧
    (s.phase = .busy → readReg F32.params nonce 0 s = some (statusWord s))

/-! ## The whole machine -/

/-- R29, first column: the state right after reset, and that it meets the invariant and the memory's canonical form. -/
def Obligations.ResetStateMeetsTheInvariants : Prop :=
  State.reset.phase = .unbuilt ∧ State.reset.shortfall = false ∧ State.reset.hasZeroTaps = false ∧
  State.reset.faultCause = 0 ∧ State.reset.diagCount = 0 ∧ NoNetwork State.reset ∧
  MachineInv State.reset ∧ RegistersLegal F32.num State.reset ∧ Memory.wf State.reset = true

/-- Every step keeps the invariant of the machine: the network is at a chunk boundary whenever a command may be taken
(R26, R103), no network exists in `UNBUILT` and `FAULT` (R16, R30), `FAULT_CAUSE` is 0 exactly outside `FAULT` (R24),
and no shortfall is ever signalled (R103, R116). Where it holds, every step also keeps the registers of a standing
network at their legal values (R19 to R23): the sample rate finite and positive, the bounds in samples those of the
seconds, the gains those of the block size, the input attenuation that of the injection lines, the pan in [0, 1]. -/
def Obligations.StepKeepsTheMachineInvariant : Prop :=
  ∀ s t : State, MachineInv s → step s = .next t →
    MachineInv t ∧ (RegistersLegal F32.num s → RegistersLegal F32.num t)

/-- Under the invariant no step stops for want of storage: there is no fault, and a refusal is one that an operand of a
command causes (R33, R103, R117). -/
def Obligations.InvariantStepsStopOnOperandsOnly : Prop :=
  ∀ s : State, MachineInv s →
    (∃ t, step s = .next t) ∨ ∃ r, step s = .refused r ∧ r.ofOperand = true

/-- Every step from every state keeps the canonical form of the memory, and no cell beyond its ring's capacity is ever
listed (R25, R33). -/
def Obligations.StepKeepsTheMemoryForm : Prop :=
  ∀ s t : State, Memory.wf s = true → step s = .next t → Memory.wf t = true

/-- R20 and R30: while a network stands no operation, completed or made to wait by the host, changes its topology or the zero-tap flag, and none but the
rebuild (R110) changes any other register that only a construction writes, the delays, the signs, or (but for an
explicit `RING_INIT`) the capacity of a ring; nor does a step that goes on with a `PROCESS`, completed or waiting. -/
def Obligations.TopologyIsImmutable : Prop :=
  (∀ (i : Instr) (s t : State), s.phase = .idle → NetworkInv 0 s → exec i s = .next t →
    (t.phase = .idle ∨ t.phase = .busy) →
    (t.numDelays = s.numDelays ∧ t.blockSize = s.blockSize ∧ t.fbShift = s.fbShift ∧ t.hasZeroTaps = s.hasZeroTaps ∧
      t.sampleRate = s.sampleRate ∧ t.minDelaySeconds = s.minDelaySeconds) ∧
    ((∀ w, i ≠ .setMaxDelay w) → SameTopology s t ∧ t.delay = s.delay ∧ t.sign = s.sign ∧
      ((∀ line n m, i ≠ .ringInit line n m) → ∀ d < s.numDelays, ∃ r r', Store.read s.rings d = some r ∧
        Store.read t.rings d = some r' ∧ r'.cap = r.cap))) ∧
  (∀ s t : State, Interrupted s → step s = .next t →
    SameTopology s t ∧ SameLines s t ∧ t.coef = s.coef ∧ t.inputPan = s.inputPan)
end

