-- ==== Sys2Proof/Laws/Binary32.lean ====
section
/-! SUPPORT. Rounding under `Num.f32` (R8): the values of the patterns as a grid of real numbers, what rounding to the
nearest integer means, and that `roundMagnitude` puts the real number on its pattern's grid. -/

namespace Sys2Proof.Machine.F32

/-! ## Patterns and their values -/

/-- The real number a magnitude pattern denotes, were its exponent field not the largest (R38). -/
noncomputable def magValue (k : Nat) : ℝ :=
  ((if k / 2 ^ 23 = 0 then k else k % 2 ^ 23 + 2 ^ 23 : Nat) : ℝ)
    * (2 : ℝ) ^ (if k / 2 ^ 23 = 0 then (-149 : Int) else ((k / 2 ^ 23 : Nat) : Int) - 150)

theorem value_eq (w : Sample) :
    ExactReal.value w = (if signBit w then -1 else 1) * magValue (magnitude w) := by
  rw [ExactReal.value, magValue, mul_assoc]
  rfl

theorem magnitude_lt (w : Sample) : magnitude w < 2 ^ 31 := Nat.mod_lt _ (by norm_num)

theorem pack_toNat {n : Bool} {k : Nat} (h : k < 2 ^ 31) : (pack n k).toNat = (if n then 2 ^ 31 else 0) + k := by
  rw [pack, BitVec.toNat_ofNat, Nat.mod_eq_of_lt]
  cases n <;> norm_num at * <;> omega

theorem magnitude_pack {n : Bool} {k : Nat} (h : k < 2 ^ 31) : magnitude (pack n k) = k := by
  rw [magnitude, pack_toNat h]
  cases n <;> norm_num at * <;> omega

theorem signBit_pack {n : Bool} {k : Nat} (h : k < 2 ^ 31) : signBit (pack n k) = n := by
  rw [signBit, BitVec.getLsbD, pack_toNat h, Nat.testBit, Nat.shiftRight_eq_div_pow]
  have h2 : ((if n then 2 ^ 31 else 0) + k) / 2 ^ 31 = if n then 1 else 0 := by
    cases n <;> norm_num at * <;> omega
  rw [h2]
  cases n <;> decide

theorem value_pack {n : Bool} {k : Nat} (h : k < 2 ^ 31) :
    ExactReal.value (pack n k) = (if n then -1 else 1) * magValue k := by
  rw [value_eq, signBit_pack h, magnitude_pack h]

theorem isFinite_pack {n : Bool} {k : Nat} (h : k < 2 ^ 31) : isFinite (pack n k) = true ↔ k < infinity := by
  rw [isFinite, magnitude_pack h, decide_eq_true_iff]

theorem magValue_nonneg (k : Nat) : 0 ≤ magValue k := by
  rw [magValue]
  positivity

@[simp] theorem magValue_zero : magValue 0 = 0 := by
  simp [magValue]

/-- The pattern of `q` units of size `2 ^ (n - 149)`, in the range where these units are the pattern's own. -/
theorem magValue_grid {n q : Nat} (h1 : q ≤ 2 ^ 24) (h2 : q < 2 ^ 23 → n = 0) :
    magValue (n * 2 ^ 23 + q) = q * (2 : ℝ) ^ ((n : Int) - 149) := by
  rw [magValue]
  rcases Nat.lt_or_ge q (2 ^ 23) with hq | hq
  · rw [h2 hq, Nat.zero_mul, Nat.zero_add, Nat.div_eq_of_lt hq, if_pos rfl, if_pos rfl]
    norm_num
  · rcases Nat.lt_or_ge q (2 ^ 24) with hq2 | hq2
    · have e1 : (n * 2 ^ 23 + q) / 2 ^ 23 = n + 1 := by omega
      have e2 : (n * 2 ^ 23 + q) % 2 ^ 23 + 2 ^ 23 = q := by omega
      rw [e1, e2, if_neg (by omega), if_neg (by omega)]
      congr 2
      push_cast
      ring
    · have e0 : q = 2 ^ 24 := by omega
      have e1 : (n * 2 ^ 23 + q) / 2 ^ 23 = n + 2 := by omega
      have e2 : (n * 2 ^ 23 + q) % 2 ^ 23 + 2 ^ 23 = 2 ^ 23 := by omega
      rw [e1, e2, if_neg (by omega), if_neg (by omega), e0]
      rw [show ((n + 2 : Nat) : Int) - 150 = ((n : Int) - 149) + 1 by push_cast; ring, zpow_add₀ (by norm_num)]
      push_cast
      ring

/-- Every pattern is on the grid of its own units. -/
theorem magValue_units (k : Nat) : ∃ n q : Nat, q < 2 ^ 24 ∧ (q < 2 ^ 23 → n = 0) ∧ k = n * 2 ^ 23 + q ∧
    magValue k = q * (2 : ℝ) ^ ((n : Int) - 149) := by
  rcases Nat.lt_or_ge k (2 ^ 23) with hk | hk
  · exact ⟨0, k, by omega, fun _ => rfl, by omega, by
      have := magValue_grid (n := 0) (q := k) (by omega) fun _ => rfl
      simpa using this⟩
  · have e : k = (k / 2 ^ 23 - 1) * 2 ^ 23 + (k % 2 ^ 23 + 2 ^ 23) := by omega
    refine ⟨k / 2 ^ 23 - 1, k % 2 ^ 23 + 2 ^ 23, by omega, by omega, e, ?_⟩
    conv_lhs => rw [e]
    exact magValue_grid (by omega) (by omega)

/-! ## Rounding to an integer -/

/-- `q` is an integer nearest to `y`, the even one where two are. -/
def IsRound (q : Nat) (y : ℝ) : Prop :=
  |(q : ℝ) - y| ≤ 1 / 2 ∧ (|(q : ℝ) - y| = 1 / 2 → q % 2 = 0)

theorem isRound_self (q : Nat) : IsRound q q := by
  refine ⟨by norm_num, fun h => ?_⟩
  norm_num at h

/-- No integer is nearer, and on a tie with another integer the rounded one is even. -/
theorem IsRound.nearest {q : Nat} {y : ℝ} (h : IsRound q y) (j : Nat) :
    |(q : ℝ) - y| ≤ |(j : ℝ) - y| ∧ (|(q : ℝ) - y| = |(j : ℝ) - y| → j ≠ q → q % 2 = 0) := by
  by_cases hj : j = q
  · subst hj
    exact ⟨le_refl _, fun _ h => absurd rfl h⟩
  · have h1 : (1 : ℝ) ≤ |(j : ℝ) - q| := by
      have : (1 : Int) ≤ |(j : Int) - q| := Int.one_le_abs (by omega)
      exact_mod_cast this
    have h2 : |(j : ℝ) - q| ≤ |(j : ℝ) - y| + |(q : ℝ) - y| := by
      have := abs_sub_le (j : ℝ) y q
      rwa [abs_sub_comm y (q : ℝ)] at this
    refine ⟨by linarith [h.1], fun he _ => h.2 ?_⟩
    linarith [h.1]

theorem roundShift_isRound (m s : Nat) : IsRound (roundShift m s) ((m : ℝ) / 2 ^ s) := by
  have hp : (0 : ℝ) < 2 ^ s := by positivity
  have hm : (m : ℝ) / 2 ^ s = ((m / 2 ^ s : Nat) : ℝ) + ((m % 2 ^ s : Nat) : ℝ) / 2 ^ s := by
    rw [div_eq_iff hp.ne', add_mul, div_mul_cancel₀ _ hp.ne']
    exact_mod_cast (Nat.div_add_mod' m (2 ^ s)).symm
  have hr0 : (0 : ℝ) ≤ ((m % 2 ^ s : Nat) : ℝ) / 2 ^ s := by positivity
  have hr1 : ((m % 2 ^ s : Nat) : ℝ) / 2 ^ s < 1 := by
    rw [div_lt_one hp]
    exact_mod_cast Nat.mod_lt m (by positivity)
  have cmp : ∀ c : Nat, (((m % 2 ^ s : Nat) : ℝ) / 2 ^ s ≤ c / 2 ↔ 2 * (m % 2 ^ s) ≤ c * 2 ^ s) ∧
      ((c : ℝ) / 2 ≤ ((m % 2 ^ s : Nat) : ℝ) / 2 ^ s ↔ c * 2 ^ s ≤ 2 * (m % 2 ^ s)) := by
    intro c
    rw [div_le_div_iff₀ hp (by norm_num), div_le_div_iff₀ (by norm_num) hp]
    constructor
    · rw [mul_comm (((m % 2 ^ s : Nat)) : ℝ) 2]; exact_mod_cast Iff.rfl
    · rw [mul_comm (((m % 2 ^ s : Nat)) : ℝ) 2]; exact_mod_cast Iff.rfl
  obtain ⟨c1, c2⟩ := cmp 1
  rw [Nat.one_mul, Nat.cast_one] at c1 c2
  rw [roundShift]
  split_ifs with h
  · have hh : 1 / 2 ≤ ((m % 2 ^ s : Nat) : ℝ) / 2 ^ s := c2.mpr (by omega)
    rw [IsRound, hm]
    push_cast at *
    refine ⟨abs_le.mpr ⟨by linarith, by linarith⟩, fun he => ?_⟩
    rcases abs_eq (by norm_num : (0 : ℝ) ≤ 1 / 2) |>.mp he with he | he
    · have := c1.mp (by linarith)
      omega
    · linarith
  · have hh : ((m % 2 ^ s : Nat) : ℝ) / 2 ^ s ≤ 1 / 2 := c1.mpr (by omega)
    rw [IsRound, hm]
    refine ⟨abs_le.mpr ⟨by linarith, by linarith⟩, fun he => ?_⟩
    rcases abs_eq (by norm_num : (0 : ℝ) ≤ 1 / 2) |>.mp he with he | he
    · linarith
    · have := c2.mp (by linarith)
      omega

/-! ## Rounding to a pattern -/

/-- The pattern `n * 2 ^ 23 + q` is `x` rounded to units of `2 ^ (n - 149)`, and these are the units of the patterns
about `x`. -/
structure OnGrid (n q : Nat) (x : ℝ) : Prop where
  rounded : IsRound q (x / (2 : ℝ) ^ ((n : Int) - 149))
  below : x < 2 ^ 24 * (2 : ℝ) ^ ((n : Int) - 149)
  above : n ≠ 0 → 2 ^ 23 * (2 : ℝ) ^ ((n : Int) - 149) ≤ x
  nonneg : 0 ≤ x

theorem two_zpow_pos (e : Int) : (0 : ℝ) < (2 : ℝ) ^ e := by positivity

theorem zpow_split (a b : Int) : (2 : ℝ) ^ a = (2 : ℝ) ^ (a - b) * (2 : ℝ) ^ b := by
  rw [← zpow_add₀ (by norm_num)]
  congr 1
  ring

theorem zpow_toNat {d : Int} (h : 0 ≤ d) : (2 : ℝ) ^ d = ((2 ^ d.toNat : Nat) : ℝ) := by
  conv_lhs => rw [← Int.toNat_of_nonneg h]
  rw [zpow_natCast]
  push_cast
  rfl

/-- `roundMagnitude` on an exact `m * 2 ^ e`. -/
theorem roundMagnitude_exact {m : Nat} (hm : m ≠ 0) (e : Int) : ∃ n q : Nat,
    roundMagnitude m e = min infinity (n * 2 ^ 23 + q) ∧ (n : Int) = max (e + (Nat.log2 m : Int) - 23) (-149) + 149 ∧
    OnGrid n q (m * (2 : ℝ) ^ e) := by
  obtain ⟨u, hu⟩ : ∃ u : Int, u = max (e + (Nat.log2 m : Int) - 23) (-149) := ⟨_, rfl⟩
  have hn : (((u + 149).toNat : Nat) : Int) = u + 149 := Int.toNat_of_nonneg (by omega)
  have hu' : (((u + 149).toNat : Nat) : Int) - 149 = u := by omega
  have hL1 : 2 ^ Nat.log2 m ≤ m := Nat.log2_self_le hm
  have hL2 : m < 2 ^ (Nat.log2 m + 1) := Nat.lt_log2_self
  have hpos := two_zpow_pos
  have scale : ∀ k : Nat, (2 : ℝ) ^ k * (2 : ℝ) ^ e = (2 : ℝ) ^ (e + k) := fun k => by
    rw [add_comm, zpow_add₀ (by norm_num), zpow_natCast]
  have hbelow : (m : ℝ) * (2 : ℝ) ^ e < 2 ^ 24 * (2 : ℝ) ^ u := by
    have h1 : (m : ℝ) < 2 ^ (Nat.log2 m + 1) := by exact_mod_cast hL2
    have h2 : (m : ℝ) * (2 : ℝ) ^ e < (2 : ℝ) ^ (e + (Nat.log2 m + 1 : Nat)) := by
      rw [← scale]
      exact mul_lt_mul_of_pos_right h1 (hpos e)
    have h3 : (2 : ℝ) ^ (e + (Nat.log2 m + 1 : Nat)) ≤ (2 : ℝ) ^ (u + 24) :=
      zpow_le_zpow_right₀ (by norm_num) (by push_cast; omega)
    have h4 : (2 : ℝ) ^ (u + 24) = 2 ^ 24 * (2 : ℝ) ^ u := by
      rw [zpow_add₀ (by norm_num), mul_comm]
      norm_num
    linarith
  have habove : (u + 149).toNat ≠ 0 → 2 ^ 23 * (2 : ℝ) ^ u ≤ (m : ℝ) * (2 : ℝ) ^ e := by
    intro h
    have h1 : (2 : ℝ) ^ Nat.log2 m ≤ m := by exact_mod_cast hL1
    have h2 : (2 : ℝ) ^ (e + (Nat.log2 m : Nat)) ≤ (m : ℝ) * (2 : ℝ) ^ e := by
      rw [← scale]
      exact mul_le_mul_of_nonneg_right h1 (hpos e).le
    have h3 : 2 ^ 23 * (2 : ℝ) ^ u = (2 : ℝ) ^ (e + (Nat.log2 m : Nat)) := by
      rw [show e + ((Nat.log2 m : Nat) : Int) = u + 23 by omega, zpow_add₀ (by norm_num), mul_comm]
      norm_num
    linarith
  have hround : IsRound (if u ≤ e then m * 2 ^ (e - u).toNat else roundShift m (u - e).toNat)
      ((m : ℝ) * (2 : ℝ) ^ e / (2 : ℝ) ^ u) := by
    split_ifs with h
    · have : (m : ℝ) * (2 : ℝ) ^ e / (2 : ℝ) ^ u = ((m * 2 ^ (e - u).toNat : Nat) : ℝ) := by
        rw [div_eq_iff (hpos u).ne', zpow_split e u, zpow_toNat (show 0 ≤ e - u by omega)]
        push_cast
        ring
      rw [this]
      exact isRound_self _
    · have : (m : ℝ) * (2 : ℝ) ^ e / (2 : ℝ) ^ u = (m : ℝ) / 2 ^ (u - e).toNat := by
        rw [zpow_split u e, zpow_toNat (show 0 ≤ u - e by omega)]
        have := (hpos e).ne'
        push_cast
        field_simp
      rw [this]
      exact roundShift_isRound m _
  refine ⟨(u + 149).toNat, if u ≤ e then m * 2 ^ (e - u).toNat else roundShift m (u - e).toNat, ?_, by omega, ⟨?_, ?_, ?_, by positivity⟩⟩
  · rw [roundMagnitude, if_neg hm]
    simp only [← hu]
  · rw [hu']; exact hround
  · rw [hu']; exact hbelow
  · intro h; rw [hu']; exact habove h

end Sys2Proof.Machine.F32
end

