-- ==== Sys2Proof/Laws/Result.lean ====
section
/-! SUPPORT. The laws of results (Machine/Operands.lean): how a sequence of operations answers, and how a loop over a
list does. -/

namespace Sys2Proof.Machine

variable {β γ σ : Type}

@[simp] theorem res_bind_ok (b : β) (f : β → Res γ) : (Except.ok b >>= f : Res γ) = f b := rfl

@[simp] theorem res_bind_error (e : Stop) (f : β → Res γ) : (Except.error e >>= f : Res γ) = .error e := rfl

@[simp] theorem res_pure (b : β) : (pure b : Res β) = .ok b := rfl

@[simp] theorem res_map_ok (b : β) (f : β → γ) : Except.map f (.ok b : Res β) = .ok (f b) := rfl

@[simp] theorem res_map_error (e : Stop) (f : β → γ) : Except.map f (.error e : Res β) = .error e := rfl

/-- A sequence answers a value exactly when each part does. -/
theorem res_bind_eq_ok {x : Res β} {f : β → Res γ} {c : γ} :
    (x >>= f) = .ok c ↔ ∃ b, x = .ok b ∧ f b = .ok c := by
  cases x with
  | ok b => simp
  | error e => simp

/-- A sequence stops where its first part does, or its second. -/
theorem res_bind_eq_error {x : Res β} {f : β → Res γ} {e : Stop} :
    (x >>= f) = .error e ↔ x = .error e ∨ ∃ b, x = .ok b ∧ f b = .error e := by
  cases x with
  | ok b => simp
  | error e' => simp

@[simp] theorem orStop_some (v : β) (e : Stop) : orStop (some v) e = .ok v := rfl

@[simp] theorem orStop_none (e : Stop) : orStop (none : Option β) e = .error e := rfl

theorem orStop_eq_ok {x : Option β} {e : Stop} {v : β} : orStop x e = .ok v ↔ x = some v := by
  cases x <;> simp [orStop]

@[simp] theorem outcome_ok (s : σ) : outcome (.ok s : Res σ) = .next s := rfl

theorem outcome_eq_next {r : Res σ} {s : σ} : outcome r = .next s ↔ r = .ok s := by
  cases r with
  | ok t => simp [outcome]
  | error e => cases e <;> simp [outcome]

theorem outcome_eq_fault {r : Res σ} {f : Fault} : outcome r = .fault f ↔ r = .error (.fault f) := by
  cases r with
  | ok t => simp [outcome]
  | error e => cases e <;> simp [outcome]

theorem outcome_eq_refused {r : Res σ} {x : Refusal} : outcome r = .refused x ↔ r = .error (.refusal x) := by
  cases r with
  | ok t => simp [outcome]
  | error e => cases e <;> simp [outcome]

/-- A property that each round of a loop keeps holds after the loop. -/
theorem foldlM_keeps {ι : Type} {f : σ → ι → Res σ} {p : σ → Prop} {l : List ι}
    (step : ∀ s s' i, i ∈ l → p s → f s i = .ok s' → p s') {s s' : σ} (h0 : p s) (h : l.foldlM f s = .ok s') : p s' := by
  induction l generalizing s with
  | nil => simp only [List.foldlM_nil, res_pure, Except.ok.injEq] at h; exact h ▸ h0
  | cons i l ih =>
    rw [List.foldlM_cons, res_bind_eq_ok] at h
    obtain ⟨s1, h1, h2⟩ := h
    exact ih (fun s s' j hj => step s s' j (List.mem_cons_of_mem _ hj)) (step s s1 i List.mem_cons_self h0 h1) h2

/-- A loop over `0 .. n-1` whose every round answers, from a property indexed by the rounds done. -/
theorem foldlM_range_ok {f : σ → Nat → Res σ} {p : Nat → σ → Prop} {n : Nat}
    (step : ∀ i s, i < n → p i s → ∃ s', f s i = .ok s' ∧ p (i + 1) s') {s : σ} (h0 : p 0 s) :
    ∃ s', (List.range n).foldlM f s = .ok s' ∧ p n s' := by
  induction n with
  | zero => exact ⟨s, rfl, h0⟩
  | succ n ih =>
    obtain ⟨s1, h1, hp⟩ := ih (fun i s hi => step i s (Nat.lt_succ_of_lt hi))
    obtain ⟨s2, h2, hp2⟩ := step n s1 (Nat.lt_succ_self n) hp
    refine ⟨s2, ?_, hp2⟩
    rw [List.range_succ, List.foldlM_append, h1]
    simp only [res_bind_ok, List.foldlM_cons, h2, List.foldlM_nil, res_pure]

/-- A loop over a list whose every round answers, from a property indexed by the rounds done. -/
theorem foldlM_list_ok {ι : Type} {f : σ → ι → Res σ} {l : List ι} {p : Nat → σ → Prop}
    (step : ∀ (k : Nat) (i : ι) s, l[k]? = some i → p k s → ∃ s', f s i = .ok s' ∧ p (k + 1) s') {s : σ} (h0 : p 0 s) :
    ∃ s', l.foldlM f s = .ok s' ∧ p l.length s' := by
  induction l generalizing s p with
  | nil => exact ⟨s, rfl, h0⟩
  | cons i l ih =>
    obtain ⟨s1, h1, hp⟩ := step 0 i s rfl h0
    obtain ⟨s2, h2, hp2⟩ := ih (p := fun k => p (k + 1)) (fun k j s hk => step (k + 1) j s (by simpa using hk)) hp
    exact ⟨s2, by rw [List.foldlM_cons, h1]; exact h2, hp2⟩

/-- A map over a list whose every element answers. -/
theorem mapM_ok {ι : Type} {f : ι → Res β} {g : ι → β} {l : List ι} (h : ∀ i ∈ l, f i = .ok (g i)) :
    l.mapM f = .ok (l.map g) := by
  induction l with
  | nil => rfl
  | cons i l ih =>
    rw [List.mapM_cons, h i List.mem_cons_self, ih fun j hj => h j (List.mem_cons_of_mem _ hj)]
    rfl

end Sys2Proof.Machine
end

