-- ==== Sys2Proof/Laws/Store.lean ====
section
/-! SUPPORT. The laws of the finite maps (Machine/Memory.lean): read after write and after erase, and that every
operation keeps the canonical form. -/

namespace Sys2Proof.Machine

variable {β : Type}

@[simp] theorem Store.read_nil (a : Nat) : Store.read ([] : Store β) a = none := rfl

theorem Store.read_cons (b : Nat) (v : β) (m : Store β) (a : Nat) :
    Store.read ((b, v) :: m) a = if a = b then some v else Store.read m a := rfl

@[simp] theorem Store.read_write_same (m : Store β) (a : Nat) (v : β) : Store.read (Store.write m a v) a = some v := by
  induction m with
  | nil => simp [Store.write, Store.read]
  | cons p m ih =>
    obtain ⟨b, w⟩ := p
    rw [Store.write]
    split
    · simp [Store.read]
    · split
      · simp [Store.read]
      · rw [Store.read_cons, if_neg ‹_›, ih]

theorem Store.read_write_other (m : Store β) {a c : Nat} (v : β) (h : c ≠ a) :
    Store.read (Store.write m a v) c = Store.read m c := by
  induction m with
  | nil => simp [Store.write, Store.read, h]
  | cons p m ih =>
    obtain ⟨b, w⟩ := p
    rw [Store.write]
    split
    · rw [Store.read_cons, if_neg h]
    · split
      · next hb => subst hb; simp [Store.read, h]
      · simp [Store.read, ih]

/-- What a number reads as after a write. -/
theorem Store.read_write (m : Store β) (a c : Nat) (v : β) :
    Store.read (Store.write m a v) c = if c = a then some v else Store.read m c := by
  split
  · next h => subst h; simp
  · next h => exact Store.read_write_other m v h

/-- What a number reads as after an erase. -/
theorem Store.read_erase (m : Store β) (a c : Nat) :
    Store.read (Store.erase m a) c = if c = a then none else Store.read m c := by
  induction m with
  | nil => simp [Store.erase, Store.read]
  | cons p m ih =>
    obtain ⟨b, w⟩ := p
    rw [Store.erase]
    split
    · next h => subst h; rw [ih, Store.read_cons]; split <;> rfl
    · next h =>
      rw [Store.read_cons, Store.read_cons, ih]
      split
      · next hb => subst hb; simp [Ne.symm h]
      · rfl

theorem Store.wf_cons (a : Nat) (v : β) (m : Store β) :
    Store.wf ((a, v) :: m) = true ↔ (∀ p ∈ m, a < p.1) ∧ Store.wf m = true := by
  simp [Store.wf]

/-- Where a pair of a map after a write comes from. -/
theorem Store.mem_write {m : Store β} {a : Nat} {v : β} {p : Nat × β} (h : p ∈ Store.write m a v) :
    p = (a, v) ∨ p ∈ m := by
  induction m with
  | nil => simpa [Store.write] using h
  | cons q m ih =>
    obtain ⟨b, w⟩ := q
    rw [Store.write] at h
    split at h
    · simpa using h
    · split at h
      · rcases List.mem_cons.mp h with h | h
        · exact .inl h
        · exact .inr (List.mem_cons_of_mem _ h)
      · rcases List.mem_cons.mp h with h | h
        · exact .inr (h ▸ List.mem_cons_self)
        · exact (ih h).imp_right (List.mem_cons_of_mem _)

theorem Store.mem_erase {m : Store β} {a : Nat} {p : Nat × β} (h : p ∈ Store.erase m a) : p ∈ m ∧ p.1 ≠ a := by
  induction m with
  | nil => simp [Store.erase] at h
  | cons q m ih =>
    obtain ⟨b, w⟩ := q
    rw [Store.erase] at h
    split at h
    · exact ⟨List.mem_cons_of_mem _ (ih h).1, (ih h).2⟩
    · next hb =>
      rcases List.mem_cons.mp h with h | h
      · subst h; exact ⟨List.mem_cons_self, Ne.symm hb⟩
      · exact ⟨List.mem_cons_of_mem _ (ih h).1, (ih h).2⟩

/-- A write keeps the canonical form. -/
theorem Store.wf_write {m : Store β} (h : Store.wf m = true) (a : Nat) (v : β) : Store.wf (Store.write m a v) = true := by
  induction m with
  | nil => rfl
  | cons q m ih =>
    obtain ⟨b, w⟩ := q
    obtain ⟨hb, hm⟩ := (Store.wf_cons b w m).mp h
    rw [Store.write]
    split
    · next hab =>
      refine (Store.wf_cons _ _ _).mpr ⟨?_, h⟩
      intro p hp
      rcases List.mem_cons.mp hp with rfl | hp
      · exact hab
      · exact Nat.lt_trans hab (hb p hp)
    · split
      · next hab => subst hab; exact (Store.wf_cons _ _ _).mpr ⟨hb, hm⟩
      · next h1 h2 =>
        refine (Store.wf_cons _ _ _).mpr ⟨?_, ih hm⟩
        intro p hp
        rcases Store.mem_write hp with rfl | hp
        · exact Nat.lt_of_le_of_ne (Nat.le_of_not_lt h1) (Ne.symm h2)
        · exact hb p hp

/-- An erase keeps the canonical form. -/
theorem Store.wf_erase {m : Store β} (h : Store.wf m = true) (a : Nat) : Store.wf (Store.erase m a) = true := by
  induction m with
  | nil => rfl
  | cons q m ih =>
    obtain ⟨b, w⟩ := q
    obtain ⟨hb, hm⟩ := (Store.wf_cons b w m).mp h
    rw [Store.erase]
    split
    · exact ih hm
    · exact (Store.wf_cons _ _ _).mpr ⟨fun p hp => hb p (Store.mem_erase hp).1, ih hm⟩

/-- In canonical form the pairs are exactly what reads give. -/
theorem Store.mem_iff_read {m : Store β} (h : Store.wf m = true) (a : Nat) (v : β) :
    (a, v) ∈ m ↔ Store.read m a = some v := by
  induction m with
  | nil => simp
  | cons q m ih =>
    obtain ⟨b, w⟩ := q
    obtain ⟨hb, hm⟩ := (Store.wf_cons b w m).mp h
    rw [Store.read_cons, List.mem_cons]
    split
    · next hab =>
      subst hab
      constructor
      · rintro (h | h)
        · simp only [Prod.mk.injEq, true_and] at h; exact h ▸ rfl
        · exact absurd (hb _ h) (Nat.lt_irrefl _)
      · intro h; simp only [Option.some.injEq] at h; exact .inl (by rw [h])
    · next hab =>
      rw [← ih hm]
      constructor
      · rintro (h | h)
        · simp only [Prod.mk.injEq] at h; exact absurd h.1 hab
        · exact h
      · exact .inr

theorem Store.mem_of_read {m : Store β} {a : Nat} {v : β} (h : Store.read m a = some v) : (a, v) ∈ m := by
  induction m with
  | nil => simp at h
  | cons q m ih =>
    obtain ⟨b, w⟩ := q
    rw [Store.read_cons] at h
    split at h
    · next hab => subst hab; simp only [Option.some.injEq] at h; subst h; exact List.mem_cons_self
    · exact List.mem_cons_of_mem _ (ih h)

/-- Two maps in canonical form that read alike are the same list. -/
theorem Store.ext {m n : Store β} (hm : Store.wf m = true) (hn : Store.wf n = true)
    (h : ∀ a, Store.read m a = Store.read n a) : m = n := by
  induction m generalizing n with
  | nil =>
    cases n with
    | nil => rfl
    | cons q n => obtain ⟨b, w⟩ := q; have := h b; simp [Store.read_cons] at this
  | cons p m ih =>
    obtain ⟨a, v⟩ := p
    cases n with
    | nil => have := h a; simp [Store.read_cons] at this
    | cons q n =>
      obtain ⟨b, w⟩ := q
      obtain ⟨ha, hm'⟩ := (Store.wf_cons a v m).mp hm
      obtain ⟨hb, hn'⟩ := (Store.wf_cons b w n).mp hn
      have hmem : (a, v) ∈ (b, w) :: n := (Store.mem_iff_read hn a v).mpr (by rw [← h a]; simp [Store.read_cons])
      have hmem' : (b, w) ∈ (a, v) :: m := (Store.mem_iff_read hm b w).mpr (by rw [h b]; simp [Store.read_cons])
      have hab : a = b := by
        rcases List.mem_cons.mp hmem with h1 | h1
        · exact congrArg Prod.fst h1
        · rcases List.mem_cons.mp hmem' with h2 | h2
          · exact (congrArg Prod.fst h2).symm
          · exact absurd (Nat.lt_trans (hb _ h1) (ha _ h2)) (Nat.lt_irrefl _)
      subst hab
      have hvw : v = w := by have := h a; simpa [Store.read_cons] using this
      subst hvw
      refine congrArg _ (ih hm' hn' fun c => ?_)
      have hc := h c
      rw [Store.read_cons, Store.read_cons] at hc
      by_cases hca : c = a
      · subst hca
        have hnone : ∀ {l : Store β}, (∀ p ∈ l, c < p.1) → Store.read l c = none := by
          intro l hl
          cases hr : Store.read l c with
          | none => rfl
          | some x => exact absurd (hl _ (Store.mem_of_read hr)) (Nat.lt_irrefl _)
        rw [hnone ha, hnone hb]
      · simpa [hca] using hc

/-- The pre-fill of a ring: the numbers below `n`, and no other, have the value. -/
theorem Store.read_filled (n : Nat) (v : β) (a : Nat) : Store.read (Store.filled n v) a = if a < n then some v else none := by
  have key : ∀ k b, Store.read ((List.range' b k).map fun a => (a, v)) a = if b ≤ a ∧ a < b + k then some v else none := by
    intro k
    induction k with
    | zero => intro b; rw [if_neg (by omega)]; rfl
    | succ k ih =>
      intro b
      rw [List.range'_succ, List.map_cons, Store.read_cons, ih]
      by_cases hab : a = b
      · rw [if_pos hab, if_pos (by omega)]
      · rw [if_neg hab]; congr 1; exact propext (by omega)
  rw [Store.filled, List.range_eq_range', key]
  simp

theorem Store.wf_filled (n : Nat) (v : β) : Store.wf (Store.filled n v) = true := by
  have key : ∀ k b, Store.wf ((List.range' b k).map fun a => (a, v)) = true := by
    intro k
    induction k with
    | zero => intro b; rfl
    | succ k ih =>
      intro b
      rw [List.range'_succ, List.map_cons, Store.wf_cons]
      refine ⟨?_, ih _⟩
      simp only [List.mem_map, List.mem_range']
      rintro p ⟨x, ⟨i, _, rfl⟩, rfl⟩
      show b < b + 1 + 1 * i
      omega
  rw [Store.filled, List.range_eq_range']
  exact key n 0

/-- What a cell reads as after a run of erases. -/
theorem read_eraseCells (cells : Store β) (cell : Nat → Nat) (n a : Nat) :
    Store.read (eraseCells cells cell n) a = if ∃ k < n, cell k = a then none else Store.read cells a := by
  induction n with
  | zero => simp [eraseCells]
  | succ n ih =>
    rw [eraseCells, List.range_succ, List.foldl_append, List.foldl_cons, List.foldl_nil, Store.read_erase]
    rw [eraseCells] at ih
    rw [ih]
    by_cases h : a = cell n
    · rw [if_pos h, if_pos ⟨n, Nat.lt_succ_self n, h.symm⟩]
    · rw [if_neg h]
      congr 1
      apply propext
      constructor
      · rintro ⟨k, hk, rfl⟩; exact ⟨k, Nat.lt_succ_of_lt hk, rfl⟩
      · rintro ⟨k, hk, rfl⟩
        refine ⟨k, ?_, rfl⟩
        rcases Nat.lt_succ_iff_lt_or_eq.mp hk with h1 | rfl
        · exact h1
        · exact absurd rfl h

theorem wf_eraseCells {cells : Store β} (h : Store.wf cells = true) (cell : Nat → Nat) (n : Nat) :
    Store.wf (eraseCells cells cell n) = true := by
  induction n with
  | zero => exact h
  | succ n ih =>
    rw [eraseCells, List.range_succ, List.foldl_append, List.foldl_cons, List.foldl_nil]
    exact Store.wf_erase ih _

theorem mem_eraseCells {cells : Store β} {cell : Nat → Nat} {n : Nat} {p : Nat × β} (h : p ∈ eraseCells cells cell n) :
    p ∈ cells := by
  induction n with
  | zero => exact h
  | succ n ih =>
    rw [eraseCells, List.range_succ, List.foldl_append, List.foldl_cons, List.foldl_nil] at h
    exact ih (Store.mem_erase h).1

end Sys2Proof.Machine
end

