-- ==== Sys2Proof/Laws/Ring.lean ====
section
/-! SUPPORT. The laws of one ring: which cells its windows are, and what each ring operation does to the invariants
(R26) and to the unconsumed samples. -/

namespace Sys2Proof.Machine

variable {α : Type}

/-! ## Cells modulo the capacity -/

theorem mod_add_inj {c d a b : Nat} (ha : a < c) (hb : b < c) (h : (d + a) % c = (d + b) % c) : a = b := by
  have h' : d + a ≡ d + b [MOD c] := h
  have := Nat.ModEq.add_left_cancel' d h'
  rwa [Nat.ModEq, Nat.mod_eq_of_lt ha, Nat.mod_eq_of_lt hb] at this

/-- Two elements of a run no longer than the capacity are different cells. -/
theorem Ring.readCell_inj {r : Ring α} {j k : Nat} (hj : j < r.cap) (hk : k < r.cap)
    (h : r.readCell j = r.readCell k) : j = k :=
  mod_add_inj hj hk h

theorem Ring.readCell_lt {r : Ring α} (h : 0 < r.cap) (k : Nat) : r.readCell k < r.cap :=
  Nat.mod_lt _ h

/-- The write window continues the run of the read cursor behind the live cells (R26 item 1). -/
theorem Ring.writeCell_eq {r : Ring α} (h : r.wr = (r.rd + r.fill) % r.cap) (k : Nat) :
    r.writeCell k = r.readCell (r.fill + k) := by
  rw [Ring.writeCell, Ring.readCell, h, Nat.mod_add_mod, Nat.add_assoc]

/-! ## Names for the parts of the invariant -/

theorem RingInv.cap_pos {r : Ring α} (h : RingInv r) : 0 < r.cap := h.1
theorem RingInv.fill_le {r : Ring α} (h : RingInv r) : r.fill ≤ r.cap := h.2.2.1
theorem RingInv.wr_eq {r : Ring α} (h : RingInv r) : r.wr = (r.rd + r.fill) % r.cap := h.2.2.2.1
theorem RingInv.rwin_le {r : Ring α} (h : RingInv r) : r.rwin ≤ r.fill := h.2.2.2.2.1
theorem RingInv.wwin_le {r : Ring α} (h : RingInv r) : r.wwin ≤ r.cap - r.fill := h.2.2.2.2.2.1
theorem RingInv.cells_wf {r : Ring α} (h : RingInv r) : Store.wf r.cells = true := h.2.2.2.2.2.2.1
theorem RingInv.live {r : Ring α} (h : RingInv r) {k : Nat} (hk : k < r.fill) :
    ∃ v, Store.read r.cells (r.readCell k) = some v := Option.isSome_iff_exists.mp (h.2.2.2.2.2.2.2.1 k hk)
theorem RingInv.only {r : Ring α} (h : RingInv r) {c : Nat × α} (hc : c ∈ r.cells) :
    ∃ k < r.fill + r.wwin, c.1 = r.readCell k := h.2.2.2.2.2.2.2.2 c hc

/-- A cell outside the live cells and the write window holds nothing (R26 item 4). -/
theorem RingInv.unwritten {r : Ring α} (h : RingInv r) {k : Nat} (h1 : r.fill + r.wwin ≤ k) (h2 : k < r.cap) :
    Store.read r.cells (r.readCell k) = none := by
  cases hr : Store.read r.cells (r.readCell k) with
  | none => rfl
  | some v =>
    obtain ⟨j, hj, he⟩ := h.only (Store.mem_of_read hr)
    have h3 := h.wwin_le
    have h4 := h.fill_le
    have := Ring.readCell_inj (r := r) (by omega) h2 he.symm
    omega

/-! ## The operations keep the invariants (R26, R64) -/

theorem ringInv_initial (zero : α) {D m : Nat} (h : 0 < D + m) : RingInv (Ring.initial zero D m) := by
  refine ⟨h, h, Nat.le_add_right D m, ?_, Nat.zero_le _, Nat.zero_le _, Store.wf_filled D zero, ?_, ?_⟩
  · simp [Ring.initial]
  · intro k hk
    have hk' : k < D := hk
    simp only [Ring.initial, Ring.readCell, Store.read_filled, Nat.zero_add]
    rw [if_pos (by rw [Nat.mod_eq_of_lt (by omega)]; exact hk')]
    rfl
  · intro c hc
    have hr := (Store.mem_iff_read (Store.wf_filled D zero) c.1 c.2).mp hc
    rw [Store.read_filled] at hr
    have hlt : c.1 < D := by by_contra hn; rw [if_neg hn] at hr; cases hr
    refine ⟨c.1, by simpa [Ring.initial] using hlt, ?_⟩
    simp only [Ring.initial, Ring.readCell, Nat.zero_add]
    rw [Nat.mod_eq_of_lt (by omega)]

theorem ringInv_peekRead {r : Ring α} (h : RingInv r) (n : Nat) : RingInv { r with rwin := r.readGrant n } :=
  ⟨h.1, h.2.1, h.fill_le, h.wr_eq, Nat.min_le_right _ _, h.wwin_le, h.cells_wf, h.2.2.2.2.2.2.2.1, h.2.2.2.2.2.2.2.2⟩

theorem ringInv_peekWrite {r : Ring α} (h : RingInv r) (hw : r.wwin = 0) (n : Nat) :
    RingInv { r with wwin := r.writeGrant n } := by
  refine ⟨h.1, h.2.1, h.fill_le, h.wr_eq, h.rwin_le, Nat.min_le_right _ _, h.cells_wf, h.2.2.2.2.2.2.2.1, ?_⟩
  intro c hc
  obtain ⟨k, hk, he⟩ := h.only hc
  exact ⟨k, by rw [hw] at hk; exact Nat.lt_of_lt_of_le hk (Nat.le_add_right _ _), he⟩

/-- A write to the write window keeps the invariants. -/
theorem ringInv_write {r : Ring α} (h : RingInv r) {k : Nat} (hk : k < r.wwin) (v : α) :
    RingInv { r with cells := Store.write r.cells (r.writeCell k) v } := by
  refine ⟨h.1, h.2.1, h.fill_le, h.wr_eq, h.rwin_le, h.wwin_le, Store.wf_write h.cells_wf _ _, ?_, ?_⟩
  · intro j hj
    show (Store.read (Store.write r.cells (r.writeCell k) v) (r.readCell j)).isSome = true
    rw [Store.read_write]
    split
    · rfl
    · exact h.2.2.2.2.2.2.2.1 j hj
  · intro c hc
    rcases Store.mem_write hc with rfl | hc
    · exact ⟨r.fill + k, Nat.add_lt_add_left hk _, Ring.writeCell_eq h.wr_eq k⟩
    · exact h.only hc

/-- What the cells of a ring read as after `RELEASE_READ n`: the first `n` of the read window hold nothing. -/
theorem read_release {r : Ring α} (hf : r.fill ≤ r.cap) {n : Nat} (hn : n ≤ r.fill) {k : Nat} (hk : k < r.cap) :
    Store.read (r.release n).cells (r.readCell k) = if k < n then none else Store.read r.cells (r.readCell k) := by
  rw [Ring.release, read_eraseCells]
  congr 1
  apply propext
  constructor
  · rintro ⟨j, hj, he⟩
    rwa [← Ring.readCell_inj (r := r) (by omega) hk he]
  · intro h; exact ⟨k, h, rfl⟩

/-- Element `k` of the ring after a release is element `n + k` before it. -/
theorem readCell_release (r : Ring α) (n k : Nat) : (r.release n).readCell k = r.readCell (n + k) := by
  simp only [Ring.readCell, Ring.release, Nat.mod_add_mod, Nat.add_assoc]

theorem ringInv_release {r : Ring α} (h : RingInv r) {n : Nat} (hn : n ≤ r.rwin) : RingInv (r.release n) := by
  have h1 := h.rwin_le
  have h2 := h.fill_le
  have h3 := h.wwin_le
  have hf : (r.release n).fill = r.fill - n := rfl
  have hc : (r.release n).cap = r.cap := rfl
  refine ⟨h.cap_pos, Nat.mod_lt _ h.cap_pos, by rw [hf, hc]; omega, ?_, Nat.zero_le _, ?_,
    wf_eraseCells h.cells_wf _ _, ?_, ?_⟩
  · show r.wr = ((r.rd + n) % r.cap + (r.fill - n)) % r.cap
    rw [Nat.mod_add_mod, Nat.add_assoc, Nat.add_sub_cancel' (by omega)]
    exact h.wr_eq
  · show r.wwin ≤ r.cap - (r.fill - n); omega
  · intro k hk
    rw [hf] at hk
    rw [readCell_release, read_release h2 (by omega) (by omega), if_neg (by omega)]
    exact h.2.2.2.2.2.2.2.1 _ (by omega)
  · intro c hc'
    obtain ⟨k, hk, he⟩ := h.only (mem_eraseCells hc')
    have hnk : n ≤ k := by
      by_contra hlt
      have hr := (Store.mem_iff_read (wf_eraseCells h.cells_wf _ _) c.1 c.2).mp hc'
      have := read_release h2 (n := n) (by omega) (k := k) (by omega)
      rw [if_pos (by omega), ← he] at this
      exact absurd (this.symm.trans hr) (by simp)
    refine ⟨k - n, ?_, ?_⟩
    · show k - n < r.fill - n + r.wwin; omega
    · rw [readCell_release, Nat.add_sub_cancel' hnk]; exact he

/-- What the cells read as after `COMMIT_WRITE n`: the window beyond `n` holds nothing. -/
theorem read_commit {r : Ring α} (h : RingInv r) (n : Nat) {k : Nat} (hk : k < r.cap) :
    Store.read (r.commit n).cells (r.readCell k)
      = if r.fill + n ≤ k ∧ k < r.fill + r.wwin then none else Store.read r.cells (r.readCell k) := by
  rw [Ring.commit, read_eraseCells]
  congr 1
  have h2 := h.fill_le
  have h3 := h.wwin_le
  apply propext
  constructor
  · rintro ⟨j, hj, he⟩
    rw [Ring.writeCell_eq h.wr_eq] at he
    have := Ring.readCell_inj (r := r) (by omega) hk he
    omega
  · rintro ⟨ha, hb⟩
    refine ⟨k - (r.fill + n), by omega, ?_⟩
    rw [Ring.writeCell_eq h.wr_eq]
    congr 1; omega

theorem readCell_commit (r : Ring α) (n k : Nat) : (r.commit n).readCell k = r.readCell k := rfl

/-- A commit keeps the invariants when the committed cells hold samples. -/
theorem ringInv_commit {r : Ring α} (h : RingInv r) {n : Nat} (hn : n ≤ r.wwin)
    (hw : ∀ k < n, (Store.read r.cells (r.writeCell k)).isSome = true) : RingInv (r.commit n) := by
  have h2 := h.fill_le
  have h3 := h.wwin_le
  have h4 := h.rwin_le
  have hf : (r.commit n).fill = r.fill + n := rfl
  have hc : (r.commit n).cap = r.cap := rfl
  refine ⟨h.cap_pos, h.2.1, by rw [hf, hc]; omega, ?_, ?_, Nat.zero_le _, wf_eraseCells h.cells_wf _ _, ?_, ?_⟩
  · show (r.wr + n) % r.cap = (r.rd + (r.fill + n)) % r.cap
    rw [h.wr_eq, Nat.mod_add_mod, Nat.add_assoc]
  · show r.rwin ≤ r.fill + n; omega
  · intro k hk
    rw [hf] at hk
    rw [readCell_commit, read_commit h n (by omega), if_neg (by omega)]
    by_cases hlt : k < r.fill
    · exact h.2.2.2.2.2.2.2.1 k hlt
    · have := hw (k - r.fill) (by omega)
      rwa [Ring.writeCell_eq h.wr_eq, Nat.add_sub_cancel' (by omega)] at this
  · intro c hc'
    obtain ⟨k, hk, he⟩ := h.only (mem_eraseCells hc')
    refine ⟨k, ?_, he⟩
    show k < r.fill + n + 0
    by_contra hge
    have hr := (Store.mem_iff_read (wf_eraseCells h.cells_wf _ _) c.1 c.2).mp hc'
    have := read_commit h n (k := k) (by omega)
    rw [if_pos (by omega), ← he] at this
    exact absurd (this.symm.trans hr) (by simp)

/-! ## The unconsumed samples -/

/-- Under the invariants the unconsumed samples are the live cells, one each. -/
theorem liveSamples_eq_map {r : Ring α} (h : RingInv r) (d : α) :
    liveSamples r = (List.range r.fill).map fun k => (Store.read r.cells (r.readCell k)).getD d := by
  have key : ∀ n, n ≤ r.fill → (List.range n).filterMap (fun k => Store.read r.cells (r.readCell k))
      = (List.range n).map fun k => (Store.read r.cells (r.readCell k)).getD d := by
    intro n
    induction n with
    | zero => intro _; rfl
    | succ n ih =>
      intro hn
      obtain ⟨v, hv⟩ := h.live (k := n) (by omega)
      rw [List.range_succ, List.filterMap_append, List.map_append, ih (by omega)]
      simp [hv]
  exact key r.fill (Nat.le_refl _)

theorem liveSamples_length {r : Ring α} (h : RingInv r) : (liveSamples r).length = r.fill := by
  rcases Nat.eq_zero_or_pos r.fill with h0 | h0
  · simp [liveSamples, h0]
  · obtain ⟨d, _⟩ := h.live h0
    simp [liveSamples_eq_map h d]

theorem liveSamples_getElem? {r : Ring α} (h : RingInv r) {k : Nat} (hk : k < r.fill) :
    (liveSamples r)[k]? = Store.read r.cells (r.readCell k) := by
  obtain ⟨d, hd⟩ := h.live hk
  simp [liveSamples_eq_map h d, hk, hd]

theorem liveSamples_initial (zero : α) (D m : Nat) : liveSamples (Ring.initial zero D m) = List.replicate D zero := by
  rcases Nat.eq_zero_or_pos (D + m) with h0 | h0
  · have hD : D = 0 := by omega
    subst hD; rfl
  · have h := ringInv_initial zero h0
    apply List.ext_getElem?
    intro k
    by_cases hk : k < D
    · rw [liveSamples_getElem? h (by simpa [Ring.initial] using hk)]
      simp only [Ring.initial, Ring.readCell, Store.read_filled, Nat.zero_add]
      rw [Nat.mod_eq_of_lt (by omega), if_pos hk]
      simp [hk]
    · have hl : (liveSamples (Ring.initial zero D m)).length = D := liveSamples_length h
      rw [List.getElem?_eq_none (by omega), List.getElem?_eq_none (by simpa using hk)]

end Sys2Proof.Machine
end

