-- ==== Sys2Proof/Laws/Ops.lean ====
section
/-! SUPPORT. What each shared operation answers (Machine/Ops.lean, Machine/Ring.lean): one lemma per operation, from the
ring it finds, and one that says what it can answer at all. -/

namespace Sys2Proof.Machine

variable {α : Type}

/-! ## Rings and windows -/

theorem ringAt_eq_some {s : Generic.State α} {i : Nat} {r : Ring α} :
    ringAt s i = some r ↔ LineInRange s i ∧ Store.read s.rings i = some r := by
  rw [ringAt]
  split
  · next h => exact ⟨fun x => ⟨h, x⟩, fun x => x.2⟩
  · next h => exact ⟨fun x => (by cases x), fun x => absurd x.1 h⟩

theorem ringAt_eq_none {s : Generic.State α} {i : Nat} :
    ringAt s i = none ↔ ¬LineInRange s i ∨ Store.read s.rings i = none := by
  rw [ringAt]
  split
  · next h => exact ⟨.inr, fun x => x.resolve_left (not_not.mpr h)⟩
  · next h => exact ⟨fun _ => .inl h, fun _ => rfl⟩

theorem ringAt_read {s : Generic.State α} {i : Nat} {r : Ring α} (h : ringAt s i = some r) :
    Store.read s.rings i = some r := (ringAt_eq_some.mp h).2

/-- A line of a network is in range (R33). -/
theorem ringAt_of_lt {s : Generic.State α} {i : Nat} {r : Ring α} (hi : i < s.numDelays)
    (h : Store.read s.rings i = some r) : ringAt s i = some r := ringAt_eq_some.mpr ⟨.inr hi, h⟩

theorem ringOf_eq_ok {s : Generic.State α} {i : Nat} {r : Ring α} : ringOf s i = .ok r ↔ ringAt s i = some r :=
  orStop_eq_ok

theorem ringOf_none {s : Generic.State α} {i : Nat} (h : ringAt s i = none) :
    ringOf s i = .error (.fault .noSuchRing) := by rw [ringOf, h]; rfl

theorem ringToRead_eq_ok {s : Generic.State α} {i : Nat} {r : Ring α} :
    ringToRead s i = .ok r ↔ ringAt s i = some r := orStop_eq_ok

theorem ringToRead_none {s : Generic.State α} {i : Nat} (h : ringAt s i = none) :
    ringToRead s i = .error (.refusal .readOfUnwrittenCell) := by rw [ringToRead, h]; rfl

theorem memRead_some {r : Ring α} {a : Nat} {v : α} (ha : a < r.cap) (h : Store.read r.cells a = some v) :
    r.memRead a = .ok v := by rw [Ring.memRead, if_pos ha, h]; rfl

theorem memRead_eq_ok {r : Ring α} {a : Nat} {v : α} :
    r.memRead a = .ok v ↔ a < r.cap ∧ Store.read r.cells a = some v := by
  rw [Ring.memRead]
  split
  · next h => rw [orStop_eq_ok]; exact ⟨fun x => ⟨h, x⟩, fun x => x.2⟩
  · next h => simp [h]

theorem memWrite_eq_ok {r r' : Ring α} {a : Nat} {v : α} :
    r.memWrite a v = .ok r' ↔ a < r.cap ∧ r' = { r with cells := Store.write r.cells a v } := by
  rw [Ring.memWrite]
  split
  · next h => simp [h, eq_comm]
  · next h => simp [h]

theorem rdWin_eq_ok {s : Generic.State α} {i k : Nat} {v : α} :
    rdWin s i k = .ok v ↔
      ∃ r, ringAt s i = some r ∧ k < r.rwin ∧ r.readCell k < r.cap ∧ Store.read r.cells (r.readCell k) = some v := by
  rw [rdWin, res_bind_eq_ok]
  constructor
  · rintro ⟨r, hr, h⟩
    split at h
    · next hk => exact ⟨r, ringToRead_eq_ok.mp hr, hk, memRead_eq_ok.mp h⟩
    · cases h
  · rintro ⟨r, hr, hk, h⟩
    exact ⟨r, ringToRead_eq_ok.mpr hr, by rw [if_pos hk]; exact memRead_eq_ok.mpr h⟩

theorem wrWinRead_eq_ok {s : Generic.State α} {i k : Nat} {v : α} :
    wrWinRead s i k = .ok v ↔
      ∃ r, ringAt s i = some r ∧ k < r.wwin ∧ r.writeCell k < r.cap ∧ Store.read r.cells (r.writeCell k) = some v := by
  rw [wrWinRead, res_bind_eq_ok]
  constructor
  · rintro ⟨r, hr, h⟩
    split at h
    · next hk => exact ⟨r, ringToRead_eq_ok.mp hr, hk, memRead_eq_ok.mp h⟩
    · cases h
  · rintro ⟨r, hr, hk, h⟩
    exact ⟨r, ringToRead_eq_ok.mpr hr, by rw [if_pos hk]; exact memRead_eq_ok.mpr h⟩

theorem wrWin_eq_ok {s s' : Generic.State α} {i k : Nat} {v : α} :
    wrWin s i k v = .ok s' ↔
      ∃ r, ringAt s i = some r ∧ k < r.wwin ∧ r.writeCell k < r.cap
        ∧ s' = putRing s i { r with cells := Store.write r.cells (r.writeCell k) v } := by
  rw [wrWin, res_bind_eq_ok]
  constructor
  · rintro ⟨r, hr, h⟩
    split at h
    · next hk =>
      rw [res_bind_eq_ok] at h
      obtain ⟨r', h1, h2⟩ := h
      obtain ⟨h3, rfl⟩ := memWrite_eq_ok.mp h1
      simp only [Except.ok.injEq] at h2
      exact ⟨r, ringOf_eq_ok.mp hr, hk, h3, h2.symm⟩
    · cases h
  · rintro ⟨r, hr, hk, hc, rfl⟩
    refine ⟨r, ringOf_eq_ok.mpr hr, ?_⟩
    rw [if_pos hk, memWrite_eq_ok.mpr ⟨hc, rfl⟩]
    rfl

/-! ## Ring operations -/

theorem ringInit_eq_ok {P : Params α} {i D m : Nat} {s s' : Generic.State α} :
    ringInit P i D m s = .ok s' ↔
      0 < D + m ∧ LineInRange s i ∧ s' = putRing s i (Ring.initial P.num.zero D m) := by
  rw [ringInit]
  split
  · next h => simp only [reduceCtorEq, false_iff]; rintro ⟨h1, -⟩; omega
  · next h =>
    split
    · next hi =>
      exact ⟨fun x => ⟨by omega, hi, (Except.ok.inj x).symm⟩, fun x => by rw [x.2.2]⟩
    · next hi => exact ⟨fun x => (by cases x), fun x => absurd x.2.1 hi⟩

theorem peekReadable_eq_ok {i n g : Nat} {s s' : Generic.State α} :
    peekReadable i n s = .ok (g, s') ↔
      ∃ r, ringAt s i = some r ∧ r.rwin = 0 ∧ g = r.readGrant n
        ∧ s' = { putRing s i { r with rwin := r.readGrant n } with grant := r.readGrant n } := by
  rw [peekReadable, res_bind_eq_ok]
  constructor
  · rintro ⟨r, hr, h⟩
    split at h
    · cases h
    · next h0 =>
      simp only [Except.ok.injEq, Prod.mk.injEq] at h
      exact ⟨r, ringOf_eq_ok.mp hr, by simpa using h0, h.1.symm, h.2.symm⟩
  · rintro ⟨r, hr, h0, rfl, rfl⟩
    exact ⟨r, ringOf_eq_ok.mpr hr, by rw [if_neg (by simp [h0])]⟩

theorem peekWritable_eq_ok {i n g : Nat} {s s' : Generic.State α} :
    peekWritable i n s = .ok (g, s') ↔
      ∃ r, ringAt s i = some r ∧ r.wwin = 0 ∧ g = r.writeGrant n
        ∧ s' = { putRing s i { r with wwin := r.writeGrant n } with grant := r.writeGrant n } := by
  rw [peekWritable, res_bind_eq_ok]
  constructor
  · rintro ⟨r, hr, h⟩
    split at h
    · cases h
    · next h0 =>
      simp only [Except.ok.injEq, Prod.mk.injEq] at h
      exact ⟨r, ringOf_eq_ok.mp hr, by simpa using h0, h.1.symm, h.2.symm⟩
  · rintro ⟨r, hr, h0, rfl, rfl⟩
    exact ⟨r, ringOf_eq_ok.mpr hr, by rw [if_neg (by simp [h0])]⟩

theorem commitWrite_eq_ok {i n : Nat} {s s' : Generic.State α} :
    commitWrite i n s = .ok s' ↔
      ∃ r, ringAt s i = some r ∧ n ≤ r.wwin ∧ s' = putRing s i (r.commit n) := by
  rw [commitWrite, res_bind_eq_ok]
  constructor
  · rintro ⟨r, hr, h⟩
    split at h
    · cases h
    · next h0 =>
      simp only [Except.ok.injEq] at h
      exact ⟨r, ringOf_eq_ok.mp hr, by omega, h.symm⟩
  · rintro ⟨r, hr, h0, rfl⟩
    exact ⟨r, ringOf_eq_ok.mpr hr, by rw [if_neg (by omega)]⟩

theorem releaseRead_eq_ok {i n : Nat} {s s' : Generic.State α} :
    releaseRead i n s = .ok s' ↔
      ∃ r, ringAt s i = some r ∧ n ≤ r.rwin ∧ s' = putRing s i (r.release n) := by
  rw [releaseRead, res_bind_eq_ok]
  constructor
  · rintro ⟨r, hr, h⟩
    split at h
    · cases h
    · next h0 =>
      simp only [Except.ok.injEq] at h
      exact ⟨r, ringOf_eq_ok.mp hr, by omega, h.symm⟩
  · rintro ⟨r, hr, h0, rfl⟩
    exact ⟨r, ringOf_eq_ok.mpr hr, by rw [if_neg (by omega)]⟩

/-! ## The random source -/

/-- Every answer is in range (R67). -/
theorem drawAnswer_range (P : Params α) {lo hi : Nat} (h : lo ≤ hi) (s : Generic.State α) :
    lo ≤ drawAnswer P lo hi s ∧ drawAnswer P lo hi s ≤ hi := by
  have hmod : ∀ x, lo ≤ lo + x % (hi - lo + 1) ∧ lo + x % (hi - lo + 1) ≤ hi := by
    intro x
    have := Nat.mod_lt x (Nat.succ_pos (hi - lo))
    simp only [Nat.succ_eq_add_one] at this
    omega
  rw [drawAnswer]
  split
  · split
    · assumption
    · exact hmod _
  · exact hmod _

theorem draw_eq_ok {P : Params α} {lo hi v : Nat} {s s' : Generic.State α} :
    draw P lo hi s = .ok (v, s') ↔ lo ≤ hi ∧ v = drawAnswer P lo hi s ∧ s' = afterDraw s := by
  rw [draw]
  split
  · next h => simp only [reduceCtorEq, false_iff]; rintro ⟨h1, -⟩; omega
  · next h => simp only [Except.ok.injEq, Prod.mk.injEq, eq_comm, iff_and_self, and_imp]; intros; omega

/-! ## The gate -/

theorem inIdle_idle {P : Params α} {s : Generic.State α} {e : Res (Generic.State α)} (h : s.phase = .idle) :
    inIdle P s e = e := by rw [inIdle, h]

theorem inUnbuilt_unbuilt {P : Params α} {s : Generic.State α} {e : Res (Generic.State α)} (h : s.phase = .unbuilt) :
    inUnbuilt P s e = e := by rw [inUnbuilt, h]

theorem inIdle_unbuilt {P : Params α} {s : Generic.State α} {e : Res (Generic.State α)} (h : s.phase = .unbuilt) :
    inIdle P s e = .ok (raiseIllegal P s) := by rw [inIdle, h]

theorem inUnbuilt_idle {P : Params α} {s : Generic.State α} {e : Res (Generic.State α)} (h : s.phase = .idle) :
    inUnbuilt P s e = .ok (raiseIllegal P s) := by rw [inUnbuilt, h]

end Sys2Proof.Machine
end

