-- ==== Sys2Proof/Laws/Chunk.lean ====
section
/-! SUPPORT. What each step of a chunk answers on a network whose rings are as R103 says (Machine/Process.lean): the
loops over lines and samples, one lemma per step. A state whose rings are the only thing that changes is written
`{ s with rings := R, … }`. -/

namespace Sys2Proof.Machine

variable {α : Type}

/-- A ring file that has exactly the rings of the lines below `N`. -/
def RingFileOf (N : Nat) (R : Store (Ring α)) : Prop :=
  Store.wf R = true ∧ ∀ p ∈ R, p.1 < N

theorem RingFileOf.write {N : Nat} {R : Store (Ring α)} (h : RingFileOf N R) {i : Nat} (hi : i < N) (r : Ring α) :
    RingFileOf N (Store.write R i r) := by
  refine ⟨Store.wf_write h.1 i r, ?_⟩
  intro p hp
  rcases Store.mem_write hp with rfl | hp
  · exact hi
  · exact h.2 p hp

/-! ## Step 3 -/

/-- A ring from which both windows are granted in full (R65). -/
structure Grants (n : Nat) (r : Ring α) : Prop where
  inv : RingInv r
  rwin : r.rwin = 0
  wwin : r.wwin = 0
  fill : n ≤ r.fill
  free : n ≤ r.cap - r.fill

theorem Grants.opened {n : Nat} {r : Ring α} (h : Grants n r) : RingInv { r with rwin := n, wwin := n } := by
  have h1 := ringInv_peekRead h.inv n
  have h2 := ringInv_peekWrite h1 h.wwin n
  have e1 : r.readGrant n = n := Nat.min_eq_left h.fill
  have e2 : Ring.writeGrant { r with rwin := r.readGrant n } n = n := Nat.min_eq_left h.free
  rw [e2, e1] at h2
  exact h2

theorem openWindows_ok {n i : Nat} {s : Generic.State α} {r : Ring α} (hr : ringAt s i = some r)
    (hg : Grants n r) (hn : s.seqChunk = n) :
    ∃ R g, openWindows n s i = .ok { s with rings := R, grant := g } ∧
      (∀ j, Store.read R j = if j = i then some { r with rwin := n, wwin := n } else Store.read s.rings j) ∧
      (∀ N, i < N → RingFileOf N s.rings → RingFileOf N R) := by
  have e1 : r.readGrant n = n := Nat.min_eq_left hg.fill
  have e2 : Ring.writeGrant { r with rwin := n } n = n := Nat.min_eq_left hg.free
  refine ⟨Store.write (Store.write s.rings i { r with rwin := n }) i { r with rwin := n, wwin := n }, n, ?_, ?_, ?_⟩
  · have h1 := (peekReadable_eq_ok (i := i) (n := n)).mpr ⟨r, hr, hg.rwin, rfl, rfl⟩
    rw [e1] at h1
    have h2 := (peekWritable_eq_ok (i := i) (n := n)
      (s := { putRing s i { r with rwin := n } with grant := n })).mpr
      ⟨{ r with rwin := n }, ringAt_eq_some.mpr ⟨(ringAt_eq_some.mp hr).1, by simp [putRing]⟩, hg.wwin, rfl, rfl⟩
    rw [e2] at h2
    rw [openWindows, h1, res_bind_ok]
    simp only [h2, res_bind_ok]
    simp [putRing, hn]
  · intro j
    rw [Store.read_write, Store.read_write]
    split <;> rfl
  · intro N hi h
    exact (h.write hi _).write hi _

/-- Step 3 on a network at a chunk boundary: every window is granted in full, nothing is signalled (R93, R103). -/
theorem stepWindows_ok {n : Nat} {s : Generic.State α} (hn : s.seqChunk = n) (hf : RingFileOf s.numDelays s.rings)
    (hg : ∀ i < s.numDelays, ∃ r, Store.read s.rings i = some r ∧ Grants n r) :
    ∃ R g, stepWindows s = .ok { s with rings := R, grant := g } ∧ RingFileOf s.numDelays R ∧
      ∀ i < s.numDelays, ∀ r, Store.read s.rings i = some r → Store.read R i = some { r with rwin := n, wwin := n } := by
  subst hn
  obtain ⟨s', hs', R, g, rfl, hf', hlo, hhi⟩ := foldlM_range_ok (f := openWindows s.seqChunk) (n := s.numDelays) (s := s)
    (p := fun k t => ∃ R g, t = { s with rings := R, grant := g } ∧ RingFileOf s.numDelays R ∧
      (∀ i < k, ∀ r, Store.read s.rings i = some r →
        Store.read R i = some { r with rwin := s.seqChunk, wwin := s.seqChunk }) ∧
      ∀ i, k ≤ i → Store.read R i = Store.read s.rings i)
    (by
      rintro k t hk ⟨R, g, rfl, hf', hlo, hhi⟩
      obtain ⟨r, hr, hgr⟩ := hg k hk
      obtain ⟨R', g', ho, hR', hw⟩ := openWindows_ok (n := s.seqChunk) (i := k) (s := { s with rings := R, grant := g })
        (ringAt_of_lt hk (by rw [← hr]; exact hhi k (Nat.le_refl k))) hgr rfl
      refine ⟨_, ho, R', g', rfl, hw _ hk hf', ?_, ?_⟩
      · intro i hi r' hr'
        rw [hR']
        rcases Nat.lt_succ_iff_lt_or_eq.mp hi with hlt | rfl
        · rw [if_neg (by omega)]; exact hlo i hlt r' hr'
        · rw [hr] at hr'; cases hr'; rw [if_pos rfl]
      · intro i hi
        rw [hR', if_neg (by omega)]
        exact hhi i (by omega))
    ⟨s.rings, s.grant, rfl, hf, fun i hi => absurd hi (Nat.not_lt_zero i), fun _ _ => rfl⟩
  refine ⟨R, g, ?_, hf', hlo⟩
  rw [stepWindows, hs', res_bind_ok, if_neg (Nat.lt_irrefl _)]

/-! ## Steps 4 to 7 -/

/-- Step 4 on open read windows: row `i` is the read window of line `i` times its coefficient (R94). -/
theorem stepDecay_ok {P : Params α} {s : Generic.State α} {x : Nat → Nat → α} {c : Nat → α}
    (hc : ∀ i < s.numDelays, s.coef[i]? = some (c i))
    (hx : ∀ i < s.numDelays, ∀ k < s.seqChunk, rdWin s i k = .ok (x i k)) :
    stepDecay P s = .ok { s with att := (List.range s.numDelays).map fun i =>
      (List.range s.seqChunk).map fun k => P.num.fmul (x i k) (c i) } := by
  have hrow : ∀ i ∈ List.range s.numDelays,
      attenuated P s i = .ok ((List.range s.seqChunk).map fun k => P.num.fmul (x i k) (c i)) := by
    intro i hi
    have hi' := List.mem_range.mp hi
    rw [attenuated, coefOf, hc i hi', orStop_some, res_bind_ok]
    exact mapM_ok fun k hk => by rw [hx i hi' k (List.mem_range.mp hk), res_bind_ok]
  rw [stepDecay, mapM_ok hrow, res_bind_ok]

/-- The accumulator after the first `k` lines of a half that begins at line `first` (R95). -/
def tapSum (P : Params α) (sg : Nat → Sign) (rows : List (List α)) (first : Nat) : Nat → List α → List α
  | 0, acc => acc
  | k + 1, acc => List.zipWith (tapped P.num (sg (first + k))) (tapSum P sg rows first k acc) (rows.getD (first + k) [])

/-- Step 5 when every line has its sign and its row: each accumulator is the signed sum of its own half (R95). -/
theorem stepTaps_ok {P : Params α} {s : Generic.State α} {sg : Nat → Sign} (heven : s.numDelays % 2 = 0)
    (hs : ∀ i < s.numDelays, s.sign[i]? = some (sg i)) (ha : s.att.length = s.numDelays) :
    stepTaps P s = .ok { s with
      accL := tapSum P sg s.att 0 (s.numDelays / 2) s.accL
      accR := tapSum P sg s.att (s.numDelays / 2) (s.numDelays / 2) s.accR } := by
  obtain ⟨t, ht, rfl⟩ := foldlM_range_ok (f := tapLine P) (n := s.numDelays) (s := s)
    (p := fun k t => t = { s with
      accL := tapSum P sg s.att 0 (min k (s.numDelays / 2)) s.accL
      accR := tapSum P sg s.att (s.numDelays / 2) (k - s.numDelays / 2) s.accR })
    (by
      rintro k t hk rfl
      have hrow : s.att[k]? = some (s.att.getD k []) := by
        rw [List.getD_eq_getElem?_getD, List.getElem?_eq_getElem (by omega)]; rfl
      rw [tapLine]
      simp only [signOf, hs k hk, orStop_some, res_bind_ok, attRow, hrow, chanOf]
      by_cases hlt : k < s.numDelays / 2
      · rw [if_pos hlt]
        refine ⟨_, rfl, ?_⟩
        have e1 : min k (s.numDelays / 2) = k := by omega
        have e2 : min (k + 1) (s.numDelays / 2) = k + 1 := by omega
        have e3 : k - s.numDelays / 2 = 0 := by omega
        have e4 : k + 1 - s.numDelays / 2 = 0 := by omega
        rw [e1, e2, e3, e4]
        simp [tapSum]
      · rw [if_neg hlt]
        refine ⟨_, rfl, ?_⟩
        have e1 : min k (s.numDelays / 2) = s.numDelays / 2 := by omega
        have e2 : min (k + 1) (s.numDelays / 2) = s.numDelays / 2 := by omega
        have e4 : k + 1 - s.numDelays / 2 = (k - s.numDelays / 2) + 1 := by omega
        rw [e1, e2, e4]
        have e5 : s.numDelays / 2 + (k - s.numDelays / 2) = k := by omega
        simp [tapSum, e5])
    (by simp [tapSum])
  rw [stepTaps, ht]
  have e1 : min s.numDelays (s.numDelays / 2) = s.numDelays / 2 := by omega
  have e2 : s.numDelays - s.numDelays / 2 = s.numDelays / 2 := by omega
  rw [e1, e2]

/-- An element of the accumulators of R95 is the sum over the lines at that sample index. -/
theorem tapSum_getElem? {P : Params α} {sg : Nat → Sign} {rows : List (List α)} {first k n : Nat} {acc : List α}
    {a : Nat → Nat → α} {z : α} (hacc : acc = List.replicate n z)
    (hrows : ∀ i < k, rows.getD (first + i) [] = (List.range n).map (a (first + i))) :
    tapSum P sg rows first k acc = (List.range n).map fun j =>
      (List.range k).foldl (fun v i => tapped P.num (sg (first + i)) v (a (first + i) j)) z := by
  induction k with
  | zero => rw [tapSum, hacc]; simp [List.map_const']
  | succ k ih =>
    rw [tapSum, ih fun i hi => hrows i (by omega), hrows k (by omega)]
    apply List.ext_getElem?
    intro j
    rw [List.getElem?_zipWith]
    by_cases hj : j < n
    · simp [hj, List.range_succ]
    · simp [hj]

end Sys2Proof.Machine
end

