-- ==== Sys2Proof/Laws/Mix.lean ====
section
/-! SUPPORT. Steps 8 to 10 of a chunk on open windows (Machine/Process.lean, Machine/Mixer.lean): the mixer answers the
butterfly, the rotation is a bijection, and after steps 8 and 9 every cell of every write window holds what R99 and
R100 give it. -/

namespace Sys2Proof.Machine

variable {α : Type}

/-! ## The mixer -/

theorem butterfly_length (num : Num α) {low high : List α} {k : Nat} (h1 : low.length = k) (h2 : high.length = k) :
    (butterfly num low high).length = k + k := by
  simp [butterfly, h1, h2]

theorem hadamard_length (num : Num α) {lg : Nat} {x : List α} (h : x.length = 2 ^ lg) :
    (hadamard num lg x).length = 2 ^ lg := by
  induction lg generalizing x with
  | zero => exact h
  | succ lg ih =>
    rw [hadamard, butterfly_length num (ih (x := x.take _) (by rw [List.length_take]; omega))
      (ih (x := x.drop _) (by rw [List.length_drop]; omega))]
    omega

/-- The four unrolled transforms are the butterfly of their block size (R82 to R86). -/
theorem mixBlock_eq_hadamard {num : Num α} {B : Nat} {x : List α} (hB : B = 1 ∨ B = 2 ∨ B = 4 ∨ B = 8)
    (hx : x.length = B) : mixBlock num B x = .ok (hadamard num (log2BlockSize B) x) := by
  rcases hB with rfl | rfl | rfl | rfl
  · match x, hx with
    | [a], _ => rfl
  · match x, hx with
    | [a, b], _ => rfl
  · match x, hx with
    | [a, b, c, d], _ => rfl
  · match x, hx with
    | [a, b, c, d, e, f, g, h], _ => rfl

theorem log2BlockSize_pow {B : Nat} (hB : B = 1 ∨ B = 2 ∨ B = 4 ∨ B = 8) : 2 ^ log2BlockSize B = B := by
  rcases hB with rfl | rfl | rfl | rfl <;> rfl

/-! ## The rotation -/

theorem rotated_inj {B fb N b j b' j' : Nat} (hB : 0 < B) (hj : j < B) (hj' : j' < B) (hN : N % B = 0)
    (hb : b < N / B) (hb' : b' < N / B) (h : rotated B fb N b j = rotated B fb N b' j') : b = b' ∧ j = j' := by
  have hdiv : N / B * B = N := Nat.div_mul_cancel (Nat.dvd_of_mod_eq_zero hN)
  have h1 : b * B + j < N := by
    have : (b + 1) * B ≤ N / B * B := Nat.mul_le_mul_right B hb
    rw [Nat.add_mul] at this; omega
  have h2 : b' * B + j' < N := by
    have : (b' + 1) * B ≤ N / B * B := Nat.mul_le_mul_right B hb'
    rw [Nat.add_mul] at this; omega
  rw [rotated, rotated, Nat.add_comm _ fb, Nat.add_comm _ fb] at h
  have he := mod_add_inj h1 h2 h
  have hb1 : (b * B + j) / B = b := by rw [Nat.add_comm, Nat.add_mul_div_right _ _ hB, Nat.div_eq_of_lt hj]; omega
  have hb2 : (b' * B + j') / B = b' := by rw [Nat.add_comm, Nat.add_mul_div_right _ _ hB, Nat.div_eq_of_lt hj']; omega
  have hbb : b = b' := by rw [← hb1, ← hb2, he]
  subst hbb
  exact ⟨rfl, by omega⟩

theorem rotated_lt {B fb N b j : Nat} (hN : 0 < N) : rotated B fb N b j < N := Nat.mod_lt _ hN

theorem sourceLine_lt (s : Generic.State α) (hN : 0 < s.numDelays) (d : Nat) : sourceLine s d < s.numDelays :=
  Nat.mod_lt _ hN

/-- The line read backwards through the rotation is sent to where it came from (R88). -/
theorem rotated_sourceLine {s : Generic.State α} (hN : 0 < s.numDelays) {d : Nat} (hd : d < s.numDelays) :
    rotated s.blockSize s.fbShift s.numDelays (sourceLine s d / s.blockSize) (sourceLine s d % s.blockSize) = d := by
  have hm := Nat.mod_lt s.fbShift hN
  rw [rotated, Nat.div_add_mod', sourceLine, Nat.mod_add_mod]
  have h3 : d + (s.numDelays - s.fbShift % s.numDelays) + s.fbShift
      = d + s.numDelays * (s.fbShift / s.numDelays + 1) := by
    have hfb := Nat.div_add_mod s.fbShift s.numDelays
    rw [Nat.mul_add, Nat.mul_one]
    omega
  rw [h3, Nat.add_mul_mod_self_left, Nat.mod_eq_of_lt hd]

/-! ## Writing the write windows -/

/-- `s` is `s0` but for the cells of the write windows (and `y`): every ring keeps its cursors, its windows and its
live samples, and wherever `done d k` holds, cell `k` of the write window of line `d` holds `m d k`. -/
structure Written (s0 s : Generic.State α) (n : Nat) (done : Nat → Nat → Prop) (m : Nat → Nat → α) : Prop where
  same : ∃ R y, s = { s0 with rings := R, y := y }
  file : RingFileOf s0.numDelays s.rings
  ring : ∀ d < s0.numDelays, ∃ r0 cells, Store.read s0.rings d = some r0 ∧
    Store.read s.rings d = some { r0 with cells := cells } ∧ RingInv { r0 with cells := cells } ∧ r0.wwin = n ∧
    (∀ k < r0.fill, Store.read cells (r0.readCell k) = Store.read r0.cells (r0.readCell k)) ∧
    ∀ k < n, done d k → Store.read cells (r0.writeCell k) = some (m d k)

theorem Written.same_numDelays {s0 s : Generic.State α} {n : Nat} {done : Nat → Nat → Prop} {m : Nat → Nat → α}
    (h : Written s0 s n done m) : s0.numDelays = s.numDelays := by
  obtain ⟨R, y, rfl⟩ := h.same
  rfl

theorem Written.mono {s0 s : Generic.State α} {n : Nat} {done done' : Nat → Nat → Prop} {m : Nat → Nat → α}
    (h : Written s0 s n done m) (hd : ∀ d k, done' d k → done d k) : Written s0 s n done' m := by
  refine ⟨h.same, h.file, ?_⟩
  intro d hd'
  obtain ⟨r0, cells, h1, h2, h3, h4, h5, h6⟩ := h.ring d hd'
  exact ⟨r0, cells, h1, h2, h3, h4, h5, fun k hk hdone => h6 k hk (hd _ _ hdone)⟩

theorem Written.setMixed {s0 s : Generic.State α} {n : Nat} {done : Nat → Nat → Prop} {m : Nat → Nat → α}
    (h : Written s0 s n done m) (y : List α) : Written s0 (setMixed s y) n done m := by
  obtain ⟨R, y0, rfl⟩ := h.same
  exact ⟨⟨R, y, rfl⟩, h.file, h.ring⟩

/-- A write to cell `k` of the write window of line `d` adds that cell. -/
theorem Written.write {s0 s : Generic.State α} {n : Nat} {done : Nat → Nat → Prop} {m : Nat → Nat → α}
    (h : Written s0 s n done m) {d k : Nat} (hd : d < s0.numDelays) (hk : k < n) {v : α} {m' : Nat → Nat → α}
    (hv : m' d k = v) (hm : ∀ d' k', done d' k' → ¬(d' = d ∧ k' = k) → m' d' k' = m d' k') :
    ∃ s', wrWin s d k v = .ok s' ∧ Written s0 s' n (fun d' k' => done d' k' ∨ (d' = d ∧ k' = k)) m' := by
  obtain ⟨r0, cells, h1, h2, h3, h4, h5, h6⟩ := h.ring d hd
  have hkw : k < r0.wwin := by omega
  have hcap : r0.writeCell k < r0.cap := Nat.mod_lt _ h3.cap_pos
  refine ⟨_, wrWin_eq_ok.mpr ⟨_, ringAt_of_lt (h.same_numDelays ▸ hd) h2, hkw, hcap, rfl⟩, ?_, ?_, ?_⟩
  · obtain ⟨R, y, rfl⟩ := h.same
    exact ⟨_, _, rfl⟩
  · exact h.file.write hd _
  · intro e he
    show ∃ r0 cells', _ ∧ Store.read (Store.write s.rings d _) e = _ ∧ _
    by_cases hed : e = d
    · subst hed
      have hfree := h3.wwin_le
      have hle := h3.fill_le
      refine ⟨r0, _, h1, Store.read_write_same _ _ _, ringInv_write h3 hkw v, h4, ?_, ?_⟩
      · intro j hj
        rw [Store.read_write, if_neg]
        · exact h5 j hj
        · intro heq
          have hw := Ring.writeCell_eq (r := r0) h3.wr_eq k
          have := Ring.readCell_inj (r := r0) (j := j) (k := r0.fill + k) (by dsimp at *; omega) (by dsimp at *; omega)
            (heq.trans hw)
          omega
      · intro j hj hdone
        show Store.read (Store.write cells (r0.writeCell k) v) (r0.writeCell j) = _
        rw [Store.read_write]
        by_cases hjk : j = k
        · subst hjk; rw [if_pos rfl, hv]
        · rw [if_neg]
          · have hdone' : done e j := hdone.resolve_right fun hx => hjk hx.2
            rw [h6 j hj hdone', hm _ _ hdone' fun hx => hjk hx.2]
          · intro heq
            rw [Ring.writeCell_eq (r := r0) h3.wr_eq, Ring.writeCell_eq (r := r0) h3.wr_eq] at heq
            have := Ring.readCell_inj (r := r0) (by dsimp at *; omega) (by dsimp at *; omega) heq
            omega
    · obtain ⟨q0, qc, g1, g2, g3, g4, g5, g6⟩ := h.ring e he
      refine ⟨q0, qc, g1, ?_, g3, g4, g5, ?_⟩
      · rw [Store.read_write_other _ _ hed]; exact g2
      · intro j hj hdone
        have hdone' : done e j := hdone.resolve_right fun hx => hed hx.1
        rw [g6 j hj hdone', hm _ _ hdone' fun hx => hed hx.1]

/-- A cell that was written reads back (R36). -/
theorem Written.readBack {s0 s : Generic.State α} {n : Nat} {done : Nat → Nat → Prop} {m : Nat → Nat → α}
    (h : Written s0 s n done m) {d k : Nat} (hd : d < s0.numDelays) (hk : k < n) (hdone : done d k) :
    wrWinRead s d k = .ok (m d k) := by
  obtain ⟨r0, cells, h1, h2, h3, h4, h5, h6⟩ := h.ring d hd
  exact wrWinRead_eq_ok.mpr ⟨_, ringAt_of_lt (h.same_numDelays ▸ hd) h2, by dsimp; omega, Nat.mod_lt _ h3.cap_pos, h6 k hk hdone⟩

/-- Nothing has been written yet. -/
theorem Written.start {s : Generic.State α} {n : Nat} (hf : RingFileOf s.numDelays s.rings)
    (hr : ∀ d < s.numDelays, ∃ r, Store.read s.rings d = some r ∧ RingInv r ∧ r.wwin = n) (m : Nat → Nat → α) :
    Written s s n (fun _ _ => False) m := by
  refine ⟨⟨s.rings, s.y, rfl⟩, hf, ?_⟩
  intro d hd
  obtain ⟨r, h1, h2, h3⟩ := hr d hd
  exact ⟨r, r.cells, h1, h1, h2, h3, fun _ _ => rfl, fun _ _ hx => hx.elim⟩

/-! ## Step 8 -/

/-- Step 8 for one block at one sample index: the cells its rotation reaches are written (R99). -/
theorem mixAt_ok {P : Params α} {s0 s : Generic.State α} {n : Nat} {done : Nat → Nat → Prop} {m : Nat → Nat → α}
    (h : Written s0 s n done m) (hB : s0.blockSize = 1 ∨ s0.blockSize = 2 ∨ s0.blockSize = 4 ∨ s0.blockSize = 8)
    (hN : 0 < s0.numDelays) {b k : Nat} (hk : k < n) {x : Nat → α}
    (hx : ∀ j < s0.blockSize, attAt s0 (b * s0.blockSize + j) k = .ok (x j))
    (hm : ∀ j < s0.blockSize,
      (hadamard P.num (log2BlockSize s0.blockSize) ((List.range s0.blockSize).map x))[j]?
        = some (m (rotated s0.blockSize s0.fbShift s0.numDelays b j) k)) :
    ∃ s', mixAt P b s k = .ok s' ∧
      Written s0 s' n (fun d k' => done d k' ∨
        ∃ j < s0.blockSize, d = rotated s0.blockSize s0.fbShift s0.numDelays b j ∧ k' = k) m := by
  obtain ⟨R, y0, rfl⟩ := h.same
  have hx' : ∀ j ∈ List.range s0.blockSize,
      attAt { s0 with rings := R, y := y0 } (b * s0.blockSize + j) k = .ok (x j) :=
    fun j hj => hx j (List.mem_range.mp hj)
  have hlen : (hadamard P.num (log2BlockSize s0.blockSize) ((List.range s0.blockSize).map x)).length = s0.blockSize := by
    rw [hadamard_length _ (by simp [log2BlockSize_pow hB]), log2BlockSize_pow hB]
  rw [mixAt]
  simp only [mapM_ok hx', res_bind_ok]
  rw [mixBlock_eq_hadamard hB (by simp), res_bind_ok]
  have hpos : ∀ l : List α, ∀ q : Nat × (α × Nat), l.zipIdx[q.1]? = some q.2 → q.2.2 = q.1 ∧ l[q.1]? = some q.2.1 := by
    intro l q hq
    rw [List.getElem?_zipIdx] at hq
    cases hl : l[q.1]? with
    | none => rw [hl] at hq; cases hq
    | some v => rw [hl] at hq; simp at hq; rw [← hq]; simp
  obtain ⟨s', hs', hw⟩ := foldlM_list_ok
    (f := writeMixed b k)
    (l := (hadamard P.num (log2BlockSize s0.blockSize) ((List.range s0.blockSize).map x)).zipIdx)
    (p := fun j t => Written s0 t n (fun d k' => done d k' ∨
      ∃ j' < j, d = rotated s0.blockSize s0.fbShift s0.numDelays b j' ∧ k' = k) m)
    (s := setMixed { s0 with rings := R, y := y0 } (hadamard P.num (log2BlockSize s0.blockSize) ((List.range s0.blockSize).map x)))
    (by
      rintro j ⟨v, j'⟩ t hj ht
      obtain ⟨hjj, hv⟩ := hpos _ (j, (v, j')) hj
      dsimp at hjj hv
      subst hjj
      have hjB : j' < s0.blockSize := by
        rw [← hlen]; exact (List.getElem?_eq_some_iff.mp hv).1
      rw [hm j' hjB] at hv
      obtain ⟨t', ht', hw'⟩ := ht.write (d := rotated s0.blockSize s0.fbShift s0.numDelays b j') (k := k) (v := v)
        (m' := m) (rotated_lt hN) hk (Option.some.inj hv) (fun _ _ _ _ => rfl)
      obtain ⟨R1, y1, rfl⟩ := ht.same
      refine ⟨t', ht', hw'.mono ?_⟩
      rintro d k' (hd | ⟨i, hi, rfl, rfl⟩)
      · exact .inl (.inl hd)
      · rcases Nat.lt_succ_iff_lt_or_eq.mp hi with hlt | rfl
        · exact .inl (.inr ⟨i, hlt, rfl, rfl⟩)
        · exact .inr ⟨rfl, rfl⟩)
    ((h.setMixed _).mono (by rintro d k' (hd | ⟨j, hj, -⟩); exacts [hd, absurd hj (Nat.not_lt_zero _)]))
  refine ⟨s', hs', hw.mono ?_⟩
  rw [List.length_zipIdx, hlen]
  exact fun _ _ hd => hd

/-- Step 8 (R99): afterwards every cell of every write window holds the mixed sample of its line. -/
theorem stepMix_ok {P : Params α} {s : Generic.State α} {n : Nat} (hn : s.seqChunk = n)
    (hB : s.blockSize = 1 ∨ s.blockSize = 2 ∨ s.blockSize = 4 ∨ s.blockSize = 8) (hN : 0 < s.numDelays)
    (hdiv : s.numDelays % s.blockSize = 0) {a : Nat → Nat → α}
    (ha : ∀ i < s.numDelays, ∀ k < n, attAt s i k = .ok (a i k))
    (hf : RingFileOf s.numDelays s.rings)
    (hr : ∀ d < s.numDelays, ∃ r, Store.read s.rings d = some r ∧ RingInv r ∧ r.wwin = n) :
    ∃ s', stepMix P s = .ok s' ∧
      Written s s' n (fun _ _ => True) (fun d k => mixedSample P s (fun i => a i k) d) := by
  have hBpos : 0 < s.blockSize := by rcases hB with h | h | h | h <;> omega
  have hNB : s.numDelays / s.blockSize * s.blockSize = s.numDelays :=
    Nat.div_mul_cancel (Nat.dvd_of_mod_eq_zero hdiv)
  -- the value of a cell, seen from the block that writes it
  have hval : ∀ b < s.numDelays / s.blockSize, ∀ k, ∀ j < s.blockSize,
      (hadamard P.num (log2BlockSize s.blockSize)
        ((List.range s.blockSize).map fun j => a (b * s.blockSize + j) k))[j]?
        = some (mixedSample P s (fun i => a i k) (rotated s.blockSize s.fbShift s.numDelays b j)) := by
    intro b hb k j hj
    have hd := rotated_lt (B := s.blockSize) (fb := s.fbShift) (b := b) (j := j) hN
    have hsrc := rotated_sourceLine hN hd
    have hsl := sourceLine_lt s hN (rotated s.blockSize s.fbShift s.numDelays b j)
    obtain ⟨e1, e2⟩ := rotated_inj hBpos (Nat.mod_lt _ hBpos) hj hdiv (Nat.div_lt_div_of_lt_of_dvd (Nat.dvd_of_mod_eq_zero hdiv) hsl)
      hb hsrc
    rw [mixedSample]
    simp only [e1, e2]
    rw [List.getD_eq_getElem?_getD]
    have hlen : (hadamard P.num (log2BlockSize s.blockSize)
        ((List.range s.blockSize).map fun j => a (b * s.blockSize + j) k)).length = s.blockSize := by
      rw [hadamard_length _ (by simp [log2BlockSize_pow hB]), log2BlockSize_pow hB]
    rw [List.getElem?_eq_getElem (by omega)]
    rfl
  obtain ⟨s', hs', hw⟩ := foldlM_range_ok (f := mixLines P) (n := s.numDelays / s.blockSize) (s := s)
    (p := fun b t => Written s t n
      (fun d k => ∃ b' < b, ∃ j < s.blockSize, d = rotated s.blockSize s.fbShift s.numDelays b' j ∧ k < n)
      (fun d k => mixedSample P s (fun i => a i k) d))
    (by
      intro b t hb ht
      have htn : t.seqChunk = n := by obtain ⟨R, y, rfl⟩ := ht.same; exact hn
      rw [mixLines, htn]
      obtain ⟨t', ht', hw'⟩ := foldlM_range_ok (f := mixAt P b) (n := n) (s := t)
        (p := fun k u => Written s u n
          (fun d k' => (∃ b' < b, ∃ j < s.blockSize, d = rotated s.blockSize s.fbShift s.numDelays b' j ∧ k' < n) ∨
            ∃ j < s.blockSize, d = rotated s.blockSize s.fbShift s.numDelays b j ∧ k' < k)
          (fun d k => mixedSample P s (fun i => a i k) d))
        (by
          intro k u hk hu
          have hin : ∀ j < s.blockSize, b * s.blockSize + j < s.numDelays := by
            intro j hj
            have : (b + 1) * s.blockSize ≤ s.numDelays / s.blockSize * s.blockSize := Nat.mul_le_mul_right _ hb
            rw [Nat.add_mul] at this; omega
          obtain ⟨u', hu', hw''⟩ := mixAt_ok (P := P) hu hB hN (b := b) hk (x := fun j => a (b * s.blockSize + j) k)
            (fun j hj => ha _ (hin j hj) k hk) (fun j hj => hval b hb k j hj)
          refine ⟨u', hu', hw''.mono ?_⟩
          rintro d k' (hd | ⟨j, hj, rfl, hk'⟩)
          · exact .inl (.inl hd)
          · rcases Nat.lt_succ_iff_lt_or_eq.mp hk' with hlt | rfl
            · exact .inl (.inr ⟨j, hj, rfl, hlt⟩)
            · exact .inr ⟨j, hj, rfl, rfl⟩)
        (ht.mono (by rintro d k (hd | ⟨j, _, _, hk⟩); exacts [hd, absurd hk (Nat.not_lt_zero _)]))
      refine ⟨t', ht', hw'.mono ?_⟩
      rintro d k ⟨b', hb', j, hj, rfl, hk⟩
      rcases Nat.lt_succ_iff_lt_or_eq.mp hb' with hlt | rfl
      · exact .inl ⟨b', hlt, j, hj, rfl, hk⟩
      · exact .inr ⟨j, hj, rfl, hk⟩)
    ((Written.start hf hr _).mono (by rintro d k ⟨b, hb, -⟩; exact absurd hb (Nat.not_lt_zero _)))
  refine ⟨s', hs', hw.same, hw.file, ?_⟩
  intro d hd
  obtain ⟨r0, cells, h1, h2, h3, h4, h5, h6⟩ := hw.ring d hd
  refine ⟨r0, cells, h1, h2, h3, h4, h5, fun k hk _ => h6 k hk ?_⟩
  refine ⟨sourceLine s d / s.blockSize, ?_, sourceLine s d % s.blockSize, Nat.mod_lt _ hBpos,
    (rotated_sourceLine hN hd).symm, hk⟩
  exact Nat.div_lt_div_of_lt_of_dvd (Nat.dvd_of_mod_eq_zero hdiv) (sourceLine_lt s hN d)

end Sys2Proof.Machine
end

