-- ==== Sys2Proof/Laws/Commit.lean ====
section
/-! SUPPORT. Steps 9 and 10 of a chunk (Machine/Process.lean): injection adds the caches to what step 8 wrote, and the
commit drops the oldest `n` samples of every line and appends the `n` written ones. -/

namespace Sys2Proof.Machine

variable {α : Type}

/-! ## Step 9 -/

/-- One channel's injection into one line (R100). -/
theorem injectLine_ok {P : Params α} {s0 s : Generic.State α} {n : Nat} {m : Nat → Nat → α}
    (h : Written s0 s n (fun _ _ => True) m) {i : Nat} (hi : i < s0.numDelays) {u : Nat → α} {cache : List α}
    (hn : s0.seqChunk = n) (hc : cache = (List.range n).map u) :
    ∃ s', injectLine P cache s i = .ok s' ∧
      Written s0 s' n (fun _ _ => True) (fun d k => if d = i then P.num.fadd (m d k) (u k) else m d k) := by
  have htn : s.seqChunk = n := by obtain ⟨R, y, rfl⟩ := h.same; exact hn
  rw [injectLine, htn, List.take_of_length_le (by rw [hc]; simp)]
  have hpos : ∀ k (q : α × Nat), cache.zipIdx[k]? = some q → k < n ∧ q = (u k, k) := by
    intro k q hq
    rw [List.getElem?_zipIdx, hc] at hq
    by_cases hk : k < n
    · refine ⟨hk, ?_⟩
      simp [hk] at hq
      exact hq.symm
    · simp [hk] at hq
  obtain ⟨s', hs', hw⟩ := foldlM_list_ok (f := injectAt P i) (l := cache.zipIdx) (s := s)
    (p := fun k t => Written s0 t n (fun _ _ => True)
      (fun d k' => if d = i ∧ k' < k then P.num.fadd (m d k') (u k') else m d k'))
    (by
      intro k q t hq ht
      obtain ⟨hk, rfl⟩ := hpos k q hq
      have hread := ht.readBack hi hk trivial
      simp only [Nat.lt_irrefl, and_false, if_false] at hread
      obtain ⟨t', ht', hw'⟩ := ht.write (d := i) (k := k) (v := P.num.fadd (m i k) (u k))
        (m' := fun d k' => if d = i ∧ k' < k + 1 then P.num.fadd (m d k') (u k') else m d k') hi hk
        (by rw [if_pos ⟨rfl, Nat.lt_succ_self k⟩])
        (by
          intro d k' _ hne
          by_cases hd : d = i
          · subst hd
            have : k' ≠ k := fun hk' => hne ⟨rfl, hk'⟩
            congr 1
            apply propext
            constructor <;> rintro ⟨-, hx⟩ <;> exact ⟨rfl, by omega⟩
          · rw [if_neg fun hx => hd hx.1, if_neg fun hx => hd hx.1])
      refine ⟨t', ?_, hw'.mono fun _ _ _ => .inl trivial⟩
      rw [injectAt]
      dsimp only
      rw [hread, res_bind_ok, ht'])
    (by
      refine ⟨h.same, h.file, ?_⟩
      simpa using h.ring)
  refine ⟨s', hs', hw.same, hw.file, ?_⟩
  intro d hd
  obtain ⟨r0, cells, h1, h2, h3, h4, h5, h6⟩ := hw.ring d hd
  refine ⟨r0, cells, h1, h2, h3, h4, h5, fun k hk _ => ?_⟩
  rw [h6 k hk trivial]
  have hl : cache.zipIdx.length = n := by rw [hc]; simp
  rw [hl]
  by_cases hdi : d = i
  · rw [if_pos ⟨hdi, hk⟩, if_pos hdi]
  · rw [if_neg fun hx => hdi hx.1, if_neg hdi]

/-- Step 9 (R100): the left cache into the lines of `Lset`, the right cache into those of `Rset`. -/
theorem stepInject_ok {P : Params α} {s0 s : Generic.State α} {n : Nat} {m : Nat → Nat → α}
    (h : Written s0 s n (fun _ _ => True) m) (hn : s0.seqChunk = n) {uL uR : Nat → α}
    (hL : s0.inCacheL = (List.range n).map uL) (hR : s0.inCacheR = (List.range n).map uR)
    (hcount : injectCount s0.numDelays s0.blockSize s0.fbShift ≤ s0.numDelays / 2) :
    ∃ s', stepInject P s = .ok s' ∧
      Written s0 s' n (fun _ _ => True) (fun d k =>
        if d < injectCount s0.numDelays s0.blockSize s0.fbShift then P.num.fadd (m d k) (uL k)
        else if s0.numDelays / 2 ≤ d ∧ d < s0.numDelays / 2 + injectCount s0.numDelays s0.blockSize s0.fbShift then
          P.num.fadd (m d k) (uR k)
        else m d k) := by
  have hsame : s.inCacheL = s0.inCacheL ∧ s.inCacheR = s0.inCacheR ∧ s.numDelays = s0.numDelays ∧
      s.blockSize = s0.blockSize ∧ s.fbShift = s0.fbShift := by
    obtain ⟨R, y, rfl⟩ := h.same; exact ⟨rfl, rfl, rfl, rfl, rfl⟩
  obtain ⟨e1, e2, e3, e4, e5⟩ := hsame
  rw [stepInject, e1, e2, e3, e4, e5]
  generalize hcnt : injectCount s0.numDelays s0.blockSize s0.fbShift = count at hcount ⊢
  obtain ⟨s1, hs1, hw1⟩ := foldlM_range_ok (f := injectLine P s0.inCacheL) (n := count) (s := s)
    (p := fun i t => Written s0 t n (fun _ _ => True)
      (fun d k => if d < i then P.num.fadd (m d k) (uL k) else m d k))
    (by
      intro i t hi ht
      obtain ⟨t', ht', hw'⟩ := injectLine_ok (P := P) ht (i := i) (by omega) hn hL
      refine ⟨t', ht', ?_⟩
      convert hw' using 3 with d k
      by_cases hdi : d = i
      · subst hdi; simp
      · rw [if_neg hdi]; congr 1; exact propext (by omega))
    (by simpa using h)
  obtain ⟨s2, hs2, hw2⟩ := foldlM_list_ok (f := injectLine P s0.inCacheR)
    (l := (List.range count).map (s0.numDelays / 2 + ·)) (s := s1)
    (p := fun i t => Written s0 t n (fun _ _ => True)
      (fun d k => if d < count then P.num.fadd (m d k) (uL k)
        else if s0.numDelays / 2 ≤ d ∧ d < s0.numDelays / 2 + i then P.num.fadd (m d k) (uR k) else m d k))
    (by
      intro i j t hi ht
      have hi' : i < count ∧ j = s0.numDelays / 2 + i := by
        by_cases hlt : i < count
        · simp [hlt] at hi; exact ⟨hlt, hi.symm⟩
        · simp [hlt] at hi
      obtain ⟨hlt, rfl⟩ := hi'
      obtain ⟨t', ht', hw'⟩ := injectLine_ok (P := P) ht (i := s0.numDelays / 2 + i) (by omega) hn hR
      refine ⟨t', ht', ?_⟩
      convert hw' using 3 with d k
      by_cases hdi : d = s0.numDelays / 2 + i
      · subst hdi
        have a1 : ¬(s0.numDelays / 2 + i < count) := by omega
        have a2 : s0.numDelays / 2 ≤ s0.numDelays / 2 + i ∧ s0.numDelays / 2 + i < s0.numDelays / 2 + (i + 1) := by
          omega
        have a3 : ¬(s0.numDelays / 2 ≤ s0.numDelays / 2 + i ∧ s0.numDelays / 2 + i < s0.numDelays / 2 + i) := by
          omega
        rw [if_pos rfl, if_neg a1, if_neg a1, if_pos a2, if_neg a3]
      · rw [if_neg hdi]
        split
        · rfl
        · congr 1; exact propext (by omega))
    (by
      convert hw1 using 3 with d k
      split
      · rfl
      · rw [if_neg (by omega)])
  refine ⟨s2, ?_, ?_⟩
  · rw [hs1, res_bind_ok, hs2]
  · simpa using hw2

/-! ## Step 10 -/

/-- A ring whose window of length `n` was written and then released and committed: the oldest `n` samples are gone and
the written ones are the newest (R62, R63). -/
theorem committed_ring {r : Ring α} {n : Nat} {w : Nat → α} (h : RingInv r) (hr : r.rwin = n) (hw : r.wwin = n)
    (hv : ∀ k < n, Store.read r.cells (r.writeCell k) = some (w k)) :
    RingInv ((r.release n).commit n) ∧ ((r.release n).commit n).fill = r.fill ∧
      liveSamples ((r.release n).commit n) = (liveSamples r).drop n ++ (List.range n).map w := by
  have hf := h.rwin_le
  have hfree := h.wwin_le
  have hcap := h.fill_le
  have h1 : RingInv (r.release n) := ringInv_release h (by omega)
  have hread : ∀ k < n, Store.read (r.release n).cells ((r.release n).writeCell k) = some (w k) := by
    intro k hk
    have : (r.release n).writeCell k = r.readCell (r.fill + k) := Ring.writeCell_eq h.wr_eq k
    rw [this, read_release hcap (by omega) (by omega), if_neg (by omega), ← Ring.writeCell_eq h.wr_eq]
    exact hv k hk
  have h2 : RingInv ((r.release n).commit n) :=
    ringInv_commit h1 (by show n ≤ r.wwin; omega) fun k hk => by rw [hread k hk]; rfl
  have hfill : ((r.release n).commit n).fill = r.fill := by show r.fill - n + n = r.fill; omega
  refine ⟨h2, hfill, ?_⟩
  apply List.ext_getElem?
  intro k
  have hlen1 := liveSamples_length h
  by_cases hk : k < r.fill
  · rw [liveSamples_getElem? h2 (by omega), readCell_commit, read_commit h1 n (by show k < r.cap; omega), if_neg (by
      rintro ⟨ha, hb⟩
      change r.fill - n + n ≤ k at ha; omega), readCell_release]
    by_cases hlt : k < r.fill - n
    · rw [List.getElem?_append_left (by rw [List.length_drop]; omega), List.getElem?_drop,
        liveSamples_getElem? h (by omega), read_release hcap (by omega) (by omega), if_neg (by omega)]
    · rw [List.getElem?_append_right (by rw [List.length_drop]; omega), List.length_drop, hlen1]
      have hkn : k - (r.fill - n) < n := by omega
      have e : n + k = r.fill + (k - (r.fill - n)) := by omega
      rw [read_release hcap (by omega) (by omega), if_neg (by omega), e, ← Ring.writeCell_eq h.wr_eq, hv _ hkn]
      simp [hkn]
  · rw [List.getElem?_eq_none (by rw [liveSamples_length h2]; omega), List.getElem?_eq_none (by simp; omega)]

/-- Step 10 for one line (R101). -/
theorem closeWindows_ok {n i : Nat} {s : Generic.State α} {r : Ring α} (hr : ringAt s i = some r)
    (h1 : n ≤ r.rwin) (h2 : n ≤ r.wwin) :
    ∃ R, closeWindows n s i = .ok { s with rings := R } ∧
      (∀ j, Store.read R j = if j = i then some ((r.release n).commit n) else Store.read s.rings j) ∧
      (∀ N, i < N → RingFileOf N s.rings → RingFileOf N R) := by
  refine ⟨Store.write (Store.write s.rings i (r.release n)) i ((r.release n).commit n), ?_, ?_, ?_⟩
  · rw [closeWindows, releaseRead_eq_ok.mpr ⟨r, hr, h1, rfl⟩, res_bind_ok]
    exact commitWrite_eq_ok.mpr ⟨r.release n, ringAt_eq_some.mpr ⟨(ringAt_eq_some.mp hr).1, by simp [putRing]⟩, h2, rfl⟩
  · intro j
    rw [Store.read_write, Store.read_write]
    split <;> rfl
  · intro N hi h
    exact (h.write hi _).write hi _

/-- Step 10 (R101): every ring released and committed. -/
theorem stepCommit_ok {n : Nat} {s : Generic.State α} (hn : s.seqChunk = n) (hf : RingFileOf s.numDelays s.rings)
    (hr : ∀ i < s.numDelays, ∃ r, Store.read s.rings i = some r ∧ n ≤ r.rwin ∧ n ≤ r.wwin) :
    ∃ R, stepCommit s = .ok { s with rings := R } ∧ RingFileOf s.numDelays R ∧
      ∀ i < s.numDelays, ∀ r, Store.read s.rings i = some r → Store.read R i = some ((r.release n).commit n) := by
  obtain ⟨s', hs', R, rfl, hf', hlo, hhi⟩ := foldlM_range_ok (f := closeWindows n) (n := s.numDelays) (s := s)
    (p := fun k t => ∃ R, t = { s with rings := R } ∧ RingFileOf s.numDelays R ∧
      (∀ i < k, ∀ r, Store.read s.rings i = some r → Store.read R i = some ((r.release n).commit n)) ∧
      ∀ i, k ≤ i → Store.read R i = Store.read s.rings i)
    (by
      rintro k t hk ⟨R, rfl, hf', hlo, hhi⟩
      obtain ⟨r, hr, h1, h2⟩ := hr k hk
      obtain ⟨R', ho, hR', hw⟩ := closeWindows_ok (n := n) (i := k) (s := { s with rings := R })
        (ringAt_of_lt hk (by rw [← hr]; exact hhi k (Nat.le_refl k))) h1 h2
      refine ⟨_, ho, R', rfl, hw _ hk hf', ?_, ?_⟩
      · intro i hi r' hr'
        rw [hR']
        rcases Nat.lt_succ_iff_lt_or_eq.mp hi with hlt | rfl
        · rw [if_neg (by omega)]; exact hlo i hlt r' hr'
        · rw [hr] at hr'; cases hr'; rw [if_pos rfl]
      · intro i hi
        rw [hR', if_neg (by omega)]
        exact hhi i (by omega))
    ⟨s.rings, rfl, hf, fun i hi => absurd hi (Nat.not_lt_zero i), fun _ _ => rfl⟩
  exact ⟨R, by subst hn; rw [stepCommit, hs'], hf', hlo⟩

end Sys2Proof.Machine
end

