-- ==== Sys2Proof/Laws/Process.lean ====
section
/-! SUPPORT. One chunk of `PROCESS` as a whole (Machine/Process.lean): the half before the output write and the half
after it, on a network at a chunk boundary, and what a chunk does to the queues (R103, R104). -/

namespace Sys2Proof.Machine

variable {α : Type}

/-! ## The parts of the invariant -/

theorem networkInv_ring {w : Nat} {s : Generic.State α} (h : NetworkInv w s) {i : Nat} (hi : i < s.numDelays) :
    ∃ r, Store.read s.rings i = some r ∧ RingInv r ∧ r.cap = s.delay.getD i 0 + s.minDelaySamples
      ∧ r.fill = s.delay.getD i 0 ∧ r.rwin = w ∧ r.wwin = w := by
  obtain ⟨r, hr, h1⟩ := h.2.2.2.2 i hi
  exact ⟨r, hr, h1⟩

theorem networkInv_file {w : Nat} {s : Generic.State α} (h : NetworkInv w s) : RingFileOf s.numDelays s.rings :=
  ⟨h.2.2.1, h.2.2.2.1⟩

theorem networkInv_blockSize {w : Nat} {s : Generic.State α} (h : NetworkInv w s) :
    s.blockSize = 1 ∨ s.blockSize = 2 ∨ s.blockSize = 4 ∨ s.blockSize = 8 := h.1.1

theorem networkInv_even {w : Nat} {s : Generic.State α} (h : NetworkInv w s) : s.numDelays % 2 = 0 := h.1.2.1

theorem networkInv_pos {w : Nat} {s : Generic.State α} (h : NetworkInv w s) : 0 < s.numDelays := by
  have h1 := h.1.1
  have h2 := h.1.2.2.1
  omega

theorem networkInv_delay {w : Nat} {s : Generic.State α} (h : NetworkInv w s) {i : Nat} (hi : i < s.numDelays) :
    s.minDelaySamples ≤ s.delay.getD i 0 := by
  have hlen := h.2.1.1
  rw [List.getD_eq_getElem?_getD, List.getElem?_eq_getElem (by omega)]
  exact (h.2.1.2.2.2 _ (List.getElem_mem _)).1

theorem networkInv_inject {w : Nat} {s : Generic.State α} (h : NetworkInv w s) :
    injectCount s.numDelays s.blockSize s.fbShift ≤ s.numDelays / 2 := by
  rw [injectCount]
  split
  · exact h.1.2.2.2.2.2.1 ‹_›
  · exact Nat.le_refl _

theorem getElem?_eq_getD {β : Type} {l : List β} {i : Nat} (h : i < l.length) (d : β) : l[i]? = some (l.getD i d) := by
  rw [List.getD_eq_getElem?_getD, List.getElem?_eq_getElem h]; rfl

theorem eq_map_getD {β : Type} {l : List β} {n : Nat} (h : l.length = n) (d : β) :
    l = (List.range n).map fun k => l.getD k d := by
  apply List.ext_getElem?
  intro k
  by_cases hk : k < n
  · rw [getElem?_eq_getD (by omega) d]; simp [hk]
  · rw [List.getElem?_eq_none (by omega), List.getElem?_eq_none (by simpa using hk)]

theorem take_map_eq {β γ : Type} {f : β → γ} {l : List β} {n : Nat} (h : n ≤ l.length) (d : β) :
    (l.take n).map f = (List.range n).map fun k => f (l.getD k d) := by
  rw [eq_map_getD (l := l.take n) (n := n) (by simp; omega) d, List.map_map]
  apply List.map_congr_left
  intro k hk
  have hk := List.mem_range.mp hk
  simp only [Function.comp_def, List.getD_eq_getElem?_getD, List.getElem?_take, if_pos hk]

/-! ## The values of a chunk -/

/-- `att[i][k]` of a chunk, from the queues at its start (R94, R104). -/
def chunkAtt (P : Params α) (s : Generic.State α) (i k : Nat) : α :=
  P.num.fmul ((queueOf s i).getD k P.num.zero) (s.coef.getD i P.num.zero)

/-- `inCacheL[k]` of a chunk (R91). -/
def chunkL (P : Params α) (s : Generic.State α) (k : Nat) : α :=
  P.num.fmul (s.inL.getD k P.num.zero) (gainL P.num s.inputAtt s.inputPan)

/-- `inCacheR[k]` of a chunk (R91). -/
def chunkR (P : Params α) (s : Generic.State α) (k : Nat) : α :=
  P.num.fmul (s.inR.getD k P.num.zero) (gainR P.num s.inputAtt s.inputPan)

/-- The state after step 7 of a chunk of `n` samples. -/
@[simps]
def frontState (P : Params α) (s : Generic.State α) (n : Nat) (R : Store (Ring α)) (g : Nat) : Generic.State α :=
  { s with
    rings := R
    grant := g
    inCacheL := (List.range n).map (chunkL P s)
    inCacheR := (List.range n).map (chunkR P s)
    att := (List.range s.numDelays).map fun i => (List.range n).map fun k => chunkAtt P s i k
    accL := (List.range n).map fun k => outputSample P s (fun i => chunkAtt P s i k) 0 (chunkL P s k)
    accR := (List.range n).map fun k =>
      outputSample P s (fun i => chunkAtt P s i k) (s.numDelays / 2) (chunkR P s k)
    progress := .outputWrite }

/-- Steps 1 to 7 on a network at a chunk boundary (R91 to R97, R103). -/
theorem chunkFront_ok {P : Params α} {s : Generic.State α} (h : NetworkInv 0 s) {n : Nat} (hn : s.seqChunk = n)
    (hmin : n ≤ s.minDelaySamples) (hL : n ≤ s.inL.length) (hR : n ≤ s.inR.length) :
    ∃ R g, chunkFront P s = .ok (frontState P s n R g) ∧ RingFileOf s.numDelays R ∧
      ∀ i < s.numDelays, ∀ r, Store.read s.rings i = some r → Store.read R i = some { r with rwin := n, wwin := n } := by
  have hcacheL := take_map_eq (f := fun x => P.num.fmul x (gainL P.num s.inputAtt s.inputPan)) hL P.num.zero
  have hcacheR := take_map_eq (f := fun x => P.num.fmul x (gainR P.num s.inputAtt s.inputPan)) hR P.num.zero
  obtain ⟨R, g, hw, hf, hR'⟩ := stepWindows_ok (n := n) (s := stepZero P (stepCache P s)) hn (networkInv_file h)
    (by
      intro i hi
      obtain ⟨r, hr, h1, h2, h3, h4, h5⟩ := networkInv_ring h hi
      have hd := networkInv_delay h hi
      exact ⟨r, hr, h1, h4, h5, by omega, by omega⟩)
  refine ⟨R, g, ?_, hf, hR'⟩
  rw [chunkFront, hw, res_bind_ok]
  have hdec := stepDecay_ok (P := P) (s := { stepZero P (stepCache P s) with rings := R, grant := g })
    (x := fun i k => (queueOf s i).getD k P.num.zero) (c := fun i => s.coef.getD i P.num.zero)
    (by
      intro i hi
      have hlen := h.2.1.2.1
      exact getElem?_eq_getD (show i < s.coef.length by rw [hlen]; exact hi) _)
    (by
      intro i hi k hk
      obtain ⟨r, hr, h1, h2, h3, h4, h5⟩ := networkInv_ring h hi
      have hd := networkInv_delay h hi
      have hk' : k < n := by rw [← hn]; exact hk
      have hq : queueOf s i = liveSamples r := by rw [queueOf, hr]
      have hlen := liveSamples_length h1
      refine rdWin_eq_ok.mpr ⟨_, ringAt_of_lt hi (hR' i hi r hr), hk',
        Ring.readCell_lt (r := { r with rwin := n, wwin := n }) h1.cap_pos k, ?_⟩
      show Store.read r.cells (r.readCell k) = _
      rw [← liveSamples_getElem? h1 (by omega), hq]
      exact getElem?_eq_getD (by omega) _)
  have htap := stepTaps_ok (P := P) (sg := fun i => s.sign.getD i .plus)
    (s := { stepZero P (stepCache P s) with
      rings := R, grant := g
      att := (List.range s.numDelays).map fun i => (List.range n).map fun k => chunkAtt P s i k })
    (show s.numDelays % 2 = 0 from networkInv_even h)
    (by
      intro i hi
      have hlen := h.2.1.2.2.1
      exact getElem?_eq_getD (show i < s.sign.length by rw [hlen]; exact hi) _)
    (by simp [stepZero, stepCache])
  subst hn
  refine res_bind_eq_ok.mpr ⟨_, hdec, res_bind_eq_ok.mpr ⟨_, htap, ?_⟩⟩
  have hsum : ∀ first, first + s.numDelays / 2 ≤ s.numDelays →
      tapSum P (fun i => s.sign.getD i .plus)
        ((List.range s.numDelays).map fun i => (List.range s.seqChunk).map fun k => chunkAtt P s i k) first
        (s.numDelays / 2)
        (List.replicate s.seqChunk P.num.zero)
      = (List.range s.seqChunk).map fun k => signedSum P s (fun i => chunkAtt P s i k) first (s.numDelays / 2) := by
    intro first hfirst
    rw [tapSum_getElem? (a := fun i k => chunkAtt P s i k) rfl]
    · rfl
    · intro i hi
      rw [List.getD_eq_getElem?_getD]
      simp [show first + i < s.numDelays by omega]
  have hN := networkInv_even h
  have e1 := hsum 0 (by omega)
  have e2 := hsum (s.numDelays / 2) (by omega)
  simp only [stepZero, stepCache, stepUnity, stepZeroTap, hcacheL, hcacheR, frontState, e1, e2, List.map_map,
    Function.comp_def, outputSample, chunkL, chunkR]
  cases hz : s.hasZeroTaps with
  | false => simp [chunkL, chunkR]
  | true => simp [chunkL, chunkR, List.zipWith_map_left, List.zipWith_map_right, List.zipWith_self]

/-- The state at the end of a chunk, but for its rings and the mixer's vector. -/
@[simps]
def backState (s : Generic.State α) (R : Store (Ring α)) (y : List α) : Generic.State α :=
  { stepAdvance (stepOutput s) with rings := R, y := y, progress := .loopHead }

/-- The output write and steps 8 to 11 on a network whose windows are open (R98 to R102): the network is at a chunk
boundary again, and every queue has lost its oldest `n` samples and gained the `n` written ones. -/
theorem chunkBack_ok {P : Params α} {s : Generic.State α} {n : Nat} (h : NetworkInv n s) (hn : s.seqChunk = n)
    {a : Nat → Nat → α} {uL uR : Nat → α}
    (hatt : s.att = (List.range s.numDelays).map fun i => (List.range n).map fun k => a i k)
    (hL : s.inCacheL = (List.range n).map uL) (hR : s.inCacheR = (List.range n).map uR) :
    ∃ R y, chunkBack P s = .ok (backState s R y) ∧ NetworkInv 0 (backState s R y) ∧
      ∀ d < s.numDelays, ∃ r r', Store.read s.rings d = some r ∧ Store.read R d = some r' ∧ r'.cap = r.cap
        ∧ r'.rd = (r.rd + n) % r.cap ∧ r'.wr = (r.wr + n) % r.cap
        ∧ liveSamples r' = (liveSamples r).drop n
          ++ (List.range n).map fun k => writtenSample P s (fun i => a i k) (uL k) (uR k) d := by
  have hattAt : ∀ i < s.numDelays, ∀ k < n, attAt (stepOutput s) i k = .ok (a i k) := by
    intro i hi k hk
    have h1 : (stepOutput s).att[i]? = some ((List.range n).map fun k => a i k) := by
      show s.att[i]? = _
      rw [hatt]
      simp [hi]
    rw [attAt, attRow, h1, orStop_some, res_bind_ok]
    simp [hk]
  obtain ⟨s1, h1, hw1⟩ := stepMix_ok (P := P) (s := stepOutput s) (n := n) hn (networkInv_blockSize h)
    (networkInv_pos h) h.1.2.2.2.1 (a := a) hattAt (networkInv_file h)
    (by
      intro d hd
      obtain ⟨r, hr, g1, g2, g3, g4, g5⟩ := networkInv_ring h hd
      exact ⟨r, hr, g1, g5⟩)
  obtain ⟨s2, h2, hw2⟩ := stepInject_ok (P := P) hw1 hn (uL := uL) (uR := uR) hL hR (networkInv_inject h)
  obtain ⟨R2, y, rfl⟩ := hw2.same
  obtain ⟨R, h3, hf3, hrings⟩ := stepCommit_ok (n := n) (s := { stepOutput s with rings := R2, y := y }) hn hw2.file
    (by
      intro d hd
      obtain ⟨r0, cells, e1, e2, e3, e4, e5, e6⟩ := hw2.ring d hd
      obtain ⟨r, hr, g1, g2, g3, g4, g5⟩ := networkInv_ring h hd
      have : r = r0 := Option.some.inj (hr.symm.trans e1)
      subst this
      exact ⟨_, e2, Nat.le_of_eq g4.symm, Nat.le_of_eq e4.symm⟩)
  have hring : ∀ d < s.numDelays, ∃ r r', Store.read s.rings d = some r ∧ Store.read R d = some r' ∧ RingInv r'
      ∧ r'.cap = r.cap ∧ r'.fill = r.fill ∧ r'.rwin = 0 ∧ r'.wwin = 0
      ∧ r'.rd = (r.rd + n) % r.cap ∧ r'.wr = (r.wr + n) % r.cap
      ∧ liveSamples r' = (liveSamples r).drop n
          ++ (List.range n).map fun k => writtenSample P s (fun i => a i k) (uL k) (uR k) d := by
    intro d hd
    obtain ⟨r0, cells, e1, e2, e3, e4, e5, e6⟩ := hw2.ring d hd
    obtain ⟨r, hr, g1, g2, g3, g4, g5⟩ := networkInv_ring h hd
    have : r = r0 := Option.some.inj (hr.symm.trans e1)
    subst this
    obtain ⟨c1, c2, c3⟩ := committed_ring (r := { r with cells := cells }) (n := n)
      (w := fun k => writtenSample P s (fun i => a i k) (uL k) (uR k) d) e3 g4 e4 (fun k hk => e6 k hk trivial)
    refine ⟨r, _, hr, hrings d hd _ e2, c1, rfl, c2, rfl, rfl, rfl, rfl, ?_⟩
    rw [c3]
    congr 2
    rw [liveSamples, liveSamples]
    apply List.filterMap_congr
    intro k hk
    exact e5 k (List.mem_range.mp hk)
  refine ⟨R, y, ?_, ⟨h.1, h.2.1, hf3.1, hf3.2, ?_⟩, ?_⟩
  · refine res_bind_eq_ok.mpr ⟨_, h1, res_bind_eq_ok.mpr ⟨_, h2, res_bind_eq_ok.mpr ⟨_, h3, ?_⟩⟩⟩
    subst hn
    rfl
  · intro d hd
    obtain ⟨r, r', e1, e2, e3, e4, e5, e6, e7, e8, e9, e10⟩ := hring d hd
    obtain ⟨q, hq, g1, g2, g3, g4, g5⟩ := networkInv_ring h hd
    have : r = q := Option.some.inj (e1.symm.trans hq)
    subst this
    exact ⟨r', e2, e3, e4.trans g2, e5.trans g3, e6, e7⟩
  · intro d hd
    obtain ⟨r, r', e1, e2, e3, e4, e5, e6, e7, e8, e9, e10⟩ := hring d hd
    exact ⟨r, r', e1, e2, e4, e8, e9, e10⟩

end Sys2Proof.Machine
end

