-- ==== Sys2Proof/Laws/Build.lean ====
section
/-! SUPPORT. Construction (Machine/Construction.lean): the draws, the sort, the stride permutation, the rings, the sign
shuffle, and the network they leave (R70 to R79). -/

namespace Sys2Proof.Machine

variable {α : Type}

/-! ## Draws -/

/-- The state after `n` draws. -/
@[simps]
def drawn (s : Generic.State α) (n : Nat) : Generic.State α :=
  { s with rng := s.rng.drop n, draws := s.draws + n }

theorem drawn_zero (s : Generic.State α) : drawn s 0 = s := rfl

theorem drawn_afterDraw (s : Generic.State α) (n : Nat) : drawn (afterDraw s) n = drawn s (n + 1) := by
  apply Generic.State.ext <;> simp [Nat.add_assoc, Nat.add_comm 1]

theorem drawn_drawn (s : Generic.State α) (n m : Nat) : drawn (drawn s n) m = drawn s (n + m) := by
  apply Generic.State.ext <;> simp [Nat.add_assoc]

/-- `count` draws answer `count` numbers in range and take `count` answers, the listed ones where they are in range
(R67, R72; log entry 4). -/
theorem drawMany_ok {P : Params α} {lo hi : Nat} (h : lo ≤ hi) (count : Nat) (s : Generic.State α) :
    ∃ raw, drawMany P lo hi count s = .ok (raw, drawn s count) ∧ raw.length = count ∧ (∀ v ∈ raw, lo ≤ v ∧ v ≤ hi) ∧
      (count ≤ s.rng.length → (∀ v ∈ s.rng.take count, lo ≤ v ∧ v ≤ hi) → raw = s.rng.take count) := by
  induction count generalizing s with
  | zero => exact ⟨[], rfl, rfl, by simp, by simp⟩
  | succ count ih =>
    obtain ⟨raw, h1, h2, h3, h4⟩ := ih (afterDraw s)
    refine ⟨drawAnswer P lo hi s :: raw, ?_, by simp [h2], ?_, ?_⟩
    · rw [drawMany, draw, if_neg (by omega), res_bind_ok]
      simp only [h1, res_bind_ok, drawn_afterDraw]
    · intro v hv
      rcases List.mem_cons.mp hv with rfl | hv
      · exact drawAnswer_range P h s
      · exact h3 v hv
    · intro hl hr
      cases hrng : s.rng with
      | nil => simp [hrng] at hl
      | cons a rest =>
        rw [hrng, List.take_succ_cons] at hr
        have ha := hr a (by simp)
        rw [afterDraw_rng, hrng, List.tail_cons] at h4
        rw [List.take_succ_cons, ← h4 (by simpa [hrng] using hl) fun v hv => hr v (by simp [hv]), drawAnswer, hrng]
        simp only [if_pos ha]

/-! ## The sort -/

theorem insertSorted_perm (v : Nat) (l : List Nat) : (insertSorted v l).Perm (v :: l) := by
  induction l with
  | nil => exact List.Perm.refl _
  | cons w l ih =>
    rw [insertSorted]
    split
    · exact List.Perm.refl _
    · exact (List.Perm.cons w ih).trans (List.Perm.swap v w l)

/-- Sorting rearranges (R72). -/
theorem sortAscending_perm (l : List Nat) : (sortAscending l).Perm l := by
  induction l with
  | nil => exact List.Perm.refl _
  | cons v l ih => exact (insertSorted_perm v _).trans (List.Perm.cons v ih)

theorem insertSorted_sorted {v : Nat} {l : List Nat} (h : l.Pairwise (· ≤ ·)) : (insertSorted v l).Pairwise (· ≤ ·) := by
  induction l with
  | nil => simp [insertSorted]
  | cons w l ih =>
    rw [List.pairwise_cons] at h
    rw [insertSorted]
    split
    · next hvw =>
      refine List.pairwise_cons.mpr ⟨?_, List.pairwise_cons.mpr h⟩
      intro x hx
      rcases List.mem_cons.mp hx with rfl | hx
      · exact hvw
      · exact Nat.le_trans hvw (h.1 x hx)
    · next hvw =>
      refine List.pairwise_cons.mpr ⟨?_, ih h.2⟩
      intro x hx
      rcases List.mem_cons.mp ((insertSorted_perm v l).mem_iff.mp hx) with rfl | hx
      · omega
      · exact h.1 x hx

/-- Sorting gives a non-decreasing list (R72). -/
theorem sortAscending_sorted (l : List Nat) : (sortAscending l).Pairwise (· ≤ ·) := by
  induction l with
  | nil => exact List.Pairwise.nil
  | cons v l ih => exact insertSorted_sorted ih

/-! ## The stride permutation -/

/-- The stride map is one-to-one where the stride and the number of lines have no common factor (R73). -/
theorem strideIndex_inj {N i j : Nat} (h : Nat.gcd N Config.stride = 1) (hi : i < N) (hj : j < N)
    (he : strideIndex N i = strideIndex N j) : i = j := by
  have h' : Nat.gcd N Config.stride = 1 := h
  have : i * Config.stride ≡ j * Config.stride [MOD N] := he
  have := Nat.ModEq.cancel_right_of_coprime h' this
  rwa [Nat.ModEq, Nat.mod_eq_of_lt hi, Nat.mod_eq_of_lt hj] at this

theorem strideIndex_lt {N : Nat} (h : 0 < N) (i : Nat) : strideIndex N i < N := Nat.mod_lt _ h

/-- Every line is reached by the stride map. -/
theorem strideIndex_surj {N d : Nat} (h : Nat.gcd N Config.stride = 1) (hd : d < N) : ∃ i < N, strideIndex N i = d := by
  have hinj : Function.Injective fun i : Fin N => (⟨strideIndex N i, strideIndex_lt (by omega) _⟩ : Fin N) := by
    intro i j hij
    exact Fin.ext (strideIndex_inj h i.2 j.2 (congrArg Fin.val hij))
  obtain ⟨i, hi⟩ := (Finite.injective_iff_surjective.mp hinj) ⟨d, hd⟩
  exact ⟨i, i.2, congrArg Fin.val hi⟩

theorem foldl_set_length {β : Type} (f : Nat → Nat) (l : List (β × Nat)) (file : List β) :
    (l.foldl (fun file p => file.set (f p.2) p.1) file).length = file.length := by
  induction l generalizing file with
  | nil => rfl
  | cons p l ih => rw [List.foldl_cons, ih, List.length_set]

theorem permuted_length (l : List Nat) : (permuted l).length = l.length := by
  rw [permuted, foldl_set_length, List.length_replicate]

/-- `DELAY[(i * 39) mod N]` is sorted length number `i` (R73). -/
theorem permuted_stride {l : List Nat} (h : Nat.gcd l.length Config.stride = 1) {i : Nat} (hi : i < l.length) :
    (permuted l)[strideIndex l.length i]? = l[i]? := by
  have key : ∀ n, n ≤ l.length → ∀ j < n,
      (((l.take n).zipIdx.foldl (fun file p => file.set (strideIndex l.length p.2) p.1)
        (List.replicate l.length 0)))[strideIndex l.length j]? = l[j]? := by
    intro n
    induction n with
    | zero => intro _ j hj; omega
    | succ n ih =>
      intro hn j hj
      have htake : l.take (n + 1) = l.take n ++ [l[n]] := (List.take_append_getElem (by omega)).symm
      rw [htake, List.zipIdx_append, List.foldl_append]
      simp only [List.zipIdx_cons, List.zipIdx_nil, List.foldl_cons, List.foldl_nil, Nat.zero_add, List.length_take,
        Nat.min_eq_left (show n ≤ l.length by omega)]
      by_cases hjn : j = n
      · subst hjn
        rw [List.getElem?_set_self (by
          rw [foldl_set_length, List.length_replicate]; exact strideIndex_lt (by omega) _)]
        exact (List.getElem?_eq_getElem (by omega)).symm
      · rw [List.getElem?_set_ne (fun he => hjn (strideIndex_inj h (by omega) (by omega) he).symm)]
        exact ih (by omega) j (by omega)
  have := key l.length (Nat.le_refl _) i hi
  rwa [List.take_length] at this

theorem mem_permuted {l : List Nat} (h : Nat.gcd l.length Config.stride = 1) {v : Nat} (hv : v ∈ permuted l) : v ∈ l := by
  obtain ⟨d, hd, rfl⟩ := List.mem_iff_getElem.mp hv
  rw [permuted_length] at hd
  obtain ⟨i, hi, he⟩ := strideIndex_surj h hd
  have := permuted_stride h hi
  subst he
  rw [List.getElem?_eq_getElem (by rw [permuted_length]; exact hd), List.getElem?_eq_getElem hi] at this
  rw [Option.some.inj this]
  exact List.getElem_mem hi

/-! ## The shuffle -/

theorem swapped_length (l : List Sign) (i j : Nat) : (swapped l i j).length = l.length := by
  rw [swapped]; split <;> simp

theorem swapped_perm (l : List Sign) (i j : Nat) : (swapped l i j).Perm l := by
  rw [swapped]
  split
  · next a b ha hb =>
    obtain ⟨hi, rfl⟩ := List.getElem?_eq_some_iff.mp ha
    obtain ⟨hj, rfl⟩ := List.getElem?_eq_some_iff.mp hb
    exact List.set_set_perm hi hj
  · exact List.Perm.refl _

/-- A swap inside the part before `h` rearranges that part and leaves the rest. -/
theorem swapped_before {l : List Sign} {i j h : Nat} (hi : i < h) (hj : j < h) :
    ((swapped l i j).take h).Perm (l.take h) ∧ (swapped l i j).drop h = l.drop h := by
  have e : (swapped l i j).take h = swapped (l.take h) i j := by
    rw [swapped, swapped, List.getElem?_take, List.getElem?_take, if_pos hi, if_pos hj]
    split <;> simp [List.take_set]
  refine ⟨e ▸ swapped_perm _ _ _, ?_⟩
  rw [swapped]
  split
  · rw [List.drop_set_of_lt hj, List.drop_set_of_lt hi]
  · rfl

/-- A swap behind `h` rearranges the part behind `h` and leaves the rest. -/
theorem swapped_behind {l : List Sign} {i j h : Nat} :
    ((swapped l (h + i) (h + j)).drop h).Perm (l.drop h) ∧ (swapped l (h + i) (h + j)).take h = l.take h := by
  have e : (swapped l (h + i) (h + j)).drop h = swapped (l.drop h) i j := by
    rw [swapped, swapped, List.getElem?_drop, List.getElem?_drop]
    split <;> simp [List.drop_set]
  refine ⟨e ▸ swapped_perm _ _ _, ?_⟩
  rw [swapped]
  split
  · rw [List.take_set_of_le (by omega), List.take_set_of_le (by omega)]
  · rfl

/-- Inside the list a swap exchanges the two entries (R75). -/
theorem swapped_eq {l : List Sign} {i j : Nat} (hi : i < l.length) (hj : j < l.length) :
    swapped l i j = (l.set i (l.getD j .plus)).set j (l.getD i .plus) := by
  rw [swapped, getElem?_eq_getD hi .plus, getElem?_eq_getD hj .plus]

/-- The swaps of a shuffle whose draws answered `r`, in order (R75). -/
def shuffleBy (base j : Nat) (r : List Nat) (signs : List Sign) : List Sign :=
  (List.range j).foldl (fun signs k => swapped signs (base + (j - k)) (base + r.getD k 0)) signs

theorem shuffleBy_succ (base j v : Nat) (r : List Nat) (signs : List Sign) :
    shuffleBy base (j + 1) (v :: r) signs = shuffleBy base j r (swapped signs (base + (j + 1)) (base + v)) := by
  rw [shuffleBy, List.range_succ_eq_map, List.foldl_cons, List.foldl_map, shuffleBy]
  simp

/-- A shuffle swaps by its draws, `r` of `[0, j]` for `j` downwards, the listed answers where they are in range (R67,
R75; log entry 4). -/
theorem shuffleFrom_ok {P : Params α} {base : Nat} : ∀ (j : Nat) (signs : List Sign) (s : Generic.State α),
    ∃ r : List Nat, shuffleFrom P base j signs s = .ok (shuffleBy base j r signs, drawn s j) ∧ r.length = j ∧
      (∀ k < j, r.getD k 0 ≤ j - k) ∧
      (j ≤ s.rng.length → (∀ k < j, s.rng.getD k 0 ≤ j - k) → r = s.rng.take j) := by
  intro j
  induction j with
  | zero => intro signs s; exact ⟨[], rfl, rfl, by simp, by simp⟩
  | succ j ih =>
    intro signs s
    obtain ⟨r, h1, h2, h3, h4⟩ := ih (swapped signs (base + (j + 1)) (base + drawAnswer P 0 (j + 1) s)) (afterDraw s)
    refine ⟨drawAnswer P 0 (j + 1) s :: r, ?_, by simp [h2], ?_, ?_⟩
    · rw [shuffleFrom, draw, if_neg (by omega), res_bind_ok]
      simp only [h1, drawn_afterDraw, shuffleBy_succ]
    · intro k hk
      cases k with
      | zero => simpa using (drawAnswer_range P (Nat.zero_le (j + 1)) s).2
      | succ k => simpa using h3 k (by omega)
    · intro hl hr
      cases hrng : s.rng with
      | nil => simp [hrng] at hl
      | cons a rest =>
        rw [afterDraw_rng, hrng, List.tail_cons] at h4
        have ha : a ≤ j + 1 := by simpa [hrng] using hr 0 (by omega)
        rw [List.take_succ_cons, ← h4 (by simpa [hrng] using hl) fun k hk => by
          simpa [hrng] using hr (k + 1) (by omega), drawAnswer, hrng]
        simp only [if_pos (⟨Nat.zero_le a, ha⟩ : 0 ≤ a ∧ a ≤ j + 1)]

/-- The shuffle of the left half takes `j` answers and rearranges the left half only (R75). -/
theorem shuffle_left_ok {P : Params α} {h : Nat} : ∀ (j : Nat) (signs : List Sign) (s : Generic.State α), j < h →
    ∃ signs', shuffleFrom P 0 j signs s = .ok (signs', drawn s j) ∧ signs'.length = signs.length ∧
      (signs'.take h).Perm (signs.take h) ∧ signs'.drop h = signs.drop h := by
  intro j
  induction j with
  | zero => intro signs s _; exact ⟨signs, rfl, rfl, List.Perm.refl _, rfl⟩
  | succ j ih =>
    intro signs s hj
    have hr := drawAnswer_range P (Nat.zero_le (j + 1)) s
    obtain ⟨signs', h1, h2, h3, h4⟩ := ih (swapped signs (0 + (j + 1)) (0 + drawAnswer P 0 (j + 1) s)) (afterDraw s)
      (by omega)
    obtain ⟨g1, g2⟩ := swapped_before (l := signs) (i := 0 + (j + 1)) (j := 0 + drawAnswer P 0 (j + 1) s) (h := h)
      (by omega) (by omega)
    refine ⟨signs', ?_, h2.trans (swapped_length _ _ _), h3.trans g1, h4.trans g2⟩
    rw [shuffleFrom, draw, if_neg (by omega), res_bind_ok]
    simp only [h1, drawn_afterDraw]

/-- The shuffle of the right half takes `j` answers and rearranges the right half only (R75). -/
theorem shuffle_right_ok {P : Params α} {h : Nat} : ∀ (j : Nat) (signs : List Sign) (s : Generic.State α),
    ∃ signs', shuffleFrom P h j signs s = .ok (signs', drawn s j) ∧ signs'.length = signs.length ∧
      (signs'.drop h).Perm (signs.drop h) ∧ signs'.take h = signs.take h := by
  intro j
  induction j with
  | zero => intro signs s; exact ⟨signs, rfl, rfl, List.Perm.refl _, rfl⟩
  | succ j ih =>
    intro signs s
    obtain ⟨signs', h1, h2, h3, h4⟩ := ih (swapped signs (h + (j + 1)) (h + drawAnswer P 0 (j + 1) s)) (afterDraw s)
    obtain ⟨g1, g2⟩ := swapped_behind (l := signs) (i := j + 1) (j := drawAnswer P 0 (j + 1) s) (h := h)
    refine ⟨signs', ?_, h2.trans (swapped_length _ _ _), h3.trans g1, h4.trans g2⟩
    rw [shuffleFrom, draw, if_neg (by omega), res_bind_ok]
    simp only [h1, drawn_afterDraw]

/-! ## The rings -/

/-- Step 4 (R74): one pre-filled ring per line and no other. -/
theorem initRings_ok {P : Params α} {s : Generic.State α} (hr : s.rings = []) (hd : s.delay.length = s.numDelays)
    (hm : 1 ≤ s.minDelaySamples) :
    ∃ R, initRings P s = .ok { s with rings := R } ∧ RingFileOf s.numDelays R ∧
      ∀ i < s.numDelays, Store.read R i = some (Ring.initial P.num.zero (s.delay.getD i 0) s.minDelaySamples) := by
  obtain ⟨s', hs', R, rfl, hf, hlo⟩ := foldlM_range_ok
    (f := fun (s1 : Generic.State α) i => (do
      let d ← delayOf s1 i
      ringInit P i d s1.minDelaySamples s1 : Res (Generic.State α))) (n := s.numDelays) (s := s)
    (p := fun k t => ∃ R, t = { s with rings := R } ∧ RingFileOf s.numDelays R ∧
      ∀ i < k, Store.read R i = some (Ring.initial P.num.zero (s.delay.getD i 0) s.minDelaySamples))
    (by
      rintro k t hk ⟨R, rfl, hf, hlo⟩
      refine ⟨{ s with rings := Store.write R k (Ring.initial P.num.zero (s.delay.getD k 0) s.minDelaySamples) }, ?_,
        _, rfl, hf.write hk _, ?_⟩
      · simp only [delayOf, getElem?_eq_getD (show k < s.delay.length by omega) 0, orStop_some, res_bind_ok]
        exact ringInit_eq_ok.mpr ⟨by omega, .inr hk, rfl⟩
      · intro i hi
        rw [Store.read_write]
        rcases Nat.lt_succ_iff_lt_or_eq.mp hi with hlt | rfl
        · rw [if_neg (by omega)]; exact hlo i hlt
        · rw [if_pos rfl])
    ⟨[], by rw [← hr], ⟨rfl, by simp⟩, fun i hi => absurd hi (Nat.not_lt_zero i)⟩
  exact ⟨R, hs', hf, hlo⟩

/-! ## The signs -/

/-- The signs of `N` lines, and the draws of the two shuffles that gave them (R75). -/
structure SignsOf (N : Nat) (rng : List Nat) (left right : List Nat) (signs : List Sign) : Prop where
  left_length : left.length = N / 2 - 1
  right_length : right.length = N / 2 - 1
  left_range : ∀ k < N / 2 - 1, left.getD k 0 ≤ N / 2 - 1 - k
  right_range : ∀ k < N / 2 - 1, right.getD k 0 ≤ N / 2 - 1 - k
  listed : 2 * (N / 2 - 1) ≤ rng.length →
    (∀ k < N / 2 - 1, rng.getD k 0 ≤ N / 2 - 1 - k ∧ rng.getD (N / 2 - 1 + k) 0 ≤ N / 2 - 1 - k) →
    left ++ right = rng.take (2 * (N / 2 - 1))
  signs : signs = shuffleBy (N / 2) (N / 2 - 1) right (shuffleBy 0 (N / 2 - 1) left (alternating N))

theorem assignSigns_draws {P : Params α} (s : Generic.State α) {signs : List Sign} {s' : Generic.State α}
    (h : assignSigns P s = .ok s') (hs : s'.sign = signs) : ∃ left right, SignsOf s.numDelays s.rng left right signs := by
  obtain ⟨left, l1, l2, l3, l4⟩ := shuffleFrom_ok (P := P) (base := 0) (s.numDelays / 2 - 1)
    (alternating s.numDelays) s
  obtain ⟨right, r1, r2, r3, r4⟩ := shuffleFrom_ok (P := P) (base := s.numDelays / 2) (s.numDelays / 2 - 1)
    (shuffleBy 0 (s.numDelays / 2 - 1) left (alternating s.numDelays)) (drawn s (s.numDelays / 2 - 1))
  rw [assignSigns] at h
  simp only [l1, res_bind_ok, r1, Except.ok.injEq] at h
  refine ⟨left, right, l2, r2, l3, r3, ?_, by rw [← hs, ← h]⟩
  intro hl hr
  have e2 : ∀ k, (s.rng.drop (s.numDelays / 2 - 1)).getD k 0 = s.rng.getD (s.numDelays / 2 - 1 + k) 0 := by
    intro k
    rw [List.getD_eq_getElem?_getD, List.getElem?_drop, List.getD_eq_getElem?_getD]
  rw [l4 (by omega) fun k hk => (hr k hk).1, r4 (by rw [drawn_rng, List.length_drop]; omega) fun k hk => by
    rw [drawn_rng, e2]; exact (hr k hk).2, drawn_rng, Nat.two_mul, List.take_add]

theorem assignSigns_ok {P : Params α} (s : Generic.State α) :
    ∃ signs, assignSigns P s = .ok { drawn s (2 * (s.numDelays / 2 - 1)) with sign := signs } ∧
      signs.length = s.numDelays ∧
      (signs.take (s.numDelays / 2)).Perm ((alternating s.numDelays).take (s.numDelays / 2)) ∧
      (signs.drop (s.numDelays / 2)).Perm ((alternating s.numDelays).drop (s.numDelays / 2)) := by
  rcases Nat.eq_zero_or_pos (s.numDelays / 2) with h0 | hpos
  · refine ⟨alternating s.numDelays, ?_, by simp [alternating], List.Perm.refl _, List.Perm.refl _⟩
    rw [assignSigns]
    simp only [h0]
    rfl
  · obtain ⟨left, h1, h2, h3, h4⟩ := shuffle_left_ok (P := P) (h := s.numDelays / 2) (s.numDelays / 2 - 1)
      (alternating s.numDelays) s (by omega)
    obtain ⟨both, g1, g2, g3, g4⟩ := shuffle_right_ok (P := P) (h := s.numDelays / 2) (s.numDelays / 2 - 1) left
      (drawn s (s.numDelays / 2 - 1))
    refine ⟨both, ?_, ?_, ?_, ?_⟩
    · rw [assignSigns]
      simp only [h1, res_bind_ok, g1, drawn_drawn]
      rw [show s.numDelays / 2 - 1 + (s.numDelays / 2 - 1) = 2 * (s.numDelays / 2 - 1) by omega]
    · rw [g2, h2]; simp [alternating]
    · rw [g4]; exact h3
    · rw [← h4]; exact g3

/-! ## The whole construction -/

/-- The draws of a construction of `N` lines (R78). -/
def constructionDraws (N : Nat) : Nat := N + 2 * (N / 2 - 1)

/-- What a construction leaves (R71 to R78): the registers of R71, the free choices, and nothing else changed. -/
structure Constructed (P : Params α) (t : Topology α) (lo hi : Nat) (s s' : Generic.State α) : Prop where
  same : ∃ delay sign R, s' =
    { writeInputAtt P (writeTopology P t lo hi s) with
      delay := delay, coef := delay.map fun d => coefficient P.num (matrixAttOf P.num t.blockSize) t.sampleRate d
        P.defaultDecaySeconds
      sign := sign, rings := R, rng := s.rng.drop (constructionDraws t.numDelays)
      draws := s.draws + constructionDraws t.numDelays, phase := .idle }
  delay : ∃ raw, raw.length = t.numDelays ∧ (∀ v ∈ raw, lo ≤ v ∧ v ≤ hi) ∧
    (t.numDelays ≤ s.rng.length → (∀ v ∈ s.rng.take t.numDelays, lo ≤ v ∧ v ≤ hi) → raw = s.rng.take t.numDelays) ∧
    s'.delay = permuted (sortAscending raw)
  draws : ∃ left right, SignsOf t.numDelays (s.rng.drop t.numDelays) left right s'.sign
  sign_length : s'.sign.length = t.numDelays
  sign_left : (s'.sign.take (t.numDelays / 2)).Perm ((alternating t.numDelays).take (t.numDelays / 2))
  sign_right : (s'.sign.drop (t.numDelays / 2)).Perm ((alternating t.numDelays).drop (t.numDelays / 2))
  file : RingFileOf t.numDelays s'.rings
  rings : ∀ i < t.numDelays, Store.read s'.rings i = some (Ring.initial P.num.zero (s'.delay.getD i 0) lo)

theorem constructNetwork_ok {P : Params α} {t : Topology α} {lo hi : Nat} {s : Generic.State α} (hr : s.rings = [])
    (h1 : 1 ≤ lo) (h2 : lo ≤ hi) :
    ∃ s', constructNetwork P t lo hi s = .ok s' ∧ Constructed P t lo hi s s' := by
  obtain ⟨raw, hraw, hlen, hrange, hlisted⟩ := drawMany_ok (P := P) h2 t.numDelays (writeTopology P t lo hi s)
  have hplen : (permuted (sortAscending raw)).length = t.numDelays := by
    rw [permuted_length, (sortAscending_perm raw).length_eq, hlen]
  obtain ⟨R, hR, hfile, hrings⟩ := initRings_ok (P := P)
    (s := { drawn (writeTopology P t lo hi s) t.numDelays with delay := permuted (sortAscending raw) }) hr hplen h1
  obtain ⟨sign, hs, hslen, hsl, hsr⟩ := assignSigns_ok (P := P)
    { drawn (writeTopology P t lo hi s) t.numDelays with delay := permuted (sortAscending raw), rings := R }
  have hsd := assignSigns_draws _ hs rfl
  obtain ⟨u, hu⟩ : ∃ u, u = { drawn { drawn (writeTopology P t lo hi s) t.numDelays with
    delay := permuted (sortAscending raw), rings := R } (2 * (t.numDelays / 2 - 1)) with sign := sign } := ⟨_, rfl⟩
  have hrun : constructNetwork P t lo hi s = .ok { writeCoefs P P.defaultDecaySeconds (writeInputAtt P u) with
      phase := .idle } := by
    rw [hu]
    refine res_bind_eq_ok.mpr ⟨_, ?_, res_bind_eq_ok.mpr ⟨_, hR, res_bind_eq_ok.mpr ⟨_, hs, rfl⟩⟩⟩
    rw [drawDelays]
    simp only [writeTopology_minDelaySamples, writeTopology_maxDelaySamples, writeTopology_numDelays]
    rw [hraw, res_bind_ok]
  refine ⟨_, hrun, ⟨permuted (sortAscending raw), sign, R, ?_⟩, ⟨raw, hlen, hrange, hlisted, ?_⟩, ?_, ?_, ?_, ?_, ?_, ?_⟩
  · apply Generic.State.ext <;> simp [hu, constructionDraws, Nat.add_assoc]
  · simp [hu]
  · simpa [hu] using hsd
  · simpa [hu] using hslen
  · simpa [hu] using hsl
  · simpa [hu] using hsr
  · simpa [hu] using hfile
  · intro i hi
    have := hrings i hi
    simpa [hu] using this

/-- A construction within the bounds of R69 and R70 leaves a network at a chunk boundary (R26 item 5, R103). -/
theorem Constructed.networkInv {P : Params α} {t : Topology α} {lo hi : Nat} {s s' : Generic.State α}
    (h : Constructed P t lo hi s s') (hB : t.blockSize = 1 ∨ t.blockSize = 2 ∨ t.blockSize = 4 ∨ t.blockSize = 8)
    (heven : t.numDelays % 2 = 0) (hle : t.blockSize ≤ t.numDelays) (hdiv : t.numDelays % t.blockSize = 0)
    (hhalf : 0 < t.feedbackShiftByBlock * t.blockSize → t.blockSize ≤ t.numDelays / 2)
    (hgcd : Nat.gcd t.numDelays Config.stride = 1) (h1 : 1 ≤ lo) (h2 : lo ≤ hi)
    (hcap : hi + lo < 2 ^ Config.ringCountBits) : NetworkInv 0 s' := by
  obtain ⟨raw, hlen, hrange, -, hdelay⟩ := h.delay
  obtain ⟨delay, sign, R, hs⟩ := h.same
  have hslen : (sortAscending raw).length = t.numDelays := by rw [(sortAscending_perm raw).length_eq, hlen]
  have hdlen : s'.delay.length = t.numDelays := by rw [hdelay, permuted_length, hslen]
  have hN : s'.numDelays = t.numDelays := by rw [hs]; simp
  have hBs : s'.blockSize = t.blockSize := by rw [hs]; simp
  have hfb : s'.fbShift = t.feedbackShiftByBlock * t.blockSize := by rw [hs]; simp
  have hmin : s'.minDelaySamples = lo := by rw [hs]; simp
  have hmax : s'.maxDelaySamples = hi := by rw [hs]; simp
  have hmem : ∀ d ∈ s'.delay, lo ≤ d ∧ d ≤ hi := by
    intro d hd
    rw [hdelay] at hd
    exact hrange d ((sortAscending_perm raw).mem_iff.mp (mem_permuted (by rw [hslen]; exact hgcd) hd))
  refine ⟨?_, ?_, ?_⟩
  · rw [TopologyInv, hN, hBs, hfb, hmin, hmax]
    exact ⟨hB, heven, hle, hdiv, Nat.mul_mod_left _ _, hhalf, hgcd, h1, h2, hcap⟩
  · rw [LinesInv, hN, hmin, hmax]
    refine ⟨hdlen, ?_, h.sign_length, hmem⟩
    have : s'.coef.length = s'.delay.length := by rw [hs]; simp
    rw [this, hdlen]
  · rw [RingsInv, hN, hmin]
    refine ⟨h.file.1, h.file.2, ?_⟩
    intro i hi
    exact ⟨_, h.rings i hi, ringInv_initial _ (by omega), rfl, rfl, rfl, rfl⟩

end Sys2Proof.Machine
end

