-- ==== Sys2Proof/Laws/State.lean ====
section
/-! SUPPORT. Laws of the state. The lemma of each field under each named update is generated beside the update by
`@[simps]` (Machine/Flags.lean, Ops.lean, Mixer.lean, Construction.lean, Process.lean, Ports.lean, Fetch.lean), true by
`rfl` and a simp lemma, under the name update_field (`faultEntry_rings`, `stepAdvance_seqPos`). Here stand those of the
updates that are another's special case, and of the state after reset. -/

namespace Sys2Proof.Machine

variable {α : Type}

@[simp] theorem raiseIllegal_phase (P : Params α) (s : Generic.State α) : (raiseIllegal P s).phase = .fault := rfl

@[simp] theorem raiseIllegal_faultCause (P : Params α) (s : Generic.State α) :
    (raiseIllegal P s).faultCause = illegalCommandCause := rfl

@[simp] theorem raiseIllegal_shortfall (P : Params α) (s : Generic.State α) :
    (raiseIllegal P s).shortfall = s.shortfall := rfl

@[simp] theorem raiseIllegal_diagCount (P : Params α) (s : Generic.State α) :
    (raiseIllegal P s).diagCount = s.diagCount := rfl

@[simp] theorem raiseIllegal_hasZeroTaps (P : Params α) (s : Generic.State α) :
    (raiseIllegal P s).hasZeroTaps = false := rfl

@[simp] theorem raiseIllegal_delay (P : Params α) (s : Generic.State α) : (raiseIllegal P s).delay = [] := rfl

@[simp] theorem raiseIllegal_coef (P : Params α) (s : Generic.State α) : (raiseIllegal P s).coef = [] := rfl

@[simp] theorem raiseIllegal_sign (P : Params α) (s : Generic.State α) : (raiseIllegal P s).sign = [] := rfl

@[simp] theorem raiseIllegal_rings (P : Params α) (s : Generic.State α) : (raiseIllegal P s).rings = [] := rfl

@[simp] theorem raiseIllegal_progress (P : Params α) (s : Generic.State α) : (raiseIllegal P s).progress = .rest := rfl

@[simp] theorem raiseIllegal_request (P : Params α) (s : Generic.State α) :
    (raiseIllegal P s).request = s.request := rfl

@[simp] theorem raiseIllegal_cmd (P : Params α) (s : Generic.State α) : (raiseIllegal P s).cmd = s.cmd := rfl

@[simp] theorem reset_phase : State.reset.phase = .unbuilt := rfl

@[simp] theorem reset_progress : State.reset.progress = .rest := rfl

@[simp] theorem reset_rings : State.reset.rings = [] := rfl

@[simp] theorem reset_cmd : State.reset.cmd = [] := rfl

/-- A fault leaves no network (R30, R120). -/
theorem faultEntry_noNetwork (P : Params α) (c : BitVec 5) (s : Generic.State α) : NoNetwork (faultEntry P c s) :=
  ⟨rfl, rfl, rfl, rfl, rfl⟩

/-- `RESET` leaves no network (R30, R126). -/
theorem resetEffect_noNetwork (P : Params α) (s : Generic.State α) : NoNetwork (resetEffect P s) :=
  ⟨rfl, rfl, rfl, rfl, rfl⟩

/-- `DESTROY` leaves no network (R30, R80). -/
theorem destroyEffect_noNetwork (P : Params α) (s : Generic.State α) : NoNetwork (destroyEffect P s) :=
  ⟨rfl, rfl, rfl, rfl, rfl⟩

/-- Two faults, resets or destructions that use the same free values leave the same `unspecified` registers. -/
theorem faultEntry_sameUnspecified (P : Params α) (c : BitVec 5) {s s' : Generic.State α}
    (h : s'.freeCount = s.freeCount) : SameUnspecified (faultEntry P c s) (faultEntry P c s') := by
  simp [SameUnspecified, SameTopology, h]

theorem resetEffect_sameUnspecified (P : Params α) {s s' : Generic.State α} (h : s'.freeCount = s.freeCount) :
    SameUnspecified (resetEffect P s) (resetEffect P s') := by
  simp [SameUnspecified, SameTopology, h]

theorem destroyEffect_sameUnspecified (P : Params α) {s s' : Generic.State α} (h : s'.freeCount = s.freeCount) :
    SameUnspecified (destroyEffect P s) (destroyEffect P s') := by
  simp [SameUnspecified, SameTopology, h]

end Sys2Proof.Machine
end

