-- ==== Sys2Proof/Laws/Construct.lean ====
section
/-! SUPPORT. Validation and preconditions (R69, R70), and what the part that `BUILD` and `SET_MAX_DELAY` share can do
under `Num.f32`: construct a network, or refuse for an operand. -/

namespace Sys2Proof.Machine

theorem validationMask_eq_zero {n bs : Nat} : validationMask n bs = 0 ↔ ValidTopology n bs := by
  have key : ∀ a b c d : Bool, BitVec.ofNat 5 ((if a then 1 else 0) + (if b then 2 else 0) + (if c then 4 else 0)
      + (if d then 8 else 0)) = 0 ↔ (a = false ∧ b = false ∧ c = false ∧ d = false) := by decide
  rw [validationMask, key]
  simp only [bsRange, bsGtN, nOdd, nNotDiv, Bool.not_eq_false', Bool.or_eq_true, beq_iff_eq, decide_eq_false_iff_not]
  constructor
  · rintro ⟨h1, h2, h3, h4⟩
    refine ⟨by tauto, by omega, by omega, ?_⟩
    by_contra h
    exact h4 ⟨by omega, h⟩
  · rintro ⟨h1, h2, h3, h4⟩
    exact ⟨by tauto, by omega, by omega, fun h => h.2 h4⟩

@[simp] theorem sampleOperand_f32 (w : Word) : sampleOperand F32.params.num w = .ok w := rfl

theorem f32_zero : F32.params.num.zero = (0 : Sample) := by decide

/-- The bounds in samples are those of `Buildable`, and the preconditions let the operands through. -/
theorem checkPreconditions_ok {t : Topology Sample} {lo hi : Nat}
    (h : Buildable t.numDelays t.blockSize t.feedbackShiftByBlock t.minDelaySeconds t.maxDelaySeconds t.sampleRate lo hi) :
    checkPreconditions F32.params.num t = .ok (lo, hi) := by
  obtain ⟨-, r1, r2, ⟨a1, a2, a3⟩, ⟨b1, b2, b3⟩, c1, c2, c3, c4, c5⟩ := h
  have count : ∀ v n, F32.truncToNat (F32.fmul v t.sampleRate) = some n →
      sampleCount F32.params.num v t.sampleRate = .ok n := by
    intro v n hv
    exact orStop_eq_ok.mpr hv
  have range : checkRange t lo hi = .ok () := by
    rw [checkRange, if_neg (by omega), if_neg (by omega), if_neg (by rw [Config.ringCountBits]; omega),
      if_neg (by rw [Config.stride]; omega), if_neg (by intro h; have := c5 h.1; omega)]
  have rate : badRate F32.params.num t.sampleRate = false := by
    rw [badRate, f32_zero, show F32.params.num.isFinite t.sampleRate = true from r1,
      show F32.params.num.lt 0 t.sampleRate = true from r2]
    rfl
  have bound : ∀ v, F32.isFinite v = true → F32.lt v 0 = false → badBound F32.params.num v = false := by
    intro v h1 h2
    rw [badBound, f32_zero, show F32.params.num.isFinite v = true from h1,
      show F32.params.num.lt v 0 = false from h2]
    rfl
  rw [checkPreconditions, rate, bound _ a1 a2, bound _ b1 b2, if_neg (by decide), count _ _ a3]
  simp only [res_bind_ok, count _ _ b3, range]

/-- Preconditions that let the operands through give bounds that R70 allows. -/
theorem checkPreconditions_bounds {t : Topology Sample} {lo hi : Nat}
    (h : checkPreconditions F32.params.num t = .ok (lo, hi)) :
    1 ≤ lo ∧ lo ≤ hi ∧ hi + lo < 2 ^ Config.ringCountBits ∧ Nat.gcd t.numDelays Config.stride = 1 ∧
      (0 < t.feedbackShiftByBlock * t.blockSize → t.blockSize ≤ t.numDelays / 2) := by
  rw [checkPreconditions] at h
  split at h
  · cases h
  · simp only [res_bind_eq_ok] at h
    obtain ⟨lo', -, hi', -, u, hc, h⟩ := h
    cases h
    rw [checkRange] at hc
    split_ifs at hc with h1 h2 h3 h4 h5
    exact ⟨by omega, by omega, by omega, not_not.mp h4, fun h => by omega⟩

/-- A refusal of the preconditions is one that an operand causes. -/
theorem checkPreconditions_refuses {t : Topology Sample} {e : Stop} (h : checkPreconditions F32.params.num t = .error e) :
    ∃ r, e = .refusal r ∧ r.ofOperand = true := by
  have count : ∀ v, sampleCount F32.params.num v t.sampleRate = .error e → e = .refusal .secondsHaveNoSampleCount := by
    intro v hv
    unfold sampleCount orStop at hv
    split at hv <;> cases hv
    rfl
  rw [checkPreconditions] at h
  split at h
  · cases h; exact ⟨_, rfl, rfl⟩
  · simp only [res_bind_eq_error] at h
    rcases h with h | ⟨lo, -, h | ⟨hi, -, h | ⟨u, -, h⟩⟩⟩
    · exact ⟨_, count _ h, rfl⟩
    · exact ⟨_, count _ h, rfl⟩
    · rw [checkRange] at h
      split_ifs at h <;> cases h <;> exact ⟨_, rfl, rfl⟩
    · cases h

/-- The shared part of `BUILD` and `SET_MAX_DELAY` on operands that R69 and R70 let through. -/
theorem construct_ok {t : Topology Sample} {s : State} {lo hi : Nat} (hr : s.rings = [])
    (h : Buildable t.numDelays t.blockSize t.feedbackShiftByBlock t.minDelaySeconds t.maxDelaySeconds t.sampleRate lo hi) :
    ∃ s', construct F32.params t s = .ok s' ∧ Constructed F32.params t lo hi s s' ∧ NetworkInv 0 s' := by
  have hp := checkPreconditions_ok h
  obtain ⟨c1, c2, c3, c4, c5⟩ := checkPreconditions_bounds hp
  obtain ⟨s', h1, h2⟩ := constructNetwork_ok (P := F32.params) (t := t) hr c1 c2
  refine ⟨s', ?_, h2, h2.networkInv h.1.1 h.1.2.2.1 h.1.2.1 h.1.2.2.2 c5 c4 c1 c2 c3⟩
  rw [construct, hp, res_bind_ok]
  exact h1

/-- The same on any valid topology: a network at a chunk boundary, or a refusal for an operand. -/
theorem construct_cases {t : Topology Sample} {s : State} (hr : s.rings = [])
    (hv : ValidTopology t.numDelays t.blockSize) :
    (∃ s' lo hi, construct F32.params t s = .ok s' ∧ Constructed F32.params t lo hi s s' ∧ NetworkInv 0 s') ∨
    ∃ r, construct F32.params t s = .error (.refusal r) ∧ r.ofOperand = true := by
  cases hp : checkPreconditions F32.params.num t with
  | error e =>
    obtain ⟨r, rfl, h⟩ := checkPreconditions_refuses hp
    exact .inr ⟨r, by rw [construct, hp, res_bind_error], h⟩
  | ok p =>
    obtain ⟨lo, hi⟩ := p
    obtain ⟨c1, c2, c3, c4, c5⟩ := checkPreconditions_bounds hp
    obtain ⟨s', h1, h2⟩ := constructNetwork_ok (P := F32.params) (t := t) hr c1 c2
    refine .inl ⟨s', lo, hi, ?_, h2, h2.networkInv hv.1 hv.2.2.1 hv.2.1 hv.2.2.2 c5 c4 c1 c2 c3⟩
    rw [construct, hp, res_bind_ok]
    exact h1

/-- A construction leaves registers with legal values (R19 to R23, R70, R71, R76). -/
theorem construct_legal {t : Topology Sample} {s s' : State} (hr : s.rings = []) (hb : t.numDelays < 2 ^ 16)
    (h : construct F32.params t s = .ok s') : RegistersLegal F32.num s' := by
  rw [construct, res_bind_eq_ok] at h
  obtain ⟨⟨lo, hi⟩, hc, h⟩ := h
  obtain ⟨c1, c2, -⟩ := checkPreconditions_bounds hc
  obtain ⟨u, hu, hcon⟩ := constructNetwork_ok (P := F32.params) (t := t) hr c1 c2
  have : u = s' := by simp only at h; rw [hu] at h; cases h; rfl
  subst this
  intro _
  obtain ⟨d, g, R, hs⟩ := hcon.same
  have hpre : badRate F32.num t.sampleRate = false ∧ badBound F32.num t.minDelaySeconds = false
      ∧ badBound F32.num t.maxDelaySeconds = false
      ∧ F32.num.truncToNat (F32.num.fmul t.minDelaySeconds t.sampleRate) = some lo
      ∧ F32.num.truncToNat (F32.num.fmul t.maxDelaySeconds t.sampleRate) = some hi := by
    rw [checkPreconditions] at hc
    split at hc
    · cases hc
    · next hbad =>
      simp only [res_bind_eq_ok] at hc
      obtain ⟨lo', e1, hi', e2, -, -, h⟩ := hc
      cases h
      simp only [Bool.or_eq_true, not_or, Bool.not_eq_true] at hbad
      exact ⟨hbad.1.1, hbad.1.2, hbad.2, orStop_eq_ok.mp e1, orStop_eq_ok.mp e2⟩
  obtain ⟨p1, p2, p3, p4, p5⟩ := hpre
  rw [hs]
  refine ⟨hb, p1, p2, p3, p4, p5, rfl, rfl, rfl, ?_, ?_⟩
  · show F32.num.le _ F32.params.num.inputPanInit = true; decide +kernel
  · show F32.num.le F32.params.num.inputPanInit _ = true; decide +kernel

/-- Legality is a matter of the registers 3 to 15 and of whether a network stands. -/
theorem RegistersLegal.of_same {s t : State} (h : SameTopology s t) (hp : t.inputPan = s.inputPan)
    (hd : t.delay = s.delay) (hl : RegistersLegal F32.num s) : RegistersLegal F32.num t := by
  obtain ⟨a1, a2, a3, a4, a5, a6, a7, a8, a9, a10, a11, a12⟩ := h
  rw [RegistersLegal, hd, a1, a2, a3, a4, a5, a6, a7, a8, a9, a10, a11, a12, hp]
  exact hl

/-- `BUILD` in `UNBUILT` of a valid topology is the shared part. -/
theorem buildEffect_valid {n bs shift : Nat} {zt : Bool} {lo hi rate : Word} {s : State} (hv : ValidTopology n bs) :
    buildEffect F32.params n bs shift zt lo hi rate s =
      construct F32.params ⟨n, bs, shift, zt, lo, hi, rate⟩ (dropNetwork s) := by
  rw [buildEffect, if_neg (not_not.mpr (validationMask_eq_zero.mpr hv))]
  rfl

end Sys2Proof.Machine
end

