-- ==== Sys2Proof/Laws/Decode.lean ====
section
/-! SUPPORT. The fields of the words the encoder writes (Decode.lean, R47, R54). -/

namespace Sys2Proof

/-! ## Well-formedness by constructor, the widths as numerals -/

theorem wellFormed_build {n bs shift : Nat} {zt : Bool} {lo hi rate : Word} :
    (Instr.build n bs shift zt lo hi rate).wellFormed = true ↔ n < 2 ^ 16 ∧ bs < 2 ^ 4 ∧ shift < 2 ^ 16 := by
  simp only [Instr.wellFormed, Bool.and_eq_true, decide_eq_true_eq, and_assoc]
  exact Iff.rfl

theorem wellFormed_process {n : Nat} : (Instr.process n).wellFormed = true ↔ n < 2 ^ 32 := decide_eq_true_iff

theorem wellFormed_peekReadable {line n : Nat} :
    (Instr.peekReadable line n).wellFormed = true ↔ line < 2 ^ 16 ∧ n < 2 ^ 32 := by
  simp only [Instr.wellFormed, Bool.and_eq_true, decide_eq_true_eq]
  exact Iff.rfl

theorem wellFormed_peekWritable {line n : Nat} :
    (Instr.peekWritable line n).wellFormed = true ↔ line < 2 ^ 16 ∧ n < 2 ^ 32 := by
  simp only [Instr.wellFormed, Bool.and_eq_true, decide_eq_true_eq]
  exact Iff.rfl

theorem wellFormed_commitWrite {line n : Nat} :
    (Instr.commitWrite line n).wellFormed = true ↔ line < 2 ^ 16 ∧ n < 2 ^ 32 := by
  simp only [Instr.wellFormed, Bool.and_eq_true, decide_eq_true_eq]
  exact Iff.rfl

theorem wellFormed_releaseRead {line n : Nat} :
    (Instr.releaseRead line n).wellFormed = true ↔ line < 2 ^ 16 ∧ n < 2 ^ 32 := by
  simp only [Instr.wellFormed, Bool.and_eq_true, decide_eq_true_eq]
  exact Iff.rfl

theorem wellFormed_ringInit {line n m : Nat} :
    (Instr.ringInit line n m).wellFormed = true ↔ line < 2 ^ 16 ∧ n < 2 ^ 32 ∧ m < 2 ^ 32 := by
  simp only [Instr.wellFormed, Bool.and_eq_true, decide_eq_true_eq, and_assoc]
  exact Iff.rfl

theorem header_toNat {op low : Nat} (h1 : op < 2 ^ 8) (h2 : low < 2 ^ 24) : (header op low).toNat = op * 2 ^ 24 + low := by
  rw [header, BitVec.toNat_ofNat, Nat.mod_eq_of_lt (by omega)]

/-- The opcode of a header word. -/
theorem opcode_header {op low : Nat} (h1 : op < 2 ^ 8) (h2 : low < 2 ^ 24) : opcode (header op low) = op := by
  rw [opcode, field, header_toNat h1 h2]; omega

/-- The bits of a header word below the opcode. -/
theorem field_header_low {op low : Nat} (h1 : op < 2 ^ 8) (h2 : low < 2 ^ 24) : field (header op low) 23 0 = low := by
  rw [field, header_toNat h1 h2]; omega

/-- The fields of the header word of `BUILD` (R47). -/
theorem field_header_build {n bs : Nat} (h1 : n < 2 ^ 16) (h2 : bs < 2 ^ 4) :
    field (header 1 (bs * 2 ^ 16 + n)) 23 20 = 0 ∧ field (header 1 (bs * 2 ^ 16 + n)) 19 16 = bs
      ∧ field (header 1 (bs * 2 ^ 16 + n)) 15 0 = n := by
  simp only [field, header_toNat (show 1 < 2 ^ 8 by omega) (show bs * 2 ^ 16 + n < 2 ^ 24 by omega)]
  omega

/-- The fields of the first operand word of `BUILD` (R47). -/
theorem field_operand_build {shift : Nat} (h : shift < 2 ^ 16) (zt : Bool) :
    field (BitVec.ofNat 32 ((if zt then 1 else 0) * 2 ^ 16 + shift)) 31 17 = 0
      ∧ field (BitVec.ofNat 32 ((if zt then 1 else 0) * 2 ^ 16 + shift)) 16 16 = (if zt then 1 else 0)
      ∧ field (BitVec.ofNat 32 ((if zt then 1 else 0) * 2 ^ 16 + shift)) 15 0 = shift := by
  have h' : (BitVec.ofNat 32 ((if zt then 1 else 0) * 2 ^ 16 + shift)).toNat = (if zt then 1 else 0) * 2 ^ 16 + shift := by
    rw [BitVec.toNat_ofNat, Nat.mod_eq_of_lt (by cases zt <;> simp <;> omega)]
  simp only [field, h']
  cases zt <;> simp <;> omega

/-- The two parts of a ring pattern (R54). -/
theorem ringPattern_parts {op n : Nat} (h1 : op < 2 ^ 3) (h2 : n < 2 ^ 32) :
    (ringPattern op n).toNat / 2 ^ 32 = op ∧ (ringPattern op n).toNat % 2 ^ 32 = n := by
  rw [ringPattern, BitVec.toNat_ofNat, Nat.mod_eq_of_lt (by omega)]
  omega

/-- The length of a command's encoding is a function of its opcode (R57). -/
theorem encode_length_of_header {ws : List Word} {op low : Nat} (h1 : op < 2 ^ 8) (h2 : low < 2 ^ 24)
    (h : ws.length + 1 = commandLength op) :
    (header op low :: ws).length = commandLength (opcode (header op low)) := by
  rw [opcode_header h1 h2, List.length_cons, h]

end Sys2Proof
end

