-- ==== Sys2Proof/Laws/Memory.lean ====
section
/-! SUPPORT. The canonical form of the memory (Machine/Memory.lean): every memory operation keeps it, and the state
right after reset has it. -/

namespace Sys2Proof.Machine

variable {α : Type}

/-- One ring in canonical form, no cell beyond its capacity. -/
def RingWf (r : Ring α) : Prop := Store.wf r.cells = true ∧ ∀ c ∈ r.cells, c.1 < r.cap

theorem memory_wf_iff {s : Generic.State α} :
    Memory.wf s = true ↔ Store.wf s.rings = true ∧ ∀ p ∈ s.rings, RingWf p.2 := by
  simp only [Memory.wf, Bool.and_eq_true, List.all_eq_true, decide_eq_true_iff, RingWf]

theorem memory_wf_reset : Memory.wf State.reset = true := rfl

/-- A state with the same rings is in canonical form too. -/
theorem memory_wf_congr {s t : Generic.State α} (h : t.rings = s.rings) : Memory.wf t = Memory.wf s := by
  rw [Memory.wf, Memory.wf, h]

theorem memory_wf_ring {s : Generic.State α} (h : Memory.wf s = true) {i : Nat} {r : Ring α}
    (hr : Store.read s.rings i = some r) : RingWf r :=
  (memory_wf_iff.mp h).2 _ (Store.mem_of_read hr)

theorem memory_wf_putRing {s : Generic.State α} (h : Memory.wf s = true) (i : Nat) {r : Ring α} (hr : RingWf r) :
    Memory.wf (putRing s i r) = true := by
  obtain ⟨h1, h2⟩ := memory_wf_iff.mp h
  refine memory_wf_iff.mpr ⟨Store.wf_write h1 i r, ?_⟩
  intro p hp
  rcases Store.mem_write hp with rfl | hp
  · exact hr
  · exact h2 p hp

theorem memory_wf_dropNetwork (s : Generic.State α) : Memory.wf (dropNetwork s) = true := rfl

theorem ringWf_initial (zero : α) (D m : Nat) : RingWf (Ring.initial zero D m) := by
  refine ⟨Store.wf_filled D zero, ?_⟩
  intro c hc
  obtain ⟨a, ha, rfl⟩ := List.mem_map.mp hc
  have := List.mem_range.mp ha
  show a < D + m
  omega

theorem ringWf_commit {r : Ring α} (h : RingWf r) (n : Nat) : RingWf (r.commit n) :=
  ⟨wf_eraseCells h.1 _ _, fun c hc => h.2 c (mem_eraseCells hc)⟩

theorem ringWf_release {r : Ring α} (h : RingWf r) (n : Nat) : RingWf (r.release n) :=
  ⟨wf_eraseCells h.1 _ _, fun c hc => h.2 c (mem_eraseCells hc)⟩

theorem ringWf_write {r : Ring α} (h : RingWf r) {a : Nat} (ha : a < r.cap) (v : α) :
    RingWf { r with cells := Store.write r.cells a v } := by
  refine ⟨Store.wf_write h.1 a v, ?_⟩
  intro c hc
  rcases Store.mem_write hc with rfl | hc
  · exact ha
  · exact h.2 c hc

/-! ## The operations -/

theorem memory_wf_ringInit {P : Params α} {i D m : Nat} {s s' : Generic.State α} (h : Memory.wf s = true)
    (hs : ringInit P i D m s = .ok s') : Memory.wf s' = true := by
  obtain ⟨-, -, rfl⟩ := ringInit_eq_ok.mp hs
  exact memory_wf_putRing h i (ringWf_initial _ _ _)

theorem memory_wf_peekReadable {i n g : Nat} {s s' : Generic.State α} (h : Memory.wf s = true)
    (hs : peekReadable i n s = .ok (g, s')) : Memory.wf s' = true := by
  obtain ⟨r, hr, -, -, rfl⟩ := peekReadable_eq_ok.mp hs
  have hw : RingWf r := memory_wf_ring h (ringAt_read hr)
  exact (memory_wf_congr rfl).trans (memory_wf_putRing h i (r := { r with rwin := r.readGrant n }) hw)

theorem memory_wf_peekWritable {i n g : Nat} {s s' : Generic.State α} (h : Memory.wf s = true)
    (hs : peekWritable i n s = .ok (g, s')) : Memory.wf s' = true := by
  obtain ⟨r, hr, -, -, rfl⟩ := peekWritable_eq_ok.mp hs
  have hw : RingWf r := memory_wf_ring h (ringAt_read hr)
  exact (memory_wf_congr rfl).trans (memory_wf_putRing h i (r := { r with wwin := r.writeGrant n }) hw)

theorem memory_wf_commitWrite {i n : Nat} {s s' : Generic.State α} (h : Memory.wf s = true)
    (hs : commitWrite i n s = .ok s') : Memory.wf s' = true := by
  obtain ⟨r, hr, -, rfl⟩ := commitWrite_eq_ok.mp hs
  exact memory_wf_putRing h i (ringWf_commit (memory_wf_ring h (ringAt_read hr)) n)

theorem memory_wf_releaseRead {i n : Nat} {s s' : Generic.State α} (h : Memory.wf s = true)
    (hs : releaseRead i n s = .ok s') : Memory.wf s' = true := by
  obtain ⟨r, hr, -, rfl⟩ := releaseRead_eq_ok.mp hs
  exact memory_wf_putRing h i (ringWf_release (memory_wf_ring h (ringAt_read hr)) n)

theorem memory_wf_wrWin {i k : Nat} {v : α} {s s' : Generic.State α} (h : Memory.wf s = true)
    (hs : wrWin s i k v = .ok s') : Memory.wf s' = true := by
  obtain ⟨r, hr, -, hc, rfl⟩ := wrWin_eq_ok.mp hs
  exact memory_wf_putRing h i (ringWf_write (memory_wf_ring h (ringAt_read hr)) hc v)

end Sys2Proof.Machine
end

