-- ==== Sys2Proof/Laws/PerInstr.lean ====
section
/-! SUPPORT. The family EncodingLength: the encoding of a well-formed operation has the form of its interface, and a
host command as many words as its opcode says (spec/30_encoding.md R46, R47, R57). One lemma per constructor. -/

namespace Sys2Proof.Laws.EncodingLength

/-- An encoded host command is one to five words, as many as its opcode says; the other encodings are requests. -/
def Statement (i : Instr) : Prop :=
  i.wellFormed = true →
    match encode i with
    | .command words => ∃ w0 rest, words = w0 :: rest ∧ words.length = commandLength (opcode w0)
    | .request r => ∃ j, decodeRequest r = .ok j

theorem build (numDelays blockSize feedbackShiftByBlock : Nat) (hasZeroTaps : Bool)
    (minDelaySeconds maxDelaySeconds sampleRate : Word) :
    Statement (.build numDelays blockSize feedbackShiftByBlock hasZeroTaps minDelaySeconds maxDelaySeconds sampleRate) := by
  intro h
  simp only [Instr.wellFormed, Bool.and_eq_true, decide_eq_true_eq] at h
  simp only [Config.numDelaysBits, Config.blockSizeBits] at h
  exact ⟨_, _, rfl, encode_length_of_header (by omega) (by omega) rfl⟩

theorem destroy : Statement .destroy := fun _ =>
  ⟨_, _, rfl, encode_length_of_header (by omega) (by omega) rfl⟩

theorem process (numSamples : Nat) : Statement (.process numSamples) := fun _ =>
  ⟨_, _, rfl, encode_length_of_header (by omega) (by omega) rfl⟩

theorem setRt60 (seconds : Word) : Statement (.setRt60 seconds) := fun _ =>
  ⟨_, _, rfl, encode_length_of_header (by omega) (by omega) rfl⟩

theorem setMaxDelay (seconds : Word) : Statement (.setMaxDelay seconds) := fun _ =>
  ⟨_, _, rfl, encode_length_of_header (by omega) (by omega) rfl⟩

theorem setInputPan (pan : Word) : Statement (.setInputPan pan) := fun _ =>
  ⟨_, _, rfl, encode_length_of_header (by omega) (by omega) rfl⟩

theorem ring_ok {op n line m : Nat} (h1 : op < 5) (h2 : n < 2 ^ 32) :
    ∃ j, decodeRequest (.ring (ringPattern op n) line m) = .ok j := by
  obtain ⟨e1, e2⟩ := ringPattern_parts (show op < 2 ^ 3 by omega) h2
  have h : op = 0 ∨ op = 1 ∨ op = 2 ∨ op = 3 ∨ op = 4 := by omega
  rw [decodeRequest, e1, e2]
  rcases h with rfl | rfl | rfl | rfl | rfl <;> exact ⟨_, rfl⟩

theorem peekReadable (line n : Nat) : Statement (.peekReadable line n) := by
  intro h
  simp only [Instr.wellFormed, Bool.and_eq_true, decide_eq_true_eq] at h
  simp only [Config.ringCountBits] at h
  exact ring_ok (by omega) h.2

theorem peekWritable (line n : Nat) : Statement (.peekWritable line n) := by
  intro h
  simp only [Instr.wellFormed, Bool.and_eq_true, decide_eq_true_eq] at h
  simp only [Config.ringCountBits] at h
  exact ring_ok (by omega) h.2

theorem commitWrite (line n : Nat) : Statement (.commitWrite line n) := by
  intro h
  simp only [Instr.wellFormed, Bool.and_eq_true, decide_eq_true_eq] at h
  simp only [Config.ringCountBits] at h
  exact ring_ok (by omega) h.2

theorem releaseRead (line n : Nat) : Statement (.releaseRead line n) := by
  intro h
  simp only [Instr.wellFormed, Bool.and_eq_true, decide_eq_true_eq] at h
  simp only [Config.ringCountBits] at h
  exact ring_ok (by omega) h.2

theorem ringInit (line n m : Nat) : Statement (.ringInit line n m) := by
  intro h
  simp only [Instr.wellFormed, Bool.and_eq_true, decide_eq_true_eq] at h
  simp only [Config.ringCountBits] at h
  exact ring_ok (by omega) h.1.2

theorem had1 : Statement .had1 := fun _ => ⟨_, rfl⟩

theorem had2 : Statement .had2 := fun _ => ⟨_, rfl⟩

theorem had4 : Statement .had4 := fun _ => ⟨_, rfl⟩

theorem had8 : Statement .had8 := fun _ => ⟨_, rfl⟩

end Sys2Proof.Laws.EncodingLength
end

