-- ==== Sys2Proof/Laws/Ports.lean ====
section
/-! SUPPORT. What the `REG` port answers (Machine/Ports.lean): a number that names no register, a control register, a
line register, a ring register (R19, R31). -/

namespace Sys2Proof.Machine

variable {α : Type} {P : Params α} {nonce no i f : Nat} {s : Generic.State α}

theorem natWord_lt {n : Nat} (h : n < 2 ^ 32) : natWord P nonce no n = some (BitVec.ofNat 32 n) := by
  rw [natWord, if_pos h]

theorem lineBase_eq : lineBase = 65536 := rfl

theorem ringBase_eq : ringBase = 1048576 := rfl

theorem namesRegister_control (h : no < lineBase) : namesRegister no s = decide (no < 19) := by
  rw [namesRegister, if_pos h]

theorem namesRegister_line (hi : i < 2 ^ 16) (hf : f < 4) :
    namesRegister (lineBase + 4 * i + f) s = decide (i < s.numDelays) := by
  have h1 := lineBase_eq
  have h2 := ringBase_eq
  rw [namesRegister, if_neg (by omega), if_pos (by omega), show (lineBase + 4 * i + f - lineBase) / 4 = i by omega]

theorem namesRegister_ring (hf : f < 8) :
    namesRegister (ringBase + 8 * i + f) s = (decide (i < s.numDelays) && decide (f < 6)) := by
  have h1 := lineBase_eq
  have h2 := ringBase_eq
  rw [namesRegister, if_neg (by omega), if_neg (by omega), show (ringBase + 8 * i + f - ringBase) / 8 = i by omega,
    show (ringBase + 8 * i + f - ringBase) % 8 = f by omega]

/-- A number that names no register reads 0, in every phase. -/
theorem readReg_unnamed (h : namesRegister no s = false) : readReg P nonce no s = some 0 := by
  rw [readReg, if_pos h]

theorem readReg_status : readReg P nonce 0 s = some (statusWord s) := by
  have h := lineBase_eq
  rw [readReg, namesRegister_control (by omega), if_neg (by decide), if_neg (fun h => h.2 rfl), if_pos (by omega)]
  rfl

theorem readReg_control (h : no < 19) (hp : s.phase ≠ .busy) :
    readReg P nonce no s = controlWord P nonce no s := by
  have h1 := lineBase_eq
  rw [readReg, namesRegister_control (by omega), if_neg (by simpa using h), if_neg (fun h => hp h.1), if_pos (by omega)]

theorem readReg_line (hp : s.phase = .idle) (hi : i < s.numDelays) (h16 : i < 2 ^ 16) (hf : f < 4) :
    readReg P nonce (lineBase + 4 * i + f) s = lineWord P nonce (lineBase + 4 * i + f) i f s := by
  have h1 := lineBase_eq
  have h2 := ringBase_eq
  rw [readReg, namesRegister_line h16 hf, if_neg (by simpa using hi), if_neg (by simp [hp]), if_neg (by omega),
    perLineWord, if_neg (by simp [hp]), if_neg (by omega), show (lineBase + 4 * i + f - lineBase) / 4 = i by omega,
    show (lineBase + 4 * i + f - lineBase) % 4 = f by omega]

theorem readReg_ring (hp : s.phase = .idle) (hi : i < s.numDelays) (hf : f < 6) :
    readReg P nonce (ringBase + 8 * i + f) s = ringWord P nonce (ringBase + 8 * i + f) i f s := by
  have h1 := lineBase_eq
  have h2 := ringBase_eq
  rw [readReg, namesRegister_ring (by omega), if_neg (by simp [hi, hf]), if_neg (by simp [hp]), if_neg (by omega),
    perLineWord, if_neg (by simp [hp]), if_pos (by omega), show (ringBase + 8 * i + f - ringBase) / 8 = i by omega,
    show (ringBase + 8 * i + f - ringBase) % 8 = f by omega]

/-- In `UNBUILT` and `FAULT` no per-line register exists. -/
theorem readReg_noNetwork (hp : s.phase = .unbuilt ∨ s.phase = .fault) (h : lineBase ≤ no) :
    readReg P nonce no s = some 0 := by
  rw [readReg]
  split
  · rfl
  · rw [if_neg (by rcases hp with h | h <;> simp [h]), if_neg (by omega), perLineWord, if_pos hp]

end Sys2Proof.Machine
end

