-- ==== Sys2Proof/Laws/Recurrence.lean ====
section
/-! SUPPORT. The per-sample recurrence (Machine/Recurrence.lean) over a run of samples no longer than any queue, and a
whole `PROCESS` whose input and room the host has given (R103, R104, R105). -/

namespace Sys2Proof.Machine

variable {α : Type}

/-! ## The recurrence -/

theorem recurrence_append (P : Params α) (s : Generic.State α) (us vs : List (α × α)) (qs : List (List α)) :
    recurrence P s (us ++ vs) qs =
      ((recurrence P s vs (recurrence P s us qs).1).1,
       (recurrence P s us qs).2.1 ++ (recurrence P s vs (recurrence P s us qs).1).2.1,
       (recurrence P s us qs).2.2 ++ (recurrence P s vs (recurrence P s us qs).1).2.2) := by
  induction us generalizing qs with
  | nil => rfl
  | cons u us ih => simp only [List.cons_append, recurrence, ih]

/-- `a_i(t)` of the sample number `k` of a run, from the queues at its start. -/
def runAtt (P : Params α) (s : Generic.State α) (qs : List (List α)) (i k : Nat) : α :=
  P.num.fmul ((qs.getD i []).getD k P.num.zero) (s.coef.getD i P.num.zero)

theorem attenuatedSample_eq (P : Params α) (s : Generic.State α) (qs : List (List α)) :
    attenuatedSample P s qs = fun i => runAtt P s qs i 0 := by
  funext i
  rw [attenuatedSample, runAtt]
  congr 1
  cases qs.getD i [] <;> rfl

/-- Over a run no longer than any queue, every sample of the run reads what was in the queues at its start. -/
theorem recurrence_chunk {P : Params α} {s : Generic.State α} {us : List (α × α)} {qs : List (List α)}
    (hlen : qs.length = s.numDelays) (hq : ∀ i < s.numDelays, us.length ≤ (qs.getD i []).length) (z : α × α) :
    recurrence P s us qs =
      ((List.range s.numDelays).map fun d => (qs.getD d []).drop us.length
          ++ (List.range us.length).map fun k => writtenSample P s (fun i => runAtt P s qs i k)
            (P.num.fmul (us.getD k z).1 (gainL P.num s.inputAtt s.inputPan))
            (P.num.fmul (us.getD k z).2 (gainR P.num s.inputAtt s.inputPan)) d,
       (List.range us.length).map fun k => outputSample P s (fun i => runAtt P s qs i k) 0
          (P.num.fmul (us.getD k z).1 (gainL P.num s.inputAtt s.inputPan)),
       (List.range us.length).map fun k => outputSample P s (fun i => runAtt P s qs i k) (s.numDelays / 2)
          (P.num.fmul (us.getD k z).2 (gainR P.num s.inputAtt s.inputPan))) := by
  induction us generalizing qs with
  | nil =>
    rw [recurrence]
    refine Prod.ext ?_ rfl
    simpa using eq_map_getD hlen []
  | cons u us ih =>
    have hone : sampleStep P s qs u.1 u.2 = ((List.range s.numDelays).map fun d => (qs.getD d []).tail ++
        [writtenSample P s (fun i => runAtt P s qs i 0) (P.num.fmul u.1 (gainL P.num s.inputAtt s.inputPan))
          (P.num.fmul u.2 (gainR P.num s.inputAtt s.inputPan)) d],
        outputSample P s (fun i => runAtt P s qs i 0) 0 (P.num.fmul u.1 (gainL P.num s.inputAtt s.inputPan)),
        outputSample P s (fun i => runAtt P s qs i 0) (s.numDelays / 2)
          (P.num.fmul u.2 (gainR P.num s.inputAtt s.inputPan))) := by
      rw [sampleStep, attenuatedSample_eq]
    have hget : ∀ d, (List.getD (sampleStep P s qs u.1 u.2).1 d []) = if d < s.numDelays then (qs.getD d []).tail ++
        [writtenSample P s (fun i => runAtt P s qs i 0) (P.num.fmul u.1 (gainL P.num s.inputAtt s.inputPan))
          (P.num.fmul u.2 (gainR P.num s.inputAtt s.inputPan)) d] else [] := by
      intro d
      rw [hone, List.getD_eq_getElem?_getD]
      by_cases hd : d < s.numDelays
      · simp [hd]
      · simp [hd]
    have hruns : ∀ k < us.length, (fun i => runAtt P s (sampleStep P s qs u.1 u.2).1 i k)
        = fun i => runAtt P s qs i (k + 1) := by
      intro k hk
      funext i
      rw [runAtt, runAtt, hget]
      congr 1
      by_cases hi : i < s.numDelays
      · have hl := hq i hi
        rw [List.length_cons] at hl
        rw [if_pos hi]
        cases hqi : qs.getD i [] with
        | nil => rw [hqi] at hl; simp at hl
        | cons v vs =>
          rw [hqi] at hl
          simp only [List.length_cons] at hl
          rw [List.tail_cons, List.getD_eq_getElem?_getD, List.getElem?_append_left (by omega),
            List.getD_eq_getElem?_getD, List.getElem?_cons_succ]
      · rw [if_neg hi]
        have : qs.getD i [] = [] := by
          rw [List.getD_eq_getElem?_getD, List.getElem?_eq_none (by omega)]; rfl
        rw [this]; rfl
    have hih := ih (qs := (sampleStep P s qs u.1 u.2).1) (by rw [hone]; simp) (by
      intro i hi
      rw [hget, if_pos hi]
      have := hq i hi
      simp only [List.length_cons] at this
      simp only [List.length_append, List.length_tail, List.length_cons, List.length_nil]
      omega)
    have hmap : ∀ {γ : Type} (f g : Nat → γ), (∀ k < us.length, f k = g (k + 1)) →
        g 0 :: (List.range us.length).map f = (List.range (us.length + 1)).map g := by
      intro γ f g hfg
      rw [List.range_succ_eq_map, List.map_cons, List.map_map]
      congr 1
      exact List.map_congr_left fun k hk => hfg k (List.mem_range.mp hk)
    rw [recurrence, hih]
    refine Prod.ext ?_ (Prod.ext ?_ ?_)
    · apply List.map_congr_left
      intro d hd
      have hd := List.mem_range.mp hd
      rw [hget, if_pos hd]
      have hl := hq d hd
      rw [List.length_cons] at hl
      rw [List.length_cons, List.drop_append_of_le_length (by rw [List.length_tail]; omega), List.append_assoc,
        ← List.drop_one, List.drop_drop, Nat.add_comm 1]
      congr 1
      refine hmap _ (fun k => writtenSample P s (fun i => runAtt P s qs i k)
        (P.num.fmul ((u :: us).getD k z).1 (gainL P.num s.inputAtt s.inputPan))
        (P.num.fmul ((u :: us).getD k z).2 (gainR P.num s.inputAtt s.inputPan)) d) ?_
      intro k hk
      rw [hruns k hk]
      rfl
    · have h0 : (sampleStep P s qs u.1 u.2).2.1 = outputSample P s (fun i => runAtt P s qs i 0) 0
          (P.num.fmul u.1 (gainL P.num s.inputAtt s.inputPan)) := by rw [hone]
      refine (congrArg (· :: _) h0).trans (hmap _ (fun k => outputSample P s (fun i => runAtt P s qs i k) 0
        (P.num.fmul ((u :: us).getD k z).1 (gainL P.num s.inputAtt s.inputPan))) ?_)
      intro k hk
      rw [hruns k hk]
      rfl
    · have h0 : (sampleStep P s qs u.1 u.2).2.2 = outputSample P s (fun i => runAtt P s qs i 0) (s.numDelays / 2)
          (P.num.fmul u.2 (gainR P.num s.inputAtt s.inputPan)) := by rw [hone]
      refine (congrArg (· :: _) h0).trans (hmap _ (fun k => outputSample P s (fun i => runAtt P s qs i k)
        (s.numDelays / 2) (P.num.fmul ((u :: us).getD k z).2 (gainR P.num s.inputAtt s.inputPan))) ?_)
      intro k hk
      rw [hruns k hk]
      rfl

/-! ## One chunk computes the recurrence -/

theorem queues_getD {N : Nat} {s : Generic.State α} (hN : s.numDelays = N) (hf : RingFileOf N s.rings) (i : Nat) :
    (queues s).getD i [] = queueOf s i := by
  rw [queues, List.getD_eq_getElem?_getD]
  by_cases hi : i < s.numDelays
  · simp [hi]
  · have hnone : Store.read s.rings i = none := by
      cases hr : Store.read s.rings i with
      | none => rfl
      | some r => exact absurd (hf.2 _ (Store.mem_of_read hr)) (by simp only; omega)
    simp [hi, queueOf, hnone]

/-- The stereo samples number 0 to `n - 1` at the input ports. -/
def inputRun (s : Generic.State α) (n : Nat) : List (α × α) := (s.inL.take n).zip (s.inR.take n)

theorem inputRun_length {s : Generic.State α} {n : Nat} (hL : n ≤ s.inL.length) (hR : n ≤ s.inR.length) :
    (inputRun s n).length = n := by
  simp [inputRun]; omega

theorem inputRun_getD {s : Generic.State α} {n k : Nat} (hL : n ≤ s.inL.length) (hR : n ≤ s.inR.length) (hk : k < n)
    (z : α) : (inputRun s n).getD k (z, z) = (s.inL.getD k z, s.inR.getD k z) := by
  rw [inputRun, List.getD_eq_getElem?_getD, List.getElem?_zip_eq_some.mpr ⟨?_, ?_⟩]
  · exact Option.getD_some
  · rw [List.getElem?_take, if_pos hk]; exact getElem?_eq_getD (by omega) z
  · rw [List.getElem?_take, if_pos hk]; exact getElem?_eq_getD (by omega) z

/-- A whole chunk on a network at a chunk boundary, as one equation. -/
theorem chunk_ok {P : Params α} {s : Generic.State α} (h : NetworkInv 0 s) {n : Nat} (hn : s.seqChunk = n)
    (hmin : n ≤ s.minDelaySamples) (hL : n ≤ s.inL.length) (hR : n ≤ s.inR.length) :
    ∃ R g R' y, chunkFront P s = .ok (frontState P s n R g) ∧
      chunkBack P (frontState P s n R g) = .ok (backState (frontState P s n R g) R' y) ∧
      NetworkInv 0 (backState (frontState P s n R g) R' y) ∧
      (∀ d < s.numDelays, ∃ r r', Store.read s.rings d = some r ∧ Store.read R' d = some r' ∧ r'.cap = r.cap
        ∧ r'.rd = (r.rd + n) % r.cap ∧ r'.wr = (r.wr + n) % r.cap) ∧
      recurrence P s (inputRun s n) (queues s)
        = (queues (backState (frontState P s n R g) R' y),
           (List.range n).map (fun k => outputSample P s (fun i => chunkAtt P s i k) 0 (chunkL P s k)),
           (List.range n).map fun k => outputSample P s (fun i => chunkAtt P s i k) (s.numDelays / 2) (chunkR P s k)) := by
  obtain ⟨R, g, hfront, hf, hR'⟩ := chunkFront_ok (P := P) h hn hmin hL hR
  have hfile := networkInv_file h
  have hnet : NetworkInv n (frontState P s n R g) := by
    refine ⟨h.1, h.2.1, hf.1, hf.2, ?_⟩
    intro i hi
    obtain ⟨r, hr, h1, h2, h3, h4, h5⟩ := networkInv_ring h hi
    have hd := networkInv_delay h hi
    exact ⟨_, hR' i hi r hr, Grants.opened ⟨h1, h4, h5, by omega, by omega⟩, h2, h3, rfl, rfl⟩
  obtain ⟨R2, y, hback, hnet', hq⟩ := chunkBack_ok (P := P) hnet hn (a := chunkAtt P s) (uL := chunkL P s)
    (uR := chunkR P s) rfl rfl rfl
  have hring : ∀ d < s.numDelays, ∃ r r', Store.read s.rings d = some r ∧ Store.read R2 d = some r' ∧ r'.cap = r.cap
        ∧ r'.rd = (r.rd + n) % r.cap ∧ r'.wr = (r.wr + n) % r.cap
        ∧ liveSamples r' = (liveSamples r).drop n
          ++ (List.range n).map fun k => writtenSample P s (fun i => chunkAtt P s i k) (chunkL P s k) (chunkR P s k) d := by
    intro d hd
    obtain ⟨r, hr, h1, -⟩ := networkInv_ring h hd
    obtain ⟨q, q', e1, e2, e3, e4, e5, e6⟩ := hq d hd
    have : { r with rwin := n, wwin := n } = q := Option.some.inj ((hR' d hd r hr).symm.trans e1)
    subst this
    exact ⟨r, q', hr, e2, e3, e4, e5, e6⟩
  refine ⟨R, g, R2, y, hfront, hback, hnet', ?_, ?_⟩
  · intro d hd
    obtain ⟨r, r', e1, e2, e3, e4, e5, -⟩ := hring d hd
    exact ⟨r, r', e1, e2, e3, e4, e5⟩
  · have hrun : (fun i k => runAtt P s (queues s) i k) = chunkAtt P s := by
      funext i k
      rw [runAtt, queues_getD rfl hfile, chunkAtt]
    have hrun' : ∀ k, (fun i => runAtt P s (queues s) i k) = fun i => chunkAtt P s i k := fun k =>
      congrArg (fun f i => f i k) hrun
    have hl := inputRun_length hL hR
    rw [recurrence_chunk (by simp [queues]) (by
      intro i hi
      obtain ⟨r, hr, h1, h2, h3, -⟩ := networkInv_ring h hi
      have hd := networkInv_delay h hi
      rw [queues_getD rfl hfile, queueOf, hr, liveSamples_length h1, hl]
      omega) (P.num.zero, P.num.zero), hl]
    refine Prod.ext ?_ (Prod.ext ?_ ?_)
    · apply List.map_congr_left
      intro d hd
      have hd := List.mem_range.mp hd
      obtain ⟨r, r', e1, e2, -, -, -, e6⟩ := hring d hd
      have hleft : queueOf s d = liveSamples r := by rw [queueOf, e1]
      have hright : queueOf (backState (frontState P s n R g) R2 y) d = liveSamples r' := by
        show (match Store.read R2 d with | some r => liveSamples r | none => []) = _
        rw [e2]
      rw [queues_getD rfl hfile, hleft, hright, e6]
      congr 1
      apply List.map_congr_left
      intro k hk
      rw [inputRun_getD hL hR (List.mem_range.mp hk), hrun' k]
      rfl
    · apply List.map_congr_left
      intro k hk
      rw [inputRun_getD hL hR (List.mem_range.mp hk), hrun' k]
      rfl
    · apply List.map_congr_left
      intro k hk
      rw [inputRun_getD hL hR (List.mem_range.mp hk), hrun' k]
      rfl

/-! ## The whole command -/

/-- What a whole `PROCESS` of `n` samples leaves (R89, R103, R104). -/
structure ProcessDone (P : Params α) (s s' : Generic.State α) (n : Nat) : Prop where
  same : ∃ pos chunk R cL cR aL aR att y g, s' =
    { s with
      phase := .idle, progress := .rest, seqPos := pos, seqRemaining := 0, seqChunk := chunk, rings := R
      inCacheL := cL, inCacheR := cR, accL := aL, accR := aR, att := att, y := y, grant := g
      inL := s.inL.drop n, inR := s.inR.drop n
      outL := s.outL ++ (recurrence P s (inputRun s n) (queues s)).2.1
      outR := s.outR ++ (recurrence P s (inputRun s n) (queues s)).2.2
      roomL := s.roomL - n, roomR := s.roomR - n }
  network : NetworkInv 0 s'
  queues : queues s' = (recurrence P s (inputRun s n) (queues s)).1
  cursors : ∀ d < s.numDelays, ∃ r r', Store.read s.rings d = some r ∧ Store.read s'.rings d = some r' ∧ r'.cap = r.cap
    ∧ r'.rd = (r.rd + n) % r.cap ∧ r'.wr = (r.wr + n) % r.cap

theorem inputRun_append {s : Generic.State α} {n m : Nat} (hL : n + m ≤ s.inL.length) (hR : n + m ≤ s.inR.length) :
    inputRun s (n + m) = inputRun s n ++ (((s.inL.drop n).take m).zip ((s.inR.drop n).take m)) := by
  rw [inputRun, inputRun, List.take_add, List.take_add, List.zip_append (by simp; omega)]

/-- A state whose network the recurrence sees alike. -/
theorem recurrence_congr (P : Params α) {s t : Generic.State α}
    (h : sampleStep P s = sampleStep P t) (us : List (α × α)) (qs : List (List α)) :
    recurrence P s us qs = recurrence P t us qs := by
  induction us generalizing qs with
  | nil => rfl
  | cons u us ih => simp only [recurrence, h, ih]

theorem runProcess_zero {P : Params α} {s : Generic.State α} {f : Nat} (hz : s.seqRemaining = 0)
    (hnet : NetworkInv 0 s) (hp : s.progress = .loopHead) :
    runProcess P (f + 1) s = .ok (finishProcess s) ∧ ProcessDone P s (finishProcess s) s.seqRemaining := by
  refine ⟨?_, ?_, hnet, ?_, ?_⟩
  · rw [runProcess, hp]; simp only [if_pos hz]
  · rw [hz]
    refine ⟨s.seqPos, s.seqChunk, s.rings, s.inCacheL, s.inCacheR, s.accL, s.accR, s.att, s.y, s.grant, ?_⟩
    rw [← hz]
    simp [finishProcess, inputRun, recurrence, hz]
  · rw [hz]; rfl
  · intro d hd
    obtain ⟨r, hr, h1, -⟩ := networkInv_ring hnet hd
    refine ⟨r, r, hr, hr, rfl, ?_, ?_⟩
    · rw [hz, Nat.add_zero, Nat.mod_eq_of_lt h1.2.1]
    · rw [hz, Nat.add_zero, Nat.mod_eq_of_lt (by rw [h1.wr_eq]; exact Nat.mod_lt _ h1.cap_pos)]

/-- The registers one sample depends on (R104). -/
theorem sampleStep_congr (P : Params α) {s t : Generic.State α} (h1 : t.numDelays = s.numDelays)
    (h2 : t.blockSize = s.blockSize) (h3 : t.fbShift = s.fbShift) (h4 : t.coef = s.coef) (h5 : t.sign = s.sign)
    (h6 : t.invMatrixAtt = s.invMatrixAtt) (h7 : t.hasZeroTaps = s.hasZeroTaps) (h8 : t.inputAtt = s.inputAtt)
    (h9 : t.inputPan = s.inputPan) : sampleStep P t = sampleStep P s := by
  have ha : attenuatedSample P t = attenuatedSample P s := by
    funext qs i; simp only [attenuatedSample, h4]
  have ho : outputSample P t = outputSample P s := by
    funext a first u; simp only [outputSample, signedSum, h1, h5, h6, h7]
  have hw : writtenSample P t = writtenSample P s := by
    funext a uL uR d; simp only [writtenSample, mixedSample, sourceLine, h1, h2, h3]
  funext qs inL inR
  simp only [sampleStep, ha, ho, hw, h1, h8, h9]

/-- The first chunk of a `PROCESS` that has input and room for it. -/
theorem runProcess_chunk {P : Params α} {s : Generic.State α} {f : Nat} (hnet : NetworkInv 0 s)
    (hp : s.progress = .loopHead) (hz : s.seqRemaining ≠ 0) {n : Nat}
    (hn : min s.seqRemaining s.minDelaySamples = n)
    (hL : n ≤ s.inL.length) (hR : n ≤ s.inR.length) (hoL : n ≤ s.roomL) (hoR : n ≤ s.roomR) :
    ∃ t, runProcess P (f + 2) s = runProcess P f t ∧ NetworkInv 0 t ∧ t.progress = .loopHead ∧
      sampleStep P t = sampleStep P s ∧
      (∃ pos R cL cR aL aR att y g, t =
        { s with
          progress := .loopHead, seqPos := pos, seqRemaining := s.seqRemaining - n, seqChunk := n, rings := R
          inCacheL := cL, inCacheR := cR, accL := aL, accR := aR, att := att, y := y, grant := g
          inL := s.inL.drop n, inR := s.inR.drop n
          outL := s.outL ++ (recurrence P s (inputRun s n) (queues s)).2.1
          outR := s.outR ++ (recurrence P s (inputRun s n) (queues s)).2.2
          roomL := s.roomL - n, roomR := s.roomR - n }) ∧
      queues t = (recurrence P s (inputRun s n) (queues s)).1 ∧
      ∀ d < s.numDelays, ∃ r r', Store.read s.rings d = some r ∧ Store.read t.rings d = some r' ∧ r'.cap = r.cap
        ∧ r'.rd = (r.rd + n) % r.cap ∧ r'.wr = (r.wr + n) % r.cap := by
  obtain ⟨R, g, R', y, hfront, hback, hnet', hcur, hrec⟩ := chunk_ok (P := P) (s := beginChunk s) hnet hn
    (by show n ≤ s.minDelaySamples; omega) hL hR
  have hin : inputOffered (beginChunk s) = true := by
    show (decide (min s.seqRemaining s.minDelaySamples ≤ s.inL.length)
      && decide (min s.seqRemaining s.minDelaySamples ≤ s.inR.length)) = true
    rw [hn]; simp [hL, hR]
  have hout : outputTaken (frontState P (beginChunk s) n R g) = true := by
    show (decide (min s.seqRemaining s.minDelaySamples ≤ s.roomL)
      && decide (min s.seqRemaining s.minDelaySamples ≤ s.roomR)) = true
    rw [hn]; simp [hoL, hoR]
  have hrec' := (recurrence_congr P (sampleStep_congr P (s := beginChunk s) (t := s) rfl rfl rfl rfl rfl rfl rfl rfl rfl)
    (inputRun s n) (queues s)).trans hrec
  obtain ⟨t, ht⟩ : ∃ t, t = backState (frontState P (beginChunk s) n R g) R' y := ⟨_, rfl⟩
  rw [← ht] at hback hnet' hrec'
  refine ⟨t, ?_, hnet', by rw [ht, backState_progress],
    sampleStep_congr P (by simp [ht]) (by simp [ht]) (by simp [ht]) (by simp [ht]) (by simp [ht]) (by simp [ht])
      (by simp [ht]) (by simp [ht]) (by simp [ht]), ?_, ?_, by rw [ht, backState_rings]; exact hcur⟩
  · rw [runProcess, hp]
    simp only [if_neg hz, hin, if_true]
    rw [hfront, res_bind_ok, runProcess]
    show (if outputTaken (frontState P (beginChunk s) n R g) = true then _ else _) = _
    rw [if_pos hout, hback, res_bind_ok]
  · rw [hrec']
    refine ⟨t.seqPos, t.rings, t.inCacheL, t.inCacheR, t.accL, t.accR, t.att, t.y, t.grant, ?_⟩
    subst hn
    have e1 : List.take (min s.seqRemaining s.minDelaySamples)
        (frontState P (beginChunk s) (min s.seqRemaining s.minDelaySamples) R g).accL
        = (frontState P (beginChunk s) (min s.seqRemaining s.minDelaySamples) R g).accL :=
      List.take_of_length_le (by simp)
    have e2 : List.take (min s.seqRemaining s.minDelaySamples)
        (frontState P (beginChunk s) (min s.seqRemaining s.minDelaySamples) R g).accR
        = (frontState P (beginChunk s) (min s.seqRemaining s.minDelaySamples) R g).accR :=
      List.take_of_length_le (by simp)
    apply Generic.State.ext <;> first | rfl | simp only [ht, backState, stepAdvance, stepOutput, beginChunk_seqChunk,
      frontState_seqChunk, e1, e2]
    all_goals simp only [frontState, beginChunk]
  · rw [hrec']

/-- A `PROCESS` at the head of its loop, with input and room for all that remains, runs to its end and computes the
recurrence (R90, R103, R104). -/
theorem runProcess_done {P : Params α} (m : Nat) : ∀ (s : Generic.State α) (fuel : Nat), s.seqRemaining ≤ m →
    NetworkInv 0 s → s.progress = .loopHead → 2 * s.seqRemaining + 1 ≤ fuel →
    s.seqRemaining ≤ s.inL.length → s.seqRemaining ≤ s.inR.length →
    s.seqRemaining ≤ s.roomL → s.seqRemaining ≤ s.roomR →
    ∃ s', runProcess P fuel s = .ok s' ∧ ProcessDone P s s' s.seqRemaining := by
  induction m with
  | zero =>
    intro s fuel h0 hnet hp hf _ _ _ _
    obtain ⟨f, rfl⟩ : ∃ f, fuel = f + 1 := ⟨fuel - 1, by omega⟩
    exact ⟨_, runProcess_zero (by omega) hnet hp⟩
  | succ m ih =>
    intro s fuel hm hnet hp hf hL hR hoL hoR
    by_cases hz : s.seqRemaining = 0
    · obtain ⟨f, rfl⟩ : ∃ f, fuel = f + 1 := ⟨fuel - 1, by omega⟩
      exact ⟨_, runProcess_zero hz hnet hp⟩
    obtain ⟨f, rfl⟩ : ∃ f, fuel = f + 2 := ⟨fuel - 2, by omega⟩
    have hmin1 : 1 ≤ s.minDelaySamples := hnet.1.2.2.2.2.2.2.2.1
    obtain ⟨n, hn⟩ : ∃ n, min s.seqRemaining s.minDelaySamples = n := ⟨_, rfl⟩
    have hnr : n + (s.seqRemaining - n) = s.seqRemaining := by omega
    obtain ⟨t, hrun, hnet', htp, hstep, ⟨pos, R, cL, cR, aL, aR, att, y, g, ht⟩, hq, hcur⟩ :=
      runProcess_chunk (P := P) (f := f) hnet hp hz hn (by omega) (by omega) (by omega) (by omega)
    have htr : t.seqRemaining = s.seqRemaining - n := by rw [ht]
    have htL : t.inL = s.inL.drop n := by rw [ht]
    have htR : t.inR = s.inR.drop n := by rw [ht]
    have htoL : t.roomL = s.roomL - n := by rw [ht]
    have htoR : t.roomR = s.roomR - n := by rw [ht]
    obtain ⟨s', hs', hd⟩ := ih t f (by omega) hnet' htp (by omega) (by rw [htL, List.length_drop]; omega)
      (by rw [htR, List.length_drop]; omega) (by omega) (by omega)
    have hsplit : inputRun s s.seqRemaining = inputRun s n ++ inputRun t t.seqRemaining := by
      have := inputRun_append (s := s) (n := n) (m := s.seqRemaining - n) (by omega) (by omega)
      rw [hnr] at this
      rw [this, htr, inputRun, inputRun, htL, htR]
    have hwhole : recurrence P s (inputRun s s.seqRemaining) (queues s) =
        ((recurrence P t (inputRun t t.seqRemaining) (queues t)).1,
         (recurrence P s (inputRun s n) (queues s)).2.1 ++ (recurrence P t (inputRun t t.seqRemaining) (queues t)).2.1,
         (recurrence P s (inputRun s n) (queues s)).2.2
          ++ (recurrence P t (inputRun t t.seqRemaining) (queues t)).2.2) := by
      rw [hsplit, recurrence_append, ← hq, recurrence_congr P hstep.symm]
    refine ⟨s', hrun.trans hs', ?_, hd.network, by rw [hd.queues, hwhole], ?_⟩
    · obtain ⟨pos', chunk', R1, cL', cR', aL', aR', att', y', g', he⟩ := hd.same
      have htoutL : t.outL = s.outL ++ (recurrence P s (inputRun s n) (queues s)).2.1 := by rw [ht]
      have htoutR : t.outR = s.outR ++ (recurrence P s (inputRun s n) (queues s)).2.2 := by rw [ht]
      refine ⟨pos', chunk', R1, cL', cR', aL', aR', att', y', g', ?_⟩
      rw [hwhole, he, htL, htR, htoL, htoR, htoutL, htoutR, htr, List.append_assoc, List.append_assoc, List.drop_drop,
        List.drop_drop, Nat.sub_sub, Nat.sub_sub, hnr]
      clear he htL htR htoL htoR htoutL htoutR htr
      rw [ht]
    · intro d hdlt
      obtain ⟨r, r', e1, e2, e3, e4, e5⟩ := hcur d hdlt
      obtain ⟨q, q', f1, f2, f3, f4, f5⟩ := hd.cursors d (by rw [ht]; exact hdlt)
      have : r' = q := Option.some.inj (e2.symm.trans f1)
      subst this
      refine ⟨r, q', e1, f2, f3.trans e3, ?_, ?_⟩
      · rw [f4, e3, e4, Nat.mod_add_mod, Nat.add_assoc, htr, hnr]
      · rw [f5, e3, e5, Nat.mod_add_mod, Nat.add_assoc, htr, hnr]

end Sys2Proof.Machine
end

