-- ==== Sys2Proof/Laws/Progress.lean ====
section
/-! SUPPORT. A `PROCESS` in progress, however little input or room the host has given: it stops at a chunk boundary or
at an output write, with the network's invariant kept, or it is done (R11, R90, R103). -/

namespace Sys2Proof.Machine

variable {α : Type}

/-- From `s` a `PROCESS` has come to `s'`: `m` more samples have passed, and all that R89 names stands. -/
def Advanced (m : Nat) (s s' : Generic.State α) : Prop :=
  ProcessKeeps s s' ∧ ProcessPassed m s s' ∧ s'.seqRemaining + m = s.seqRemaining

theorem SameLines.trans {s t u : Generic.State α} (hN : t.numDelays = s.numDelays) (h : SameLines s t)
    (h' : SameLines t u) : SameLines s u := by
  refine ⟨h'.1.trans h.1, h'.2.1.trans h.2.1, fun d hd => ?_⟩
  obtain ⟨r, r', e1, e2, e3⟩ := h.2.2 d hd
  obtain ⟨q, q', f1, f2, f3⟩ := h'.2.2 d (by omega)
  have : r' = q := Option.some.inj (e2.symm.trans f1)
  subst this
  exact ⟨r, q', e1, f2, f3.trans e3⟩

theorem SameTopology.trans {s t u : Generic.State α} (h : SameTopology s t) (h' : SameTopology t u) :
    SameTopology s u := by
  obtain ⟨a1, a2, a3, a4, a5, a6, a7, a8, a9, a10, a11, a12⟩ := h
  obtain ⟨b1, b2, b3, b4, b5, b6, b7, b8, b9, b10, b11, b12⟩ := h'
  exact ⟨b1.trans a1, b2.trans a2, b3.trans a3, b4.trans a4, b5.trans a5, b6.trans a6, b7.trans a7, b8.trans a8,
    b9.trans a9, b10.trans a10, b11.trans a11, b12.trans a12⟩

theorem ProcessKeeps.trans {s t u : Generic.State α} (h : ProcessKeeps s t) (h' : ProcessKeeps t u) :
    ProcessKeeps s u := by
  obtain ⟨a1, a2, a3, a4, ⟨a5, a6⟩, a7, a8, a9, a10, a11, a12, a13, a14⟩ := h
  obtain ⟨b1, b2, b3, b4, ⟨b5, b6⟩, b7, b8, b9, b10, b11, b12, b13, b14⟩ := h'
  exact ⟨a1.trans b1, a2.trans a1.1 b2, b3.trans a3, b4.trans a4, ⟨b5.trans a5, b6.trans a6⟩, b7.trans a7, b8.trans a8,
    b9.trans a9, b10.trans a10, b11.trans a11, b12.trans a12, b13.trans a13, b14.trans a14⟩

theorem Advanced.trans {m n : Nat} {s t u : Generic.State α} (h : Advanced m s t) (h' : Advanced n t u) :
    Advanced (m + n) s u := by
  obtain ⟨h1, ⟨a1, a2, a3, a4, a5, a6⟩, h2⟩ := h
  obtain ⟨g1, ⟨b1, b2, b3, b4, b5, b6⟩, g2⟩ := h'
  refine ⟨h1.trans g1, ⟨?_, ?_, ?_, ?_, ?_, ?_⟩, by omega⟩
  · rw [b1, a1, List.drop_drop]
  · rw [b2, a2, List.drop_drop]
  all_goals omega

/-- A network each of whose lines has a ring has the lines of itself. -/
theorem sameLines_refl {w : Nat} {s : Generic.State α} (h : NetworkInv w s) : SameLines s s := by
  refine ⟨rfl, rfl, fun d hd => ?_⟩
  obtain ⟨r, hr, -⟩ := networkInv_ring h hd
  exact ⟨r, r, hr, hr, rfl⟩

theorem advanced_refl {w : Nat} {s s' : Generic.State α} (h : NetworkInv w s)
    (hs : s' = { s with phase := s'.phase, progress := s'.progress, seqChunk := s'.seqChunk }) : Advanced 0 s s' := by
  have h1 := sameLines_refl h
  rw [hs]
  refine ⟨⟨?_, h1, rfl, rfl, ⟨rfl, rfl⟩, rfl, rfl, rfl, rfl, rfl, rfl, rfl, rfl⟩, ⟨?_, ?_, rfl, rfl, rfl, rfl⟩, rfl⟩
  · exact ⟨rfl, rfl, rfl, rfl, rfl, rfl, rfl, rfl, rfl, rfl, rfl, rfl⟩
  · rfl
  · rfl

/-- A network between two steps of a `PROCESS`: at a chunk boundary, at an output write, or with the command done. -/
def Processing (s : Generic.State α) : Prop :=
  (s.progress = .loopHead ∧ s.phase = .busy ∧ NetworkInv 0 s) ∨
  (s.progress = .outputWrite ∧ s.phase = .busy ∧ NetworkInv s.seqChunk s ∧ ScratchInv s ∧ 1 ≤ s.seqChunk
    ∧ s.seqChunk ≤ s.seqRemaining) ∨
  (s.progress = .rest ∧ s.phase = .idle ∧ NetworkInv 0 s)

theorem Processing.progressInv {s : Generic.State α} (h : Processing s) : ProgressInv s := by
  rcases h with ⟨h1, h2, h3⟩ | ⟨h1, h2, h3, h4, h5⟩ | ⟨h1, h2, h3⟩
  · rw [ProgressInv, h1]; exact ⟨h2, h3⟩
  · rw [ProgressInv, h1]; exact ⟨h2, h3, h4, h5⟩
  · rw [ProgressInv, h1, h2]; exact h3

theorem chunkFront_keeps {P : Params α} {s : Generic.State α} (h : NetworkInv 0 s) (hb : s.phase = .busy)
    (hz : s.seqRemaining ≠ 0) (hin : inputOffered (beginChunk s) = true) :
    ∃ s', chunkFront P (beginChunk s) = .ok s' ∧ s'.progress = .outputWrite ∧ s'.phase = .busy ∧
      NetworkInv s'.seqChunk s' ∧ ScratchInv s' ∧ 1 ≤ s'.seqChunk ∧ s'.seqChunk ≤ s'.seqRemaining ∧ Advanced 0 s s' := by
  obtain ⟨n, hn⟩ : ∃ n, (beginChunk s).seqChunk = n := ⟨_, rfl⟩
  have hmin1 : 1 ≤ s.minDelaySamples := h.1.2.2.2.2.2.2.2.1
  have hn' : min s.seqRemaining s.minDelaySamples = n := hn
  rw [inputOffered, hn] at hin
  simp only [beginChunk_inL, beginChunk_inR, Bool.and_eq_true, decide_eq_true_iff] at hin
  obtain ⟨R, g, hfront, hf, hR⟩ := chunkFront_ok (P := P) (s := beginChunk s) h hn
    (by show n ≤ s.minDelaySamples; omega) hin.1 hin.2
  refine ⟨_, hfront, by simp, by simpa using hb, ?_, ?_, ?_, ?_, ?_⟩
  · rw [frontState_seqChunk, hn]
    refine ⟨h.1, h.2.1, hf.1, hf.2, ?_⟩
    intro i hi
    obtain ⟨r, hr, h1, h2, h3, h4, h5⟩ := networkInv_ring h hi
    have hd := networkInv_delay h hi
    exact ⟨_, hR i hi r hr, Grants.opened ⟨h1, h4, h5, by omega, by omega⟩, h2, h3, rfl, rfl⟩
  · rw [ScratchInv]
    simp [hn']
  · rw [frontState_seqChunk, hn]; omega
  · rw [frontState_seqChunk, hn, frontState_seqRemaining, beginChunk_seqRemaining]; omega
  · refine ⟨⟨by simp [SameTopology], ⟨by simp, by simp, fun d hd => ?_⟩, by simp, by simp, ⟨by simp, by simp⟩, by simp,
      by simp, by simp, by simp, by simp, by simp, by simp, by simp⟩, by simp [ProcessPassed], by simp⟩
    obtain ⟨r, hr, -⟩ := networkInv_ring h hd
    exact ⟨r, _, hr, hR d hd r hr, rfl⟩

theorem chunkBack_keeps {P : Params α} {s : Generic.State α} (h : NetworkInv s.seqChunk s) (hs : ScratchInv s)
    (hrem : s.seqChunk ≤ s.seqRemaining) : ∃ s', chunkBack P s = .ok s' ∧ s'.progress = .loopHead ∧
      s'.phase = s.phase ∧ NetworkInv 0 s' ∧ Advanced s.seqChunk s s' := by
  obtain ⟨h1, h2, h3, h4, h5, h6⟩ := hs
  obtain ⟨R, y, hb, hn, hc⟩ := chunkBack_ok (P := P) h rfl
    (a := fun i k => (s.att.getD i []).getD k P.num.zero) (uL := fun k => s.inCacheL.getD k P.num.zero)
    (uR := fun k => s.inCacheR.getD k P.num.zero)
    (by
      rw [eq_map_getD h5 []]
      apply List.map_congr_left
      intro i hi
      have hi := List.mem_range.mp hi
      rw [← eq_map_getD h5 []]
      refine eq_map_getD (h6 _ ?_) P.num.zero
      rw [List.getD_eq_getElem?_getD, List.getElem?_eq_getElem (by omega)]
      exact List.getElem_mem _)
    (eq_map_getD h1 _) (eq_map_getD h2 _)
  refine ⟨_, hb, by simp, by simp, hn, ⟨by simp [SameTopology], ⟨by simp, by simp, fun d hd => ?_⟩, by simp, by simp,
    ⟨by simp, by simp⟩, by simp, by simp, by simp, by simp, by simp, by simp, by simp, by simp⟩,
    by simp [ProcessPassed, h3, h4], by simp; omega⟩
  obtain ⟨r, r', e1, e2, e3, -⟩ := hc d hd
  exact ⟨r, r', e1, by simpa using e2, e3⟩

/-- The moves a `PROCESS` in progress still needs at most. -/
def movesLeft (s : Generic.State α) : Nat :=
  match s.progress with
  | .loopHead => 2 * s.seqRemaining + 1
  | .outputWrite => 2 * (s.seqRemaining - s.seqChunk) + 2
  | .rest => 0
  | .receiving _ _ => 0

/-- However far it comes, a `PROCESS` in progress never stops for want of anything but the host, and keeps the
invariant and the frame; with input and room for all that remains it is done. -/
theorem runProcess_keeps {P : Params α} : ∀ (fuel : Nat) (s : Generic.State α), Processing s →
    ∃ s' m, runProcess P fuel s = .ok s' ∧ Processing s' ∧ Advanced m s s' ∧
      (movesLeft s ≤ fuel → Supplied s.seqRemaining s → s.progress ≠ .rest → s'.progress = .rest ∧ m = s.seqRemaining) := by
  intro fuel
  induction fuel with
  | zero =>
    intro s h
    refine ⟨s, 0, rfl, h, ?_, ?_⟩
    · rcases h with ⟨-, -, h⟩ | ⟨-, -, h, -⟩ | ⟨-, -, h⟩ <;> exact advanced_refl h rfl
    · intro hf _ hp
      rcases h with ⟨h, -⟩ | ⟨h, -⟩ | ⟨h, -⟩
      · rw [movesLeft, h] at hf; simp only at hf; omega
      · rw [movesLeft, h] at hf; simp only at hf; omega
      · exact absurd h hp
  | succ fuel ih =>
    intro s h
    rcases h with ⟨h1, h2, h3⟩ | ⟨h1, h2, h3, h4, h5, h6⟩ | ⟨h1, h2, h3⟩
    · rw [runProcess, h1]
      simp only
      by_cases hz : s.seqRemaining = 0
      · rw [if_pos hz]
        exact ⟨_, 0, rfl, .inr (.inr ⟨rfl, rfl, h3⟩), advanced_refl h3 rfl, fun _ _ _ => ⟨rfl, hz.symm⟩⟩
      · rw [if_neg hz]
        by_cases hin : inputOffered (beginChunk s) = true
        · rw [if_pos hin]
          obtain ⟨t, ht, t1, t2, t3, t4, t5, t6, t7⟩ := chunkFront_keeps (P := P) h3 h2 hz hin
          obtain ⟨s', m, hs', g1, g2, g3⟩ := ih t (.inr (.inl ⟨t1, t2, t3, t4, t5, t6⟩))
          refine ⟨s', m, by rw [ht, res_bind_ok, hs'], g1, Nat.zero_add m ▸ t7.trans g2, ?_⟩
          intro hf hs _
          have hrem : t.seqRemaining = s.seqRemaining := t7.2.2
          obtain ⟨p1, p2, p3, p4, -⟩ := t7.2.1
          rw [← hrem]
          refine g3 ?_ ?_ (by rw [t1]; exact Progress.noConfusion)
          · rw [movesLeft, h1] at hf; rw [movesLeft, t1]; simp only at hf ⊢; omega
          · rw [Supplied, hrem, p1, p2, p3, p4]; exact hs
        · rw [if_neg hin]
          refine ⟨_, 0, rfl, .inl ⟨h1, h2, h3⟩, advanced_refl h3 rfl, fun _ hs _ => absurd ?_ hin⟩
          rw [inputOffered, Bool.and_eq_true, decide_eq_true_iff, decide_eq_true_iff, beginChunk_seqChunk]
          exact ⟨Nat.le_trans (Nat.min_le_left _ _) hs.1, Nat.le_trans (Nat.min_le_left _ _) hs.2.1⟩
    · rw [runProcess, h1]
      simp only
      by_cases hout : outputTaken s = true
      · rw [if_pos hout]
        obtain ⟨t, ht, t1, t2, t3, t4⟩ := chunkBack_keeps (P := P) h3 h4 h6
        obtain ⟨s', m, hs', g1, g2, g3⟩ := ih t (.inl ⟨t1, t2.trans h2, t3⟩)
        refine ⟨s', _, by rw [ht, res_bind_ok, hs'], g1, t4.trans g2, ?_⟩
        intro hf hs _
        have hrem := t4.2.2
        obtain ⟨p1, p2, p3, p4, -⟩ := t4.2.1
        obtain ⟨q1, q2⟩ := g3 (by
          rw [movesLeft, h1] at hf; rw [movesLeft, t1]; simp only at hf ⊢; omega) (by
          obtain ⟨s1, s2, s3, s4⟩ := hs
          rw [Supplied, p1, p2, p3, p4, List.length_drop, List.length_drop]
          exact ⟨by omega, by omega, by omega, by omega⟩) (by rw [t1]; exact Progress.noConfusion)
        exact ⟨q1, by omega⟩
      · rw [if_neg hout]
        refine ⟨s, 0, rfl, .inr (.inl ⟨h1, h2, h3, h4, h5, h6⟩), advanced_refl h3 rfl, fun _ hs _ => absurd ?_ hout⟩
        rw [outputTaken, Bool.and_eq_true, decide_eq_true_iff, decide_eq_true_iff]
        exact ⟨Nat.le_trans h6 hs.2.2.1, Nat.le_trans h6 hs.2.2.2⟩
    · rw [runProcess, h1]
      exact ⟨s, 0, rfl, .inr (.inr ⟨h1, h2, h3⟩), advanced_refl h3 rfl, fun _ _ h => absurd rfl h⟩

end Sys2Proof.Machine
end

