-- ==== Sys2Proof/Laws/Waiting.lean ====
section
/-! SUPPORT. A `PROCESS` that waited (R11, R90): its steps read the input ports from the front and the counts of room only
downwards, so what the host gives while it waits could as well have been given before. -/

namespace Sys2Proof.Machine

variable {α : Type}

/-- A computation that does not look at what the host adds. -/
def Blind (H : Generic.State α → Generic.State α) (f : Generic.State α → Res (Generic.State α)) : Prop :=
  ∀ s, f (H s) = (f s).map H

theorem res_map_bind {β γ δ : Type} (x : Res β) (g : β → γ) (f : γ → Res δ) :
    (x.map g >>= f) = (x >>= fun b => f (g b)) := by
  cases x <;> rfl

theorem res_bind_map {β γ δ : Type} (x : Res β) (f : β → Res γ) (g : γ → δ) :
    (x >>= fun b => (f b).map g) = (x >>= f).map g := by
  cases x <;> rfl

theorem Blind.foldlM {ι : Type} {H : Generic.State α → Generic.State α} {f : Generic.State α → ι → Res (Generic.State α)}
    (h : ∀ i, Blind H fun s => f s i) (l : List ι) : Blind H fun s => l.foldlM f s := by
  intro s
  induction l generalizing s with
  | nil => rfl
  | cons i l ih =>
    have hi : f (H s) i = (f s i).map H := h i s
    simp only [List.foldlM_cons]
    rw [hi, res_map_bind, ← res_bind_map]
    congr 1
    funext t
    exact ih t

section

variable (left right : List α) (a b : Nat)

theorem ringOf_hostGives (s : Generic.State α) (i : Nat) : ringOf (hostGives left right a b s) i = ringOf s i := rfl

theorem peekReadable_hostGives (i n : Nat) (s : Generic.State α) :
    peekReadable i n (hostGives left right a b s) =
      (peekReadable i n s).map fun p => (p.1, hostGives left right a b p.2) := by
  simp only [peekReadable, ringOf_hostGives]
  cases ringOf s i with
  | error e => rfl
  | ok r => simp only [res_bind_ok]; split <;> rfl

theorem peekWritable_hostGives (i n : Nat) (s : Generic.State α) :
    peekWritable i n (hostGives left right a b s) =
      (peekWritable i n s).map fun p => (p.1, hostGives left right a b p.2) := by
  simp only [peekWritable, ringOf_hostGives]
  cases ringOf s i with
  | error e => rfl
  | ok r => simp only [res_bind_ok]; split <;> rfl

theorem openWindows_blind (req i : Nat) : Blind (hostGives left right a b) fun s => openWindows req s i := by
  intro s
  simp only [openWindows, peekReadable_hostGives, res_map_bind]
  cases peekReadable i req s with
  | error e => rfl
  | ok p =>
    simp only [res_bind_ok, peekWritable_hostGives, res_map_bind]
    cases peekWritable i req p.2 <;> rfl

theorem stepWindows_blind : Blind (hostGives left right a b) (stepWindows (α := α)) := by
  intro s
  have h : (List.range s.numDelays).foldlM (openWindows s.seqChunk) (hostGives left right a b s)
      = ((List.range s.numDelays).foldlM (openWindows s.seqChunk) s).map (hostGives left right a b) :=
    Blind.foldlM (fun i => openWindows_blind left right a b s.seqChunk i) (List.range s.numDelays) s
  show ((List.range s.numDelays).foldlM (openWindows s.seqChunk) (hostGives left right a b s) >>= fun s1 =>
    .ok (if s1.seqChunk < s.seqChunk then signalShortfall s1 else s1)) = _
  rw [h, res_map_bind, stepWindows, ← res_bind_map]
  congr 1
  funext t
  show Except.ok (if t.seqChunk < s.seqChunk then _ else _) = Except.ok (hostGives left right a b (if _ then _ else _))
  split <;> rfl

theorem stepDecay_blind (P : Params α) : Blind (hostGives left right a b) (stepDecay P) := by
  intro s
  simp only [stepDecay]
  rw [show (List.range (hostGives left right a b s).numDelays).mapM (attenuated P (hostGives left right a b s))
    = (List.range s.numDelays).mapM (attenuated P s) from rfl]
  cases (List.range s.numDelays).mapM (attenuated P s) <;> rfl

theorem tapLine_blind (P : Params α) (i : Nat) : Blind (hostGives left right a b) fun s => tapLine P s i := by
  intro s
  simp only [tapLine]
  rw [show signOf (hostGives left right a b s) i = signOf s i from rfl,
    show attRow (hostGives left right a b s) i = attRow s i from rfl]
  cases signOf s i with
  | error e => rfl
  | ok g =>
    simp only [res_bind_ok]
    cases attRow s i with
    | error e => rfl
    | ok row =>
      simp only [res_bind_ok]
      show (match chanOf s.numDelays i with | .left => _ | .right => _) = _
      cases chanOf s.numDelays i <;> rfl

theorem stepTaps_blind (P : Params α) : Blind (hostGives left right a b) (stepTaps P) := fun s =>
  Blind.foldlM (tapLine_blind left right a b P) (List.range s.numDelays) s

theorem wrWin_blind (i k : Nat) (v : α) : Blind (hostGives left right a b) fun s => wrWin s i k v := by
  intro s
  simp only [wrWin, ringOf_hostGives]
  cases ringOf s i with
  | error e => rfl
  | ok r =>
    simp only [res_bind_ok]
    split
    · cases r.memWrite (r.writeCell k) v <;> rfl
    · rfl

theorem mixAt_blind (P : Params α) (blk k : Nat) : Blind (hostGives left right a b) fun s => mixAt P blk s k := by
  intro s
  simp only [mixAt]
  rw [show ((List.range (hostGives left right a b s).blockSize).mapM fun j =>
      attAt (hostGives left right a b s) (blk * (hostGives left right a b s).blockSize + j) k)
    = (List.range s.blockSize).mapM fun j => attAt s (blk * s.blockSize + j) k from rfl]
  cases (List.range s.blockSize).mapM fun j => attAt s (blk * s.blockSize + j) k with
  | error e => rfl
  | ok x =>
    simp only [res_bind_ok]
    show (mixBlock P.num s.blockSize x >>= _) = _
    cases mixBlock P.num s.blockSize x with
    | error e => rfl
    | ok y =>
      simp only [res_bind_ok]
      exact Blind.foldlM (f := writeMixed blk k)
        (fun p s => wrWin_blind left right a b _ k p.1 s) y.zipIdx (setMixed s y)

theorem stepMix_blind (P : Params α) : Blind (hostGives left right a b) (stepMix P) := fun s =>
  Blind.foldlM (f := mixLines P)
    (fun blk s => Blind.foldlM (f := mixAt P blk) (fun k => mixAt_blind left right a b P blk k) (List.range s.seqChunk) s)
    (List.range (s.numDelays / s.blockSize)) s

theorem injectAt_blind (P : Params α) (i : Nat) (p : α × Nat) :
    Blind (hostGives left right a b) fun s => injectAt P i s p := by
  intro s
  simp only [injectAt]
  rw [show wrWinRead (hostGives left right a b s) i p.2 = wrWinRead s i p.2 from rfl]
  cases wrWinRead s i p.2 with
  | error e => rfl
  | ok v => exact wrWin_blind left right a b i p.2 _ s

theorem stepInject_blind (P : Params α) : Blind (hostGives left right a b) (stepInject P) := by
  intro s
  have line : ∀ cache i, Blind (hostGives left right a b) fun s => injectLine P cache s i := fun cache i s =>
    Blind.foldlM (f := injectAt P i) (injectAt_blind left right a b P i) (cache.take s.seqChunk).zipIdx s
  have h1 := Blind.foldlM (line s.inCacheL) (List.range (injectCount s.numDelays s.blockSize s.fbShift)) s
  simp only [stepInject]
  rw [show (List.range (injectCount (hostGives left right a b s).numDelays (hostGives left right a b s).blockSize
      (hostGives left right a b s).fbShift)).foldlM (injectLine P (hostGives left right a b s).inCacheL)
      (hostGives left right a b s) = _ from h1, res_map_bind, ← res_bind_map]
  congr 1
  funext t
  exact Blind.foldlM (line s.inCacheR)
    ((List.range (injectCount s.numDelays s.blockSize s.fbShift)).map (s.numDelays / 2 + ·)) t

theorem closeWindows_blind (n i : Nat) : Blind (hostGives left right a b) fun s => closeWindows n s i := by
  intro s
  have h1 : releaseRead i n (hostGives left right a b s) = (releaseRead i n s).map (hostGives left right a b) := by
    simp only [releaseRead, ringOf_hostGives]
    cases ringOf s i with
    | error e => rfl
    | ok r => simp only [res_bind_ok]; split <;> rfl
  have h2 : ∀ t, commitWrite i n (hostGives left right a b t) = (commitWrite i n t).map (hostGives left right a b) := by
    intro t
    simp only [commitWrite, ringOf_hostGives]
    cases ringOf t i with
    | error e => rfl
    | ok r => simp only [res_bind_ok]; split <;> rfl
  simp only [closeWindows]
  rw [h1, res_map_bind, ← res_bind_map]
  congr 1
  funext t
  exact h2 t

theorem stepCommit_blind : Blind (hostGives left right a b) (stepCommit (α := α)) := fun s =>
  Blind.foldlM (closeWindows_blind left right a b s.seqChunk) (List.range s.numDelays) s

/-- The first half of a chunk whose input is there does not look at the rest of the streams. -/
theorem chunkFront_hostGives (P : Params α) {s : Generic.State α} (hL : s.seqChunk ≤ s.inL.length)
    (hR : s.seqChunk ≤ s.inR.length) :
    chunkFront P (hostGives left right a b s) = (chunkFront P s).map (hostGives left right a b) := by
  have h1 : stepZero P (stepCache P (hostGives left right a b s)) =
      hostGives left right a b (stepZero P (stepCache P s)) := by
    apply Generic.State.ext <;> simp [List.take_append_of_le_length, hL, hR]
  simp only [chunkFront]
  rw [h1, stepWindows_blind, res_map_bind, ← res_bind_map]
  congr 1
  funext t
  rw [stepDecay_blind, res_map_bind, ← res_bind_map]
  congr 1
  funext u
  rw [stepTaps_blind, res_map_bind]
  cases stepTaps P u with
  | error e => rfl
  | ok v =>
    have hz : stepZeroTap P (stepUnity P (hostGives left right a b v)) =
        hostGives left right a b (stepZeroTap P (stepUnity P v)) := by
      rw [stepZeroTap, stepZeroTap, show (stepUnity P (hostGives left right a b v)).hasZeroTaps = v.hasZeroTaps from rfl,
        show (stepUnity P v).hasZeroTaps = v.hasZeroTaps from rfl]
      cases v.hasZeroTaps <;> rfl
    show Except.ok { stepZeroTap P (stepUnity P (hostGives left right a b v)) with progress := .outputWrite } = _
    rw [hz]
    rfl

/-- A state with the same input at the ports and the same chunk. -/
def SameInput (s t : Generic.State α) : Prop :=
  t.inL = s.inL ∧ t.inR = s.inR ∧ t.seqChunk = s.seqChunk

theorem SameInput.trans {s t u : Generic.State α} (h : SameInput s t) (h' : SameInput t u) : SameInput s u :=
  ⟨h'.1.trans h.1, h'.2.1.trans h.2.1, h'.2.2.trans h.2.2⟩

theorem wrWin_sameInput {s t : Generic.State α} {i k : Nat} {v : α} (h : wrWin s i k v = .ok t) : SameInput s t := by
  simp only [wrWin, res_bind_eq_ok] at h
  obtain ⟨r, -, h⟩ := h
  split at h
  · simp only [res_bind_eq_ok, Except.ok.injEq] at h
    obtain ⟨r', -, rfl⟩ := h
    exact ⟨rfl, rfl, rfl⟩
  · cases h

theorem foldlM_sameInput {ι : Type} {f : Generic.State α → ι → Res (Generic.State α)} {l : List ι}
    (step : ∀ s t i, f s i = .ok t → SameInput s t) {s t : Generic.State α} (h : l.foldlM f s = .ok t) : SameInput s t :=
  foldlM_keeps (p := SameInput s) (fun _ _ _ _ h1 h2 => h1.trans (step _ _ _ h2)) ⟨rfl, rfl, rfl⟩ h

theorem mixAt_sameInput {P : Params α} {blk k : Nat} {s t : Generic.State α} (h : mixAt P blk s k = .ok t) :
    SameInput s t := by
  simp only [mixAt, res_bind_eq_ok] at h
  obtain ⟨x, -, y, -, h⟩ := h
  exact foldlM_sameInput (s := setMixed s y) (fun _ _ _ h => wrWin_sameInput h) h

theorem injectLine_sameInput {P : Params α} {cache : List α} {i : Nat} {s t : Generic.State α}
    (h : injectLine P cache s i = .ok t) : SameInput s t := by
  refine foldlM_sameInput (fun s t p h => ?_) h
  simp only [injectAt, res_bind_eq_ok] at h
  obtain ⟨v, -, h⟩ := h
  exact wrWin_sameInput h

theorem closeWindows_sameInput {n i : Nat} {s t : Generic.State α} (h : closeWindows n s i = .ok t) : SameInput s t := by
  simp only [closeWindows, releaseRead, commitWrite, res_bind_eq_ok] at h
  obtain ⟨s1, ⟨r, -, h1⟩, r', -, h2⟩ := h
  split at h1 <;> cases h1
  split at h2 <;> cases h2
  exact ⟨rfl, rfl, rfl⟩

/-- The second half of a chunk whose room is there takes it from what the host gave before. -/
theorem chunkBack_hostGives (P : Params α) {s : Generic.State α} (hL : s.seqChunk ≤ s.inL.length)
    (hR : s.seqChunk ≤ s.inR.length) (ha : s.seqChunk ≤ s.roomL) (hb : s.seqChunk ≤ s.roomR) :
    chunkBack P (hostGives left right a b s) = (chunkBack P s).map (hostGives left right a b) := by
  have h1 : stepOutput (hostGives left right a b s) = hostGives left right a b (stepOutput s) := by
    apply Generic.State.ext <;> simp <;> omega
  simp only [chunkBack]
  rw [h1, stepMix_blind, res_map_bind]
  cases hm : stepMix P (stepOutput s) with
  | error e => rfl
  | ok s1 =>
    simp only [res_bind_ok]
    rw [stepInject_blind, res_map_bind]
    cases hi : stepInject P s1 with
    | error e => rfl
    | ok s2 =>
      simp only [res_bind_ok]
      rw [stepCommit_blind, res_map_bind]
      cases hc : stepCommit s2 with
      | error e => rfl
      | ok s3 =>
        have e1 : SameInput (stepOutput s) s1 :=
          foldlM_sameInput (fun _ _ _ h => foldlM_sameInput (fun _ _ _ h => mixAt_sameInput h) h) hm
        have e2 : SameInput s1 s2 := by
          simp only [stepInject, res_bind_eq_ok] at hi
          obtain ⟨u, h1, h2⟩ := hi
          exact (foldlM_sameInput (fun _ _ _ h => injectLine_sameInput h) h1).trans
            (foldlM_sameInput (fun _ _ _ h => injectLine_sameInput h) h2)
        have e3 : SameInput s2 s3 := foldlM_sameInput (fun _ _ _ h => closeWindows_sameInput h) hc
        obtain ⟨g1, g2, g3⟩ := (e1.trans e2).trans e3
        simp only [stepOutput_inL, stepOutput_inR, stepOutput_seqChunk] at g1 g2 g3
        simp only [res_bind_ok, res_map_ok, Except.ok.injEq]
        apply Generic.State.ext <;> simp [g1, g2, g3, List.drop_append_of_le_length, hL, hR]

end

/-! ## The loop -/

/-- A `PROCESS` in progress whose samples of the chunk in progress stand at the input ports until step 11. -/
def Fed (s : Generic.State α) : Prop :=
  Processing s ∧ (s.progress = .outputWrite → s.seqChunk ≤ s.inL.length ∧ s.seqChunk ≤ s.inR.length)

theorem inputOffered_iff {s : Generic.State α} :
    inputOffered s = true ↔ s.seqChunk ≤ s.inL.length ∧ s.seqChunk ≤ s.inR.length := by
  rw [inputOffered, Bool.and_eq_true, decide_eq_true_iff, decide_eq_true_iff]

theorem outputTaken_iff {s : Generic.State α} :
    outputTaken s = true ↔ s.seqChunk ≤ s.roomL ∧ s.seqChunk ≤ s.roomR := by
  rw [outputTaken, Bool.and_eq_true, decide_eq_true_iff, decide_eq_true_iff]

/-- A run that has moves enough gives the same with any other number of moves that is enough. -/
theorem runProcess_fuel {P : Params α} : ∀ (f g : Nat) (s : Generic.State α), Processing s → movesLeft s ≤ f →
    movesLeft s ≤ g → runProcess P f s = runProcess P g s := by
  intro f
  induction f with
  | zero =>
    intro g s h hf _
    rcases h with ⟨h, -⟩ | ⟨h, -⟩ | ⟨h, -⟩
    · rw [movesLeft, h] at hf; simp only at hf; omega
    · rw [movesLeft, h] at hf; simp only at hf; omega
    · cases g with
      | zero => rfl
      | succ g => rw [runProcess, runProcess, h]
  | succ f ih =>
    intro g s h hf hg
    rcases h with ⟨h1, h2, h3⟩ | ⟨h1, h2, h3, h4, h5, h6⟩ | ⟨h1, h2, h3⟩
    · rw [movesLeft, h1] at hf hg
      simp only at hf hg
      obtain ⟨g, rfl⟩ : ∃ g', g = g' + 1 := ⟨g - 1, by omega⟩
      rw [runProcess, runProcess, h1]
      simp only
      split
      · rfl
      · next hz =>
        split
        · next hin =>
          obtain ⟨t, ht, t1, t2, t3, t4, t5, t6, t7⟩ := chunkFront_keeps (P := P) h3 h2 hz hin
          have hrem : t.seqRemaining = s.seqRemaining := t7.2.2
          rw [ht, res_bind_ok, res_bind_ok]
          refine ih g t (.inr (.inl ⟨t1, t2, t3, t4, t5, t6⟩)) ?_ ?_ <;>
            (rw [movesLeft, t1]; simp only; omega)
        · rfl
    · rw [movesLeft, h1] at hf hg
      simp only at hf hg
      obtain ⟨g, rfl⟩ : ∃ g', g = g' + 1 := ⟨g - 1, by omega⟩
      rw [runProcess, runProcess, h1]
      simp only
      split
      · obtain ⟨t, ht, t1, t2, t3, t4⟩ := chunkBack_keeps (P := P) h3 h4 h6
        have hrem := t4.2.2
        rw [ht, res_bind_ok, res_bind_ok]
        refine ih g t (.inl ⟨t1, t2.trans h2, t3⟩) ?_ ?_ <;> (rw [movesLeft, t1]; simp only; omega)
      · rfl
    · cases g with
      | zero => rw [runProcess, runProcess, h1]
      | succ g => rw [runProcess, runProcess, h1]

theorem chunkFront_seqChunk {P : Params α} {s t : Generic.State α} (h : NetworkInv 0 s)
    (hin : inputOffered (beginChunk s) = true) (ht : chunkFront P (beginChunk s) = .ok t) :
    t.seqChunk = (beginChunk s).seqChunk := by
  obtain ⟨i1, i2⟩ := inputOffered_iff.mp hin
  obtain ⟨R, g, hf, -⟩ := chunkFront_ok (P := P) (s := beginChunk s) h rfl (Nat.min_le_right _ _) i1 i2
  rw [hf, Except.ok.injEq] at ht
  rw [← ht, frontState_seqChunk]

/-- The head of the loop sets the chunk length itself. -/
theorem runProcess_beginChunk {P : Params α} {s : Generic.State α} (hp : s.progress = .loopHead)
    (hz : s.seqRemaining ≠ 0) (f : Nat) : runProcess P (f + 1) (beginChunk s) = runProcess P (f + 1) s := by
  rw [runProcess, runProcess, show (beginChunk s).progress = .loopHead from hp, hp]
  simp only [if_neg hz, show ¬(beginChunk s).seqRemaining = 0 from hz, if_false]
  rfl

/-- Where a `PROCESS` waits, whatever the host gives then could have been given before (R11, R90, R105). -/
theorem runProcess_hostGives {P : Params α} (left right : List α) (a b : Nat) : ∀ (f : Nat) (s w : Generic.State α),
    Fed s → movesLeft s ≤ f → runProcess P f s = .ok w → w.progress ≠ .rest →
    runProcess P f (hostGives left right a b s) = runProcess P (movesLeft w) (hostGives left right a b w) := by
  intro f
  induction f with
  | zero =>
    rintro s w ⟨h, -⟩ hf hw hr
    rcases h with ⟨h, -⟩ | ⟨h, -⟩ | ⟨h, -⟩
    · rw [movesLeft, h] at hf; simp only at hf; omega
    · rw [movesLeft, h] at hf; simp only at hf; omega
    · rw [runProcess, Except.ok.injEq] at hw
      exact absurd (hw ▸ h) hr
  | succ f ih =>
    rintro s w ⟨h, hfed⟩ hf hw hr
    rcases h with ⟨h1, h2, h3⟩ | ⟨h1, h2, h3, h4, h5, h6⟩ | ⟨h1, h2, h3⟩
    · have hb : beginChunk (hostGives left right a b s) = hostGives left right a b (beginChunk s) := rfl
      rw [runProcess, h1] at hw
      simp only at hw
      split at hw
      · cases hw; exact absurd rfl hr
      · next hz =>
        split at hw
        · next hin =>
          obtain ⟨t, ht, t1, t2, t3, t4, t5, t6, t7⟩ := chunkFront_keeps (P := P) h3 h2 hz hin
          have hrem : t.seqRemaining = s.seqRemaining := t7.2.2
          obtain ⟨i1, i2⟩ := inputOffered_iff.mp hin
          rw [ht, res_bind_ok] at hw
          have hp : (hostGives left right a b s).progress = .loopHead := h1
          have hz' : ¬(hostGives left right a b s).seqRemaining = 0 := hz
          have hin' : inputOffered (beginChunk (hostGives left right a b s)) = true := by
            rw [inputOffered_iff, hb]
            exact ⟨by simp at i1 ⊢; omega, by simp at i2 ⊢; omega⟩
          rw [runProcess, hp]
          simp only [if_neg hz', hin', if_true]
          rw [hb, chunkFront_hostGives _ _ _ _ _ i1 i2, ht, res_map_ok, res_bind_ok]
          refine ih t w ⟨.inr (.inl ⟨t1, t2, t3, t4, t5, t6⟩), fun _ => ?_⟩ ?_ hw hr
          · have hchunk := chunkFront_seqChunk h3 hin ht
            obtain ⟨p1, p2, -⟩ := t7.2.1
            rw [hchunk, p1, p2]
            exact ⟨i1, i2⟩
          · rw [movesLeft, h1] at hf; rw [movesLeft, t1]; simp only at hf ⊢; omega
        · next hin =>
          cases hw
          have hm : movesLeft (beginChunk s) = 2 * s.seqRemaining + 1 := by
            rw [movesLeft, show (beginChunk s).progress = .loopHead from h1]; rfl
          rw [movesLeft, h1] at hf
          rw [hm, ← hb, runProcess_beginChunk (s := hostGives left right a b s) h1 hz]
          refine runProcess_fuel _ _ _ (.inl ⟨h1, h2, h3⟩) ?_ ?_ <;>
            (rw [movesLeft, show (hostGives left right a b s).progress = .loopHead from h1])
          · exact hf
          · exact Nat.le_refl _
    · obtain ⟨i1, i2⟩ := hfed h1
      rw [runProcess, h1] at hw
      simp only at hw
      split at hw
      · next hout =>
        obtain ⟨o1, o2⟩ := outputTaken_iff.mp hout
        obtain ⟨t, ht, t1, t2, t3, t4⟩ := chunkBack_keeps (P := P) h3 h4 h6
        have hrem := t4.2.2
        rw [ht, res_bind_ok] at hw
        have hp : (hostGives left right a b s).progress = .outputWrite := h1
        have hout' : outputTaken (hostGives left right a b s) = true :=
          outputTaken_iff.mpr ⟨by simp; omega, by simp; omega⟩
        rw [runProcess, hp]
        simp only [hout', if_true]
        rw [chunkBack_hostGives _ _ _ _ _ i1 i2 o1 o2, ht, res_map_ok, res_bind_ok]
        refine ih t w ⟨.inl ⟨t1, t2.trans h2, t3⟩, fun h => ?_⟩ ?_ hw hr
        · rw [t1] at h; cases h
        · rw [movesLeft, h1] at hf; rw [movesLeft, t1]; simp only at hf ⊢; omega
      · cases hw
        refine runProcess_fuel _ _ _ (.inr (.inl ⟨h1, h2, h3, h4, h5, h6⟩)) ?_ ?_
        · exact hf
        · exact Nat.le_refl _
    · rw [runProcess, h1] at hw
      simp only [Except.ok.injEq] at hw
      exact absurd (hw ▸ h1) hr

end Sys2Proof.Machine
end

