-- ==== Sys2Proof/Tests/Slice0.lean ====
section
/-! SUPPORT. The model's own tests. Expected results come from the spec: the encoding tables of spec/30_encoding.md and
the vectors of spec/95_test_vectors.md, cited by section (S, P, or 2.x); and, for every statement with hypotheses, a
state and operands that meet them together (witness_…). -/

namespace Sys2Proof.Slice0

open Sys2Proof Sys2Proof.Machine

set_option Elab.async false

/-! ## Small states -/

/-- A view of the next state; `none` on a stop. -/
def seen {β : Type} (o : Host.Outcome State Fault Refusal) (view : State → β) : Option β :=
  match o with
  | .next t => some (view t)
  | .fault _ => none
  | .refused _ => none

/-- The refusal of an outcome. -/
def refusal (o : Host.Outcome State Fault Refusal) : Option Refusal :=
  match o with
  | .next _ => none
  | .fault _ => none
  | .refused r => some r

/-- The fault of an outcome. -/
def faulted (o : Host.Outcome State Fault Refusal) : Option Fault :=
  match o with
  | .next _ => none
  | .fault f => some f
  | .refused _ => none

/-- The registers of the ring of line `i`, in the order of section 2.9, and its cells. -/
def ringView (i : Nat) (s : State) : Option (List Nat × Store Sample) :=
  (Store.read s.rings i).map fun r => ([r.cap, r.rd, r.wr, r.fill, r.rwin, r.wwin], r.cells)

/-- Program P5 after its `SET_RT60 3.0`: two lines, block size 2, no rotation, the pinned coefficients. -/
def pair : State :=
  { State.reset with
    phase := .idle, numDelays := 2, blockSize := 2, fbShift := 0
    minDelaySamples := 2, maxDelaySamples := 6
    sampleRate := 0x40000000, minDelaySeconds := 0x3F800000, maxDelaySeconds := 0x40400000
    matrixAtt := 0x3F3504F3, invMatrixAtt := 0x3FB504F3, inputAtt := 0x3F800000, inputPan := 0x3F000000
    delay := [2, 4], coef := [0x3D90D0C3, 0x3BE7B46A], sign := [.plus, .minus]
    rings := [(0, Ring.initial 0 2 2), (1, Ring.initial 0 4 2)] }

/-- The same with the input streams of P5 and room for its output. -/
def pairSupplied : State :=
  { pair with
    inL := [0x3F800000, 0x3F000000, 0, 0, 0, 0, 0, 0, 0, 0]
    inR := [0x3E800000, 0, 0, 0, 0, 0, 0, 0, 0, 0]
    roomL := 10, roomR := 10 }

/-- Two lines with a rotation, block size 1 (P1's operands with one block of shift). -/
def rotating : State :=
  { pair with blockSize := 1, fbShift := 1, matrixAtt := 0x3F800000, invMatrixAtt := 0x3F800000 }

/-- The ring of section 2.9, step 1. -/
def traced : State :=
  { State.reset with rings := [(0, Ring.initial 0 2 2)] }

/-- A ring with both windows outstanding and the write window written, as in section 2.9 between steps 5 and 6. -/
def open4 : Machine.Ring Sample := ⟨4, 0, 2, 2, 2, 2, [(0, 0), (1, 0), (2, 7), (3, 8)]⟩

/-- A mixer request interface that holds the vector of section 2.5. -/
def mixing (x : List Nat) : State :=
  { State.reset with mixIn := x.map F32.ofNat }

/-- A machine that a fault has stopped. -/
def stopped : State :=
  { State.reset with phase := .fault, faultCause := 0b10000 }

/-! ## Well-formedness: each check refuses an ill-formed term -/

theorem test_ill_formed_build :
    (Instr.build 65536 8 1 false 0 0 0).wellFormed = false ∧ (Instr.build 16 16 1 false 0 0 0).wellFormed = false ∧
    (Instr.build 16 8 65536 false 0 0 0).wellFormed = false := by decide

theorem test_ill_formed_process : (Instr.process 4294967296).wellFormed = false := by decide

theorem test_ill_formed_peeks :
    (Instr.peekReadable 65536 0).wellFormed = false ∧ (Instr.peekReadable 0 4294967296).wellFormed = false ∧
    (Instr.peekWritable 65536 0).wellFormed = false ∧ (Instr.peekWritable 0 4294967296).wellFormed = false := by decide

theorem test_ill_formed_closes :
    (Instr.commitWrite 65536 0).wellFormed = false ∧ (Instr.commitWrite 0 4294967296).wellFormed = false ∧
    (Instr.releaseRead 65536 0).wellFormed = false ∧ (Instr.releaseRead 0 4294967296).wellFormed = false := by decide

theorem test_ill_formed_ring_init :
    (Instr.ringInit 65536 0 0).wellFormed = false ∧ (Instr.ringInit 0 4294967296 0).wellFormed = false ∧
    (Instr.ringInit 0 0 4294967296).wellFormed = false := by decide

theorem test_memory_form_refuses :
    Memory.wf { traced with rings := [(1, Ring.initial 0 2 2), (0, Ring.initial 0 2 2)] } = false ∧
    Memory.wf { traced with rings := [(0, { Ring.initial (0 : Sample) 2 2 with cells := [(4, 0)] })] } = false := by
  decide

/-! ## Decoding of words written out bit by bit from the tables of spec/30_encoding.md -/

theorem test_decode_build :
    decodeCommand [0b00000001_0000_1000_0000000000010000, 0b000000000000000_1_0000000000000011,
        0x3CA3D70A, 0x3F4CCCCD, 0x473B8000]
      = .ok (.build 16 8 3 true 0x3CA3D70A 0x3F4CCCCD 0x473B8000, []) := by decide

theorem test_decode_build_largest_fields :
    decodeCommand [0x010FFFFF, 0x0001FFFF, 1, 2, 3] = .ok (.build 65535 15 65535 true 1 2 3, []) := by decide

theorem test_decode_destroy : decodeCommand [0b00000010_000000000000000000000000] = .ok (.destroy, []) := by decide

theorem test_decode_process :
    decodeCommand [0b00000011_000000000000000000000000, 0xFFFFFFFF, 0x02000000]
      = .ok (.process 4294967295, [0x02000000]) := by decide

theorem test_decode_set_rt60 :
    decodeCommand [0b00000100_000000000000000000000000, 0x40000000] = .ok (.setRt60 0x40000000, []) := by decide

theorem test_decode_set_max_delay :
    decodeCommand [0b00000101_000000000000000000000000, 0x3F4CCCCD] = .ok (.setMaxDelay 0x3F4CCCCD, []) := by decide

theorem test_decode_set_input_pan :
    decodeCommand [0b00000110_000000000000000000000000, 0x3E800000] = .ok (.setInputPan 0x3E800000, []) := by decide

theorem test_decode_peek_readable :
    decodeRequest (.ring 0b000_00000000000000000000000000000010 5 0) = .ok (.peekReadable 5 2) := by decide

theorem test_decode_peek_writable :
    decodeRequest (.ring 0b001_11111111111111111111111111111111 5 0) = .ok (.peekWritable 5 4294967295) := by decide

theorem test_decode_commit_write :
    decodeRequest (.ring 0b010_00000000000000000000001111000000 5 0) = .ok (.commitWrite 5 960) := by decide

theorem test_decode_release_read :
    decodeRequest (.ring 0b011_00000000000000000000001111000000 5 0) = .ok (.releaseRead 5 960) := by decide

theorem test_decode_ring_init :
    decodeRequest (.ring 0b100_00000000000000000000000000000010 5 7) = .ok (.ringInit 5 2 7) := by decide

theorem test_decode_reserved_ring_codes :
    decodeRequest (.ring 0b101_00000000000000000000000000000000 5 0) = .error .reservedRingOp ∧
    decodeRequest (.ring 0b110_00000000000000000000000000000000 5 0) = .error .reservedRingOp ∧
    decodeRequest (.ring 0b111_11111111111111111111111111111111 5 0) = .error .reservedRingOp := by decide

theorem test_decode_mixer_codes :
    decodeRequest (.mix 0b00) = .ok .had1 ∧ decodeRequest (.mix 0b01) = .ok .had2 ∧
    decodeRequest (.mix 0b10) = .ok .had4 ∧ decodeRequest (.mix 0b11) = .ok .had8 := by decide

/-- Section 2.1, the illegal words. -/
theorem test_decode_illegal_words :
    decodeCommand [0x00000000] = .error .reservedOpcode ∧ decodeCommand [0x07000000] = .error .reservedOpcode ∧
    decodeCommand [0xFF000000] = .error .reservedOpcode ∧ decodeCommand [0x01100002] = .error .reservedHeaderField ∧
    decodeCommand [0x01010002, 0x00020000] = .error .reservedBuildField ∧
    decodeCommand [0x03000001] = .error .reservedHeaderField := by decide

/-- The table's numbering: 160 bits of `BUILD`, 35 of a ring request, 2 of a mixer request. -/
theorem test_table_word :
    decodeTableWord 160 0x473B80003F4CCCCD3CA3D70A0000000101080010
      = some (.build 16 8 1 false 0x3CA3D70A 0x3F4CCCCD 0x473B8000) ∧
    decodeTableWord 35 0x200000005 = some (.commitWrite 0 5) ∧ decodeTableWord 2 3 = some .had8 ∧
    decodeTableWord 32 0x02000000 = some .destroy ∧ decodeTableWord 35 0x700000000 = none := by decide

/-- R58 and section 2.1: the textual form of the worked `BUILD` and of a ring request. -/
theorem test_text :
    (Instr.build 16 8 1 false 0x3CA3D70A 0x3F4CCCCD 0x473B8000).text
      (fun w => if w = 0x3CA3D70A then "0.02" else if w = 0x3F4CCCCD then "0.8" else "48000")
      = "BUILD n=16 bs=8 shift=1 zt=0 min=0.02 max=0.8 sr=48000" ∧
    (Instr.ringInit 0 2 2).text (fun _ => "") = "RING_INIT 0 2 2" := by decide +kernel

/-! ## Construction -/

/-- Program P2: six draws, the permutation, the signs, and the rings of lines 1 and 2. -/
theorem test_build_draws_permutes_and_signs :
    let o := exec (.build 4 1 2 false 0x3F800000 0x40800000 0x3F800000) { State.reset with rng := [3, 1, 4, 2, 1, 1, 9] }
    seen o (fun t => (t.phase, t.delay, t.sign)) = some (.idle, [1, 4, 3, 2], [.plus, .minus, .plus, .minus]) ∧
    seen o (fun t => (t.fbShift, t.inputAtt, t.rng)) = some (2, 0x3F800000, [9]) ∧
    seen o (ringView 2) = some (some ([4, 0, 3, 3, 0, 0], [(0, 0), (1, 0), (2, 0)])) := by decide +kernel

/-- Program P8 a: validation mask 9, all five words taken, no draw. -/
theorem test_build_fault :
    let o := step { State.reset with cmd := [0x01030010, 0, 0x3CA3D70A, 0x3F4CCCCD, 0x473B8000], rng := [4] }
    seen o (fun t => (t.phase, t.faultCause, t.cmd)) = some (.fault, 9, []) ∧
    seen o (fun t => (t.rng, statusWord t, faultWire t)) = some ([4], 0x00000003, true) := by decide +kernel

/-- Section 2.2, rows with every combination of bits. -/
theorem test_validation_masks :
    [(16, 8), (2, 1), (16, 3), (6, 8), (7, 2), (7, 1), (0, 1), (4, 0), (10, 4), (65535, 15), (65534, 8)].map
      (fun p => validationMask p.1 p.2)
      = [0b0000, 0b0000, 0b1001, 0b1010, 0b1100, 0b0100, 0b0010, 0b0001, 0b1000, 0b0101, 0b1000] := by decide

/-- Section 2.6: sorting, the permutation for 16 lines, and the worked shuffle. -/
theorem test_permutation_and_shuffle :
    permuted (sortAscending [2, 3, 4, 5, 2, 3, 4, 5, 2, 3, 4, 5, 2, 3, 4, 5])
      = [2, 3, 5, 3, 5, 2, 4, 2, 4, 5, 3, 5, 3, 4, 2, 4] ∧
    (assignSigns F32.params { State.reset with
        numDelays := 16, rng := [3, 1, 4, 1, 2, 0, 1, 7, 6, 5, 4, 3, 2, 1] }).toOption.map (·.sign)
      = some [.minus, .minus, .plus, .plus, .plus, .plus, .minus, .minus,
          .plus, .minus, .plus, .minus, .plus, .minus, .plus, .minus] := by decide +kernel

/-- Section 2.4: bounds in samples, gains and input attenuation (three injection lines). -/
theorem test_build_registers :
    let o := exec (.build 4 2 0 true 0x3F800000 0x40400000 0x40000000) { State.reset with rng := [4, 2, 6, 4, 0, 1] }
    seen o (fun t => (t.minDelaySamples, t.maxDelaySamples)) = some (2, 6) ∧
    seen o (fun t => [t.matrixAtt, t.invMatrixAtt, t.inputAtt, t.inputPan, statusWord t])
      = some [0x3F3504F3, 0x3FB504F3, 0x3F13CD3A, 0x3F000000, 0x00000009] ∧
    seen o (·.delay) = some [2, 6, 4, 4] ∧ seen o (·.sign) = some [.minus, .plus, .plus, .minus] := by decide +kernel

/-- Program P8 e, first half. -/
theorem test_destroy :
    seen (exec .destroy pair) (·.phase) = some .unbuilt ∧
    seen (exec .destroy pair) (fun t => (t.rings, t.delay, t.coef)) = some ([], [], []) := by decide

/-! ## Setters -/

/-- Section 2.7: `dts` and `e` of a line of 960 samples at 48000 per second and 2 seconds. -/
theorem test_rt60_exponent :
    F32.fdiv (F32.fmul (F32.fneg (F32.ofNat 3)) (F32.fdiv (F32.ofNat 960) 0x473B8000)) 0x40000000 = 0xBCF5C28F := by
  decide +kernel

/-- Program P8 h and section 2.10. -/
theorem test_rt60_refused :
    refusal (exec (.setRt60 0x00000000) pair) = some .decayTimeNotPositive ∧
    refusal (exec (.setRt60 0x7F800000) pair) = some .decayTimeNotPositive ∧
    refusal (exec (.setRt60 0x7FC00000) pair) = some .decayTimeNotPositive ∧
    seen (exec (.setRt60 0x40400000) State.reset) (·.faultCause) = some 0b10000 := by decide +kernel

/-- Section 2.10 on the network of P5: the rebuild of program P7. -/
theorem test_set_max_delay :
    let o := exec (.setMaxDelay 0x40000000) { pair with rng := [2, 4], inputPan := 0 }
    seen o (fun t => (t.maxDelaySeconds, t.maxDelaySamples, t.inputPan)) = some (0x40000000, 4, 0x3F000000) ∧
    seen o (fun t => (t.delay, t.sign)) = some ([2, 4], [.plus, .minus]) ∧
    seen o (ringView 1) = some (some ([6, 0, 4, 4, 0, 0], [(0, 0), (1, 0), (2, 0), (3, 0)])) := by decide +kernel

/-- Section 2.10: 0.4 seconds are 0 samples. -/
theorem test_set_max_delay_refused :
    refusal (exec (.setMaxDelay 0x3ECCCCCD) pair) = some .delayRangeEmpty := by decide +kernel

theorem test_set_input_pan :
    seen (exec (.setInputPan 0x3E800000) pair) (·.inputPan) = some 0x3E800000 ∧
    seen (exec (.setInputPan 0x3F800000) pair) (·.inputPan) = some 0x3F800000 ∧
    refusal (exec (.setInputPan 0x3FC00000) pair) = some .panOutOfRange ∧
    refusal (exec (.setInputPan 0x7FC00000) pair) = some .panOutOfRange := by decide +kernel

/-- Section 2.8: the gains at a pan of 0.25. -/
theorem test_gains :
    gainL F32.num 0x3F800000 0x3E800000 = 0x3F9CC471 ∧ gainR F32.num 0x3F800000 0x3E800000 = 0x3F3504F3 := by
  decide +kernel

/-! ## `PROCESS` -/

/-- Program P5, bit for bit. -/
theorem test_process_outputs :
    seen (exec (.process 10) pairSupplied) (fun t => (t.phase, t.outL, t.outR))
      = some (.idle,
          [0x00000000, 0x00000000, 0x3DCCCCCD, 0x3D4CCCCD, 0x3BE7B46B, 0x3B67B46B, 0x3A3169B8, 0x3983126F, 0x38CD37B1,
            0x383300CD],
          [0x00000000, 0x00000000, 0x00000000, 0x00000000, 0xBB23D70A, 0x00000000, 0xBA395D22, 0xB9B95D22, 0xB80791D7,
            0xB7D1B718]) := by decide +kernel

/-- Program P5, the end state of its rings. -/
theorem test_process_end_state :
    let o := exec (.process 10) pairSupplied
    seen o (ringView 0) = some (some ([4, 2, 0, 2, 0, 0], [(2, 0x38C10AB6), (3, 0x3848B848)])) ∧
    seen o (fun t => ((ringView 1 t).map Prod.fst, queueOf t 1))
      = some (some [6, 4, 2, 4, 0, 0], [0xB7B3E830, 0xB8998F76, 0x38425BF4, 0x3751B71A]) ∧
    seen o (fun t => (t.seqPos, t.seqRemaining)) = some (10, 0) := by decide +kernel

/-! ## Rings: the trace of section 2.9 -/

theorem test_ring_init :
    seen (exec (.ringInit 0 2 2) State.reset) (ringView 0) = some (some ([4, 0, 2, 2, 0, 0], [(0, 0), (1, 0)])) ∧
    seen (exec (.ringInit 0 3 0) State.reset) (ringView 0)
      = some (some ([3, 0, 0, 3, 0, 0], [(0, 0), (1, 0), (2, 0)])) := by decide +kernel

theorem test_peek_readable :
    seen (exec (.peekReadable 0 2) traced) (fun t => (t.grant, (ringView 0 t).map Prod.fst))
      = some (2, some [4, 0, 2, 2, 2, 0]) ∧
    seen (exec (.peekReadable 0 5) traced) (·.grant) = some 2 := by decide +kernel

theorem test_peek_writable :
    seen (exec (.peekWritable 0 5) traced) (fun t => (t.grant, (ringView 0 t).map Prod.fst))
      = some (2, some [4, 0, 2, 2, 0, 2]) ∧
    refusal (exec (.peekWritable 0 1) { traced with rings := [(0, { Ring.initial 0 2 2 with wwin := 1 })] })
      = some .secondWriteWindow := by decide +kernel

/-- Step 6: both cells of the read window become `unspecified`. -/
theorem test_release_read :
    seen (exec (.releaseRead 0 2) { traced with rings :=
        [(0, ⟨4, 0, 2, 2, 2, 2, [(0, 0), (1, 0), (2, 7), (3, 8)]⟩)] }) (ringView 0)
      = some (some ([4, 2, 2, 0, 0, 2], [(2, 7), (3, 8)])) ∧
    refusal (exec (.releaseRead 0 3) { traced with rings := [(0, { Ring.initial 0 2 2 with rwin := 2 })] })
      = some .releaseBeyondWindow := by decide +kernel

/-- Step 7, where `WR` wraps, and a commit of less than the window. -/
theorem test_commit_write :
    seen (exec (.commitWrite 0 2) { traced with rings := [(0, ⟨4, 2, 2, 0, 0, 2, [(2, 7), (3, 8)]⟩)] }) (ringView 0)
      = some (some ([4, 2, 0, 2, 0, 0], [(2, 7), (3, 8)])) ∧
    seen (exec (.commitWrite 0 1) { traced with rings := [(0, ⟨4, 2, 2, 0, 0, 2, [(2, 7), (3, 8)]⟩)] }) (ringView 0)
      = some (some ([4, 2, 3, 1, 0, 0], [(2, 7)])) := by decide +kernel

/-- Steps 12 and 13: a read window that wraps, a write, and the stops outside the windows. -/
theorem test_windows :
    let s : State := { traced with rings := [(0, ⟨4, 3, 1, 2, 2, 2, [(0, 5), (3, 6)]⟩)] }
    (rdWin s 0 0).toOption = some 6 ∧ (rdWin s 0 1).toOption = some 5 ∧
    (rdWin s 0 2 matches .error (.refusal .readOutsideWindow)) ∧
    (wrWinRead s 0 0 matches .error (.refusal .readOfUnwrittenCell)) ∧
    (wrWin s 0 1 9).toOption.bind (ringView 0) = some ([4, 3, 1, 2, 2, 2], [(0, 5), (2, 9), (3, 6)]) := by
  decide +kernel

/-- R33: line 1 is the last of `pair`; a ring of a line it does not have is neither made nor accessed, though one is
listed. -/
theorem test_line_range :
    let s : State := { pair with rings := [(0, open4), (1, open4), (2, open4)] }
    (rdWin s 1 0).toOption = some 0 ∧ (rdWin s 2 0 matches .error (.refusal .readOfUnwrittenCell)) ∧
    (wrWinRead s 2 0 matches .error (.refusal .readOfUnwrittenCell)) ∧
    (wrWin s 2 0 9 matches .error (.fault .noSuchRing)) ∧
    seen (exec (.ringInit 1 2 2) s) (ringView 1) = some (some ([4, 0, 2, 2, 0, 0], [(0, 0), (1, 0)])) ∧
    faulted (exec (.ringInit 2 2 2) s) = some .noSuchRing ∧
    refusal (exec (.ringInit 2 0 0) s) = some .ringOfCapacityZero ∧
    faulted (exec (.releaseRead 2 1) s) = some .noSuchRing := by decide +kernel

/-! ## The block mixer: section 2.5 -/

theorem test_had1 : seen (exec .had1 (mixing [3])) (·.y) = some [F32.ofNat 3] := by decide +kernel

theorem test_had2 :
    seen (exec .had2 (mixing [1, 2])) (·.y) = some [F32.ofNat 3, F32.fneg (F32.ofNat 1)] ∧
    seen (exec .had2 { State.reset with mixIn := [0x7F61B1E6, 0x7F61B1E6] }) (·.y) = some [0x7F800000, 0x00000000] := by
  decide +kernel

theorem test_had4 :
    seen (exec .had4 (mixing [0, 0, 0, 1])) (·.y)
      = some [F32.ofNat 1, F32.fneg (F32.ofNat 1), F32.fneg (F32.ofNat 1), F32.ofNat 1] ∧
    seen (exec .had4 { State.reset with mixIn := [0x3DCCCCCD, 0x3E4CCCCD, 0x3E99999A, 0x3ECCCCCD] }) (·.y)
      = some [0x3F800000, 0xBE4CCCCC, 0xBECCCCCE, 0xB2000000] := by decide +kernel

theorem test_had8 :
    seen (exec .had8 (mixing [1, 2, 3, 4, 5, 6, 7, 8])) (·.y)
      = some [F32.ofNat 36, F32.fneg (F32.ofNat 4), F32.fneg (F32.ofNat 8), 0, F32.fneg (F32.ofNat 16), 0, 0, 0] ∧
    seen (exec .had8 (mixing [1, 0, 0, 0, 0, 1, 0, 1])) (·.y)
      = some [F32.ofNat 3, F32.fneg (F32.ofNat 1), F32.ofNat 1, F32.ofNat 1, F32.fneg (F32.ofNat 1), F32.ofNat 3,
          F32.ofNat 1, F32.ofNat 1] := by decide +kernel

/-! ## Numbers -/

/-- R21 and R91: the product of the gains for block size 8, and the pan factors of a fresh network. -/
theorem test_gain_patterns :
    matrixAttOf F32.num 8 = 0x3EB504F3 ∧ invMatrixAttOf F32.num 8 = 0x403504F3 ∧
    gainL F32.num 0x3F800000 0x3F000000 = 0x3F800000 ∧ F32.num.inputPanInit = 0x3F000000 := by decide +kernel

/-- Subnormals, ties to even, the largest finite value. -/
theorem test_rounding :
    F32.fmul 0x00000001 0x3F000000 = 0 ∧ F32.fmul 0x00000003 0x3F000000 = 0x00000002 ∧
    F32.fadd 0x4B800000 0x3F800000 = 0x4B800000 ∧ F32.fadd 0x4B800001 0x3F800000 = 0x4B800002 ∧
    F32.fadd 0x7F7FFFFF 0x73000000 = 0x7F800000 ∧ F32.fdiv 0x3F800000 0x40400000 = 0x3EAAAAAB ∧
    F32.fsqrt 0x40000000 = 0x3FB504F3 ∧ F32.truncToNat 0x40333333 = some 2 := by decide +kernel

/-! ## The step and the ports -/

/-- Program P8 c: the fault comes at the header word, and the word after it is not taken. -/
theorem test_step_illegal :
    seen (step { State.reset with cmd := [0x03000000, 0x0000000A] }) (fun t => (t.phase, t.faultCause, t.cmd))
      = some (.fault, 0b10000, [0x0000000A]) := by decide +kernel

/-- Program P8 b, with a shortfall recorded: the wires and `STATUS` after `RESET`. -/
theorem test_step_reset_wire :
    let o := step { stopped with resetPin := true, diagCount := 3, shortfall := true }
    seen o (fun t => (t.phase, t.faultCause, t.diagCount)) = some (.unbuilt, 0, 0) ∧
    seen o (fun t => (statusWord t, faultWire t, diagWire t)) = some (0, false, false) := by decide +kernel

/-- A command whose words come in two pieces. -/
theorem test_step_partial_command :
    (seen (step { pair with cmd := [0x06000000] }) (fun t => (t.phase, t.progress)))
      = some (.busy, .receiving .idle [0x06000000]) ∧
    seen (step { pair with phase := .busy, progress := .receiving .idle [0x06000000], cmd := [0x3E800000] })
      (fun t => (t.phase, t.inputPan)) = some (.idle, 0x3E800000) := by decide +kernel

/-- The REG port of P5's network (R19, R31). -/
theorem test_reg_port :
    [3, 6, 9, 15, 19, 0x10004, 0x10006, 0x10007, 0x100008, 0x10000B, 0x100010].map
      (fun no => readReg F32.params 0 no pair)
      = [some 2, some 0, some 0x40000000, some 0x3F000000, some 0, some 4, some 1, some 1, some 6, some 4, some 0] := by
  decide +kernel

/-- In `BUSY` the numbers that name no register still read 0 (R19, R31): 19, a line and a ring beyond the last, and the
two spare numbers of a ring. -/
theorem test_reg_port_busy :
    [19, 0xFFFF, 0x10008, 0x100006, 0x100007, 0x100010].map
      (fun no => readReg F32.params 7 no { pair with phase := .busy })
      = [some 0, some 0, some 0, some 0, some 0, some 0] := by decide +kernel

/-- R135: a machine at rest with a command offered has not ended its run, and has when the command has completed. -/
theorem test_run_ended :
    runEnded { pair with cmd := [0x06000000, 0x3E800000] } = false ∧
    seen (step { pair with cmd := [0x06000000, 0x3E800000] }) runEnded = some true ∧
    runEnded stopped = false ∧ runEnded { pair with phase := .busy, progress := .loopHead } = false := by decide +kernel

/-- `withFetchWord` puts the instruction where the very next step runs it. -/
theorem test_with_fetch_word :
    seen (step (State.reset.withFetchWord 2 0)) (·.y) = some [0] ∧
    faulted (step (State.reset.withFetchWord 35 2)) = some .noSuchRing ∧
    seen (step (State.reset.withFetchWord 32 0x02000000)) (·.phase) = some .fault := by decide +kernel

/-! ## Witnesses: the hypotheses of the statements, met together -/

/-- The ring of `open4` as line 0 of a machine. -/
def opened : State := { State.reset with rings := [(0, open4)] }

/-- The network of P5 meets the invariant at a chunk boundary, whatever stands at its ports. -/
theorem witness_network : NetworkInv 0 pair := by
  refine ⟨by decide, by decide, by decide, by decide, ?_⟩
  intro i h
  match i, h with
  | 0, _ => exact ⟨Ring.initial 0 2 2, rfl, by decide, rfl, rfl, rfl, rfl⟩
  | 1, _ => exact ⟨Ring.initial 0 4 2, rfl, by decide, rfl, rfl, rfl, rfl⟩

/-- The same with a rotation by one block. -/
theorem witness_network_rotating : NetworkInv 0 rotating :=
  ⟨by decide, by decide, witness_network.2.2⟩

/-- DecodeOfEncodeIsIdentity: the largest operand of every field. -/
theorem witness_well_formed :
    (Instr.build 65535 15 65535 true 0 0 0).wellFormed = true ∧ (Instr.process 4294967295).wellFormed = true ∧
    (Instr.peekReadable 65535 4294967295).wellFormed = true ∧
    (Instr.ringInit 65535 4294967295 4294967295).wellFormed = true ∧
    encode .destroy = .command [0x02000000] := by decide

/-- EncodeOfDecodeIsIdentity. -/
theorem witness_decoded :
    decodeCommand [0x02000000, 5] = .ok (.destroy, [5]) ∧
    decodeRequest (.ring 0x2FFFFFFFF 65535 4294967295) = .ok (.commitWrite 65535 4294967295) ∧
    decodeRequest (.mix 2) = .ok .had4 := by decide

/-- CommandLengthIsAFunctionOfTheOpcode: a whole `BUILD`, one word short of it, one with a bad operand word, one with
only its header, and the two ends of the reserved opcodes. -/
theorem witness_command_lengths :
    (decodeCommand [0x01010002, 0, 0, 0, 0]).isOk ∧ (decodeCommand [0x01010002, 0, 0, 0]) = .error .truncated ∧
    decodeCommand [0x01010002, 0x00020000] = .error .reservedBuildField ∧
    decodeCommand [0x01010002] = .error .truncated ∧ decodeCommand [0x06000000] = .error .truncated ∧
    decodeCommand [0x00FFFFFF] = .error .reservedOpcode ∧ decodeCommand [0x07000000] = .error .reservedOpcode := by
  decide

/-- IllegalCommandsFault: a state for each of the six cases. -/
theorem witness_illegal_commands :
    AtRest State.reset ∧ State.reset.phase = .unbuilt ∧ AtRest pair ∧ pair.phase = .idle ∧
    (0x07000000 : Word).toNat / 2 ^ 24 = 7 ∧ (0x00FFFFFF : Word).toNat / 2 ^ 24 = 0 ∧
    ((0x01100000 : Word).toNat / 2 ^ 24 = 1 ∧ (0x01100000 : Word).toNat / 2 ^ 20 % 2 ^ 4 ≠ 0) ∧
    ((0x02000001 : Word).toNat / 2 ^ 24 = 2 ∧ (0x06800000 : Word).toNat % 2 ^ 24 ≠ 0) ∧
    (0x03000000 : Word).toNat / 2 ^ 24 ≠ 1 ∧ (0x01010002 : Word).toNat / 2 ^ 24 = 1 ∧
    (0x00020000 : Word).toNat / 2 ^ 17 ≠ 0 ∧
    (let s : State := { rotating with cmd := [0x01010002] }
     AtRest s ∧ s.phase = pair.phase ∧ s.cmd = [0x01010002] ∧ s.freeCount = pair.freeCount) := by decide

/-- StepRunsTheDecodedCommand, in both phases; the phase lets the opcode in. -/
theorem witness_step_command :
    AtRest { State.reset with cmd := [0x01010002, 0, 0, 0, 0] } ∧
    decodeCommand [0x01010002, 0, 0, 0, 0] = .ok (.build 2 1 0 false 0 0 0, []) ∧
    AtRest { pair with cmd := [0x03000000, 2] } ∧ decodeCommand [0x03000000, 2] = .ok (.process 2, []) := by decide

/-- StepRunsTheDecodedRequest: an operation, and a reserved code. -/
theorem witness_step_request :
    (State.reset.withFetchWord 2 1).resetPin = false ∧ (State.reset.withFetchWord 2 1).request = some (.mix 1) ∧
    decodeRequest (.mix 1) = .ok .had2 ∧ decodeRequest (.ring 0x500000000 0 0) = .error .reservedRingOp := by decide

/-- StepAwaitsResumesOrWaits: a header alone, the state it leaves, a `PROCESS` in progress, and the three waits. -/
theorem witness_step_waits :
    AtRest { pair with cmd := [0x03000000] } ∧ decodeCommand [0x03000000] = .error .truncated ∧
    (let s : State := { pair with phase := .busy, progress := .receiving .idle [0x03000000], cmd := [2] }
     s.resetPin = false ∧ s.request = none) ∧
    (let s : State := { pair with phase := .busy, progress := .loopHead }
     s.resetPin = false ∧ s.request = none ∧ s.progress = .loopHead) ∧
    stopped.phase = .fault ∧ stopped.progress = .rest ∧ pair.cmd = [] := by decide

/-- ResetWireClearsTheMachine: two machines that differ, with the same count of free values. -/
theorem witness_reset_wire :
    (assertReset pair).resetPin = true ∧ (assertReset stopped).resetPin = true ∧
    (assertReset pair).freeCount = (assertReset stopped).freeCount := by decide

/-- OnlyResetLeavesFault. -/
theorem witness_leaves_fault :
    stopped.phase = .fault ∧ stopped.progress = .rest ∧ (∃ t, step stopped = .next t) ∧
    stopped.resetPin = false ∧ (∃ t, step (assertReset stopped) = .next t) :=
  ⟨rfl, rfl, ⟨_, rfl⟩, rfl, ⟨_, rfl⟩⟩

/-- BuildValidationFaults: one topology for each bit, with the boundary values of section 2.2. -/
theorem witness_invalid_topologies :
    State.reset.phase = .unbuilt ∧ ¬ValidTopology 16 3 ∧ ¬ValidTopology 0 1 ∧ ¬ValidTopology 7 1 ∧
    ¬ValidTopology 10 4 ∧ ¬ValidTopology 0 0 ∧
    (let s : State := { State.reset with numDelays := 7, inputPan := 5 }
     s.phase = .unbuilt ∧ s.freeCount = State.reset.freeCount) := by decide

/-- DestroyRemovesTheNetwork: two networks that differ, with the same count of free values. -/
theorem witness_destroy :
    pair.phase = .idle ∧ rotating.phase = .idle ∧ rotating.freeCount = pair.freeCount ∧
    rotating.blockSize ≠ pair.blockSize := by decide

/-- BuildPreconditionsRefuse: each case on a valid topology (section 2.3). -/
theorem witness_preconditions :
    ValidTopology 16 8 ∧ F32.isFinite 0x7F800000 = false ∧ F32.lt 0 0x80000000 = false ∧ F32.lt 0xBC23D70A 0 = true ∧
    (F32.truncToNat (F32.fmul 0x00000000 0x473B8000) = some 0) ∧
    (F32.truncToNat (F32.fmul 0x3F4CCCCD 0x473B8000) = some 38400 ∧
      F32.truncToNat (F32.fmul 0x3CA3D70A 0x473B8000) = some 960) ∧
    (F32.truncToNat (F32.fmul 0x471C4000 0x473B8000)).isSome ∧
    ValidTopology 6 2 ∧ Nat.gcd 6 39 ≠ 1 ∧ ValidTopology 8 8 ∧ 8 / 2 < 8 := by decide +kernel

/-- The statements about a `BUILD` that completes: the scenario S6, the smallest network, and eight lines with
`shift = 0`. -/
theorem witness_buildable :
    State.reset.phase = .unbuilt ∧ Buildable 16 8 1 0x3CA3D70A 0x3F4CCCCD 0x473B8000 960 38400 ∧
    Buildable 2 1 0 0x3F800000 0x40400000 0x40000000 2 6 ∧
    Buildable 8 8 0 0x3F800000 0x3F800000 0x3F800000 1 1 := by
  refine ⟨rfl, ?_, ?_, ?_⟩ <;> decide +kernel

/-- BuildDrawsSortsAndPermutesDelays: listed answers in range, at both ends of it. -/
theorem witness_listed_answers :
    2 ≤ [2, 6].length ∧ ∀ v ∈ [2, 6].take 2, 2 ≤ v ∧ v ≤ 6 := by decide

/-- BuildShufflesTheSigns: four lines, listed answers in range at both ends of it (P2). -/
theorem witness_shuffle :
    Buildable 4 1 2 0x3F800000 0x40800000 0x3F800000 1 4 ∧
    (let rng := [3, 1, 4, 2, 1, 0]
     4 + 2 * (4 / 2 - 1) ≤ rng.length ∧ (∀ v ∈ rng.take 4, 1 ≤ v ∧ v ≤ 4) ∧
     ∀ k < 4 / 2 - 1, rng.getD (4 + k) 0 ≤ 4 / 2 - 1 - k ∧ rng.getD (4 + (4 / 2 - 1) + k) 0 ≤ 4 / 2 - 1 - k) := by
  refine ⟨?_, ?_⟩ <;> decide +kernel

/-- OutOfPhaseCommandsFault. -/
theorem witness_out_of_phase :
    encode .destroy = .command [0x02000000] ∧ State.reset.phase = .unbuilt ∧
    (∀ n bs shift zt lo hi rate, Instr.destroy ≠ .build n bs shift zt lo hi rate) ∧
    encode (.build 2 1 0 false 0 0 0) = .command [0x01010002, 0, 0, 0, 0] ∧ pair.phase = .idle ∧
    stopped.phase = .fault :=
  ⟨by decide, rfl, fun _ _ _ _ _ _ _ => Instr.noConfusion, by decide, rfl, rfl⟩

/-- SetRt60WritesTheCoefficients: the least and the greatest finite positive time, and times on the other side. -/
theorem witness_decay_times :
    pair.phase = .idle ∧ (F32.isFinite 0x00000001 = true ∧ F32.lt 0 0x00000001 = true) ∧
    (F32.isFinite 0x7F7FFFFF = true ∧ F32.lt 0 0x7F7FFFFF = true) ∧ F32.isFinite 0x7F800000 = false ∧
    F32.lt 0 0x80000000 = false ∧ State.reset.phase = .unbuilt := by decide

/-- SetMaxDelayIsARebuild and SetMaxDelayCompletes: section 2.10 on the network of P5. -/
theorem witness_rebuild :
    pair.phase = .idle ∧ ValidTopology pair.numDelays pair.blockSize ∧ TopologyInv pair ∧
    Buildable pair.numDelays pair.blockSize (pair.fbShift / pair.blockSize) pair.minDelaySeconds 0x40000000
      pair.sampleRate 2 4 := by decide +kernel

/-- SetInputPanWritesThePan: both ends of the range, and values beyond them. -/
theorem witness_pans :
    (F32.le 0 0x00000000 = true ∧ F32.le 0x00000000 (F32.ofNat 1) = true) ∧
    (F32.le 0 0x3F800000 = true ∧ F32.le 0x3F800000 (F32.ofNat 1) = true) ∧
    F32.le 0x3F800001 (F32.ofNat 1) = false ∧ F32.le 0 0x80000001 = false ∧ F32.isNaN 0x7FC00000 = true := by
  decide +kernel

/-- The statements about a `PROCESS` that completes: P5, with as many samples as are supplied, and P1's rotation. -/
theorem witness_process :
    pairSupplied.phase = .idle ∧ NetworkInv 0 pairSupplied ∧ Supplied 10 pairSupplied ∧ Supplied (3 + 7) pairSupplied ∧
    Supplied 0 pair ∧ NetworkInv 0 rotating :=
  ⟨rfl, witness_network, by decide, by decide, by decide, witness_network_rotating⟩

/-- OutputIsZeroBeforeTheShortestDelay: P5 and as many samples as its shortest line is long. -/
theorem witness_silent_start :
    Supplied 2 pairSupplied ∧ pairSupplied.hasZeroTaps = false ∧
    (∀ i < pairSupplied.numDelays, queueOf pairSupplied i = List.replicate (pairSupplied.delay.getD i 0) 0) ∧
    (∀ d ∈ pairSupplied.delay, 2 ≤ d) ∧ (∀ c ∈ pairSupplied.coef, F32.isFinite c = true) ∧
    F32.isFinite pairSupplied.invMatrixAtt = true ∧ F32.signBit pairSupplied.invMatrixAtt = false := by
  refine ⟨by decide, rfl, ?_, by decide, ?_, by decide, by decide⟩
  case refine_2 =>
    intro c hc
    simp only [pairSupplied, pair, List.mem_cons, List.not_mem_nil, or_false] at hc
    obtain rfl | rfl := hc <;> decide
  intro i h
  match i, h with
  | 0, _ => decide +kernel
  | 1, _ => decide +kernel

/-- ProcessWaitsForTheHost: a chunk of two with one sample of the left input; one with input and no room. -/
theorem witness_waits_for_the_host :
    NetworkInv 0 { pair with inL := [1], inR := [1, 2] } ∧
    ({ pair with inL := [1], inR := [1, 2] } : State).inL.length < min 10 pair.minDelaySamples ∧
    NetworkInv 0 { pairSupplied with roomR := 1 } ∧ min 10 pairSupplied.minDelaySamples ≤ pairSupplied.inL.length ∧
    ({ pairSupplied with roomR := 1 } : State).roomR < min 10 pair.minDelaySamples ∧
    pair.resetPin = false ∧ pair.request = none :=
  ⟨witness_network, by decide, witness_network, by decide, by decide, rfl, rfl⟩

/-- The statements about a `PROCESS` that waited: P5 with the input of one chunk and a half and all the room, which waits
at the head of its second chunk until the rest comes; and with no room, which waits at the first output write. -/
theorem witness_resumed :
    (let s : State := { pairSupplied with inL := [1, 2, 3], inR := [4, 5, 6] }
     NetworkInv 0 s ∧ s.phase = .idle ∧ s.resetPin = false ∧ s.request = none ∧
     seen (exec (.process 10) s) (fun w => (w.phase, w.progress, w.seqRemaining)) = some (.busy, .loopHead, 8) ∧
     Supplied 10 (hostGives [1, 2, 3, 4, 5, 6, 7] [1, 2, 3, 4, 5, 6, 7] 0 0 s)) ∧
    (let s : State := { pairSupplied with roomL := 0 }
     NetworkInv 0 s ∧
     seen (exec (.process 10) s) (fun w => (w.phase, w.progress, w.seqRemaining)) = some (.busy, .outputWrite, 10) ∧
     Supplied 10 (hostGives [] [] 10 0 s)) :=
  ⟨⟨witness_network, rfl, rfl, rfl, by decide +kernel, by decide⟩, witness_network, by decide +kernel, by decide⟩

/-- The same for a state in which a `PROCESS` is in progress, and the step that completes it. -/
theorem witness_interrupted :
    (let s : State := { pairSupplied with phase := .busy, progress := .loopHead, seqRemaining := 8 }
     Interrupted s ∧ Supplied s.seqRemaining s ∧ seen (step s) (·.phase) = some .idle) ∧
    (let s : State := { pair with phase := .busy, progress := .loopHead, seqRemaining := 8 }
     Interrupted s ∧ seen (step s) (·.phase) = some .busy) :=
  ⟨⟨⟨⟨rfl, by decide, rfl, rfl, rfl, witness_network⟩, rfl, .inl rfl⟩, by decide, by decide +kernel⟩,
    ⟨⟨rfl, by decide, rfl, rfl, rfl, witness_network⟩, rfl, .inl rfl⟩, by decide +kernel⟩

/-- WindowsAreGrantedInFull: the largest chunk. -/
theorem witness_full_windows :
    NetworkInv 0 { pair with seqChunk := 2 } ∧ ({ pair with seqChunk := 2 } : State).seqChunk ≤ pair.minDelaySamples :=
  ⟨witness_network, by decide⟩

/-- ShortGrantShrinksTheChunkAndIsCounted: no window is open. -/
theorem witness_no_windows :
    ∀ i < pair.numDelays, ∃ r, Store.read pair.rings i = some r ∧ r.rwin = 0 ∧ r.wwin = 0 := by
  intro i h
  match i, h with
  | 0, _ => exact ⟨_, rfl, rfl, rfl⟩
  | 1, _ => exact ⟨_, rfl, rfl, rfl⟩

/-- ShortGrantShrinksTheChunkAndIsCounted: a chunk of 3 where line 0 has two samples and two free cells, and line 1 two
free cells; the chunk shrinks to 2 and is counted, once from 4 and once from a saturated counter. -/
theorem witness_short_grant :
    (let s : State := { pair with seqChunk := 3, diagCount := 4 }
     (∀ i < s.numDelays, ∃ r, Store.read s.rings i = some r ∧ r.rwin = 0 ∧ r.wwin = 0) ∧
     (stepWindows s).toOption.map (fun t => (t.seqChunk, t.shortfall, t.diagCount)) = some (2, true, 5) ∧
     ((stepWindows s).toOption.bind (ringView 1)).map Prod.fst = some [6, 0, 4, 4, 3, 2]) ∧
    (stepWindows ({ pair with seqChunk := 3, diagCount := 2 ^ 32 - 1 } : State)).toOption.map
      (fun t => (t.seqChunk, t.shortfall, t.diagCount)) = some (2, true, 2 ^ 32 - 1) :=
  ⟨⟨witness_no_windows, by decide +kernel, by decide +kernel⟩, by decide +kernel⟩

/-- RingInitMakesARingOfZeros and PeeksOpenTheWindows: every outcome of each, and the line range of every statement about
the ring of a line, at its last line and above it. -/
theorem witness_ring_operands :
    2 + 2 ≠ 0 ∧ 0 + 0 = 0 ∧
    LineInRange traced 0 ∧ LineInRange opened 0 ∧ LineInRange pair 1 ∧ ¬LineInRange pair 2 ∧
    (pair.delay ≠ [] ∧ pair.numDelays ≤ 2) ∧
    (Store.read traced.rings 0 = some (Ring.initial 0 2 2) ∧ (Ring.initial (0 : Sample) 2 2).rwin = 0 ∧
      (Ring.initial (0 : Sample) 2 2).wwin = 0) ∧
    (Store.read opened.rings 0 = some open4 ∧ open4.rwin ≠ 0 ∧ open4.wwin ≠ 0) ∧
    Store.read traced.rings 1 = none := by decide

/-- CommitWritePublishesTheWindow and ReleaseReadFreesTheWindow: the whole window, less than it, more than it. -/
theorem witness_window_counts :
    Store.read opened.rings 0 = some open4 ∧ 2 ≤ open4.wwin ∧ 0 ≤ open4.wwin ∧ open4.wwin < 3 ∧ 2 ≤ open4.rwin ∧
    open4.rwin < 3 := by decide

/-- RingOperationsKeepTheInvariants, WindowsShareNoCell, RdWinReadsTheWindow, WrWinWritesTheWindow, RingIsAQueue: a ring
that meets the invariants with both windows outstanding, the write window written. -/
theorem witness_ring :
    RingInv open4 ∧ LineInRange opened 0 ∧ Store.read opened.rings 0 = some open4 ∧
    (Store.read { open4 with cells := [(1, (0 : Sample)), (2, 7)] }.cells ((open4.rd + 0) % open4.cap) = none ∧
      Store.read { open4 with cells := [(1, (0 : Sample)), (2, 7)] }.cells ((open4.wr + 1) % open4.cap) = none) ∧ 1 < open4.rwin ∧ 1 < open4.wwin ∧
    (∀ k < 2, (Store.read open4.cells (open4.writeCell k)).isSome = true) ∧
    (∀ k < 2, Store.read open4.cells (open4.writeCell k) = some ((fun k => if k = 0 then 7 else 8) k)) ∧
    RingInv (Ring.initial (0 : Sample) 2 2) ∧ (Ring.initial (0 : Sample) 2 2).wwin = 0 := by decide +kernel

/-- The statements about the mixer: a vector with exactly the samples, and one too short. -/
theorem witness_mixer_vectors :
    (mixing [3]).mixIn = [F32.ofNat 3] ∧ (mixing [1, 2]).mixIn = [F32.ofNat 1, F32.ofNat 2] ∧
    (mixing [1, 2, 3, 4]).mixIn = [F32.ofNat 1, F32.ofNat 2, F32.ofNat 3, F32.ofNat 4] ∧
    (mixing [1, 2, 3, 4, 5, 6, 7, 8]).mixIn.length = 8 ∧ (mixing [1, 2, 3]).mixIn.length < 4 ∧
    (mixing []).mixIn = [] := by decide +kernel

/-- HadamardLawsOverTheReals. -/
theorem witness_real_vector : ([1, 2, 3, 4] : List ℝ).length = 2 ^ 2 := rfl

/-- RotationIsABijectionOfTheLines: a shift beyond the network, and one of a whole turn. -/
theorem witness_rotation :
    0 < 4 ∧ 0 < 8 ∧ 8 % 4 = 0 ∧ 20 % 4 = 0 ∧ 16 % 4 = 0 ∧ 16 % 8 = 0 ∧ 1 < 8 / 4 ∧ 3 < 4 := by decide

/-- GainAlgebraOverTheReals: P1's rate and decay time. -/
theorem witness_gains :
    0 < 1 ∧ (0 : ℝ) < 2 ∧ (0 : ℝ) < 3 ∧ ((6 : Nat) : ℝ) / 2 = 3 ∧ 2 < 4 := by norm_num

/-- Pow10HasItsThreeProperties, Binary32ConversionsFollowTheValue, AddSubMulRoundToNearestEven and
DivSqrtRoundToNearestEven. -/
theorem witness_binary32 :
    F32.le 0xC0400000 0xBF800000 = true ∧ F32.isFinite 0xC0400000 = true ∧ F32.le 0xC0400000 0 = true ∧
    F32.isFinite 0x3F800000 = true ∧ F32.signBit 0x3F800000 = false ∧ F32.isFinite 0x7F800000 = false := by decide

/-- The values of 1 and -1 (R38). -/
theorem witness_values :
    0 ≤ ExactReal.value 0x3F800000 ∧ ExactReal.value 0x3F800000 ≠ 0 ∧ ExactReal.value 0xBF800000 < 0 := by
  have h1 : F32.signBit 0x3F800000 = false := by decide
  have h2 : F32.signBit 0xBF800000 = true := by decide
  have m1 : F32.mantissa 0x3F800000 = 8388608 := by decide
  have m2 : F32.mantissa 0xBF800000 = 8388608 := by decide
  refine ⟨?_, ?_, ?_⟩ <;> simp only [ExactReal.value, h1, h2, m1, m2, if_true, Bool.false_eq_true, if_false]
  · positivity
  · positivity
  · exact mul_neg_of_neg_of_pos (by norm_num) (by positivity)

/-- RegPortReadsTheControlRegisters and RegPortReadsTheLines: each phase, the last line and the first beyond it. -/
theorem witness_reg_port :
    pair.phase ≠ .busy ∧ pair.diagCount < 2 ^ 32 ∧ pair.numDelays < 2 ^ 32 ∧ pair.maxDelaySamples < 2 ^ 32 ∧
    pair.phase = .idle ∧ NetworkInv 0 pair ∧ pair.numDelays < 2 ^ 16 ∧ 1 < pair.numDelays ∧ pair.numDelays ≤ 2 ∧
    State.reset.phase = .unbuilt ∧ ({ pair with phase := .busy } : State).phase = .busy :=
  ⟨by decide, by decide, by decide, by decide, rfl, witness_network, by decide, by decide, by decide, rfl, rfl⟩

/-- StepKeepsTheMachineInvariant and InvariantStepsStopOnOperandsOnly: a network about to run, and one in the middle of
a chunk. -/
theorem witness_machine_inv :
    MachineInv { pairSupplied with cmd := [0x06000000, 0x3E800000] } ∧
    (∃ t, step { pairSupplied with cmd := [0x06000000, 0x3E800000] } = .next t) ∧
    MachineInv { pair with phase := .busy, progress := .loopHead, seqRemaining := 3 } :=
  ⟨⟨rfl, by decide, rfl, rfl, witness_network⟩, ⟨_, rfl⟩, ⟨rfl, by decide, rfl, rfl, rfl, witness_network⟩⟩

/-- StepKeepsTheMachineInvariant, the legal values: the registers of P5. -/
theorem witness_registers_legal :
    RegistersLegal F32.num { pairSupplied with cmd := [0x06000000, 0x3E800000] } ∧ pairSupplied.delay ≠ [] :=
  ⟨fun _ => by decide +kernel, by decide⟩

/-- StepKeepsTheMemoryForm. -/
theorem witness_memory_form :
    Memory.wf (State.withFetchWord opened 35 0x200000001) = true ∧
    seen (step (State.withFetchWord opened 35 0x200000001)) (ringView 0)
      = some (some ([4, 0, 3, 3, 2, 0], [(0, 0), (1, 0), (2, 7)])) := by decide +kernel

/-- TopologyIsImmutable: an operation that is neither the rebuild nor `RING_INIT`, and the rebuild. -/
theorem witness_immutable :
    NetworkInv 0 pairSupplied ∧ seen (exec (.process 2) pairSupplied) (·.phase) = some .idle ∧
    seen (exec (.setMaxDelay 0x40000000) { pair with rng := [2, 4] }) (·.phase) = some .idle :=
  ⟨witness_network, by decide +kernel, by decide +kernel⟩

end Sys2Proof.Slice0
end

section
/-! The matrix gains (spec/10_state.md R21): `MATRIX_ATT` and `INV_MATRIX_ATT` over the reals and under `Num.f32`. -/

namespace Sys2Proof.Machine

theorem matrixAttOf_eq {α : Type} (num : Num α) (B : Nat) :
    matrixAttOf num B = num.fsqrt (num.fdiv (num.ofNat 1) (num.ofNat B)) := rfl

theorem invMatrixAttOf_eq {α : Type} (num : Num α) (B : Nat) :
    invMatrixAttOf num B = num.fdiv (num.ofNat 1) (matrixAttOf num B) := rfl

theorem matrixAttOf_real (B : Nat) : matrixAttOf ExactReal.num B = Real.sqrt (1 / B) := by
  simp [matrixAttOf_eq, ExactReal.num]

theorem invMatrixAttOf_real (B : Nat) : invMatrixAttOf ExactReal.num B = 1 / matrixAttOf ExactReal.num B := by
  simp [invMatrixAttOf_eq, ExactReal.num]

theorem matrixAttOf_real_pos {B : Nat} (h : 0 < B) : 0 < matrixAttOf ExactReal.num B := by
  rw [matrixAttOf_real]
  positivity

/-- Over the reals the second gain undoes the first, because the first is not 0. -/
theorem matrixAttOf_mul_invMatrixAttOf_real {B : Nat} (h : 0 < B) :
    matrixAttOf ExactReal.num B * invMatrixAttOf ExactReal.num B = 1 := by
  rw [invMatrixAttOf_real]
  exact mul_one_div_cancel (matrixAttOf_real_pos h).ne'

end Sys2Proof.Machine

namespace Sys2Proof

open Sys2Proof.Machine

/-- Settles O47: the formulas are the definitions', the product over the reals is the cancellation of a positive gain,
and the binary32 table is four closed evaluations. -/
theorem unityGainIdentity : Obligations.UnityGainIdentity := by
  unfold Obligations.UnityGainIdentity
  refine ⟨fun α num B => ?formulas, fun B hB => ?exact_over_the_reals, ?binary32_table⟩
  case formulas => exact ⟨matrixAttOf_eq num B, invMatrixAttOf_eq num B⟩
  case exact_over_the_reals => exact matrixAttOf_mul_invMatrixAttOf_real hB
  case binary32_table => decide +kernel

end Sys2Proof
end

section
/-! The windows of a ring (spec/20_memory.md R33 to R37): which cells they are, what `RdWin`, `WrWin` and `WrWinRead`
answer on the ring of a line and without one, and that a write to the write window leaves the unconsumed samples. -/

namespace Sys2Proof.Machine

variable {α : Type}

/-! ## The cells of the windows -/

/-- The live cells and the write window are one run of the read cursor, no longer than the capacity, so a live cell is
no cell of the write window (R37). -/
theorem RingInv.readCell_ne_writeCell {r : Ring α} (h : RingInv r) {j k : Nat} (hj : j < r.fill) (hk : k < r.wwin) :
    r.readCell j ≠ r.writeCell k := by
  have hfill := h.fill_le
  have hwwin := h.wwin_le
  intro heq
  rw [Ring.writeCell_eq h.wr_eq] at heq
  have := Ring.readCell_inj (by omega) (by omega) heq
  omega

theorem Ring.writeCell_lt {r : Ring α} (h : 0 < r.cap) (k : Nat) : r.writeCell k < r.cap :=
  Nat.mod_lt _ h

/-! ## The accesses on the ring of a line -/

theorem memRead_none {r : Ring α} {a : Nat} (h : Store.read r.cells a = none) :
    r.memRead a = .error (.refusal .readOfUnwrittenCell) := by
  rw [Ring.memRead, h, orStop_none, ite_self]

theorem memRead_of_cap_le {r : Ring α} {a : Nat} (h : r.cap ≤ a) :
    r.memRead a = .error (.refusal .readOfUnwrittenCell) :=
  if_neg (by omega)

/-- `RdWin` on the ring of a line: a read of the window's cell, or the refusal outside the window (R35). -/
theorem rdWin_of_ringAt {s : Generic.State α} {i : Nat} {r : Ring α} (h : ringAt s i = some r) (k : Nat) :
    rdWin s i k = if k < r.rwin then r.memRead (r.readCell k) else .error (.refusal .readOutsideWindow) := by
  rw [rdWin, ringToRead_eq_ok.mpr h, res_bind_ok]

theorem rdWin_of_ringAt_none {s : Generic.State α} {i : Nat} (h : ringAt s i = none) (k : Nat) :
    rdWin s i k = .error (.refusal .readOfUnwrittenCell) := by
  rw [rdWin, ringToRead_none h, res_bind_error]

/-- `WrWinRead` on the ring of a line: a read of the window's cell, or the refusal outside the window (R36). -/
theorem wrWinRead_of_ringAt {s : Generic.State α} {i : Nat} {r : Ring α} (h : ringAt s i = some r) (k : Nat) :
    wrWinRead s i k = if k < r.wwin then r.memRead (r.writeCell k) else .error (.refusal .writeOutsideWindow) := by
  rw [wrWinRead, ringToRead_eq_ok.mpr h, res_bind_ok]

theorem wrWinRead_of_ringAt_none {s : Generic.State α} {i : Nat} (h : ringAt s i = none) (k : Nat) :
    wrWinRead s i k = .error (.refusal .readOfUnwrittenCell) := by
  rw [wrWinRead, ringToRead_none h, res_bind_error]

theorem wrWin_outside {s : Generic.State α} {i k : Nat} {r : Ring α} (h : ringAt s i = some r) (hk : r.wwin ≤ k)
    (v : α) : wrWin s i k v = .error (.refusal .writeOutsideWindow) := by
  rw [wrWin, ringOf_eq_ok.mpr h, res_bind_ok, if_neg (by omega)]

/-! ## A write to the write window -/

/-- The ring after `WrWin(i, k, v)` within the window (R36). -/
def Ring.writeWindow (r : Ring α) (k : Nat) (v : α) : Ring α :=
  { r with cells := Store.write r.cells (r.writeCell k) v }

theorem read_writeWindow (r : Ring α) (k : Nat) (v : α) (a : Nat) :
    Store.read (r.writeWindow k v).cells a = if a = r.writeCell k then some v else Store.read r.cells a :=
  Store.read_write _ _ _ _

/-- Under the invariants a write within the window is answered (R36). -/
theorem wrWin_of_ringAt {s : Generic.State α} {i k : Nat} {r : Ring α} (h : ringAt s i = some r) (hr : RingInv r)
    (hk : k < r.wwin) (v : α) : wrWin s i k v = .ok (putRing s i (r.writeWindow k v)) :=
  wrWin_eq_ok.mpr ⟨r, h, hk, Ring.writeCell_lt hr.cap_pos k, rfl⟩

theorem ringAt_putRing_same {s : Generic.State α} {i : Nat} (h : LineInRange s i) (r : Ring α) :
    ringAt (putRing s i r) i = some r :=
  ringAt_eq_some.mpr ⟨h, Store.read_write_same _ _ _⟩

theorem wrWinRead_writeWindow {s : Generic.State α} {i k : Nat} {r : Ring α} (h : LineInRange s i) (hr : RingInv r)
    (hk : k < r.wwin) (v : α) : wrWinRead (putRing s i (r.writeWindow k v)) i k = .ok v :=
  wrWinRead_eq_ok.mpr
    ⟨_, ringAt_putRing_same h _, hk, Ring.writeCell_lt hr.cap_pos k, Store.read_write_same _ _ _⟩

/-- No live cell is written, so the unconsumed samples stand until `COMMIT_WRITE` (R36). -/
theorem liveSamples_writeWindow {r : Ring α} (h : RingInv r) {k : Nat} (hk : k < r.wwin) (v : α) :
    liveSamples (r.writeWindow k v) = liveSamples r := by
  refine List.filterMap_congr fun j hj => ?_
  have hlive : j < r.fill := List.mem_range.mp hj
  exact Store.read_write_other _ _ (h.readCell_ne_writeCell hlive hk)

end Sys2Proof.Machine

namespace Sys2Proof

open Sys2Proof.Machine

/-- Settles O37: the read window is among the live cells, the write window behind them, and both lie in one run no
longer than the capacity. -/
theorem windowsShareNoCell : Obligations.WindowsShareNoCell := by
  unfold Obligations.WindowsShareNoCell
  intro α r h
  have hrwin := h.rwin_le
  have hfill := h.fill_le
  have hwwin := h.wwin_le
  refine ⟨fun j hj k hk => ?apart, fun j hj k hk heq => ?read_once, fun j hj k hk heq => ?write_once⟩
  case apart => exact h.readCell_ne_writeCell (by omega) hk
  case read_once => exact mod_add_inj (by omega) (by omega) heq
  case write_once => exact mod_add_inj (by omega) (by omega) heq

/-- Settles O38: an element of the read window is a live cell, which holds a sample; the refusals are those of the
access to the cell, of the window, and of the line without a ring. -/
theorem rdWinReadsTheWindow : Obligations.RdWinReadsTheWindow := by
  unfold Obligations.RdWinReadsTheWindow
  intro α s i
  refine ⟨fun r hline hread => ?_, fun hnone => rdWin_of_ringAt_none (ringAt_eq_none.mpr hnone)⟩
  have hring : ringAt s i = some r := ringAt_eq_some.mpr ⟨hline, hread⟩
  refine ⟨fun h k hk => ?within, fun k hk hcell => ?unwritten, fun k hk => ?outside⟩
  case within =>
    have hlive : k < r.fill := Nat.lt_of_lt_of_le hk h.rwin_le
    obtain ⟨v, hv⟩ := h.live hlive
    exact ⟨v, hv, rdWin_eq_ok.mpr ⟨r, hring, hk, Ring.readCell_lt h.cap_pos k, hv⟩,
      (liveSamples_getElem? h hlive).trans hv⟩
  case unwritten =>
    rw [rdWin_of_ringAt hring, if_pos hk]
    obtain hnone | hcap := hcell
    · exact memRead_none hnone
    · exact memRead_of_cap_le (hcap ▸ Nat.zero_le _)
  case outside =>
    rw [rdWin_of_ringAt hring, if_neg (by omega)]

/-- Settles O39: a write within the window is one write to the store of cells, of a cell that is not live. -/
theorem wrWinWritesTheWindow : Obligations.WrWinWritesTheWindow := by
  unfold Obligations.WrWinWritesTheWindow
  intro α s i
  refine ⟨fun r hline hread => ?_, fun hnone => wrWinRead_of_ringAt_none (ringAt_eq_none.mpr hnone)⟩
  have hring : ringAt s i = some r := ringAt_eq_some.mpr ⟨hline, hread⟩
  refine ⟨fun h k hk v => ?within, fun k hk hcell => ?unwritten, fun k hk v => ?outside⟩
  case within =>
    exact ⟨putRing s i (r.writeWindow k v), r.writeWindow k v, wrWin_of_ringAt hring h hk v, rfl,
      Store.read_write_same _ _ _, rfl, read_writeWindow r k v, fun j hj => Store.read_write_other _ _ hj,
      wrWinRead_writeWindow hline h hk v, liveSamples_writeWindow h hk v⟩
  case unwritten =>
    rw [wrWinRead_of_ringAt hring, if_pos hk]
    exact memRead_none hcell
  case outside =>
    exact ⟨wrWin_outside hring hk v, by rw [wrWinRead_of_ringAt hring, if_neg (by omega)]⟩

end Sys2Proof
end

section
/-! The decoder of host commands (spec/30_encoding.md R47 to R53, R56, R57): which headers are legal, what each legal
header asks of the words after it, and the four answers a word sequence can get. -/

namespace Sys2Proof

/-! ## The fields of a header word and of a `BUILD` operand word -/

/-- A field that reaches up to bit 31 has no bits above it to cut off. -/
theorem field_31 {lo : Nat} (h : lo ≤ 32) (w : Word) : field w 31 lo = w.toNat / 2 ^ lo := by
  refine Nat.mod_eq_of_lt (Nat.div_lt_of_lt_mul ?_)
  rw [← pow_add, show lo + (31 + 1 - lo) = 32 by omega]
  exact w.isLt

theorem opcode_eq (w0 : Word) : opcode w0 = w0.toNat / 2 ^ 24 := field_31 (by omega) w0

/-! ## Headers -/

/-- The legal headers: `BUILD` with `w0[23:20]` zero, the other commands with `w0[23:0]` zero (R56 items 1 and 2). -/
theorem headerError_eq_none {w0 : Word} :
    headerError w0 = none ↔
      (opcode w0 = 1 ∧ field w0 23 20 = 0) ∨ (2 ≤ opcode w0 ∧ opcode w0 ≤ 6 ∧ field w0 23 0 = 0) := by
  unfold headerError
  split_ifs <;> simp <;> omega

/-- A header is refused as a header: its own word is the only one taken (R56). -/
theorem headerError_wordsTaken {w0 : Word} {e : DecodeError} (h : headerError w0 = some e) :
    e ≠ .truncated ∧ e.wordsTaken = 1 := by
  unfold headerError at h
  split_ifs at h <;> cases h <;> exact ⟨by decide, rfl⟩

/-! ## One equation of the decoder per opcode -/

section
variable {w0 : Word}

theorem decodeCommand_of_headerError {e : DecodeError} (h : headerError w0 = some e) (ws : List Word) :
    decodeCommand (w0 :: ws) = .error e := by
  simp [decodeCommand, h]

theorem decodeCommand_build (h : headerError w0 = none) (hop : opcode w0 = 1) (ws : List Word) :
    decodeCommand (w0 :: ws) = decodeBuild w0 ws := by
  simp [decodeCommand, h, hop]

theorem decodeCommand_destroy (h : headerError w0 = none) (hop : opcode w0 = 2) (ws : List Word) :
    decodeCommand (w0 :: ws) = .ok (.destroy, ws) := by
  simp [decodeCommand, h, hop]

theorem decodeCommand_process (h : headerError w0 = none) (hop : opcode w0 = 3) (ws : List Word) :
    decodeCommand (w0 :: ws) = decodeOneOperand (fun w => .process w.toNat) ws := by
  simp [decodeCommand, h, hop]

theorem decodeCommand_setRt60 (h : headerError w0 = none) (hop : opcode w0 = 4) (ws : List Word) :
    decodeCommand (w0 :: ws) = decodeOneOperand .setRt60 ws := by
  simp [decodeCommand, h, hop]

theorem decodeCommand_setMaxDelay (h : headerError w0 = none) (hop : opcode w0 = 5) (ws : List Word) :
    decodeCommand (w0 :: ws) = decodeOneOperand .setMaxDelay ws := by
  simp [decodeCommand, h, hop]

theorem decodeCommand_setInputPan (h : headerError w0 = none) (hop : opcode w0 = 6) (ws : List Word) :
    decodeCommand (w0 :: ws) = decodeOneOperand .setInputPan ws := by
  simp [decodeCommand, h, hop]

/-- The commands of formats `N` and `F` differ only in the operation they make of their operand word. -/
theorem decodeCommand_oneOperand (h : headerError w0 = none) (hlo : 3 ≤ opcode w0) (hhi : opcode w0 ≤ 6) :
    ∃ make, ∀ ws, decodeCommand (w0 :: ws) = decodeOneOperand make ws := by
  have hop : opcode w0 = 3 ∨ opcode w0 = 4 ∨ opcode w0 = 5 ∨ opcode w0 = 6 := by omega
  obtain hop | hop | hop | hop := hop
  · exact ⟨_, decodeCommand_process h hop⟩
  · exact ⟨_, decodeCommand_setRt60 h hop⟩
  · exact ⟨_, decodeCommand_setMaxDelay h hop⟩
  · exact ⟨_, decodeCommand_setInputPan h hop⟩

/-- The three shapes of a command with a legal header (R47). -/
theorem legal_opcode_cases (h : headerError w0 = none) :
    opcode w0 = 1 ∨ opcode w0 = 2 ∨ (3 ≤ opcode w0 ∧ opcode w0 ≤ 6) := by
  obtain ⟨hop, -⟩ | ⟨hlo, hhi, -⟩ := headerError_eq_none.mp h <;> omega

end

/-! ## Operand words -/

/-- A `BUILD` whose first operand word has a bit of its reserved field set (R56 item 3). -/
def BadBuildOperand (w0 : Word) (ws : List Word) : Prop :=
  opcode w0 = 1 ∧ ∃ w1 more, ws = w1 :: more ∧ field w1 31 17 ≠ 0

/-- `BUILD` with enough words: four operand words are taken. -/
theorem decodeBuild_complete {w0 : Word} {ws : List Word} (hop : opcode w0 = 1) (hgood : ¬BadBuildOperand w0 ws)
    (hlen : 4 ≤ ws.length) : ∃ i, decodeBuild w0 ws = .ok (i, ws.drop 4) := by
  match ws, hlen with
  | w1 :: w2 :: w3 :: w4 :: rest, _ =>
    have hw1 : field w1 31 17 = 0 := by_contra fun hne => hgood ⟨hop, w1, _, rfl, hne⟩
    exact ⟨_, if_pos hw1⟩

/-- `BUILD` with too few words. -/
theorem decodeBuild_short {w0 : Word} {ws : List Word} (hop : opcode w0 = 1) (hgood : ¬BadBuildOperand w0 ws)
    (hlen : ws.length < 4) : decodeBuild w0 ws = .error .truncated := by
  match ws with
  | [] => rfl
  | w1 :: more =>
    have hw1 : field w1 31 17 = 0 := by_contra fun hne => hgood ⟨hop, w1, more, rfl, hne⟩
    match more, hlen with
    | [], _ | [_], _ | [_, _], _ => exact if_pos hw1

theorem decodeOneOperand_complete (make : Word → Instr) {ws : List Word} (hlen : 1 ≤ ws.length) :
    ∃ i, decodeOneOperand make ws = .ok (i, ws.drop 1) := by
  match ws, hlen with
  | w1 :: rest, _ => exact ⟨make w1, rfl⟩

theorem decodeOneOperand_short (make : Word → Instr) {ws : List Word} (hlen : ws.length < 1) :
    decodeOneOperand make ws = .error .truncated := by
  match ws, hlen with
  | [], _ => rfl

/-! ## The four answers of the decoder (R56, R57) -/

theorem commandLength_of_legal {w0 : Word} (h : headerError w0 = none) :
    commandLength (opcode w0) = if opcode w0 = 1 then 5 else if opcode w0 = 2 then 1 else 2 := by
  obtain hop | hop | hop := legal_opcode_cases h <;> simp [commandLength, hop]

section
variable {w0 : Word} {ws : List Word}

/-- A legal header with the words of its command decodes, and takes exactly these. -/
theorem decodeCommand_complete (h : headerError w0 = none) (hgood : ¬BadBuildOperand w0 ws)
    (hlen : commandLength (opcode w0) ≤ ws.length + 1) :
    ∃ i, decodeCommand (w0 :: ws) = .ok (i, (w0 :: ws).drop (commandLength (opcode w0))) := by
  rw [commandLength_of_legal h] at hlen ⊢
  obtain hop | hop | ⟨hlo, hhi⟩ := legal_opcode_cases h
  · rw [if_pos hop] at hlen ⊢
    rw [decodeCommand_build h hop]
    exact decodeBuild_complete hop hgood (by omega)
  · rw [if_neg (by omega), if_pos hop]
    exact ⟨_, decodeCommand_destroy h hop ws⟩
  · rw [if_neg (by omega), if_neg (by omega)] at hlen ⊢
    obtain ⟨make, hmake⟩ := decodeCommand_oneOperand h hlo hhi
    rw [hmake]
    exact decodeOneOperand_complete make (by omega)

/-- A legal header with fewer words waits for the rest. -/
theorem decodeCommand_short (h : headerError w0 = none) (hgood : ¬BadBuildOperand w0 ws)
    (hlen : ws.length + 1 < commandLength (opcode w0)) : decodeCommand (w0 :: ws) = .error .truncated := by
  rw [commandLength_of_legal h] at hlen
  obtain hop | hop | ⟨hlo, hhi⟩ := legal_opcode_cases h
  · rw [if_pos hop] at hlen
    rw [decodeCommand_build h hop]
    exact decodeBuild_short hop hgood (by omega)
  · rw [if_neg (by omega), if_pos hop] at hlen
    omega
  · rw [if_neg (by omega), if_neg (by omega)] at hlen
    obtain ⟨make, hmake⟩ := decodeCommand_oneOperand h hlo hhi
    rw [hmake]
    exact decodeOneOperand_short make (by omega)

/-- The reserved field of `BUILD`'s first operand word is looked at as soon as that word is there. -/
theorem decodeCommand_badBuildOperand (h : headerError w0 = none) (hbad : BadBuildOperand w0 ws) :
    decodeCommand (w0 :: ws) = .error .reservedBuildField := by
  obtain ⟨hop, w1, more, rfl, hw1⟩ := hbad
  rw [decodeCommand_build h hop]
  exact if_neg hw1

theorem decodeCommand_illegalHeader (h : headerError w0 ≠ none) :
    ∃ e, decodeCommand (w0 :: ws) = .error e ∧ e ≠ .truncated ∧ e.wordsTaken = 1 := by
  obtain ⟨e, he⟩ := Option.ne_none_iff_exists'.mp h
  exact ⟨e, decodeCommand_of_headerError he ws, headerError_wordsTaken he⟩

end

/-! ## The obligations -/

/-- Settles O5: the statement's legal header is one without a header error and its length is the model's, and then its
four clauses are the four answers of the decoder. -/
theorem commandLengthIsAFunctionOfTheOpcode : Obligations.CommandLengthIsAFunctionOfTheOpcode := by
  unfold Obligations.CommandLengthIsAFunctionOfTheOpcode
  intro w0 ws op length legalHeader badOperand
  have hop : opcode w0 = op := opcode_eq w0
  have hlegal : legalHeader ↔ headerError w0 = none := by
    rw [headerError_eq_none, hop, field, field, pow_zero, Nat.div_one]
  have hbad : badOperand ↔ BadBuildOperand w0 ws := by
    simp only [badOperand, BadBuildOperand, hop, field_31 (show 17 ≤ 32 by omega)]
  have hlength (h : headerError w0 = none) : length = commandLength (opcode w0) := by
    rw [commandLength_of_legal h, hop]
  rw [hlegal, hbad]
  refine ⟨fun h hgood hlen => ?whole, fun h hgood hlen => ?short, decodeCommand_badBuildOperand,
    decodeCommand_illegalHeader⟩
  case whole => exact hlength h ▸ decodeCommand_complete h hgood (hlength h ▸ hlen)
  case short => exact decodeCommand_short h hgood (hlength h ▸ hlen)

/-- Settles O3: each header is legal and has the opcode of its command, whose equation then gives the operation; the two
binary32 patterns are closed evaluations. -/
theorem commandWordsDecode : Obligations.CommandWordsDecode := by
  unfold Obligations.CommandWordsDecode
  have process (w : Word) : decodeCommand [0x03000000, w] = .ok (.process w.toNat, []) :=
    decodeCommand_process (by decide) (by decide) [w]
  refine ⟨decodeCommand_destroy (by decide) (by decide) [], process, process 0x00000200, fun w => ?setRt60,
    fun w => ?setMaxDelay, fun w => ?setInputPan, rfl, rfl, ?two, ?half⟩
  case setRt60 => exact decodeCommand_setRt60 (by decide) (by decide) [w]
  case setMaxDelay => exact decodeCommand_setMaxDelay (by decide) (by decide) [w]
  case setInputPan => exact decodeCommand_setInputPan (by decide) (by decide) [w]
  case two => decide +kernel
  case half => decide +kernel

end Sys2Proof
end

section
/-! `COMMIT_WRITE` and `RELEASE_READ` (spec/40_ring_delay_line.md R62, R63): which cells each makes
`unspecified`, and what the instruction answers on the ring of a line. -/

namespace Sys2Proof.Machine

variable {α : Type}

/-! ## The cells after a run of erases -/

theorem read_eraseCells_same (cells : Store α) (cell : Nat → Nat) {n k : Nat} (hk : k < n) :
    Store.read (eraseCells cells cell n) (cell k) = none := by
  rw [read_eraseCells, if_pos ⟨k, hk, rfl⟩]

theorem read_eraseCells_other (cells : Store α) {cell : Nat → Nat} {n a : Nat} (ha : ∀ k < n, a ≠ cell k) :
    Store.read (eraseCells cells cell n) a = Store.read cells a := by
  rw [read_eraseCells, if_neg]
  rintro ⟨k, hk, heq⟩
  exact ha k hk heq.symm

/-! ## The cells after each operation -/

/-- The cells of the write window from `n` on return to free space (R62). -/
theorem read_commit_uncommitted (r : Ring α) {n k : Nat} (hn : n ≤ k) (hk : k < r.wwin) :
    Store.read (r.commit n).cells (r.writeCell k) = none := by
  obtain ⟨j, rfl⟩ := Nat.exists_eq_add_of_le hn
  exact read_eraseCells_same _ (fun j => r.writeCell (n + j)) (by omega)

theorem read_commit_other (r : Ring α) {n a : Nat} (ha : ∀ k, n ≤ k → k < r.wwin → a ≠ r.writeCell k) :
    Store.read (r.commit n).cells a = Store.read r.cells a :=
  read_eraseCells_other _ fun j hj => ha (n + j) (by omega) (by omega)

/-- The released cells are free (R63). -/
theorem read_release_released (r : Ring α) {n k : Nat} (hk : k < n) :
    Store.read (r.release n).cells (r.readCell k) = none :=
  read_eraseCells_same _ _ hk

theorem read_release_other (r : Ring α) {n a : Nat} (ha : ∀ k < n, a ≠ r.readCell k) :
    Store.read (r.release n).cells a = Store.read r.cells a :=
  read_eraseCells_other _ ha

/-! ## The instructions on the ring of a line -/

theorem exec_commitWrite (i n : Nat) (s : State) : exec (.commitWrite i n) s = outcome (commitWrite i n s) := rfl

theorem exec_releaseRead (i n : Nat) (s : State) : exec (.releaseRead i n) s = outcome (releaseRead i n s) := rfl

section
variable {s : State} {i n : Nat} {r : Ring Sample}

theorem exec_commitWrite_within (h : ringAt s i = some r) (hn : n ≤ r.wwin) :
    exec (.commitWrite i n) s = .next (putRing s i (r.commit n)) :=
  outcome_eq_next.mpr (commitWrite_eq_ok.mpr ⟨r, h, hn, rfl⟩)

theorem exec_commitWrite_beyond (h : ringAt s i = some r) (hn : r.wwin < n) :
    exec (.commitWrite i n) s = .refused .commitBeyondWindow := by
  rw [exec_commitWrite, outcome_eq_refused, commitWrite, ringOf_eq_ok.mpr h, res_bind_ok, if_pos hn]

theorem exec_releaseRead_within (h : ringAt s i = some r) (hn : n ≤ r.rwin) :
    exec (.releaseRead i n) s = .next (putRing s i (r.release n)) :=
  outcome_eq_next.mpr (releaseRead_eq_ok.mpr ⟨r, h, hn, rfl⟩)

theorem exec_releaseRead_beyond (h : ringAt s i = some r) (hn : r.rwin < n) :
    exec (.releaseRead i n) s = .refused .releaseBeyondWindow := by
  rw [exec_releaseRead, outcome_eq_refused, releaseRead, ringOf_eq_ok.mpr h, res_bind_ok, if_pos hn]

end

end Sys2Proof.Machine

namespace Sys2Proof

open Sys2Proof.Machine

/-- Settles O34: the next state is the ring's commit put back on its line, and a commit makes only the window's cells from
`n` on `unspecified`. -/
theorem commitWritePublishesTheWindow : Obligations.CommitWritePublishesTheWindow := by
  unfold Obligations.CommitWritePublishesTheWindow
  intro i n s r hline hread
  have hring : ringAt s i = some r := ringAt_eq_some.mpr ⟨hline, hread⟩
  refine ⟨fun hn => ?within, exec_commitWrite_beyond hring⟩
  case within =>
    exact ⟨putRing s i (r.commit n), r.commit n, exec_commitWrite_within hring hn, rfl, Store.read_write_same _ _ _,
      rfl, rfl, rfl, rfl, rfl, rfl, fun k => read_commit_uncommitted r, fun a => read_commit_other r,
      fun j => Store.read_write_other _ _⟩

/-- Settles O35: the next state is the ring's release put back on its line, and a release makes only the first `n` cells of
the read window `unspecified`. -/
theorem releaseReadFreesTheWindow : Obligations.ReleaseReadFreesTheWindow := by
  unfold Obligations.ReleaseReadFreesTheWindow
  intro i n s r hline hread
  have hring : ringAt s i = some r := ringAt_eq_some.mpr ⟨hline, hread⟩
  refine ⟨fun hn => ?within, exec_releaseRead_beyond hring⟩
  case within =>
    exact ⟨putRing s i (r.release n), r.release n, exec_releaseRead_within hring hn, rfl, Store.read_write_same _ _ _,
      rfl, rfl, rfl, rfl, rfl, rfl, fun k => read_release_released r, fun a => read_release_other r,
      fun j => Store.read_write_other _ _⟩

end Sys2Proof
end

section
/-! `BUILD` in `UNBUILT` (spec/41_construction.md R68 to R77): the operands R70 lets through are exactly those of
`Buildable`, and what construction leaves in the registers. -/

namespace Sys2Proof.Machine

/-! ## The preconditions under `Num.f32` -/

theorem badRate_eq_false {rate : Sample} :
    badRate F32.params.num rate = false ↔ F32.isFinite rate = true ∧ F32.lt 0 rate = true := by
  rw [badRate, f32_zero, Bool.not_eq_false', Bool.and_eq_true]
  rfl

theorem badBound_eq_false {seconds : Sample} :
    badBound F32.params.num seconds = false ↔ F32.isFinite seconds = true ∧ F32.lt seconds 0 = false := by
  rw [badBound, f32_zero, Bool.or_eq_false_iff, Bool.not_eq_false']
  rfl

theorem sampleCount_eq_ok {seconds rate : Sample} {n : Nat} :
    sampleCount F32.params.num seconds rate = .ok n ↔ F32.truncToNat (F32.fmul seconds rate) = some n :=
  orStop_eq_ok

/-- On a valid topology the preconditions let through exactly the operands of `Buildable` (R70). -/
theorem checkPreconditions_eq_ok {t : Topology Sample} {lo hi : Nat} (hv : ValidTopology t.numDelays t.blockSize) :
    checkPreconditions F32.params.num t = .ok (lo, hi) ↔
      Buildable t.numDelays t.blockSize t.feedbackShiftByBlock t.minDelaySeconds t.maxDelaySeconds t.sampleRate lo hi := by
  refine ⟨fun h => ?_, checkPreconditions_ok⟩
  obtain ⟨hlo, hle, hcap, hgcd, hhalf⟩ := checkPreconditions_bounds h
  rw [checkPreconditions] at h
  split at h
  · cases h
  · next hgood =>
    simp only [Bool.or_eq_true, not_or, Bool.not_eq_true, badRate_eq_false, badBound_eq_false] at hgood
    obtain ⟨⟨⟨hfin, hpos⟩, hmin⟩, hmax⟩ := hgood
    simp only [res_bind_eq_ok, sampleCount_eq_ok] at h
    obtain ⟨lo', hminS, hi', hmaxS, -, -, h⟩ := h
    cases h
    exact ⟨hv, hfin, hpos, ⟨hmin.1, hmin.2, hminS⟩, ⟨hmax.1, hmax.2, hmaxS⟩, hlo, hle, hcap, hgcd, hhalf⟩

/-! ## The instruction -/

theorem exec_build (n bs shift : Nat) (zt : Bool) (lo hi rate : Word) (s : State) :
    exec (.build n bs shift zt lo hi rate) s =
      outcome (inUnbuilt F32.params s (buildEffect F32.params n bs shift zt lo hi rate s)) := rfl

/-- `BUILD` of a valid topology in `UNBUILT` is the shared construction on a machine without a network. -/
theorem exec_build_valid {n bs shift : Nat} {zt : Bool} {lo hi rate : Word} {s : State} (hp : s.phase = .unbuilt)
    (hv : ValidTopology n bs) :
    exec (.build n bs shift zt lo hi rate) s =
      outcome (construct F32.params ⟨n, bs, shift, zt, lo, hi, rate⟩ (dropNetwork s)) := by
  rw [exec_build, inUnbuilt_unbuilt hp, buildEffect_valid hv]

/-- Operands for which no bounds in samples make a construction are refused (R70). -/
theorem exec_build_refused {n bs shift : Nat} {zt : Bool} {lo hi rate : Word} {s : State} (hp : s.phase = .unbuilt)
    (hv : ValidTopology n bs) (hbad : ∀ minS maxS, ¬Buildable n bs shift lo hi rate minS maxS) :
    ∃ r, exec (.build n bs shift zt lo hi rate) s = .refused r ∧ r.ofOperand = true := by
  cases hc : checkPreconditions F32.params.num ⟨n, bs, shift, zt, lo, hi, rate⟩ with
  | ok bounds => exact absurd ((checkPreconditions_eq_ok hv).mp hc) (hbad bounds.1 bounds.2)
  | error e =>
    obtain ⟨r, rfl, hr⟩ := checkPreconditions_refuses hc
    exact ⟨r, by rw [exec_build_valid hp hv, construct, hc, res_bind_error, outcome_eq_refused], hr⟩

/-- Operands that R69 and R70 let through construct a network (R71 to R79). -/
theorem exec_build_constructs {n bs shift : Nat} (zt : Bool) {lo hi rate : Word} {minS maxS : Nat} {s : State}
    (hp : s.phase = .unbuilt) (hb : Buildable n bs shift lo hi rate minS maxS) :
    ∃ t, exec (.build n bs shift zt lo hi rate) s = .next t ∧
      Constructed F32.params ⟨n, bs, shift, zt, lo, hi, rate⟩ minS maxS (dropNetwork s) t ∧ NetworkInv 0 t := by
  obtain ⟨t, hrun, hcon, hnet⟩ := construct_ok (t := ⟨n, bs, shift, zt, lo, hi, rate⟩) (s := dropNetwork s) rfl hb
  exact ⟨t, by rw [exec_build_valid hp hb.1, hrun, outcome_ok], hcon, hnet⟩

/-! ## What construction leaves in the registers -/

/-- Bit 3 of `STATUS` is the copy of `HAS_ZERO_TAPS` (R18), the only bit of the sum worth 8. -/
theorem field_statusWord_zeroTaps {α : Type} (s : Generic.State α) :
    field (statusWord s) 3 3 = if s.hasZeroTaps then 1 else 0 := by
  rw [statusWord]
  cases s.phase <;> cases s.shortfall <;> cases s.hasZeroTaps <;> decide

/-- `INPUT_PAN_INIT` under `Num.f32` is the pattern of 0.5 (R6). -/
theorem inputPanInit_f32 : F32.params.num.inputPanInit = 0x3F000000 := by decide +kernel

section
variable {α : Type} {P : Params α} {t : Topology α} {lo hi : Nat} {s s' : Generic.State α}

theorem Constructed.inputAtt (h : Constructed P t lo hi s s') :
    s'.inputAtt = P.num.fsqrt (P.num.fdiv P.num.one (P.num.ofNat
      (numInputsPerChannel t.numDelays t.blockSize (t.feedbackShiftByBlock * t.blockSize) t.hasZeroTaps))) := by
  obtain ⟨delay, sign, R, rfl⟩ := h.same
  rfl

/-- Every line has the coefficient of its delay at the default decay time (R77). -/
theorem Constructed.getElem?_coef (h : Constructed P t lo hi s s') {i : Nat} (hi : i < s'.delay.length) :
    s'.coef[i]? = some (coefficient P.num s'.matrixAtt t.sampleRate (s'.delay.getD i 0) P.defaultDecaySeconds) := by
  have hd := getElem?_eq_getD hi 0
  obtain ⟨delay, sign, R, rfl⟩ := h.same
  exact (List.getElem?_map ..).trans (congrArg _ hd)

/-- Construction leaves the flags and counters, the cause, the ports and the progress alone. -/
theorem Constructed.frame (h : Constructed P t lo hi s s') :
    SameDiagnostics s s' ∧ s'.faultCause = s.faultCause ∧ SamePorts s s' ∧ s'.progress = s.progress := by
  obtain ⟨delay, sign, R, rfl⟩ := h.same
  simp [SameDiagnostics, SamePorts]

end

end Sys2Proof.Machine

namespace Sys2Proof

open Sys2Proof.Machine

/-- Settles O13: each broken precondition contradicts a part of `Buildable`, the only operands that construct. -/
theorem buildPreconditionsRefuse : Obligations.BuildPreconditionsRefuse := by
  unfold Obligations.BuildPreconditionsRefuse
  intro n bs shift zt lo hi rate s hp hv hbroken
  refine exec_build_refused hp hv ?_
  rintro minS maxS ⟨-, hfin, hpos, ⟨hloFin, hloSign, hminS⟩, ⟨hhiFin, hhiSign, hmaxS⟩, hone, hle, hcap, hgcd, hhalf⟩
  rcases hbroken with hitem1 | ⟨minS', maxS', hminS', hmaxS', hrange⟩ | hstride | ⟨hshift, hwide⟩
  · simp only [hfin, hpos, hloFin, hloSign, hhiFin, hhiSign, reduceCtorEq, or_self] at hitem1
  · cases hminS.symm.trans hminS'
    cases hmaxS.symm.trans hmaxS'
    omega
  · exact hstride hgcd
  · exact absurd (hhalf hshift) (by omega)

/-- Settles O14: `BUILD` of such operands constructs, and the registers are read off what a construction leaves. -/
theorem buildWritesTheRegisters : Obligations.BuildWritesTheRegisters := by
  unfold Obligations.BuildWritesTheRegisters
  intro n bs shift zt lo hi rate minS maxS s hp hb
  obtain ⟨t, hrun, hcon, -, ⟨hdelay, hcoef, -⟩, -⟩ := exec_build_constructs zt hp hb
  have hinputAtt := hcon.inputAtt
  have hcoefs := fun i => hcon.getElem?_coef (i := i)
  obtain ⟨hdiag, hcause, hports, hprogress⟩ := hcon.frame
  obtain ⟨delay, sign, R, rfl⟩ := hcon.same
  exact ⟨_, hrun, rfl, rfl, rfl, rfl, field_statusWord_zeroTaps _, rfl, rfl, rfl, rfl, rfl, rfl, rfl, inputPanInit_f32,
    hinputAtt, hcoef, fun i hi => hcoefs i (hdelay ▸ hi), hdiag, hcause, hports, hprogress⟩

end Sys2Proof
end

section
/-! The block mixer (spec/42_block_mixer.md): the stages of the butterfly by index bit (R82) answer the transforms of
every block size `2 ^ lg`, and the rotation (R88) moves whole blocks. -/

namespace Sys2Proof.Machine

variable {α : Type}

/-! ## The butterfly by stages -/

/-- One stage of R82 on all indices: pairs differ in the bit of `h`, the sum goes to the lower index, lower minus higher
to the higher one. -/
def butterflyStage (num : Num α) (h : Nat) (y : Nat → α) (j : Nat) : α :=
  if j / h % 2 = 0 then num.fadd (y j) (y (j + h)) else num.fsub (y (j - h)) (y j)

/-- The loop of R82: the stages `h = 1, 2, .., 2 ^ (lg - 1)`, in this order. -/
def butterflyStages (num : Num α) : Nat → (Nat → α) → Nat → α
  | 0, x => x
  | lg + 1, x => butterflyStage num (2 ^ lg) (butterflyStages num lg x)

theorem butterflyStage_lower (num : Num α) {h j : Nat} (y : Nat → α) (hj : j < h) :
    butterflyStage num h y j = num.fadd (y j) (y (h + j)) := by
  rw [butterflyStage, Nat.div_eq_of_lt hj, if_pos rfl, Nat.add_comm h]

theorem butterflyStage_upper (num : Num α) {h j : Nat} (y : Nat → α) (hj : j < h) :
    butterflyStage num h y (h + j) = num.fsub (y j) (y (h + j)) := by
  have hbit : (h + j) / h % 2 = 1 := by
    rw [Nat.add_div_left _ (by omega), Nat.div_eq_of_lt hj]
  rw [butterflyStage, if_neg (by omega), Nat.add_sub_cancel_left]

/-- The stage between the halves of a vector is the stage of R82 on its indices. -/
theorem butterfly_map_range (num : Num α) (h : Nat) (y : Nat → α) :
    butterfly num ((List.range h).map y) ((List.range h).map fun j => y (h + j)) =
      (List.range (h + h)).map (butterflyStage num h y) := by
  rw [List.range_add, List.map_append, List.map_map,
    List.map_congr_left fun j hj => butterflyStage_lower num y (List.mem_range.mp hj),
    List.map_congr_left (f := butterflyStage num h y ∘ _) fun j hj =>
      butterflyStage_upper num y (List.mem_range.mp hj)]
  simp [butterfly, List.zipWith_map, List.zipWith_self]

/-- A stage pairs within runs of `2 * h` indices, so it commutes with a shift by such runs. -/
theorem butterflyStage_shift (num : Num α) {h : Nat} (hh : 0 < h) (y : Nat → α) (c : Nat) :
    (butterflyStage num h fun j => y (c * (h * 2) + j)) = fun j => butterflyStage num h y (c * (h * 2) + j) := by
  funext j
  have hbit : (c * (h * 2) + j) / h % 2 = j / h % 2 := by
    rw [show c * (h * 2) + j = j + h * (2 * c) by ring, Nat.add_mul_div_left _ _ hh, Nat.add_mul_mod_self_left]
  rw [butterflyStage, butterflyStage, hbit]
  split
  · rw [Nat.add_assoc]
  · next hodd =>
    have hle : h ≤ j := Nat.le_of_not_lt fun hlt => hodd (by rw [Nat.div_eq_of_lt hlt])
    rw [Nat.add_sub_assoc hle]

/-- The first `lg` stages work inside each run of `2 ^ lg` indices. -/
theorem butterflyStages_shift (num : Num α) (lg : Nat) (x : Nat → α) (c : Nat) :
    (butterflyStages num lg fun j => x (c * 2 ^ lg + j)) = fun j => butterflyStages num lg x (c * 2 ^ lg + j) := by
  induction lg generalizing c with
  | zero => rfl
  | succ lg ih =>
    have hruns : c * 2 ^ (lg + 1) = c * 2 * 2 ^ lg := by ring
    rw [butterflyStages, hruns, ih (c * 2), show c * 2 * 2 ^ lg = c * (2 ^ lg * 2) by ring,
      butterflyStage_shift num (Nat.two_pow_pos lg), butterflyStages]

/-- The transform of `2 ^ lg` samples is the `lg`-stage butterfly (R82): by induction on the stages, the last of which
stands between two halves that the earlier ones do not leave. -/
theorem hadamard_eq_butterflyStages (num : Num α) (lg : Nat) (x : Nat → α) :
    hadamard num lg ((List.range (2 ^ lg)).map x) = (List.range (2 ^ lg)).map (butterflyStages num lg x) := by
  induction lg generalizing x with
  | zero => rfl
  | succ lg ih =>
    have hshift := butterflyStages_shift num lg x 1
    rw [Nat.one_mul] at hshift
    have hhalves : (List.range (2 ^ (lg + 1))).map x =
        (List.range (2 ^ lg)).map x ++ (List.range (2 ^ lg)).map fun j => x (2 ^ lg + j) := by
      rw [Nat.pow_succ, Nat.mul_two, List.range_add, List.map_append, List.map_map]
      rfl
    rw [hadamard, hhalves, List.take_left' (by simp), List.drop_left' (by simp), ih, ih, hshift,
      butterfly_map_range, Nat.pow_succ, Nat.mul_two, butterflyStages]

/-! ## The rotation -/

theorem place_lt {B N b j : Nat} (hN : N % B = 0) (hb : b < N / B) (hj : j < B) : b * B + j < N :=
  calc b * B + j < (b + 1) * B := by rw [Nat.succ_mul]; omega
    _ ≤ N / B * B := Nat.mul_le_mul_right B hb
    _ = N := Nat.div_mul_cancel (Nat.dvd_of_mod_eq_zero hN)

/-- The rotation moves whole blocks and keeps the place in the block, because `B` divides both the shift and `N`. -/
theorem rotated_eq_block {B fb N b j : Nat} (hN : N % B = 0) (hfb : fb % B = 0) (hj : j < B) :
    rotated B fb N b j = (b + fb / B) % (N / B) * B + j := by
  obtain ⟨n, rfl⟩ := Nat.dvd_of_mod_eq_zero hN
  obtain ⟨f, rfl⟩ := Nat.dvd_of_mod_eq_zero hfb
  have hB : 0 < B := by omega
  rw [rotated, Nat.mul_div_cancel_left _ hB, Nat.mul_div_cancel_left _ hB,
    show b * B + j + B * f = j + B * (b + f) by ring, Nat.mod_mul, Nat.add_mul_mod_self_left, Nat.mod_eq_of_lt hj,
    Nat.add_mul_div_left _ _ hB, Nat.div_eq_of_lt hj, Nat.zero_add]
  ring

/-- Every line is reached: from the line that R104 reads backwards through the rotation. -/
theorem rotated_surj {B N : Nat} (fb : Nat) (hB : 0 < B) (hN : 0 < N) (hdiv : N % B = 0) {d : Nat} (hd : d < N) :
    ∃ b j, b < N / B ∧ j < B ∧ rotated B fb N b j = d := by
  let s : State := { State.reset with numDelays := N, blockSize := B, fbShift := fb }
  exact ⟨sourceLine s d / B, sourceLine s d % B,
    Nat.div_lt_div_of_lt_of_dvd (Nat.dvd_of_mod_eq_zero hdiv) (sourceLine_lt s hN d), Nat.mod_lt _ hB,
    rotated_sourceLine (s := s) hN hd⟩

/-- A shift by whole turns sends every place to itself. -/
theorem rotated_whole_turn {B fb N b j : Nat} (hN : N % B = 0) (hfb : fb % N = 0) (hb : b < N / B) (hj : j < B) :
    rotated B fb N b j = b * B + j := by
  rw [rotated, Nat.add_mod, hfb, Nat.add_zero, Nat.mod_mod, Nat.mod_eq_of_lt (place_lt hN hb hj)]

end Sys2Proof.Machine

namespace Sys2Proof

open Sys2Proof.Machine

/-- Settles O45: block and place of the answer are read off its block form; one-to-one and onto are the rotation's
laws, and a whole turn moves nothing. -/
theorem rotationIsABijectionOfTheLines : Obligations.RotationIsABijectionOfTheLines := by
  unfold Obligations.RotationIsABijectionOfTheLines
  intro B fb N hB hN hdiv hfb
  refine ⟨fun b j _ hj => ?block_map, fun b j b' j' hb hj hb' hj' heq => ?injective, fun d hd => ?surjective,
    fun hturn b j hb hj => ?whole_turn⟩
  case block_map => exact ⟨rfl, rotated_eq_block hdiv hfb hj⟩
  case injective => exact rotated_inj hB hj hj' hdiv hb hb' heq
  case surjective => exact rotated_surj fb hB hN hdiv hd
  case whole_turn =>
    rw [rotated_whole_turn hdiv hturn hb hj, Nat.mul_comm, Nat.mul_add_div hB, Nat.div_eq_of_lt hj, Nat.add_zero]

/-- Settles O43: each unrolled transform is the recursive one of its block size, which is the butterfly by stages. -/
theorem butterflyStagesGiveTheTransforms : Obligations.ButterflyStagesGiveTheTransforms := by
  unfold Obligations.ButterflyStagesGiveTheTransforms
  intro α num x
  refine ⟨hadamard_eq_butterflyStages num 0 x, hadamard_eq_butterflyStages num 1 x,
    hadamard_eq_butterflyStages num 2 x, hadamard_eq_butterflyStages num 3 x, fun lg hlg => ?issued⟩
  case issued =>
    have hlen : ((List.range (2 ^ lg)).map x).length = 2 ^ lg := by simp
    obtain rfl | rfl | rfl | rfl : lg = 0 ∨ lg = 1 ∨ lg = 2 ∨ lg = 3 := by omega
    all_goals exact mixBlock_eq_hadamard (by decide) hlen

end Sys2Proof
end

section
/-! `PROCESS` split over two commands (spec/43_process.md R105): what two completed commands leave composes into what
one command of all their samples leaves, and that is all but determined by the number of samples. -/

namespace Sys2Proof.Machine

variable {α : Type} {P : Params α}

/-! ## One command -/

/-- A supplied `PROCESS` on a network at a chunk boundary is done (R89, R103, R104). -/
theorem processEffect_done {n : Nat} {s : Generic.State α} (hnet : NetworkInv 0 s) (hs : Supplied n s) :
    ∃ s', processEffect P n s = .ok s' ∧ ProcessDone P s s' n := by
  obtain ⟨hL, hR, hoL, hoR⟩ := hs
  obtain ⟨s', hrun, hd⟩ := runProcess_done (P := P) n (beginProcess n s) (processFuel (beginProcess n s)) (Nat.le_refl n)
    hnet rfl (Nat.le_refl _) hL hR hoL hoR
  have hstep : sampleStep P (beginProcess n s) = sampleStep P s :=
    sampleStep_congr P rfl rfl rfl rfl rfl rfl rfl rfl rfl
  have hrec : recurrence P (beginProcess n s) (inputRun s n) (queues s) = recurrence P s (inputRun s n) (queues s) :=
    recurrence_congr P hstep _ _
  exact ⟨s', hrun, hrec ▸ hd.same, hd.network, hrec ▸ hd.queues, hd.cursors⟩

/-! ## What a completed command leaves -/

section
variable {s t : Generic.State α} {n : Nat}

theorem ProcessDone.passed (h : ProcessDone P s t n) :
    t.inL = s.inL.drop n ∧ t.inR = s.inR.drop n ∧ t.roomL = s.roomL - n ∧ t.roomR = s.roomR - n := by
  obtain ⟨pos, chunk, R, cL, cR, aL, aR, att, y, g, rfl⟩ := h.same
  exact ⟨rfl, rfl, rfl, rfl⟩

theorem ProcessDone.sampleStep_eq (h : ProcessDone P s t n) : sampleStep P t = sampleStep P s := by
  obtain ⟨pos, chunk, R, cL, cR, aL, aR, att, y, g, rfl⟩ := h.same
  exact sampleStep_congr P rfl rfl rfl rfl rfl rfl rfl rfl rfl

theorem ProcessDone.numDelays_eq (h : ProcessDone P s t n) : t.numDelays = s.numDelays := by
  obtain ⟨pos, chunk, R, cL, cR, aL, aR, att, y, g, rfl⟩ := h.same
  rfl

/-- What the host gave for a command and the next is there for the next. -/
theorem ProcessDone.supplied_rest (h : ProcessDone P s t n) {m : Nat} (hs : Supplied (n + m) s) : Supplied m t := by
  obtain ⟨hL, hR, hoL, hoR⟩ := hs
  obtain ⟨eL, eR, eoL, eoR⟩ := h.passed
  rw [Supplied, eL, eR, eoL, eoR, List.length_drop, List.length_drop]
  omega

end

/-! ## Two commands compose -/

/-- After a command of `a` samples, the recurrence over the next `b` is the tail of the recurrence over all `a + b`. -/
theorem recurrence_add {s s1 : Generic.State α} {a b : Nat} (h : ProcessDone P s s1 a)
    (hL : a + b ≤ s.inL.length) (hR : a + b ≤ s.inR.length) :
    recurrence P s (inputRun s (a + b)) (queues s) =
      ((recurrence P s1 (inputRun s1 b) (queues s1)).1,
       (recurrence P s (inputRun s a) (queues s)).2.1 ++ (recurrence P s1 (inputRun s1 b) (queues s1)).2.1,
       (recurrence P s (inputRun s a) (queues s)).2.2 ++ (recurrence P s1 (inputRun s1 b) (queues s1)).2.2) := by
  obtain ⟨eL, eR, -⟩ := h.passed
  have hnext : inputRun s1 b = ((s.inL.drop a).take b).zip ((s.inR.drop a).take b) := by rw [inputRun, eL, eR]
  rw [inputRun_append hL hR, ← hnext, recurrence_append, ← h.queues, recurrence_congr P h.sampleStep_eq]

theorem ProcessDone.trans {s s1 s2 : Generic.State α} {a b : Nat} (h : ProcessDone P s s1 a)
    (h' : ProcessDone P s1 s2 b) (hL : a + b ≤ s.inL.length) (hR : a + b ≤ s.inR.length) :
    ProcessDone P s s2 (a + b) := by
  have hrec := recurrence_add h hL hR
  refine ⟨?same, h'.network, by rw [h'.queues, hrec], fun d hd => ?cursors⟩
  case same =>
    obtain ⟨_, _, _, _, _, _, _, _, _, _, e1⟩ := h.same
    obtain ⟨pos, chunk, R, cL, cR, aL, aR, att, y, g, e2⟩ := h'.same
    refine ⟨pos, chunk, R, cL, cR, aL, aR, att, y, g, ?_⟩
    rw [hrec, e2]
    generalize recurrence P s1 (inputRun s1 b) (Machine.queues s1) = rest
    subst e1
    simp only [List.append_assoc, List.drop_drop, Nat.sub_sub]
  case cursors =>
    obtain ⟨r, r1, hr, hr1, hcap, hrd, hwr⟩ := h.cursors d hd
    obtain ⟨q, r2, hq, hr2, hcap', hrd', hwr'⟩ := h'.cursors d (h.numDelays_eq ▸ hd)
    obtain rfl : r1 = q := Option.some.inj (hr1.symm.trans hq)
    refine ⟨r, r2, hr, hr2, hcap'.trans hcap, ?_, ?_⟩
    · rw [hrd', hcap, hrd, Nat.mod_add_mod, Nat.add_assoc]
    · rw [hwr', hcap, hwr, Nat.mod_add_mod, Nat.add_assoc]

/-! ## Two runs of the same samples agree -/

section
variable {s t u : Generic.State α} {n : Nat}

theorem queueOf_of_read {i : Nat} {r : Ring α} (h : Store.read s.rings i = some r) : queueOf s i = liveSamples r := by
  rw [queueOf, h]

theorem ProcessDone.rings_agree (h : ProcessDone P s t n) (h' : ProcessDone P s u n) {i : Nat} (hi : i < s.numDelays) :
    ∃ r r', Store.read t.rings i = some r ∧ Store.read u.rings i = some r' ∧
      liveSamples r' = liveSamples r ∧ r'.rd = r.rd ∧ r'.wr = r.wr ∧ r'.cap = r.cap := by
  obtain ⟨q, r, hq, hr, hcap, hrd, hwr⟩ := h.cursors i hi
  obtain ⟨q', r', hq', hr', hcap', hrd', hwr'⟩ := h'.cursors i hi
  obtain rfl : q = q' := Option.some.inj (hq.symm.trans hq')
  have hqueues := h'.queues.trans h.queues.symm
  have hlive : queueOf u i = queueOf t i := by
    rw [← queues_getD rfl (networkInv_file h'.network), hqueues, queues_getD rfl (networkInv_file h.network)]
  rw [queueOf_of_read hr, queueOf_of_read hr'] at hlive
  exact ⟨r, r', hr, hr', hlive, hrd'.trans hrd.symm, hwr'.trans hwr.symm, hcap'.trans hcap.symm⟩

theorem ProcessDone.streams_agree (h : ProcessDone P s t n) (h' : ProcessDone P s u n) :
    u.phase = t.phase ∧ u.outL = t.outL ∧ u.outR = t.outR ∧ u.inL = t.inL ∧ u.inR = t.inR ∧
      u.roomL = t.roomL ∧ u.roomR = t.roomR := by
  obtain ⟨_, _, _, _, _, _, _, _, _, _, rfl⟩ := h.same
  obtain ⟨_, _, _, _, _, _, _, _, _, _, rfl⟩ := h'.same
  exact ⟨rfl, rfl, rfl, rfl, rfl, rfl, rfl⟩

theorem ProcessDone.keeps_agree (h : ProcessDone P s t n) (h' : ProcessDone P s u n) : ProcessKeeps t u := by
  have hcap : ∀ i < t.numDelays, ∃ r r', Store.read t.rings i = some r ∧ Store.read u.rings i = some r' ∧
      r'.cap = r.cap := by
    intro i hi
    obtain ⟨r, r', hr, hr', -, -, -, hcap⟩ := h.rings_agree h' (h.numDelays_eq ▸ hi)
    exact ⟨r, r', hr, hr', hcap⟩
  obtain ⟨_, _, _, _, _, _, _, _, _, _, rfl⟩ := h.same
  obtain ⟨_, _, _, _, _, _, _, _, _, _, rfl⟩ := h'.same
  exact ⟨⟨rfl, rfl, rfl, rfl, rfl, rfl, rfl, rfl, rfl, rfl, rfl, rfl⟩, ⟨rfl, rfl, hcap⟩, rfl, rfl, ⟨rfl, rfl⟩,
    rfl, rfl, rfl, rfl, rfl, rfl, rfl, rfl⟩

end

end Sys2Proof.Machine

namespace Sys2Proof

open Sys2Proof.Machine

/-- Settles O26: all three commands are done, the two of `a` and `b` samples compose to one of `a + b`, and two
commands of the same samples agree. -/
theorem processIsChunkSizeIndependent : Obligations.ProcessIsChunkSizeIndependent := by
  unfold Obligations.ProcessIsChunkSizeIndependent
  intro α P a b s hnet hs
  have hsa : Supplied a s := by obtain ⟨hL, hR, hoL, hoR⟩ := hs; rw [Supplied]; omega
  obtain ⟨s1, hs1, h1⟩ := processEffect_done (P := P) hnet hsa
  obtain ⟨s2, hs2, h2⟩ := processEffect_done (P := P) h1.network (h1.supplied_rest hs)
  obtain ⟨t, ht, hwhole⟩ := processEffect_done (P := P) hnet hs
  have hparts : ProcessDone P s s2 (a + b) := h1.trans h2 hs.1 hs.2.1
  obtain ⟨hphase, hoL, hoR, hiL, hiR, hrL, hrR⟩ := hparts.streams_agree hwhole
  exact ⟨s1, s2, t, hs1, hs2, ht, hphase, hoL, hoR, hiL, hiR, hrL, hrR, hparts.keeps_agree hwhole,
    fun i hi => hparts.rings_agree hwhole hi⟩

end Sys2Proof
end

section
/-! The setters `SET_RT60` and `SET_INPUT_PAN` (spec/44_setters.md R109, R111) under `Num.f32`: what each answers in
`IDLE`, by its test of the operand, and the phase gate they share in `UNBUILT`. -/

namespace Sys2Proof.Machine

/-! ## The gate -/

/-- A command that is legal in `IDLE` only is an illegal command in `UNBUILT` (R56 item 4). -/
theorem outcome_inIdle_unbuilt {P : Params Sample} {s : State} {e : Res State} (h : s.phase = .unbuilt) :
    ∃ t, outcome (inIdle P s e) = .next t ∧ t.phase = .fault ∧ t.faultCause = 0b10000 :=
  ⟨raiseIllegal P s, by rw [inIdle_unbuilt h, outcome_ok], raiseIllegal_phase P s, raiseIllegal_faultCause P s⟩

/-! ## The instructions -/

theorem exec_setRt60 (seconds : Word) (s : State) :
    exec (.setRt60 seconds) s = outcome (inIdle F32.params s (setRt60Effect F32.params seconds s)) := rfl

theorem exec_setInputPan (pan : Word) (s : State) :
    exec (.setInputPan pan) s = outcome (inIdle F32.params s (setInputPanEffect F32.params pan s)) := rfl

theorem exec_setRt60_idle (seconds : Word) {s : State} (h : s.phase = .idle) :
    exec (.setRt60 seconds) s =
      if F32.isFinite seconds && F32.lt 0 seconds then .next (writeCoefs F32.params seconds s)
      else .refused .decayTimeNotPositive := by
  rw [exec_setRt60, inIdle_idle h, setRt60Effect, sampleOperand_f32, res_bind_ok, f32_zero]
  exact apply_ite outcome _ _ _

theorem exec_setInputPan_idle (pan : Word) {s : State} (h : s.phase = .idle) :
    exec (.setInputPan pan) s =
      if F32.le 0 pan && F32.le pan (F32.ofNat 1) then .next { s with inputPan := pan }
      else .refused .panOutOfRange := by
  rw [exec_setInputPan, inIdle_idle h, setInputPanEffect, sampleOperand_f32, res_bind_ok, f32_zero]
  exact apply_ite outcome _ _ _

/-- No value compares as at most a NaN. -/
theorem F32.le_eq_false_of_isNaN_right (a : Sample) {b : Sample} (h : F32.isNaN b = true) : F32.le a b = false := by
  simp [F32.le, h]

end Sys2Proof.Machine

namespace Sys2Proof

open Sys2Proof.Machine

/-- Settles O20: in `IDLE` the test of the time decides between the coefficients of R108 and the refusal; in `UNBUILT`
the gate answers before the operand is looked at. -/
theorem setRt60WritesTheCoefficients : Obligations.SetRt60WritesTheCoefficients := by
  unfold Obligations.SetRt60WritesTheCoefficients
  intro seconds s
  refine ⟨fun hidle hfin hpos => ?written, fun hidle hbad => ?refused, fun hunbuilt => outcome_inIdle_unbuilt hunbuilt⟩
  case written =>
    rw [exec_setRt60_idle seconds hidle, hfin, hpos]
    rfl
  case refused =>
    rw [exec_setRt60_idle seconds hidle, Bool.and_eq_false_iff.mpr hbad]
    rfl

/-- Settles O23: in `IDLE` the two comparisons decide between the write and the refusal, and a NaN fails the first; in
`UNBUILT` the gate answers before the operand is looked at. -/
theorem setInputPanWritesThePan : Obligations.SetInputPanWritesThePan := by
  unfold Obligations.SetInputPanWritesThePan
  intro pan s
  refine ⟨fun hidle hlow hhigh => ?written, fun hidle hbad => ?refused, F32.le_eq_false_of_isNaN_right 0,
    fun hunbuilt => outcome_inIdle_unbuilt hunbuilt⟩
  case written =>
    rw [exec_setInputPan_idle pan hidle, hlow, hhigh]
    rfl
  case refused =>
    rw [exec_setInputPan_idle pan hidle, Bool.and_eq_false_iff.mpr hbad]
    rfl

end Sys2Proof
end

section
/-! `FAULT` (spec/60_exceptions.md R119 to R121): what a step looks at first, and what an operation can do in `FAULT`.
The operations of the internal interfaces are served there too (log entry 13). They change rings, the grant and the mixer
vector, never the phase or the command in progress; the host commands do nothing at all. -/

namespace Sys2Proof.Machine

variable {α : Type}

/-- The phase and the command in progress, which decide what the sequencer looks at (R10, R16). -/
abbrev SameControl (s t : Generic.State α) : Prop :=
  t.phase = s.phase ∧ t.progress = s.progress

/-! ## The host commands -/

/-- The gate of the commands that are legal in `IDLE` only takes nothing in `FAULT` (R11). -/
theorem inIdle_fault {P : Params α} {s : Generic.State α} {e : Res (Generic.State α)} (h : s.phase = .fault) :
    inIdle P s e = .ok s := by rw [inIdle, h]

/-- The gate of `BUILD` takes nothing in `FAULT` (R11). -/
theorem inUnbuilt_fault {P : Params α} {s : Generic.State α} {e : Res (Generic.State α)} (h : s.phase = .fault) :
    inUnbuilt P s e = .ok s := by rw [inUnbuilt, h]

theorem sameControl_of_ok_self {s t : Generic.State α} {x : Res (Generic.State α)} (hx : x = .ok s)
    (ht : outcome x = .next t) : SameControl s t := by
  rw [hx] at ht
  cases ht
  exact ⟨rfl, rfl⟩

/-! ## The operations of the internal interfaces -/

theorem outcome_map_eq_next {β σ : Type} {x : Res β} {f : β → σ} {t : σ} :
    outcome (x.map f) = .next t ↔ ∃ b, x = .ok b ∧ f b = t := by
  cases x with
  | ok b => simp
  | error e => simp [outcome_eq_next]

/-- A transform leaves everything but the mixer's vector (R27, R82). -/
theorem outcome_setMixed_sameControl {s t : Generic.State α} {x : Res (List α)}
    (ht : outcome (x.map (setMixed s)) = .next t) : SameControl s t := by
  obtain ⟨y, -, rfl⟩ := outcome_map_eq_next.mp ht
  exact ⟨rfl, rfl⟩

/-- No operation leaves `FAULT` or begins a command there: the host commands stop at their gate, and the operations of
the internal interfaces change neither the phase nor the command in progress. -/
theorem exec_fault_sameControl {i : Instr} {s t : State} (hs : s.phase = .fault) (ht : exec i s = .next t) :
    SameControl s t := by
  cases i with
  | build n bs shift zt lo hi rate => exact sameControl_of_ok_self (inUnbuilt_fault hs) ht
  | destroy => exact sameControl_of_ok_self (inIdle_fault hs) ht
  | process numSamples => exact sameControl_of_ok_self (inIdle_fault hs) ht
  | setRt60 seconds => exact sameControl_of_ok_self (inIdle_fault hs) ht
  | setMaxDelay seconds => exact sameControl_of_ok_self (inIdle_fault hs) ht
  | setInputPan pan => exact sameControl_of_ok_self (inIdle_fault hs) ht
  | peekReadable line n =>
    obtain ⟨⟨g, u⟩, hu, rfl⟩ := outcome_map_eq_next.mp ht
    obtain ⟨r, -, -, -, rfl⟩ := peekReadable_eq_ok.mp hu
    exact ⟨rfl, rfl⟩
  | peekWritable line n =>
    obtain ⟨⟨g, u⟩, hu, rfl⟩ := outcome_map_eq_next.mp ht
    obtain ⟨r, -, -, -, rfl⟩ := peekWritable_eq_ok.mp hu
    exact ⟨rfl, rfl⟩
  | commitWrite line n =>
    obtain ⟨r, -, -, rfl⟩ := commitWrite_eq_ok.mp (outcome_eq_next.mp ht)
    exact ⟨rfl, rfl⟩
  | releaseRead line n =>
    obtain ⟨r, -, -, rfl⟩ := releaseRead_eq_ok.mp (outcome_eq_next.mp ht)
    exact ⟨rfl, rfl⟩
  | ringInit line n m =>
    obtain ⟨-, -, rfl⟩ := ringInit_eq_ok.mp (outcome_eq_next.mp ht)
    exact ⟨rfl, rfl⟩
  | had1 => exact outcome_setMixed_sameControl ht
  | had2 => exact outcome_setMixed_sameControl ht
  | had4 => exact outcome_setMixed_sameControl ht
  | had8 => exact outcome_setMixed_sameControl ht

/-! ## What a step looks at, in order (R119) -/

/-- `RESET` comes before everything else (R119 item 5). -/
theorem step_reset {s : State} (h : s.resetPin = true) : step s = .next (resetEffect F32.params s) := by
  rw [step, nextMove, if_pos h]

/-- A request is served in any phase: its operation on the state without the request, or no next state for a reserved
ring code. -/
theorem step_request_eq_next {s t : State} {r : Request} (hpin : s.resetPin = false) (hr : s.request = some r) :
    step s = .next t ↔ ∃ i, decodeRequest r = .ok i ∧ exec i { s with request := none } = .next t := by
  have hmove : nextMove F32.params s = nextRequest r s := by simp [nextMove, hpin, hr]
  rw [step, hmove, nextRequest]
  cases decodeRequest r with
  | ok i => simp
  | error e => simp

/-- With no request and no command in progress, a port that is not ready leaves nothing to do (R11; log entry 12). -/
theorem step_notReady {s : State} (hpin : s.resetPin = false) (hr : s.request = none) (hrest : s.progress = .rest)
    (hport : s.phase.ready = false) : step s = .next s := by
  have hmove : nextMove F32.params s = .goto s := by simp [nextMove, hpin, hr, hrest, hport]
  rw [step, hmove]

/-- Without `RESET` a step in `FAULT` serves a request or does nothing. -/
theorem step_fault_sameControl {s t : State} (hs : s.phase = .fault) (hrest : s.progress = .rest)
    (hpin : s.resetPin = false) (ht : step s = .next t) : SameControl s t := by
  cases hr : s.request with
  | some r =>
    obtain ⟨i, -, hi⟩ := (step_request_eq_next hpin hr).mp ht
    exact exec_fault_sameControl (s := { s with request := none }) hs hi
  | none =>
    rw [step_notReady hpin hr hrest (by rw [hs]; rfl)] at ht
    cases ht
    exact ⟨rfl, rfl⟩

end Sys2Proof.Machine

namespace Sys2Proof

open Sys2Proof.Machine

/-- Settles O11: with `RESET` the step is the reset; without it the phase and the command in progress stand. -/
theorem onlyResetLeavesFault : Obligations.OnlyResetLeavesFault := by
  unfold Obligations.OnlyResetLeavesFault
  intro s t hfault hrest ht
  refine ⟨fun hpin => ?stays, fun hpin => ?reset⟩
  case stays =>
    obtain ⟨hphase, hprogress⟩ := step_fault_sameControl hfault hrest hpin ht
    exact ⟨hphase.trans hfault, hprogress.trans hrest⟩
  case reset =>
    rw [step_reset hpin] at ht
    cases ht
    rfl

end Sys2Proof
end

section
/-! Decoder and encoder are inverse to each other (spec/30_encoding.md R47 to R55): what the words of an encoding decode
to, and which words are an encoding. -/

namespace Sys2Proof

/-! ## The encoder's words decode -/

theorem headerError_header_build {n bs : Nat} (hn : n < 2 ^ 16) (hbs : bs < 2 ^ 4) :
    headerError (header 1 (bs * 2 ^ 16 + n)) = none :=
  headerError_eq_none.mpr (.inl ⟨opcode_header (by omega) (by omega), (field_header_build hn hbs).1⟩)

/-- Headers whose bits below the opcode are 0, the ones of formats `E`, `N` and `F` (R47). -/
theorem headerError_header_zero {op : Nat} (hlo : 2 ≤ op) (hhi : op ≤ 6) : headerError (header op 0) = none := by
  have hop : opcode (header op 0) = op := opcode_header (by omega) (by omega)
  exact headerError_eq_none.mpr (.inr ⟨by omega, by omega, field_header_low (by omega) (by omega)⟩)

theorem decodeBuild_of_fields {w0 w1 : Word} (h : field w1 31 17 = 0) (w2 w3 w4 : Word) (rest : List Word) :
    decodeBuild w0 (w1 :: w2 :: w3 :: w4 :: rest) =
      .ok (.build (field w0 15 0) (field w0 19 16) (field w1 15 0) (decide (field w1 16 16 = 1)) w2 w3 w4, rest) :=
  if_pos h

/-- A host command decodes from its words, and what follows them is left (R57). -/
theorem decodeCommand_encode_append {i : Instr} (hi : i.wellFormed = true) {words : List Word}
    (hwords : encode i = .command words) (rest : List Word) : decodeCommand (words ++ rest) = .ok (i, rest) := by
  cases i with
  | build n bs shift zt minSeconds maxSeconds rate =>
    obtain ⟨hn, hbs, hshift⟩ := wellFormed_build.mp hi
    obtain ⟨-, hfieldBs, hfieldN⟩ := field_header_build hn hbs
    obtain ⟨hreserved, hfieldZt, hfieldShift⟩ := field_operand_build hshift zt
    cases hwords
    refine (decodeCommand_build (headerError_header_build hn hbs) (opcode_header (by omega) (by omega)) _).trans ?_
    refine (decodeBuild_of_fields hreserved minSeconds maxSeconds rate rest).trans ?_
    rw [hfieldBs, hfieldN, hfieldZt, hfieldShift]
    cases zt <;> rfl
  | destroy =>
    cases hwords
    exact decodeCommand_destroy (headerError_header_zero (by omega) (by omega)) (opcode_header (by omega) (by omega)) rest
  | process numSamples =>
    cases hwords
    refine (decodeCommand_process (headerError_header_zero (by omega) (by omega)) (opcode_header (by omega) (by omega))
      (BitVec.ofNat 32 numSamples :: rest)).trans ?_
    rw [decodeOneOperand, BitVec.toNat_ofNat, Nat.mod_eq_of_lt (wellFormed_process.mp hi)]
  | setRt60 seconds =>
    cases hwords
    exact decodeCommand_setRt60 (headerError_header_zero (by omega) (by omega)) (opcode_header (by omega) (by omega)) _
  | setMaxDelay seconds =>
    cases hwords
    exact decodeCommand_setMaxDelay (headerError_header_zero (by omega) (by omega)) (opcode_header (by omega) (by omega)) _
  | setInputPan pan =>
    cases hwords
    exact decodeCommand_setInputPan (headerError_header_zero (by omega) (by omega)) (opcode_header (by omega) (by omega)) _
  | peekReadable | peekWritable | commitWrite | releaseRead | ringInit | had1 | had2 | had4 | had8 => cases hwords

/-- The operation of a ring request by its code (R54). -/
theorem decodeRequest_ringPattern {op n : Nat} (hop : op < 2 ^ 3) (hn : n < 2 ^ 32) (line m : Nat) :
    decodeRequest (.ring (ringPattern op n) line m) =
      if op = 0 then .ok (.peekReadable line n)
      else if op = 1 then .ok (.peekWritable line n)
      else if op = 2 then .ok (.commitWrite line n)
      else if op = 3 then .ok (.releaseRead line n)
      else if op = 4 then .ok (.ringInit line n m)
      else .error .reservedRingOp := by
  obtain ⟨hcode, hcount⟩ := ringPattern_parts hop hn
  simp only [decodeRequest, hcode, hcount]

/-- An operation of the internal interfaces decodes from its request. -/
theorem decodeRequest_encode {i : Instr} (hi : i.wellFormed = true) {r : Request} (hr : encode i = .request r) :
    decodeRequest r = .ok i := by
  cases i with
  | build | destroy | process | setRt60 | setMaxDelay | setInputPan => cases hr
  | peekReadable line n => cases hr; exact decodeRequest_ringPattern (by omega) (wellFormed_peekReadable.mp hi).2 line 0
  | peekWritable line n => cases hr; exact decodeRequest_ringPattern (by omega) (wellFormed_peekWritable.mp hi).2 line 0
  | commitWrite line n => cases hr; exact decodeRequest_ringPattern (by omega) (wellFormed_commitWrite.mp hi).2 line 0
  | releaseRead line n => cases hr; exact decodeRequest_ringPattern (by omega) (wellFormed_releaseRead.mp hi).2 line 0
  | ringInit line n m => cases hr; exact decodeRequest_ringPattern (by omega) (wellFormed_ringInit.mp hi).2.1 line m
  | had1 | had2 | had4 | had8 => cases hr; rfl

/-! ## What decodes is an encoding -/

/-- A word of the `BUILD` format is written from its fields (R47). -/
theorem header_build_fields {w0 : Word} (hop : opcode w0 = 1) (h : field w0 23 20 = 0) :
    header 1 (field w0 19 16 * 2 ^ 16 + field w0 15 0) = w0 := by
  have hlt := w0.isLt
  simp only [opcode, field] at hop h ⊢
  refine BitVec.eq_of_toNat_eq ?_
  rw [header_toNat (by omega) (by omega)]
  omega

theorem header_zero_fields {w0 : Word} (h : field w0 23 0 = 0) : header (opcode w0) 0 = w0 := by
  have hlt := w0.isLt
  simp only [opcode, field] at h ⊢
  refine BitVec.eq_of_toNat_eq ?_
  rw [header_toNat (by omega) (by omega)]
  omega

theorem operand_build_fields {w1 : Word} (h : field w1 31 17 = 0) :
    BitVec.ofNat 32 ((if decide (field w1 16 16 = 1) then 1 else 0) * 2 ^ 16 + field w1 15 0) = w1 := by
  have hlt := w1.isLt
  have hbit : (if decide (field w1 16 16 = 1) then 1 else 0) = field w1 16 16 := by
    have : field w1 16 16 < 2 := Nat.mod_lt _ (by omega)
    by_cases hone : field w1 16 16 = 1
    · rw [decide_eq_true hone, hone, if_pos rfl]
    · rw [decide_eq_false hone, if_neg (by decide)]
      omega
  refine BitVec.eq_of_toNat_eq ?_
  rw [hbit, BitVec.toNat_ofNat]
  simp only [field] at h ⊢
  omega

theorem field_lt (w : Word) (hi lo : Nat) : field w hi lo < 2 ^ (hi + 1 - lo) := Nat.mod_lt _ (Nat.two_pow_pos _)

theorem decodeBuild_eq_ok {w0 : Word} {ws rest : List Word} {i : Instr} (h : decodeBuild w0 ws = .ok (i, rest)) :
    ∃ w1 w2 w3 w4, ws = w1 :: w2 :: w3 :: w4 :: rest ∧ field w1 31 17 = 0 ∧
      i = .build (field w0 15 0) (field w0 19 16) (field w1 15 0) (decide (field w1 16 16 = 1)) w2 w3 w4 := by
  unfold decodeBuild at h
  split at h
  · cases h
  · split at h
    · next hw1 =>
      split at h
      · cases h; exact ⟨_, _, _, _, rfl, hw1, rfl⟩
      · cases h
    · cases h

theorem decodeOneOperand_eq_ok {make : Word → Instr} {ws rest : List Word} {i : Instr}
    (h : decodeOneOperand make ws = .ok (i, rest)) : ∃ w, ws = w :: rest ∧ i = make w := by
  unfold decodeOneOperand at h
  split at h
  · cases h; exact ⟨_, rfl, rfl⟩
  · cases h

/-- The commands of format `N` and `F` are their header and their operand word. -/
theorem encode_of_decodeOneOperand {make : Word → Instr} {w0 : Word} {ws rest : List Word} {i : Instr}
    (h : decodeOneOperand make ws = .ok (i, rest)) (hmake : ∀ w, (make w).wellFormed = true)
    (hencode : ∀ w, encode (make w) = .command [w0, w]) :
    i.wellFormed = true ∧ ∃ taken, w0 :: ws = taken ++ rest ∧ encode i = .command taken := by
  obtain ⟨w, rfl, rfl⟩ := decodeOneOperand_eq_ok h
  exact ⟨hmake w, [w0, w], rfl, hencode w⟩

theorem headerError_eq_none_of_ok {w0 : Word} {ws : List Word} {x : Instr × List Word}
    (h : decodeCommand (w0 :: ws) = .ok x) : headerError w0 = none := by
  by_contra hne
  obtain ⟨e, he, -⟩ := decodeCommand_illegalHeader (ws := ws) hne
  cases h.symm.trans he

/-- The words the command decoder took are the encoding of what it gives. -/
theorem encode_of_decodeCommand {words rest : List Word} {i : Instr} (h : decodeCommand words = .ok (i, rest)) :
    i.wellFormed = true ∧ ∃ taken, words = taken ++ rest ∧ encode i = .command taken := by
  match words with
  | [] => cases h
  | w0 :: ws =>
    have hlegal := headerError_eq_none_of_ok h
    obtain ⟨hop, hreserved⟩ | ⟨hlo, hhi, hzero⟩ := headerError_eq_none.mp hlegal
    · rw [decodeCommand_build hlegal hop] at h
      obtain ⟨w1, w2, w3, w4, rfl, hw1, rfl⟩ := decodeBuild_eq_ok h
      refine ⟨wellFormed_build.mpr ⟨field_lt w0 15 0, field_lt w0 19 16, field_lt w1 15 0⟩, [w0, w1, w2, w3, w4], rfl, ?_⟩
      rw [encode, header_build_fields hop hreserved, operand_build_fields hw1]
    · have hheader := header_zero_fields hzero
      obtain hop | hop | hop | hop | hop : opcode w0 = 2 ∨ opcode w0 = 3 ∨ opcode w0 = 4 ∨ opcode w0 = 5 ∨
        opcode w0 = 6 := by omega
      all_goals rw [hop] at hheader
      · rw [decodeCommand_destroy hlegal hop] at h
        cases h
        exact ⟨rfl, [w0], rfl, by rw [encode, hheader]⟩
      · rw [decodeCommand_process hlegal hop] at h
        exact encode_of_decodeOneOperand h (fun w => wellFormed_process.mpr w.isLt)
          fun w => by rw [encode, hheader, BitVec.ofNat_toNat, BitVec.setWidth_eq]
      · rw [decodeCommand_setRt60 hlegal hop] at h
        exact encode_of_decodeOneOperand h (fun _ => rfl) fun w => by rw [encode, hheader]
      · rw [decodeCommand_setMaxDelay hlegal hop] at h
        exact encode_of_decodeOneOperand h (fun _ => rfl) fun w => by rw [encode, hheader]
      · rw [decodeCommand_setInputPan hlegal hop] at h
        exact encode_of_decodeOneOperand h (fun _ => rfl) fun w => by rw [encode, hheader]

theorem ringPattern_of_code {pattern : BitVec 35} {op : Nat} (h : pattern.toNat / 2 ^ 32 = op) :
    ringPattern op (pattern.toNat % 2 ^ 32) = pattern := by
  rw [← h, ringPattern, Nat.div_add_mod', BitVec.ofNat_toNat, BitVec.setWidth_eq]

/-- A ring request with side operands of their widths that decodes is the encoding of its operation; `m` counts for
`RING_INIT` only (R54). -/
theorem encode_of_decodeRequest_ring {pattern : BitVec 35} {line m : Nat} {i : Instr} (hline : line < 2 ^ 16)
    (hm : m < 2 ^ 32) (h : decodeRequest (.ring pattern line m) = .ok i) :
    i.wellFormed = true ∧ ∃ m', encode i = .request (.ring pattern line m') ∧
      (pattern.toNat / 2 ^ 32 = 4 → m' = m) := by
  have hn : pattern.toNat % 2 ^ 32 < 2 ^ 32 := Nat.mod_lt _ (by omega)
  simp only [decodeRequest] at h
  split_ifs at h with h0 h1 h2 h3 h4
  · cases h
    exact ⟨wellFormed_peekReadable.mpr ⟨hline, hn⟩, 0, by rw [encode, ringPattern_of_code h0], by omega⟩
  · cases h
    exact ⟨wellFormed_peekWritable.mpr ⟨hline, hn⟩, 0, by rw [encode, ringPattern_of_code h1], by omega⟩
  · cases h
    exact ⟨wellFormed_commitWrite.mpr ⟨hline, hn⟩, 0, by rw [encode, ringPattern_of_code h2], by omega⟩
  · cases h
    exact ⟨wellFormed_releaseRead.mpr ⟨hline, hn⟩, 0, by rw [encode, ringPattern_of_code h3], by omega⟩
  · cases h
    exact ⟨wellFormed_ringInit.mpr ⟨hline, hn, hm⟩, m, by rw [encode, ringPattern_of_code h4], fun _ => rfl⟩

open Sys2Proof.Machine

/-- Settles O1: the words of a host command and the request of an internal operation each decode to it. -/
theorem decodeOfEncodeIsIdentity : Obligations.DecodeOfEncodeIsIdentity := by
  unfold Obligations.DecodeOfEncodeIsIdentity
  intro i hi
  refine ⟨?alone, fun words rest hwords => decodeCommand_encode_append hi hwords rest⟩
  cases hencode : encode i with
  | command words => simpa [decode] using decodeCommand_encode_append hi hencode []
  | request r => rw [decode, decodeRequest_encode hi hencode]; rfl

/-- Settles O2: the decoder's word formats are written back from their fields, the ring pattern from its two parts. -/
theorem encodeOfDecodeIsIdentity : Obligations.EncodeOfDecodeIsIdentity := by
  unfold Obligations.EncodeOfDecodeIsIdentity
  refine ⟨fun words i rest => encode_of_decodeCommand,
    fun pattern line m i hline hm => encode_of_decodeRequest_ring hline hm, fun lg i => ?mixer⟩
  revert i
  match lg with
  | 0 | 1 | 2 | 3 => rintro i h; cases h; rfl

/-- Settles O4: the worked `BUILD` has a legal header and a good operand word, and the requests are closed evaluations. -/
theorem specPatternsDecode : Obligations.SpecPatternsDecode := by
  unfold Obligations.SpecPatternsDecode
  exact ⟨by decide, by decide, by decide, by decide, by decide, by decide, rfl, rfl, rfl, rfl⟩

end Sys2Proof
end

section
/-! The step (spec/10_state.md R11, R16, spec/30_encoding.md R56, R57): one equation for each thing the sequencer finds at
its ports, and the inversion that says a step is one of these. -/

namespace Sys2Proof.Machine

/-! ## Headers by phase -/

theorem headerIllegal_eq_false {p : Phase} {w0 : Word} :
    headerIllegal p w0 = false ↔ headerError w0 = none ∧ phaseAllows p (opcode w0) = true := by
  simp [headerIllegal]

theorem phaseAllows_iff {p : Phase} {op : Nat} :
    phaseAllows p op = true ↔ (p = .unbuilt ∧ op = 1) ∨ (p = .idle ∧ op ≠ 1) := by
  cases p <;> simp [phaseAllows]

theorem ready_iff {p : Phase} : p.ready = true ↔ p = .unbuilt ∨ p = .idle := by
  cases p <;> simp [Phase.ready]

/-- The words at a ready port are illegal once `n` of them have been taken (R56): the header by itself or in this phase,
or a `BUILD` operand word. -/
def IllegalAt (p : Phase) (words : List Word) (n : Nat) : Prop :=
  ∃ w0 ws, words = w0 :: ws ∧
    ((headerIllegal p w0 = true ∧ n = 1) ∨
     (headerIllegal p w0 = false ∧ ∃ e, decodeCommand words = .error e ∧ e ≠ .truncated ∧ n = e.wordsTaken))

/-- The words at a ready port begin with the command `i`, which the phase allows, and `rest` follows it. -/
def CommandAt (p : Phase) (words : List Word) (i : Instr) (rest : List Word) : Prop :=
  ∃ w0 ws, words = w0 :: ws ∧ headerIllegal p w0 = false ∧ decodeCommand words = .ok (i, rest)

/-- The words at a ready port begin a command that the phase allows and are too few for it (R57). -/
def ShortAt (p : Phase) (words : List Word) : Prop :=
  ∃ w0 ws, words = w0 :: ws ∧ headerIllegal p w0 = false ∧ decodeCommand words = .error .truncated

theorem port_cases (p : Phase) (words : List Word) :
    words = [] ∨ (∃ n, IllegalAt p words n) ∨ (∃ i rest, CommandAt p words i rest) ∨ ShortAt p words := by
  match words with
  | [] => exact .inl rfl
  | w0 :: ws =>
    cases hill : headerIllegal p w0 with
    | true => exact .inr (.inl ⟨1, w0, ws, rfl, .inl ⟨hill, rfl⟩⟩)
    | false =>
      cases hdec : decodeCommand (w0 :: ws) with
      | ok x => exact .inr (.inr (.inl ⟨x.1, x.2, w0, ws, rfl, hill, hdec⟩))
      | error e =>
        by_cases he : e = .truncated
        · exact .inr (.inr (.inr ⟨w0, ws, rfl, hill, he ▸ hdec⟩))
        · exact .inr (.inl ⟨_, w0, ws, rfl, .inr ⟨hill, e, hdec, he, rfl⟩⟩)

/-! ## The step at a ready port -/

section
variable {s : State} (hrest : AtRest s) (hready : s.phase.ready = true)
include hrest hready

theorem nextMove_ready : nextMove F32.params s = nextCommand F32.params s := by
  obtain ⟨hpin, hreq, hprog⟩ := hrest
  simp [nextMove, hpin, hreq, hprog, hready]

theorem step_illegal {n : Nat} (h : IllegalAt s.phase s.cmd n) :
    step s = .next (raiseIllegal F32.params (takeWords n s)) := by
  obtain ⟨w0, ws, hcmd, ⟨hill, rfl⟩ | ⟨hill, e, hdec, he, rfl⟩⟩ := h
  · rw [step, nextMove_ready hrest hready, nextCommand, hcmd]
    simp only [hill, if_true]
  · rw [hcmd] at hdec
    rw [step, nextMove_ready hrest hready, nextCommand, hcmd]
    cases e with
    | truncated => exact absurd rfl he
    | _ => simp only [hill, hdec, Bool.false_eq_true, if_false]

theorem step_command {i : Instr} {rest : List Word} (h : CommandAt s.phase s.cmd i rest) :
    step s = exec i { s with cmd := rest } := by
  obtain ⟨w0, ws, hcmd, hill, hdec⟩ := h
  rw [hcmd] at hdec
  rw [step, nextMove_ready hrest hready, nextCommand, hcmd]
  simp only [hill, hdec, Bool.false_eq_true, if_false]

theorem step_awaits (h : ShortAt s.phase s.cmd) : step s = .next (awaitWords s) := by
  obtain ⟨w0, ws, hcmd, hill, hdec⟩ := h
  rw [hcmd] at hdec
  rw [step, nextMove_ready hrest hready, nextCommand, hcmd]
  simp only [hill, hdec, Bool.false_eq_true, if_false]

theorem step_noWords (h : s.cmd = []) : step s = .next s := by
  rw [step, nextMove_ready hrest hready, nextCommand, h]

end

/-! ## The step with a command in progress -/

theorem untake_receiving {s : State} {p : Phase} {taken : List Word} (h : s.progress = .receiving p taken) :
    untake s = { s with phase := p, cmd := taken ++ s.cmd, progress := .rest } := by
  rw [untake, h]

section
variable {s : State} (hpin : s.resetPin = false) (hreq : s.request = none)
include hpin hreq

theorem step_resumes (h : s.progress = .loopHead ∨ s.progress = .outputWrite) :
    step s = outcome (continueProcess F32.params s) := by
  have hmove : nextMove F32.params s = .resume s := by
    obtain h | h := h <;> simp [nextMove, hpin, hreq, h]
  rw [step, hmove]

/-- Words that came late are taken as if they had come together (R57; log entry 11). -/
theorem step_receiving {p : Phase} {taken : List Word} (h : s.progress = .receiving p taken) (hp : p.ready = true) :
    step s = step { s with phase := p, cmd := taken ++ s.cmd, progress := .rest } := by
  have hmove : nextMove F32.params s = nextCommand F32.params (untake s) := by simp [nextMove, hpin, hreq, h]
  rw [step, step, hmove, untake_receiving h,
    nextMove_ready (s := { s with phase := p, cmd := taken ++ s.cmd, progress := .rest }) ⟨hpin, hreq, rfl⟩ hp]

end

end Sys2Proof.Machine

namespace Sys2Proof

open Sys2Proof.Machine

/-! ## The obligations -/

/-- Settles O6: each of the six cases is an illegal header or an illegal operand word, for which the step is the fault
entry on the state without the words taken; the entry's free values depend on the free count only. -/
theorem illegalCommandsFault : Obligations.IllegalCommandsFault := by
  unfold Obligations.IllegalCommandsFault
  intro s w0 rest left hs hphase hcmd hcases
  have hready := ready_iff.mpr hphase
  have header (hill : headerIllegal s.phase w0 = true) : IllegalAt s.phase s.cmd 1 :=
    ⟨w0, rest, hcmd, .inl ⟨hill, rfl⟩⟩
  have illegal_of (h : ¬(headerError w0 = none ∧ phaseAllows s.phase (opcode w0) = true)) :
      headerIllegal s.phase w0 = true := by
    rw [← headerIllegal_eq_false] at h
    simpa using h
  obtain ⟨n, hill, hleft⟩ : ∃ n, IllegalAt s.phase s.cmd n ∧ s.cmd.drop n = left := by
    simp only [← opcode_eq, headerError_eq_none, phaseAllows_iff] at hcases illegal_of
    rcases hcases with ⟨hop, rfl⟩ | ⟨hop, hfield, rfl⟩ | ⟨hlo, hhi, hfield, rfl⟩ | ⟨hp, hop, rfl⟩ | ⟨hp, hop, rfl⟩ |
      ⟨hp, hop, hfield, w1, rfl, hw1⟩
    · exact ⟨1, header (illegal_of (by omega)), by rw [hcmd]; rfl⟩
    · exact ⟨1, header (illegal_of (by simp only [field]; omega)), by rw [hcmd]; rfl⟩
    · exact ⟨1, header (illegal_of (by simp only [field]; omega)), by rw [hcmd]; rfl⟩
    · exact ⟨1, header (illegal_of (by simp [hp, hop])), by rw [hcmd]; rfl⟩
    · exact ⟨1, header (illegal_of (by simp [hp, hop])), by rw [hcmd]; rfl⟩
    · have hlegal : headerError w0 = none := headerError_eq_none.mpr (.inl ⟨hop, hfield⟩)
      have hbad : BadBuildOperand w0 (w1 :: left) := ⟨hop, w1, left, rfl, by rwa [field_31 (by omega)]⟩
      exact ⟨2, ⟨w0, w1 :: left, hcmd, .inr ⟨headerIllegal_eq_false.mpr ⟨hlegal, phaseAllows_iff.mpr (.inl ⟨hp, hop⟩)⟩,
        .reservedBuildField, hcmd ▸ decodeCommand_badBuildOperand hlegal hbad, by decide, rfl⟩⟩, by rw [hcmd]; rfl⟩
  refine ⟨_, step_illegal hs hready hill, rfl, rfl, hleft, faultEntry_noNetwork _ _ _, ⟨rfl, rfl⟩, ?_⟩
  intro s' hs' hphase' hcmd' hfree
  exact ⟨_, step_illegal hs' (hphase' ▸ hready) (hphase' ▸ hcmd' ▸ hill), faultEntry_sameUnspecified _ _ hfree⟩

/-- Settles O7: words that decode have a legal header, which the phase allows. -/
theorem stepRunsTheDecodedCommand : Obligations.StepRunsTheDecodedCommand := by
  unfold Obligations.StepRunsTheDecodedCommand
  intro s w0 ws rest i hs hcmd hallowed hdec
  rw [← opcode_eq] at hallowed
  have hlegal : headerError w0 = none := headerError_eq_none_of_ok (hcmd ▸ hdec)
  exact step_command hs (ready_iff.mpr (hallowed.imp And.left And.left))
    ⟨w0, ws, hcmd, headerIllegal_eq_false.mpr ⟨hlegal, phaseAllows_iff.mpr hallowed⟩, hdec⟩

/-- Settles O8: a standing request is the first thing the step looks at after `RESET`. -/
theorem stepRunsTheDecodedRequest : Obligations.StepRunsTheDecodedRequest := by
  unfold Obligations.StepRunsTheDecodedRequest
  intro s r hpin hreq
  have hmove : nextMove F32.params s = nextRequest r s := by simp [nextMove, hpin, hreq]
  refine ⟨fun i hi => ?served, fun e he => ?refused⟩
  case served => rw [step, hmove, nextRequest, hi]
  case refused => rw [step, hmove, nextRequest, he]

theorem headerError_eq_none_of_truncated {w0 : Word} {ws : List Word}
    (h : decodeCommand (w0 :: ws) = .error .truncated) : headerError w0 = none := by
  by_contra hne
  obtain ⟨e, he, hne, -⟩ := decodeCommand_illegalHeader (ws := ws) hne
  cases h.symm.trans he
  exact hne rfl

/-- Settles O9: too few words are awaited, words that come late make the step of the command taken whole, a `PROCESS` in
progress goes on, and with nothing to do the state stays. -/
theorem stepAwaitsResumesOrWaits : Obligations.StepAwaitsResumesOrWaits := by
  unfold Obligations.StepAwaitsResumesOrWaits
  refine ⟨fun s hs w0 ws hcmd hallowed hdec => ?awaits, fun s p taken hpin hreq hp hprog => ?receives,
    fun s hpin hreq => ⟨step_resumes hpin hreq, fun hprog hidle => ?waits⟩⟩
  case awaits =>
    rw [← opcode_eq] at hallowed
    have hlegal : headerError w0 = none := headerError_eq_none_of_truncated (hcmd ▸ hdec)
    exact step_awaits hs (ready_iff.mpr (hallowed.imp And.left And.left))
      ⟨w0, ws, hcmd, headerIllegal_eq_false.mpr ⟨hlegal, phaseAllows_iff.mpr hallowed⟩, hdec⟩
  case receives => exact step_receiving hpin hreq hprog (ready_iff.mpr hp)
  case waits =>
    cases hready : s.phase.ready with
    | false => exact step_notReady hpin hreq hprog hready
    | true =>
      refine step_noWords ⟨hpin, hreq, hprog⟩ hready ?_
      obtain hp | hp | hcmd := hidle
      · simp [hp, Phase.ready] at hready
      · simp [hp, Phase.ready] at hready
      · exact hcmd

/-- Settles O10: with `RESET` the step is the reset effect, whose free values depend on the free count only. -/
theorem resetWireClearsTheMachine : Obligations.ResetWireClearsTheMachine := by
  unfold Obligations.ResetWireClearsTheMachine
  intro s hpin
  refine ⟨_, step_reset hpin, rfl, rfl, rfl, rfl, rfl, resetEffect_noNetwork _ _, rfl, rfl, rfl, rfl, rfl, rfl,
    by simp [statusWord, field, Phase.code], ?_⟩
  intro s' hpin' hfree
  exact ⟨_, step_reset hpin', resetEffect_sameUnspecified _ hfree⟩

end Sys2Proof
end

section
/-! The host commands by phase (spec/30_encoding.md R56 item 4, spec/41_construction.md R69, R80): each one's equation in
the phase that allows it, the fault entry in the other ready phase, and nothing where the port is not ready. -/

namespace Sys2Proof.Machine

/-! ## The gates where the port is not ready -/

theorem inIdle_notReady {P : Params Sample} {s : State} {e : Res State} (h : s.phase = .busy ∨ s.phase = .fault) :
    inIdle P s e = .ok s := by
  obtain h | h := h <;> rw [inIdle, h]

theorem inUnbuilt_notReady {P : Params Sample} {s : State} {e : Res State} (h : s.phase = .busy ∨ s.phase = .fault) :
    inUnbuilt P s e = .ok s := by
  obtain h | h := h <;> rw [inUnbuilt, h]

/-! ## In the phase that allows the command -/

section
variable {s : State}

theorem exec_destroy_idle (h : s.phase = .idle) : exec .destroy s = .next (destroyEffect F32.params s) :=
  congrArg outcome (inIdle_idle h)

theorem exec_process_idle (h : s.phase = .idle) (n : Nat) :
    exec (.process n) s = outcome (processEffect F32.params n s) :=
  congrArg outcome (inIdle_idle h)

/-- `SET_MAX_DELAY` is the shared construction with the registers as operands (R110). -/
theorem exec_setMaxDelay_idle (h : s.phase = .idle) (seconds : Word) :
    exec (.setMaxDelay seconds) s = outcome (construct F32.params (rebuildTopology s seconds) (dropNetwork s)) :=
  congrArg outcome (inIdle_idle h)

/-- `BUILD` of an invalid topology takes the fault entry with the mask of the failing checks (R69). -/
theorem exec_build_invalid {n bs : Nat} (h : s.phase = .unbuilt) (hv : ¬ValidTopology n bs) (shift : Nat) (zt : Bool)
    (lo hi rate : Word) :
    exec (.build n bs shift zt lo hi rate) s = .next (faultEntry F32.params (validationMask n bs) s) := by
  rw [exec_build, inUnbuilt_unbuilt h, buildEffect, if_pos (mt validationMask_eq_zero.mp hv), outcome_ok]

end

/-! ## Out of phase -/

/-- The host commands other than `BUILD` share their gate. -/
theorem exec_command_gate {i : Instr} {words : List Word} (hi : encode i = .command words)
    (hbuild : ∀ n bs shift zt lo hi rate, i ≠ .build n bs shift zt lo hi rate) (s : State) :
    ∃ e, exec i s = outcome (inIdle F32.params s e) := by
  cases i with
  | build => exact absurd rfl (hbuild _ _ _ _ _ _ _)
  | destroy | process | setRt60 | setMaxDelay | setInputPan => exact ⟨_, rfl⟩
  | peekReadable | peekWritable | commitWrite | releaseRead | ringInit | had1 | had2 | had4 | had8 => cases hi

theorem exec_command_outOfPhase {i : Instr} {words : List Word} (hi : encode i = .command words) {s : State}
    (hs : (s.phase = .unbuilt ∧ ∀ n bs shift zt lo hi rate, i ≠ .build n bs shift zt lo hi rate) ∨
      (s.phase = .idle ∧ ∃ n bs shift zt lo hi rate, i = .build n bs shift zt lo hi rate)) :
    exec i s = .next (raiseIllegal F32.params s) := by
  obtain ⟨hp, hbuild⟩ | ⟨hp, n, bs, shift, zt, lo, hi, rate, rfl⟩ := hs
  · obtain ⟨e, he⟩ := exec_command_gate hi hbuild s
    rw [he, inIdle_unbuilt hp, outcome_ok]
  · rw [exec_build, inUnbuilt_idle hp, outcome_ok]

theorem exec_command_notReady {i : Instr} {words : List Word} (hi : encode i = .command words) {s : State}
    (hs : s.phase = .busy ∨ s.phase = .fault) : exec i s = .next s := by
  by_cases hbuild : ∀ n bs shift zt lo hi rate, i ≠ .build n bs shift zt lo hi rate
  · obtain ⟨e, he⟩ := exec_command_gate hi hbuild s
    rw [he, inIdle_notReady hs, outcome_ok]
  · push Not at hbuild
    obtain ⟨n, bs, shift, zt, lo, hi, rate, rfl⟩ := hbuild
    rw [exec_build, inUnbuilt_notReady hs, outcome_ok]

/-! ## The validation mask -/

/-- The bits of a mask written as a sum of flags. -/
theorem getLsbD_flags (a b c d : Bool) :
    let mask := BitVec.ofNat 5 ((if a then 1 else 0) + (if b then 2 else 0) + (if c then 4 else 0) + (if d then 8 else 0))
    mask.getLsbD 0 = a ∧ mask.getLsbD 1 = b ∧ mask.getLsbD 2 = c ∧ mask.getLsbD 3 = d ∧ mask.getLsbD 4 = false := by
  revert a b c d
  decide

/-- Each bit of the mask is its check of R69. -/
theorem validationMask_bits (n bs : Nat) :
    ((validationMask n bs).getLsbD 0 = true ↔ ¬(bs = 1 ∨ bs = 2 ∨ bs = 4 ∨ bs = 8)) ∧
      ((validationMask n bs).getLsbD 1 = true ↔ n < bs) ∧
      ((validationMask n bs).getLsbD 2 = true ↔ n % 2 = 1) ∧
      ((validationMask n bs).getLsbD 3 = true ↔ bs ≠ 0 ∧ n % bs ≠ 0) ∧
      (validationMask n bs).getLsbD 4 = false := by
  obtain ⟨h0, h1, h2, h3, h4⟩ := getLsbD_flags (bsRange bs) (bsGtN n bs) (nOdd n) (nNotDiv n bs)
  rw [validationMask, h0, h1, h2, h3, h4]
  simp [bsRange, bsGtN, nOdd, nNotDiv, and_assoc]

/-- A fault entry leaves the flags, the counters and the ports alone (R120). -/
theorem faultEntry_frame (P : Params Sample) (c : BitVec 5) (s : State) :
    SameDiagnostics s (faultEntry P c s) ∧ SamePorts s (faultEntry P c s) :=
  ⟨⟨rfl, rfl⟩, rfl, rfl, rfl, rfl, rfl, rfl, rfl, rfl, rfl, rfl, rfl⟩

end Sys2Proof.Machine

namespace Sys2Proof

open Sys2Proof.Machine

/-- Settles O12: an invalid topology takes the fault entry with the mask of the failing checks. -/
theorem buildValidationFaults : Obligations.BuildValidationFaults := by
  unfold Obligations.BuildValidationFaults
  intro n bs shift zt lo hi rate s hp hv
  obtain ⟨h0, h1, h2, h3, h4⟩ := validationMask_bits n bs
  obtain ⟨hdiag, hports⟩ := faultEntry_frame F32.params (validationMask n bs) s
  refine ⟨_, exec_build_invalid hp hv shift zt lo hi rate, rfl, h0, h1, h2, h3, h4, faultEntry_noNetwork _ _ _, rfl,
    rfl, hdiag, hports, fun s' hp' hfree => ?_⟩
  exact ⟨_, exec_build_invalid hp' hv shift zt lo hi rate, faultEntry_sameUnspecified _ _ hfree⟩

/-- Settles O18: in `IDLE` the command is its effect, whose free values depend on the free count only. -/
theorem destroyRemovesTheNetwork : Obligations.DestroyRemovesTheNetwork := by
  unfold Obligations.DestroyRemovesTheNetwork
  intro s hp
  refine ⟨_, exec_destroy_idle hp, rfl, destroyEffect_noNetwork _ _, field_statusWord_zeroTaps _, ⟨rfl, rfl⟩, rfl,
    ⟨rfl, rfl, rfl, rfl, rfl, rfl, rfl, rfl, rfl, rfl, rfl⟩, rfl, rfl, fun s' hp' hfree => ?_⟩
  exact ⟨_, exec_destroy_idle hp', destroyEffect_sameUnspecified _ hfree⟩

/-- Settles O19: the gate answers before the operands are looked at. -/
theorem outOfPhaseCommandsFault : Obligations.OutOfPhaseCommandsFault := by
  unfold Obligations.OutOfPhaseCommandsFault
  rintro i s ⟨words, hi⟩
  refine ⟨fun hs => ?faults, exec_command_notReady hi⟩
  obtain ⟨hdiag, hports⟩ := faultEntry_frame F32.params illegalCommandCause s
  exact ⟨_, exec_command_outOfPhase hi hs, rfl, rfl, faultEntry_noNetwork _ _ _, hdiag, hports⟩

end Sys2Proof
end

section
/-! The invariant of the machine (spec/10_state.md R16, R24, R103): each thing a step can do completes in a state that
meets it, with the registers legal if they were, or is refused for an operand. -/

namespace Sys2Proof.Machine

/-! ## `PROCESS` -/

/-- A `PROCESS` command never stops for want of anything but the host (R89, R90, R103). -/
theorem processEffect_keeps {α : Type} (P : Params α) (n : Nat) {s : Generic.State α} (hnet : NetworkInv 0 s) :
    ∃ t m, processEffect P n s = .ok t ∧ Processing t ∧ Advanced m (beginProcess n s) t ∧
      (Supplied n s → t.progress = .rest ∧ m = n) := by
  obtain ⟨t, m, ht, hp, hadv, hdone⟩ :=
    runProcess_keeps (P := P) (processFuel (beginProcess n s)) (beginProcess n s) (.inl ⟨rfl, rfl, hnet⟩)
  exact ⟨t, m, ht, hp, hadv, fun hs => hdone (Nat.le_refl _) hs Progress.noConfusion⟩

/-- A `PROCESS` in progress, as the invariant has it. -/
theorem MachineInv.processing {α : Type} {s : Generic.State α} (h : MachineInv s)
    (hp : s.progress = .loopHead ∨ s.progress = .outputWrite) : Processing s := by
  obtain ⟨-, -, -, -, hprog⟩ := h
  obtain hp | hp := hp <;> simp only [ProgressInv, hp] at hprog
  · exact .inl ⟨hp, hprog⟩
  · exact .inr (.inl ⟨hp, hprog⟩)

theorem continueProcess_keeps {α : Type} (P : Params α) {s : Generic.State α} (h : Processing s)
    (hp : s.progress ≠ .rest) :
    ∃ t m, continueProcess P s = .ok t ∧ Processing t ∧ Advanced m s t ∧
      (Supplied s.seqRemaining s → t.progress = .rest ∧ m = s.seqRemaining) := by
  have hfuel : movesLeft s ≤ processFuel s := by
    rw [processFuel, movesLeft]
    obtain ⟨h1, -⟩ | ⟨h1, -, -, -, h2, h3⟩ | ⟨h1, -⟩ := h
    · simp [h1]
    · simp only [h1]; omega
    · exact absurd h1 hp
  obtain ⟨t, m, ht, hpt, hadv, hdone⟩ := runProcess_keeps (P := P) (processFuel s) s h
  exact ⟨t, m, ht, hpt, hadv, fun hs => hdone hfuel hs hp⟩

/-! ## What each kind of next state meets -/

section
variable {s t : State}

theorem MachineInv.faultCause_eq_zero (h : MachineInv s) (hp : s.phase ≠ .fault) : s.faultCause = 0 := by
  obtain ⟨-, hcause, -⟩ := h
  by_contra hne
  exact hp (hcause.mpr hne)

theorem registersLegal_of_noNetwork (h : NoNetwork t) : RegistersLegal F32.num t := fun hne => absurd h.1 hne

theorem machineInv_faultEntry (h : MachineInv s) {c : BitVec 5} (hc : c ≠ 0) :
    MachineInv (faultEntry F32.params c s) := by
  obtain ⟨hreq, -, hshort, hdiag, -⟩ := h
  exact ⟨hreq, ⟨fun _ => hc, fun _ => rfl⟩, hshort, hdiag, faultEntry_noNetwork _ _ _⟩

theorem machineInv_resetEffect (s : State) : MachineInv (resetEffect F32.params s) :=
  ⟨rfl, by simp, rfl, rfl, resetEffect_noNetwork _ _⟩

theorem machineInv_destroyEffect (h : MachineInv s) (hp : s.phase = .idle) :
    MachineInv (destroyEffect F32.params s) := by
  have hcause := h.faultCause_eq_zero (by simp [hp])
  obtain ⟨hreq, -, hshort, hdiag, -⟩ := h
  exact ⟨hreq, by simp [hcause], hshort, hdiag, destroyEffect_noNetwork _ _⟩

theorem machineInv_awaitWords (h : MachineInv s) (hrest : s.progress = .rest) (hready : s.phase.ready = true) :
    MachineInv (awaitWords s) := by
  have hcause := h.faultCause_eq_zero (by rintro hp; simp [hp, Phase.ready] at hready)
  obtain ⟨hreq, -, hshort, hdiag, hprog⟩ := h
  simp only [ProgressInv, hrest] at hprog
  exact ⟨hreq, by simp [hcause], hshort, hdiag, rfl, hready, hprog⟩

/-- What a `PROCESS` leaves alone holds the invariant together with the network it leaves. -/
theorem machineInv_of_processing (h : MachineInv s) (hp : s.phase ≠ .fault) (hk : ProcessKeeps s t)
    (ht : Processing t) : MachineInv t := by
  have hcause := h.faultCause_eq_zero hp
  obtain ⟨hreq, -, hshort, hdiag, -⟩ := h
  obtain ⟨-, -, -, -, ⟨kshort, kdiag⟩, kcause, kreq, -⟩ := hk
  have htp : t.phase ≠ .fault := by
    obtain ⟨-, h1, -⟩ | ⟨-, h1, -⟩ | ⟨-, h1, -⟩ := ht <;> simp [h1]
  exact ⟨kreq.trans hreq, by simp [htp, kcause, hcause], kshort.trans hshort, kdiag.trans hdiag, ht.progressInv⟩

theorem registersLegal_of_processKeeps (hk : ProcessKeeps s t) (hl : RegistersLegal F32.num s) :
    RegistersLegal F32.num t := by
  obtain ⟨htop, ⟨hdelay, -⟩, -, hpan, -⟩ := hk
  exact hl.of_same htop hpan hdelay

theorem machineInv_constructed {topo : Topology Sample} {lo hi : Nat} (h : MachineInv s) (hrest : s.progress = .rest)
    (hp : s.phase ≠ .fault) (hcon : Constructed F32.params topo lo hi (dropNetwork s) t) (hnet : NetworkInv 0 t) :
    MachineInv t := by
  have hcause := h.faultCause_eq_zero hp
  obtain ⟨hreq, -, hshort, hdiag, -⟩ := h
  obtain ⟨⟨kshort, kdiag⟩, kcause, ⟨kreq, -⟩, kprog⟩ := hcon.frame
  have hidle : t.phase = .idle := by obtain ⟨d, g, R, rfl⟩ := hcon.same; rfl
  have hprog : t.progress = .rest := kprog.trans hrest
  refine ⟨kreq.trans hreq, by simp [hidle, kcause, hcause], kshort.trans hshort, kdiag.trans hdiag, ?_⟩
  simpa only [ProgressInv, hprog, hidle] using hnet

end

/-! ## What a step may answer -/

/-- From `s` an outcome keeps the invariant, and the legality of the registers, or is a refusal an operand causes. -/
def KeepsOrRefuses (s : State) (o : Host.Outcome State Fault Refusal) : Prop :=
  (∃ t, o = .next t ∧ MachineInv t ∧ (RegistersLegal F32.num s → RegistersLegal F32.num t)) ∨
    ∃ r, o = .refused r ∧ r.ofOperand = true

theorem KeepsOrRefuses.of_noNetwork {s t : State} (h : MachineInv t) (hno : NoNetwork t) : KeepsOrRefuses s (.next t) :=
  .inl ⟨t, rfl, h, fun _ => registersLegal_of_noNetwork hno⟩

section
variable {s : State} (h : MachineInv s) (hrest : s.progress = .rest)
include h

theorem keepsOrRefuses_raiseIllegal : KeepsOrRefuses s (.next (raiseIllegal F32.params s)) :=
  .of_noNetwork (machineInv_faultEntry h (by decide)) (faultEntry_noNetwork _ _ _)

include hrest

/-- The shared construction, of a topology with a 16-bit number of lines where the registers are legal. -/
theorem keepsOrRefuses_construct {topo : Topology Sample} (hp : s.phase ≠ .fault)
    (hv : ValidTopology topo.numDelays topo.blockSize) (hn : RegistersLegal F32.num s → topo.numDelays < 2 ^ 16) :
    KeepsOrRefuses s (outcome (construct F32.params topo (dropNetwork s))) := by
  obtain ⟨t, lo, hi, hrun, hcon, hnet⟩ | ⟨r, hrun, hr⟩ := construct_cases (s := dropNetwork s) rfl hv
  · exact .inl ⟨t, outcome_eq_next.mpr hrun, machineInv_constructed h hrest hp hcon hnet,
      fun hl => construct_legal rfl (hn hl) hrun⟩
  · exact .inr ⟨r, outcome_eq_refused.mpr hrun, hr⟩

theorem keepsOrRefuses_build {n bs shift : Nat} {zt : Bool} {lo hi rate : Word} (hp : s.phase = .unbuilt)
    (hn : n < 2 ^ 16) : KeepsOrRefuses s (exec (.build n bs shift zt lo hi rate) s) := by
  by_cases hv : ValidTopology n bs
  · rw [exec_build_valid hp hv]
    exact keepsOrRefuses_construct h hrest (by simp [hp]) hv fun _ => hn
  · rw [exec_build_invalid hp hv]
    exact .of_noNetwork (machineInv_faultEntry h (mt validationMask_eq_zero.mp hv)) (faultEntry_noNetwork _ _ _)

section
variable (hp : s.phase = .idle)
include hp

theorem MachineInv.networkInv : NetworkInv 0 s := by
  obtain ⟨-, -, -, -, hprog⟩ := h
  simpa only [ProgressInv, hrest, hp] using hprog

theorem keepsOrRefuses_process (n : Nat) : KeepsOrRefuses s (exec (.process n) s) := by
  obtain ⟨t, m, hrun, ht, ⟨hk, -, -⟩, -⟩ := processEffect_keeps F32.params n (h.networkInv hrest hp)
  have hk : ProcessKeeps s t := hk
  rw [exec_process_idle hp, hrun, outcome_ok]
  exact .inl ⟨t, rfl, machineInv_of_processing h (by simp [hp]) hk ht, registersLegal_of_processKeeps hk⟩

theorem keepsOrRefuses_setRt60 (seconds : Word) : KeepsOrRefuses s (exec (.setRt60 seconds) s) := by
  have hcause := h.faultCause_eq_zero (by simp [hp])
  obtain ⟨htop, ⟨hdelay, -, hsign, hrange⟩, hrings⟩ := h.networkInv hrest hp
  obtain ⟨hreq, -, hshort, hdiag, -⟩ := h
  rw [exec_setRt60_idle seconds hp]
  split
  · have hnet : NetworkInv 0 (writeCoefs F32.params seconds s) :=
      ⟨htop, ⟨hdelay, (List.length_map _).trans hdelay, hsign, hrange⟩, hrings⟩
    refine .inl ⟨_, rfl, ⟨hreq, by simp [hp, hcause], hshort, hdiag, ?_⟩, id⟩
    simpa only [ProgressInv, writeCoefs_progress, writeCoefs_phase, hrest, hp] using hnet
  · exact .inr ⟨_, rfl, rfl⟩

omit hrest in
theorem keepsOrRefuses_setInputPan (pan : Word) : KeepsOrRefuses s (exec (.setInputPan pan) s) := by
  rw [exec_setInputPan_idle pan hp]
  split
  · next hpan =>
    obtain ⟨hlow, hhigh⟩ := Bool.and_eq_true_iff.mp hpan
    refine .inl ⟨{ s with inputPan := pan }, rfl, h, fun hl hne => ?_⟩
    obtain ⟨l1, l2, l3, l4, l5, l6, l7, l8, l9, -, -⟩ := hl hne
    refine ⟨l1, l2, l3, l4, l5, l6, l7, l8, l9, ?_, hhigh⟩
    rw [show F32.num.zero = (0 : Sample) from f32_zero]
    exact hlow
  · exact .inr ⟨_, rfl, rfl⟩

theorem keepsOrRefuses_setMaxDelay (seconds : Word) : KeepsOrRefuses s (exec (.setMaxDelay seconds) s) := by
  have hnet := h.networkInv hrest hp
  have hpos := networkInv_pos hnet
  obtain ⟨⟨hbs, heven, hle, hdiv, -⟩, ⟨hdelay, -⟩, -⟩ := hnet
  have hne : s.delay ≠ [] := by
    intro hnil
    rw [hnil, List.length_nil] at hdelay
    omega
  rw [exec_setMaxDelay_idle hp]
  exact keepsOrRefuses_construct h hrest (by simp [hp]) ⟨hbs, hle, heven, hdiv⟩ fun hl => (hl hne).1

end

/-- A host command at a ready port. -/
theorem keepsOrRefuses_command (hready : s.phase.ready = true) {i : Instr} (hi : i.wellFormed = true) {words : List Word}
    (hwords : encode i = .command words) : KeepsOrRefuses s (exec i s) := by
  by_cases hout : (s.phase = .unbuilt ∧ ∀ n bs shift zt lo hi rate, i ≠ .build n bs shift zt lo hi rate) ∨
      (s.phase = .idle ∧ ∃ n bs shift zt lo hi rate, i = .build n bs shift zt lo hi rate)
  · rw [exec_command_outOfPhase hwords hout]
    exact keepsOrRefuses_raiseIllegal h
  · obtain hp | hp := ready_iff.mp hready
    · simp only [hp, true_and, reduceCtorEq, false_and, or_false] at hout
      push Not at hout
      obtain ⟨n, bs, shift, zt, lo, hi, rate, rfl⟩ := hout
      exact keepsOrRefuses_build h hrest hp (wellFormed_build.mp hi).1
    · cases i with
      | build => exact absurd (.inr ⟨hp, _, _, _, _, _, _, _, rfl⟩) hout
      | destroy =>
        rw [exec_destroy_idle hp]
        exact .of_noNetwork (machineInv_destroyEffect h hp) (destroyEffect_noNetwork _ _)
      | process n => exact keepsOrRefuses_process h hrest hp n
      | setRt60 seconds => exact keepsOrRefuses_setRt60 h hrest hp seconds
      | setMaxDelay seconds => exact keepsOrRefuses_setMaxDelay h hrest hp seconds
      | setInputPan pan => exact keepsOrRefuses_setInputPan h hp pan
      | peekReadable | peekWritable | commitWrite | releaseRead | ringInit | had1 | had2 | had4 | had8 => cases hwords

end

/-! ## The step -/

/-- Taking words from the port touches nothing the invariant speaks of. -/
theorem keepsOrRefuses_step_ready {s : State} (h : MachineInv s) (hpin : s.resetPin = false) (hrest : s.progress = .rest)
    (hready : s.phase.ready = true) : KeepsOrRefuses s (step s) := by
  have hat : AtRest s := ⟨hpin, h.1, hrest⟩
  obtain hnone | ⟨n, hill⟩ | ⟨i, rest, hcmd⟩ | hshort := port_cases s.phase s.cmd
  · rw [step_noWords hat hready hnone]
    exact .inl ⟨s, rfl, h, id⟩
  · rw [step_illegal hat hready hill]
    exact keepsOrRefuses_raiseIllegal (s := takeWords n s) h
  · rw [step_command hat hready hcmd]
    obtain ⟨w0, ws, -, -, hdec⟩ := hcmd
    obtain ⟨hwf, taken, -, hwords⟩ := encode_of_decodeCommand hdec
    exact keepsOrRefuses_command (s := { s with cmd := rest }) h hrest hready hwf hwords
  · rw [step_awaits hat hready hshort]
    exact .inl ⟨_, rfl, machineInv_awaitWords h hrest hready, id⟩

/-- Every step under the invariant. -/
theorem keepsOrRefuses_step {s : State} (h : MachineInv s) : KeepsOrRefuses s (step s) := by
  cases hpin : s.resetPin with
  | true =>
    rw [step_reset hpin]
    exact .of_noNetwork (machineInv_resetEffect s) (resetEffect_noNetwork _ _)
  | false =>
    have hprocess (hp : s.progress = .loopHead ∨ s.progress = .outputWrite) : KeepsOrRefuses s (step s) := by
      have hs := h.processing hp
      have hphase : s.phase ≠ .fault := by obtain ⟨-, h1, -⟩ | ⟨-, h1, -⟩ | ⟨-, h1, -⟩ := hs <;> simp [h1]
      obtain ⟨t, m, hrun, ht, ⟨hk, -, -⟩, -⟩ := continueProcess_keeps F32.params hs
        (by obtain hp | hp := hp <;> simp [hp])
      rw [step_resumes hpin h.1 hp, hrun, outcome_ok]
      exact .inl ⟨t, rfl, machineInv_of_processing h hphase hk ht, registersLegal_of_processKeeps hk⟩
    cases hprog : s.progress with
    | loopHead => exact hprocess (.inl hprog)
    | outputWrite => exact hprocess (.inr hprog)
    | rest =>
      cases hready : s.phase.ready with
      | true => exact keepsOrRefuses_step_ready h hpin hprog hready
      | false =>
        rw [step_notReady hpin h.1 hprog hready]
        exact .inl ⟨s, rfl, h, id⟩
    | receiving p taken =>
      have hphase : s.phase = .busy ∧ p.ready = true ∧ PhaseInv p s := by
        obtain ⟨-, -, -, -, hinv⟩ := h
        simpa only [ProgressInv, hprog] using hinv
      obtain ⟨hbusy, hready, hinv⟩ := hphase
      have hcause := h.faultCause_eq_zero (by simp [hbusy])
      have hp : p ≠ .fault := by rintro rfl; cases hready
      obtain ⟨hreq, -, hshort, hdiag, -⟩ := h
      rw [step_receiving hpin hreq hprog hready]
      exact keepsOrRefuses_step_ready (s := { s with phase := p, cmd := taken ++ s.cmd, progress := .rest })
        ⟨hreq, by simp [hp, hcause], hshort, hdiag, hinv⟩ hpin rfl hready

end Sys2Proof.Machine

namespace Sys2Proof

open Sys2Proof.Machine

/-- Settles O57: every step under the invariant completes in a state that meets it, or has no next state. -/
theorem stepKeepsTheMachineInvariant : Obligations.StepKeepsTheMachineInvariant := by
  unfold Obligations.StepKeepsTheMachineInvariant
  intro s t hs ht
  obtain ⟨u, hu, hinv, hlegal⟩ | ⟨r, hr, -⟩ := keepsOrRefuses_step hs
  · cases ht.symm.trans hu
    exact ⟨hinv, hlegal⟩
  · cases ht.symm.trans hr

/-- Settles O58: the same case analysis, for whether there is a next state. -/
theorem invariantStepsStopOnOperandsOnly : Obligations.InvariantStepsStopOnOperandsOnly := by
  unfold Obligations.InvariantStepsStopOnOperandsOnly
  intro s hs
  exact (keepsOrRefuses_step hs).imp_left fun ⟨t, ht, _⟩ => ⟨t, ht⟩

end Sys2Proof
end

section
/-! One ring as a queue (spec/20_memory.md R43, spec/40_ring_delay_line.md R64), and `RING_INIT`, `PEEK_READABLE` and
`PEEK_WRITABLE` on the ring of a line and without one (R59 to R61). -/

namespace Sys2Proof.Machine

/-! ## Release and commit on the unconsumed samples -/

section
variable {α : Type} {r : Ring α} {n : Nat}

theorem liveSamples_release (h : RingInv r) (hn : n ≤ r.rwin) : liveSamples (r.release n) = (liveSamples r).drop n := by
  have hrwin := h.rwin_le
  have hfill := h.fill_le
  have hrel := ringInv_release h hn
  apply List.ext_getElem?
  intro k
  rw [List.getElem?_drop]
  by_cases hk : n + k < r.fill
  · have hk' : k < (r.release n).fill := by show k < r.fill - n; omega
    rw [liveSamples_getElem? hrel hk', liveSamples_getElem? h hk, readCell_release,
      read_release hfill (by omega) (by omega), if_neg (by omega)]
  · have hlen : (liveSamples (r.release n)).length = r.fill - n := liveSamples_length hrel
    rw [List.getElem?_eq_none (by omega), List.getElem?_eq_none (by rw [liveSamples_length h]; omega)]

/-- The committed cells stand behind the newest sample, in window order. -/
theorem liveSamples_commit (h : RingInv r) (hn : n ≤ r.wwin) {w : Nat → α}
    (hw : ∀ k < n, Store.read r.cells (r.writeCell k) = some (w k)) :
    liveSamples (r.commit n) = liveSamples r ++ (List.range n).map w := by
  have hwwin := h.wwin_le
  have hfill := h.fill_le
  have hcom := ringInv_commit h hn fun k hk => by rw [hw k hk]; rfl
  have hlen : (liveSamples (r.commit n)).length = r.fill + n := liveSamples_length hcom
  have hlive := liveSamples_length h
  apply List.ext_getElem?
  intro k
  by_cases hk : k < r.fill + n
  · rw [liveSamples_getElem? hcom hk, readCell_commit, read_commit h n (by omega), if_neg (by omega)]
    by_cases hold : k < r.fill
    · rw [List.getElem?_append_left (by omega), liveSamples_getElem? h hold]
    · obtain ⟨j, rfl⟩ := Nat.exists_eq_add_of_le (Nat.le_of_not_lt hold)
      have hj : j < n := by omega
      rw [List.getElem?_append_right (by omega), hlive, Nat.add_sub_cancel_left, ← Ring.writeCell_eq h.wr_eq, hw j hj]
      simp [hj]
  · rw [List.getElem?_eq_none (by omega), List.getElem?_eq_none (by simp; omega)]

/-- A cell of the write window can be written. -/
theorem memWrite_writeCell (h : RingInv r) {k : Nat} (v : α) :
    r.memWrite (r.writeCell k) v = .ok (r.writeWindow k v) :=
  memWrite_eq_ok.mpr ⟨Ring.writeCell_lt h.cap_pos k, rfl⟩

end

/-! ## The instructions -/

theorem exec_ringInit (i D m : Nat) (s : State) : exec (.ringInit i D m) s = outcome (ringInit F32.params i D m s) := rfl

theorem exec_peekReadable (i n : Nat) (s : State) :
    exec (.peekReadable i n) s = outcome ((peekReadable i n s).map Prod.snd) := rfl

theorem exec_peekWritable (i n : Nat) (s : State) :
    exec (.peekWritable i n) s = outcome ((peekWritable i n s).map Prod.snd) := rfl

section
variable {s : State} {i n : Nat} {r : Ring Sample}

theorem exec_peekReadable_opens (h : ringAt s i = some r) (h0 : r.rwin = 0) :
    exec (.peekReadable i n) s =
      .next { putRing s i { r with rwin := r.readGrant n } with grant := r.readGrant n } := by
  rw [exec_peekReadable, peekReadable_eq_ok.mpr ⟨r, h, h0, rfl, rfl⟩, res_map_ok, outcome_ok]

theorem exec_peekWritable_opens (h : ringAt s i = some r) (h0 : r.wwin = 0) :
    exec (.peekWritable i n) s =
      .next { putRing s i { r with wwin := r.writeGrant n } with grant := r.writeGrant n } := by
  rw [exec_peekWritable, peekWritable_eq_ok.mpr ⟨r, h, h0, rfl, rfl⟩, res_map_ok, outcome_ok]

theorem exec_peekReadable_second (h : ringAt s i = some r) (h0 : r.rwin ≠ 0) :
    exec (.peekReadable i n) s = .refused .secondReadWindow := by
  rw [exec_peekReadable, peekReadable, ringOf_eq_ok.mpr h, res_bind_ok, if_pos h0, res_map_error, outcome_eq_refused]

theorem exec_peekWritable_second (h : ringAt s i = some r) (h0 : r.wwin ≠ 0) :
    exec (.peekWritable i n) s = .refused .secondWriteWindow := by
  rw [exec_peekWritable, peekWritable, ringOf_eq_ok.mpr h, res_bind_ok, if_pos h0, res_map_error, outcome_eq_refused]

/-- The ring operations and the window write on a line without a ring have nothing to act on (R33; log entry 15). -/
theorem noSuchRing_of_ringAt_none (h : ringAt s i = none) :
    exec (.peekReadable i n) s = .fault .noSuchRing ∧ exec (.peekWritable i n) s = .fault .noSuchRing ∧
      exec (.commitWrite i n) s = .fault .noSuchRing ∧ exec (.releaseRead i n) s = .fault .noSuchRing ∧
      ∀ k v, wrWin s i k v = .error (.fault .noSuchRing) := by
  have hring := ringOf_none h
  refine ⟨?_, ?_, ?_, ?_, fun k v => ?_⟩
  · rw [exec_peekReadable, peekReadable, hring, res_bind_error, res_map_error, outcome_eq_fault]
  · rw [exec_peekWritable, peekWritable, hring, res_bind_error, res_map_error, outcome_eq_fault]
  · rw [exec_commitWrite, commitWrite, hring, res_bind_error, outcome_eq_fault]
  · rw [exec_releaseRead, releaseRead, hring, res_bind_error, outcome_eq_fault]
  · rw [wrWin, hring, res_bind_error]

end

end Sys2Proof.Machine

namespace Sys2Proof

open Sys2Proof.Machine

/-- Settles O36: each operation has its law, and a write to the window is that of one cell. -/
theorem ringOperationsKeepTheInvariants : Obligations.RingOperationsKeepTheInvariants := by
  unfold Obligations.RingOperationsKeepTheInvariants
  intro α r
  refine ⟨fun zero D m => ringInv_initial zero, fun h n => ⟨ringInv_peekRead h n, fun hw => ringInv_peekWrite h hw n,
    ringInv_release h, ringInv_commit h, fun k hk v => ?write⟩⟩
  case write => exact ⟨_, memWrite_writeCell h v, ringInv_write h hk v⟩

/-- Settles O40: the oldest samples are dropped, the committed ones appended. -/
theorem ringIsAQueue : Obligations.RingIsAQueue := by
  unfold Obligations.RingIsAQueue
  intro α r n h
  exact ⟨liveSamples_release h, fun hn w => liveSamples_commit h hn⟩

/-- Settles O32: the next state is the new ring put on its line; the two stops are the two checks. -/
theorem ringInitMakesARingOfZeros : Obligations.RingInitMakesARingOfZeros := by
  unfold Obligations.RingInitMakesARingOfZeros
  intro i D m s
  refine ⟨fun hcap hline => ?makes, fun hcap => ?refused, fun hcap hnet hi => ?faults⟩
  case makes =>
    have hrun := (ringInit_eq_ok (P := F32.params)).mpr ⟨Nat.pos_of_ne_zero hcap, hline, rfl⟩
    refine ⟨_, _, outcome_eq_next.mpr hrun, rfl, Store.read_write_same _ _ _, rfl, rfl, rfl, rfl, rfl, rfl, fun a => ?_,
      fun j hj => Store.read_write_other _ _ hj⟩
    rw [Ring.initial, Store.read_filled, f32_zero]
  case refused => rw [exec_ringInit, outcome_eq_refused, ringInit, if_pos hcap]
  case faults =>
    have hline : ¬LineInRange s i := not_or.mpr ⟨hnet, Nat.not_lt.mpr hi⟩
    rw [exec_ringInit, outcome_eq_fault, ringInit, if_neg hcap, if_neg hline]

/-- Settles O33: a peek on a ring opens its window or is refused for a second one; without a ring there is a fault. -/
theorem peeksOpenTheWindows : Obligations.PeeksOpenTheWindows := by
  unfold Obligations.PeeksOpenTheWindows
  intro i n s
  refine ⟨fun r hline hread => ?ring, fun hnone => noSuchRing_of_ringAt_none (ringAt_eq_none.mpr hnone)⟩
  have hring : ringAt s i = some r := ringAt_eq_some.mpr ⟨hline, hread⟩
  exact ⟨fun h0 => ⟨_, exec_peekReadable_opens hring h0, rfl, rfl, Store.read_write_same _ _ _,
      fun j hj => Store.read_write_other _ _ hj⟩,
    fun h0 => ⟨_, exec_peekWritable_opens hring h0, rfl, rfl, Store.read_write_same _ _ _,
      fun j hj => Store.read_write_other _ _ hj⟩,
    exec_peekReadable_second hring, exec_peekWritable_second hring⟩

end Sys2Proof
end

section
/-! Step 3 of a chunk (spec/43_process.md R93, R65): every line is asked for the same count, and the chunk shrinks to the
least grant. -/

namespace Sys2Proof.Machine

variable {α : Type}

/-! ## Windows granted in full -/

theorem NetworkInv.grants {s : Generic.State α} (h : NetworkInv 0 s) {n : Nat} (hn : n ≤ s.minDelaySamples) {i : Nat}
    (hi : i < s.numDelays) : ∃ r, Store.read s.rings i = some r ∧ Grants n r := by
  obtain ⟨r, hr, hinv, hcap, hfill, hrwin, hwwin⟩ := networkInv_ring h hi
  have hdelay := networkInv_delay h hi
  exact ⟨r, hr, hinv, hrwin, hwwin, by omega, by omega⟩

/-- A network whose rings have all got both windows opened for `n`. -/
theorem NetworkInv.opened {s : Generic.State α} (h : NetworkInv 0 s) {n : Nat} (hn : n ≤ s.minDelaySamples)
    {R : Store (Ring α)} (hfile : RingFileOf s.numDelays R)
    (hR : ∀ i < s.numDelays, ∀ r, Store.read s.rings i = some r → Store.read R i = some { r with rwin := n, wwin := n })
    (g : Nat) : NetworkInv n { s with rings := R, grant := g } := by
  refine ⟨h.1, h.2.1, hfile.1, hfile.2, fun i hi => ?_⟩
  obtain ⟨r, hr, hgrants⟩ := h.grants hn hi
  obtain ⟨q, hq, -, hcap, hfill, -⟩ := networkInv_ring h hi
  obtain rfl : r = q := Option.some.inj (hr.symm.trans hq)
  exact ⟨_, hR i hi r hr, hgrants.opened, hcap, hfill, rfl, rfl⟩

/-! ## Grants of any length -/

/-- The ring of a line after both windows were asked for `req` (R60, R61). -/
def Ring.asked (req : Nat) (r : Ring α) : Ring α :=
  { r with rwin := r.readGrant req, wwin := r.writeGrant req }

/-- Step 3 for one line without open windows. -/
theorem openWindows_asked {req i : Nat} {s : Generic.State α} {r : Ring α} (hr : ringAt s i = some r) (h0 : r.rwin = 0)
    (h1 : r.wwin = 0) :
    ∃ R g, openWindows req s i = .ok { s with
        rings := R, grant := g, seqChunk := min s.seqChunk (min (r.readGrant req) (r.writeGrant req)) } ∧
      ∀ j, Store.read R j = if j = i then some (r.asked req) else Store.read s.rings j := by
  have hread := (peekReadable_eq_ok (i := i) (n := req)).mpr ⟨r, hr, h0, rfl, rfl⟩
  have hopen : ringAt { putRing s i { r with rwin := r.readGrant req } with grant := r.readGrant req } i =
      some { r with rwin := r.readGrant req } :=
    ringAt_putRing_same (ringAt_eq_some.mp hr).1 _
  have hwrite := (peekWritable_eq_ok (i := i) (n := req)).mpr ⟨_, hopen, h1, rfl, rfl⟩
  refine ⟨Store.write (Store.write s.rings i { r with rwin := r.readGrant req }) i (r.asked req), r.writeGrant req, ?_,
    fun j => ?_⟩
  · simp only [openWindows, hread, res_bind_ok, hwrite]
    rfl
  · rw [Store.read_write, Store.read_write]
    split <;> rfl

/-- What the lines below `k` have granted of `req` when the chunk has come to `c` (R93). -/
structure LeastGrant (s : Generic.State α) (k c : Nat) : Prop where
  le_request : c ≤ s.seqChunk
  le_grants : ∀ i < k, ∀ r, Store.read s.rings i = some r → c ≤ r.fill ∧ c ≤ r.cap - r.fill
  attained : c = s.seqChunk ∨ ∃ i < k, ∃ r, Store.read s.rings i = some r ∧ (c = r.fill ∨ c = r.cap - r.fill)

theorem LeastGrant.start (s : Generic.State α) : LeastGrant s 0 s.seqChunk :=
  ⟨Nat.le_refl _, fun _ hi => absurd hi (Nat.not_lt_zero _), .inl rfl⟩

theorem LeastGrant.next {s : Generic.State α} {k c : Nat} (h : LeastGrant s k c) {r : Ring α}
    (hr : Store.read s.rings k = some r) :
    LeastGrant s (k + 1) (min c (min (r.readGrant s.seqChunk) (r.writeGrant s.seqChunk))) := by
  have hle := h.le_request
  have hmin : min c (min (r.readGrant s.seqChunk) (r.writeGrant s.seqChunk)) = min c (min r.fill (r.cap - r.fill)) := by
    simp only [Ring.readGrant, Ring.writeGrant]
    omega
  rw [hmin]
  refine ⟨by omega, fun i hi q hq => ?_, ?_⟩
  · obtain hlt | rfl := Nat.lt_succ_iff_lt_or_eq.mp hi
    · have := h.le_grants i hlt q hq
      omega
    · obtain rfl : r = q := Option.some.inj (hr.symm.trans hq)
      omega
  · have hcases : min c (min r.fill (r.cap - r.fill)) = c ∨ min c (min r.fill (r.cap - r.fill)) = r.fill ∨
        min c (min r.fill (r.cap - r.fill)) = r.cap - r.fill := by omega
    obtain hc | hnew := hcases
    · rw [hc]
      exact h.attained.imp_right fun ⟨i, hi, hq⟩ => ⟨i, Nat.lt_succ_of_lt hi, hq⟩
    · exact .inr ⟨k, Nat.lt_succ_self k, r, hr, hnew⟩

/-- Step 3 before a shortfall is signalled: every line has been asked, and the chunk is the least grant. -/
theorem openWindows_all {s : Generic.State α}
    (h : ∀ i < s.numDelays, ∃ r, Store.read s.rings i = some r ∧ r.rwin = 0 ∧ r.wwin = 0) :
    ∃ R g c, (List.range s.numDelays).foldlM (openWindows s.seqChunk) s =
        .ok { s with rings := R, grant := g, seqChunk := c } ∧
      LeastGrant s s.numDelays c ∧
      ∀ i < s.numDelays, ∀ r, Store.read s.rings i = some r → Store.read R i = some (r.asked s.seqChunk) := by
  obtain ⟨t, ht, R, g, c, rfl, hleast, hasked, -⟩ := foldlM_range_ok (f := openWindows s.seqChunk) (n := s.numDelays)
    (s := s)
    (p := fun k t => ∃ R g c, t = { s with rings := R, grant := g, seqChunk := c } ∧ LeastGrant s k c ∧
      (∀ i < k, ∀ r, Store.read s.rings i = some r → Store.read R i = some (r.asked s.seqChunk)) ∧
      ∀ i, k ≤ i → Store.read R i = Store.read s.rings i)
    (by
      rintro k t hk ⟨R, g, c, rfl, hleast, hasked, hrest⟩
      obtain ⟨r, hr, h0, h1⟩ := h k hk
      obtain ⟨R', g', hopen, hR'⟩ := openWindows_asked (req := s.seqChunk) (i := k)
        (s := { s with rings := R, grant := g, seqChunk := c }) (ringAt_of_lt hk ((hrest k (Nat.le_refl k)).trans hr)) h0 h1
      refine ⟨_, hopen, R', g', _, rfl, hleast.next hr, fun i hi q hq => ?_, fun i hi => ?_⟩
      · rw [hR']
        obtain hlt | rfl := Nat.lt_succ_iff_lt_or_eq.mp hi
        · rw [if_neg (by omega)]
          exact hasked i hlt q hq
        · obtain rfl : r = q := Option.some.inj (hr.symm.trans hq)
          rw [if_pos rfl]
      · rw [hR', if_neg (by omega)]
        exact hrest i (by omega))
    ⟨s.rings, s.grant, s.seqChunk, rfl, .start s, fun i hi => absurd hi (Nat.not_lt_zero i), fun _ _ => rfl⟩
  exact ⟨R, g, c, ht, hleast, hasked⟩

end Sys2Proof.Machine

namespace Sys2Proof

open Sys2Proof.Machine

/-- Settles O30: at a chunk boundary every ring grants the whole chunk. -/
theorem windowsAreGrantedInFull : Obligations.WindowsAreGrantedInFull := by
  unfold Obligations.WindowsAreGrantedInFull
  intro α s hnet hmin
  obtain ⟨R, g, hrun, hfile, hR⟩ := stepWindows_ok rfl (networkInv_file hnet) fun i hi => hnet.grants hmin hi
  exact ⟨_, hrun, rfl, ⟨rfl, rfl⟩, hnet.opened hmin hfile hR g⟩

/-- Settles O31: the loop over the lines leaves the least grant, and a shrunk chunk is signalled after it. -/
theorem shortGrantShrinksTheChunkAndIsCounted : Obligations.ShortGrantShrinksTheChunkAndIsCounted := by
  unfold Obligations.ShortGrantShrinksTheChunkAndIsCounted
  intro α s h
  obtain ⟨R, g, c, hrun, hleast, hasked⟩ := openWindows_all h
  have hgrants : ∀ i < s.numDelays, ∀ r, Store.read s.rings i = some r → c ≤ r.fill ∧ c ≤ r.cap - r.fill ∧
      Store.read R i = some { r with rwin := min s.seqChunk r.fill, wwin := min s.seqChunk (r.cap - r.fill) } :=
    fun i hi r hr => ⟨(hleast.le_grants i hi r hr).1, (hleast.le_grants i hi r hr).2, hasked i hi r hr⟩
  rw [stepWindows, hrun, res_bind_ok]
  by_cases hshort : c < s.seqChunk
  · rw [if_pos hshort]
    exact ⟨_, rfl, hleast.le_request, hgrants, hleast.attained, fun _ => ⟨rfl, rfl⟩,
      fun heq => absurd heq (Nat.ne_of_lt hshort)⟩
  · rw [if_neg hshort]
    exact ⟨_, rfl, hleast.le_request, hgrants, hleast.attained, fun hlt => absurd hlt hshort, fun _ => ⟨rfl, rfl⟩⟩

end Sys2Proof
end

section
/-! `PROCESS` as a command (spec/43_process.md R89, R90, R103, R104, R107): how far it comes with what the host has given,
where it waits, and that a command that waited ends as one that did not. -/

namespace Sys2Proof.Machine

section
variable {α : Type} {P : Params α} {s t : Generic.State α}

/-! ## What a command in progress has come to -/

theorem Processing.phase_cases (h : Processing s) : s.phase = .idle ∨ s.phase = .busy := by
  obtain ⟨-, h1, -⟩ | ⟨-, h1, -⟩ | ⟨-, h1, -⟩ := h
  · exact .inr h1
  · exact .inr h1
  · exact .inl h1

/-- The command is done exactly when no command is in progress. -/
theorem Processing.done (h : Processing s) (hp : s.progress = .rest) : s.phase = .idle ∧ NetworkInv 0 s := by
  obtain ⟨h1, -⟩ | ⟨h1, -⟩ | ⟨-, h1, hnet⟩ := h
  · cases h1.symm.trans hp
  · cases h1.symm.trans hp
  · exact ⟨h1, hnet⟩

theorem Processing.waits (h : Processing s) (hp : s.phase = .busy) :
    s.progress = .loopHead ∨ s.progress = .outputWrite := by
  obtain ⟨h1, -⟩ | ⟨h1, -⟩ | ⟨-, h1, -⟩ := h
  · exact .inl h1
  · exact .inr h1
  · cases h1.symm.trans hp

theorem Processing.movesLeft_le (h : Processing s) : movesLeft s ≤ processFuel s := by
  rw [processFuel, movesLeft]
  obtain ⟨h1, -⟩ | ⟨h1, -, -, -, hlo, hhi⟩ | ⟨h1, -⟩ := h <;> simp only [h1] <;> omega

/-! ## Waiting -/

/-- At the head of the loop without the input of the chunk (R11; log entry 9). -/
theorem continueProcess_noInput (hp : s.progress = .loopHead) (hz : s.seqRemaining ≠ 0)
    (hin : inputOffered (beginChunk s) = false) : continueProcess P s = .ok (beginChunk s) := by
  rw [continueProcess, processFuel, runProcess, hp]
  simp only [if_neg hz, hin, Bool.false_eq_true, if_false]

/-- At the output write without the room for the chunk (R11; log entry 10). -/
theorem continueProcess_noRoom (hp : s.progress = .outputWrite) (hout : outputTaken s = false) :
    continueProcess P s = .ok s := by
  rw [continueProcess, processFuel, runProcess, hp]
  simp only [hout, Bool.false_eq_true, if_false]

/-- From the head of the loop with the input of the chunk and no room for it. -/
theorem continueProcess_reachesOutput (hnet : NetworkInv 0 s) (hp : s.progress = .loopHead) (hz : s.seqRemaining ≠ 0)
    (hin : inputOffered (beginChunk s) = true) (hroom : outputTaken (beginChunk s) = false) :
    ∃ R g, continueProcess P s = .ok (frontState P (beginChunk s) (beginChunk s).seqChunk R g) := by
  obtain ⟨hL, hR⟩ := inputOffered_iff.mp hin
  obtain ⟨R, g, hfront, -⟩ := chunkFront_ok (P := P) (s := beginChunk s) hnet rfl (Nat.min_le_right _ _) hL hR
  refine ⟨R, g, ?_⟩
  obtain ⟨f, hf⟩ : ∃ f, processFuel s = f + 2 := ⟨2 * s.seqRemaining - 1, by rw [processFuel]; omega⟩
  have hout : outputTaken (frontState P (beginChunk s) (beginChunk s).seqChunk R g) = false := hroom
  rw [continueProcess, hf, runProcess, hp]
  simp only [if_neg hz, hin, if_true]
  rw [hfront, res_bind_ok, runProcess]
  simp only [frontState_progress, hout, Bool.false_eq_true, if_false]

/-- Where a command waits, what the host then gives could have been given before it (R11, R105). -/
theorem processEffect_hostGives (left right : List α) (a b : Nat) {n : Nat} {w : Generic.State α}
    (hnet : NetworkInv 0 s) (hw : processEffect P n s = .ok w) (hbusy : w.phase = .busy) :
    continueProcess P (hostGives left right a b w) = processEffect P n (hostGives left right a b s) := by
  obtain ⟨t, m, ht, hproc, -⟩ := processEffect_keeps P n hnet
  obtain rfl : t = w := Except.ok.inj (ht.symm.trans hw)
  have hprog : t.progress ≠ .rest := by obtain h | h := hproc.waits hbusy <;> simp [h]
  have hfed : Fed (beginProcess n s) := ⟨.inl ⟨rfl, rfl, hnet⟩, fun h => by cases h⟩
  have hgives := runProcess_hostGives left right a b _ _ _ hfed (Nat.le_refl (movesLeft (beginProcess n s))) ht hprog
  have hproc' : Processing (hostGives left right a b t) := hproc
  calc continueProcess P (hostGives left right a b t)
      = runProcess P (movesLeft t) (hostGives left right a b t) :=
        runProcess_fuel _ _ _ hproc' hproc'.movesLeft_le (Nat.le_refl _)
    _ = processEffect P n (hostGives left right a b s) := hgives.symm

end

/-! ## The step that goes on with a command that waited -/

theorem step_hostGives (left right : List Sample) (a b : Nat) {n : Nat} {s w : State} (hp : s.phase = .idle)
    (hnet : NetworkInv 0 s) (hpin : s.resetPin = false) (hreq : s.request = none)
    (hw : exec (.process n) s = .next w) (hbusy : w.phase = .busy) :
    step (hostGives left right a b w) = exec (.process n) (hostGives left right a b s) := by
  rw [exec_process_idle hp, outcome_eq_next] at hw
  obtain ⟨t, m, ht, hproc, ⟨⟨-, -, -, -, -, -, kreq, -, kpin, -⟩, -⟩, -⟩ := processEffect_keeps F32.params n hnet
  obtain rfl : t = w := Except.ok.inj (ht.symm.trans hw)
  rw [step_resumes (s := hostGives left right a b t) (kpin.trans hpin) (kreq.trans hreq) (hproc.waits hbusy),
    processEffect_hostGives left right a b hnet hw hbusy,
    exec_process_idle (s := hostGives left right a b s) hp]

/-- A supplied command computes the recurrence and completes (R89, R104). -/
theorem exec_process_done {n : Nat} {s : State} (hp : s.phase = .idle) (hnet : NetworkInv 0 s) (hs : Supplied n s) :
    ∃ t, exec (.process n) s = .next t ∧ ProcessDone F32.params s t n ∧ t.phase = .idle ∧
      t.outL = s.outL ++ (recurrence F32.params s (inputRun s n) (queues s)).2.1 ∧
      t.outR = s.outR ++ (recurrence F32.params s (inputRun s n) (queues s)).2.2 := by
  obtain ⟨t, hrun, hdone⟩ := processEffect_done (P := F32.params) hnet hs
  refine ⟨t, by rw [exec_process_idle hp, hrun, outcome_ok], hdone, ?_⟩
  obtain ⟨pos, chunk, R, cL, cR, aL, aR, att, y, g, rfl⟩ := hdone.same
  exact ⟨rfl, rfl, rfl⟩

end Sys2Proof.Machine

namespace Sys2Proof

open Sys2Proof.Machine

/-- Settles O24: a command, and a step that goes on with one, comes as far as it can with the frame of R89, and is done
once everything is given. -/
theorem processCompletesAndKeepsTheRegisters : Obligations.ProcessCompletesAndKeepsTheRegisters := by
  unfold Obligations.ProcessCompletesAndKeepsTheRegisters
  refine ⟨fun n s hp hnet => ?command, fun s ⟨hinv, hpin, hprog⟩ => ?resumed⟩
  case command =>
    obtain ⟨t, m, hrun, hproc, ⟨hkeeps, hpassed, hrem⟩, hdone⟩ := processEffect_keeps F32.params n hnet
    rw [beginProcess_seqRemaining] at hrem
    refine ⟨t, m, by rw [exec_process_idle hp, hrun, outcome_ok], by omega, hkeeps, hpassed, hproc.phase_cases,
      fun hs => ?_⟩
    obtain ⟨hrest, rfl⟩ := hdone hs
    obtain ⟨hidle, hnet'⟩ := hproc.done hrest
    exact ⟨rfl, hidle, hrest, hnet'⟩
  case resumed =>
    have hne : s.progress ≠ .rest := by obtain h | h := hprog <;> simp [h]
    obtain ⟨t, m, hrun, hproc, ⟨hkeeps, hpassed, hrem⟩, hdone⟩ :=
      continueProcess_keeps F32.params (hinv.processing hprog) hne
    refine ⟨t, m, by rw [step_resumes hpin hinv.1 hprog, hrun, outcome_ok], by omega, hkeeps, hpassed,
      hproc.phase_cases, fun hs => ?_⟩
    obtain ⟨hrest, rfl⟩ := hdone hs
    obtain ⟨hidle, hnet'⟩ := hproc.done hrest
    exact ⟨rfl, hidle, hrest, hnet'⟩

/-- Settles O25: a supplied command is done, and one that waited goes on as the command with everything given before. -/
theorem processComputesThePerSampleForm : Obligations.ProcessComputesThePerSampleForm := by
  unfold Obligations.ProcessComputesThePerSampleForm
  refine ⟨fun n s hp hnet hs => ?supplied, fun n s w left right roomL roomR hp hnet hpin hreq hw hbusy hs => ?resumed⟩
  case supplied =>
    obtain ⟨t, hrun, hdone, -, houtL, houtR⟩ := exec_process_done hp hnet hs
    exact ⟨t, hrun, hdone.queues, houtL, houtR⟩
  case resumed =>
    obtain ⟨t, hrun, hdone, hidle, houtL, houtR⟩ :=
      exec_process_done (s := hostGives left right roomL roomR s) hp hnet hs
    have hsame : recurrence F32.params (hostGives left right roomL roomR s) = recurrence F32.params s := by
      funext us qs
      exact recurrence_congr _ (sampleStep_congr _ (s := s) (t := hostGives left right roomL roomR s)
        rfl rfl rfl rfl rfl rfl rfl rfl rfl) us qs
    rw [hsame] at houtL houtR
    exact ⟨t, by rw [step_hostGives left right roomL roomR hp hnet hpin hreq hw hbusy, hrun], hidle,
      hsame ▸ hdone.queues, houtL, houtR⟩

/-- Settles O27: with nothing left to pass, the head of the loop ends the command at once. -/
theorem processOfNoSamplesChangesNothing : Obligations.ProcessOfNoSamplesChangesNothing := by
  unfold Obligations.ProcessOfNoSamplesChangesNothing
  intro s hp
  rw [exec_process_idle hp]
  rfl

/-- Settles O29: the first chunk stops at the loop head or at the output write, where a further step finds the same; and
what the host gives there could have been given before. -/
theorem processWaitsForTheHost : Obligations.ProcessWaitsForTheHost := by
  unfold Obligations.ProcessWaitsForTheHost
  refine ⟨fun n s hp hnet hpin hreq hn => ⟨fun hshort => ?input, fun hL hR hshort => ?output⟩,
    fun n s w left right roomL roomR hp hnet hpin hreq hw hbusy =>
      step_hostGives left right roomL roomR hp hnet hpin hreq hw hbusy⟩
  case input =>
    have hin : inputOffered (beginChunk (beginProcess n s)) = false := by
      rw [← Bool.not_eq_true, inputOffered_iff]
      exact fun h => by
        obtain ⟨h1, h2⟩ : min n s.minDelaySamples ≤ s.inL.length ∧ min n s.minDelaySamples ≤ s.inR.length := h
        omega
    refine ⟨by rw [exec_process_idle hp]; exact outcome_eq_next.mpr (continueProcess_noInput rfl hn.ne' hin), ?_⟩
    refine (step_resumes (s := beginChunk (beginProcess n s)) hpin hreq (.inl rfl)).trans ?_
    exact outcome_eq_next.mpr (continueProcess_noInput rfl hn.ne' hin)
  case output =>
    have hin : inputOffered (beginChunk (beginProcess n s)) = true := inputOffered_iff.mpr ⟨hL, hR⟩
    have hout : outputTaken (beginChunk (beginProcess n s)) = false := by
      rw [← Bool.not_eq_true, outputTaken_iff]
      exact fun h => by
        obtain ⟨h1, h2⟩ : min n s.minDelaySamples ≤ s.roomL ∧ min n s.minDelaySamples ≤ s.roomR := h
        omega
    obtain ⟨R, g, hrun⟩ :=
      continueProcess_reachesOutput (P := F32.params) (s := beginProcess n s) hnet rfl hn.ne' hin hout
    refine ⟨frontState F32.params (beginChunk (beginProcess n s)) (min n s.minDelaySamples) R g,
      by rw [exec_process_idle hp]; exact outcome_eq_next.mpr hrun, rfl, rfl, rfl, rfl, rfl, rfl, rfl, ?_⟩
    refine (step_resumes (s := frontState F32.params (beginChunk (beginProcess n s)) (min n s.minDelaySamples) R g)
      hpin hreq (.inr rfl)).trans ?_
    exact outcome_eq_next.mpr (continueProcess_noRoom rfl hout)

end Sys2Proof
end

section
/-! Silence under `Num.f32` (spec/43_process.md R107 item 3): a zero times a finite coefficient is a zero of some sign,
and a sum that starts at +0 stays +0 when zeros of either sign are added or taken away. -/

namespace Sys2Proof.Machine

/-! ## Zeros -/

theorem F32.not_isNaN_of_isFinite {w : Sample} (h : F32.isFinite w = true) : F32.isNaN w = false := by
  simp only [F32.isFinite, F32.isNaN, decide_eq_true_eq, decide_eq_false_iff_not] at *
  omega

theorem F32.not_isInf_of_isFinite {w : Sample} (h : F32.isFinite w = true) : F32.isInf w = false := by
  simp only [F32.isFinite, F32.isInf, decide_eq_true_eq, decide_eq_false_iff_not] at *
  omega

/-- The product of finite values is rounded once. -/
theorem F32.fmul_of_isFinite {a b : Sample} (ha : F32.isFinite a = true) (hb : F32.isFinite b = true) :
    F32.fmul a b = F32.round (F32.signBit a != F32.signBit b) (F32.mantissa a * F32.mantissa b)
      (F32.exponent a + F32.exponent b) := by
  simp only [F32.fmul, F32.not_isNaN_of_isFinite ha, F32.not_isNaN_of_isFinite hb, F32.not_isInf_of_isFinite ha,
    F32.not_isInf_of_isFinite hb, Bool.or_self, Bool.false_eq_true, if_false]

theorem F32.round_zero (negative : Bool) (e : Int) : F32.round negative 0 e = F32.pack negative 0 := by
  rw [F32.round, F32.roundMagnitude, if_pos rfl]

/-- The product of +0 and a finite value is the zero of that value's sign. -/
theorem F32.fmul_zero_left {c : Sample} (hc : F32.isFinite c = true) : F32.fmul 0 c = F32.pack (F32.signBit c) 0 := by
  rw [F32.fmul_of_isFinite (by decide) hc, show F32.mantissa 0 = 0 by decide, Nat.zero_mul, F32.round_zero,
    show F32.signBit 0 = false by decide, Bool.false_bne]

/-- A tap of either sign leaves the accumulator at +0. -/
theorem tapped_zero (sg : Sign) (negative : Bool) : tapped F32.params.num sg 0 (F32.pack negative 0) = 0 := by
  cases sg <;> cases negative <;> decide +kernel

/-! ## A silent half -/

section
variable {s : State} {a : Nat → Sample} {first : Nat}

theorem signedSum_zero {count : Nat} (ha : ∀ i < count, ∃ negative, a (first + i) = F32.pack negative 0) :
    signedSum F32.params s a first count = 0 := by
  induction count with
  | zero => exact f32_zero
  | succ count ih =>
    obtain ⟨negative, hlast⟩ := ha count (Nat.lt_succ_self count)
    rw [signedSum] at ih ⊢
    rw [List.range_succ, List.foldl_append, List.foldl_cons, List.foldl_nil,
      ih fun i hi => ha i (Nat.lt_succ_of_lt hi), hlast, tapped_zero]

theorem outputSample_zero (ha : ∀ i < s.numDelays / 2, ∃ negative, a (first + i) = F32.pack negative 0)
    (hzt : s.hasZeroTaps = false) (hfin : F32.isFinite s.invMatrixAtt = true)
    (hsign : F32.signBit s.invMatrixAtt = false) (u : Sample) : outputSample F32.params s a first u = 0 := by
  rw [outputSample, signedSum_zero ha, hzt]
  exact (F32.fmul_zero_left hfin).trans (by rw [hsign]; decide)

end

/-- From silent rings every attenuated sample is a zero, as long as the silence of the shortest line lasts (R94). -/
theorem runAtt_silent {s : State} (hnet : NetworkInv 0 s)
    (hsilent : ∀ i < s.numDelays, queueOf s i = List.replicate (s.delay.getD i 0) 0)
    (hcoef : ∀ c ∈ s.coef, F32.isFinite c = true) {i : Nat} (hi : i < s.numDelays) (k : Nat) :
    ∃ negative, runAtt F32.params s (queues s) i k = F32.pack negative 0 := by
  have hlen : s.coef.length = s.numDelays := hnet.2.1.2.1
  have hmem : s.coef.getD i F32.params.num.zero ∈ s.coef :=
    List.mem_of_getElem? (getElem?_eq_getD (by omega) F32.params.num.zero)
  have hzero : ((queues s).getD i []).getD k F32.params.num.zero = (0 : Sample) := by
    rw [queues_getD rfl (networkInv_file hnet), hsilent i hi, f32_zero, List.getD_eq_getElem?_getD,
      List.getElem?_replicate]
    split <;> rfl
  rw [runAtt, hzero]
  exact ⟨_, F32.fmul_zero_left (hcoef _ hmem)⟩

end Sys2Proof.Machine

namespace Sys2Proof

open Sys2Proof.Machine

/-- Settles O28: no sample of the run is older than the silence in the queues, so each output is the unity gain times a
signed sum of zeros. -/
theorem outputIsZeroBeforeTheShortestDelay : Obligations.OutputIsZeroBeforeTheShortestDelay := by
  unfold Obligations.OutputIsZeroBeforeTheShortestDelay
  intro n s hp hnet hs hzt hsilent hshort hcoef hfin hsign
  obtain ⟨t, hrun, -, -, houtL, houtR⟩ := exec_process_done hp hnet hs
  have hlength : (inputRun s n).length = n := inputRun_length hs.1 hs.2.1
  have hqueues : ∀ i < s.numDelays, (inputRun s n).length ≤ ((queues s).getD i []).length := by
    intro i hi
    have hdelay : s.delay.length = s.numDelays := hnet.2.1.1
    rw [queues_getD rfl (networkInv_file hnet), hsilent i hi, List.length_replicate, hlength]
    exact hshort _ (List.mem_of_getElem? (getElem?_eq_getD (by omega) 0))
  have hzeros (first : Nat) (hfirst : first + s.numDelays / 2 ≤ s.numDelays) (u : Nat → Sample) :
      ((List.range n).map fun k => outputSample F32.params s (fun i => runAtt F32.params s (queues s) i k) first (u k)) =
        List.replicate n 0 := by
    refine List.eq_replicate_iff.mpr ⟨by simp, fun v hv => ?_⟩
    obtain ⟨k, -, rfl⟩ := List.mem_map.mp hv
    exact outputSample_zero (fun i hi => runAtt_silent hnet hsilent hcoef (by omega) k) hzt hfin hsign _
  rw [recurrence_chunk (by simp [queues]) hqueues (0, 0), hlength] at houtL houtR
  exact ⟨t, hrun, houtL.trans (congrArg _ (hzeros 0 (by omega) _)), houtR.trans (congrArg _ (hzeros _ (by omega) _))⟩

end Sys2Proof
end

section
/-! The canonical form of the memory (spec/10_state.md R25, spec/20_memory.md R33) along every step from every state: each
operation of a chunk, each instruction and each thing the sequencer can do next keeps it. -/

namespace Sys2Proof.Machine

/-! ## The steps of a chunk -/

section
variable {α : Type} {P : Params α} {s t : Generic.State α}

theorem memory_wf_openWindows {req i : Nat} (h : Memory.wf s = true) (ht : openWindows req s i = .ok t) :
    Memory.wf t = true := by
  simp only [openWindows, res_bind_eq_ok] at ht
  obtain ⟨⟨gr, s1⟩, hread, ⟨gw, s2⟩, hwrite, ht⟩ := ht
  cases ht
  have h2 : Memory.wf s2 = true := memory_wf_peekWritable (s := s1) (memory_wf_peekReadable h hread) hwrite
  exact h2

theorem memory_wf_stepWindows (h : Memory.wf s = true) (ht : stepWindows s = .ok t) : Memory.wf t = true := by
  simp only [stepWindows, res_bind_eq_ok] at ht
  obtain ⟨s1, hall, ht⟩ := ht
  have h1 := foldlM_keeps (p := fun u => Memory.wf u = true) (fun _ _ _ _ => memory_wf_openWindows) h hall
  cases ht
  split
  · exact h1
  · exact h1

theorem memory_wf_tapLine {i : Nat} (h : Memory.wf s = true) (ht : tapLine P s i = .ok t) : Memory.wf t = true := by
  simp only [tapLine, res_bind_eq_ok] at ht
  obtain ⟨sg, -, row, -, ht⟩ := ht
  split at ht
  · cases ht; exact h
  · cases ht; exact h

theorem memory_wf_stepZeroTap (h : Memory.wf s = true) : Memory.wf (stepZeroTap P s) = true := by
  rw [stepZeroTap]
  split
  · exact h
  · exact h

theorem memory_wf_chunkFront (h : Memory.wf s = true) (ht : chunkFront P s = .ok t) : Memory.wf t = true := by
  simp only [chunkFront, stepDecay, stepTaps, res_bind_eq_ok] at ht
  obtain ⟨s1, hwindows, s2, ⟨rows, -, hdecay⟩, s3, htaps, ht⟩ := ht
  cases hdecay
  cases ht
  have h1 : Memory.wf s1 = true := memory_wf_stepWindows (s := stepZero P (stepCache P s)) h hwindows
  have h3 : Memory.wf s3 = true := foldlM_keeps (p := fun u => Memory.wf u = true) (fun _ _ _ _ => memory_wf_tapLine)
    (s := { s1 with att := rows }) h1 htaps
  exact memory_wf_stepZeroTap (s := stepUnity P s3) h3

theorem memory_wf_mixAt {b k : Nat} (h : Memory.wf s = true) (ht : mixAt P b s k = .ok t) : Memory.wf t = true := by
  simp only [mixAt, res_bind_eq_ok] at ht
  obtain ⟨x, -, y, -, ht⟩ := ht
  exact foldlM_keeps (p := fun u => Memory.wf u = true) (fun _ _ _ _ => memory_wf_wrWin) (s := setMixed s y) h ht

theorem memory_wf_injectLine {cache : List α} {i : Nat} (h : Memory.wf s = true) (ht : injectLine P cache s i = .ok t) :
    Memory.wf t = true := by
  refine foldlM_keeps (p := fun u => Memory.wf u = true) (fun u u' p _ hu hu' => ?_) h ht
  simp only [injectAt, res_bind_eq_ok] at hu'
  obtain ⟨v, -, hwrite⟩ := hu'
  exact memory_wf_wrWin hu hwrite

theorem memory_wf_closeWindows {n i : Nat} (h : Memory.wf s = true) (ht : closeWindows n s i = .ok t) :
    Memory.wf t = true := by
  simp only [closeWindows, res_bind_eq_ok] at ht
  obtain ⟨s1, hrelease, hcommit⟩ := ht
  exact memory_wf_commitWrite (memory_wf_releaseRead h hrelease) hcommit

theorem memory_wf_chunkBack (h : Memory.wf s = true) (ht : chunkBack P s = .ok t) : Memory.wf t = true := by
  simp only [chunkBack, stepInject, res_bind_eq_ok] at ht
  obtain ⟨s1, hmix, s2, ⟨s1', hleft, hright⟩, s3, hcommit, ht⟩ := ht
  cases ht
  have h1 : Memory.wf s1 = true := foldlM_keeps (p := fun u => Memory.wf u = true)
    (fun _ _ _ _ hu hlines => foldlM_keeps (p := fun u => Memory.wf u = true) (fun _ _ _ _ => memory_wf_mixAt) hu hlines)
    (s := stepOutput s) h hmix
  have h1' : Memory.wf s1' = true :=
    foldlM_keeps (p := fun u => Memory.wf u = true) (fun _ _ _ _ => memory_wf_injectLine) h1 hleft
  have h2 : Memory.wf s2 = true :=
    foldlM_keeps (p := fun u => Memory.wf u = true) (fun _ _ _ _ => memory_wf_injectLine) h1' hright
  have h3 : Memory.wf s3 = true :=
    foldlM_keeps (p := fun u => Memory.wf u = true) (fun _ _ _ _ => memory_wf_closeWindows) h2 hcommit
  exact h3

theorem memory_wf_runProcess (fuel : Nat) (h : Memory.wf s = true) (ht : runProcess P fuel s = .ok t) :
    Memory.wf t = true := by
  induction fuel generalizing s with
  | zero => cases ht; exact h
  | succ fuel ih =>
    rw [runProcess] at ht
    split at ht
    · split at ht
      · cases ht; exact h
      · split at ht
        · obtain ⟨s1, hfront, hrun⟩ := res_bind_eq_ok.mp ht
          exact ih (memory_wf_chunkFront (s := beginChunk s) h hfront) hrun
        · cases ht; exact h
    · split at ht
      · obtain ⟨s1, hback, hrun⟩ := res_bind_eq_ok.mp ht
        exact ih (memory_wf_chunkBack h hback) hrun
      · cases ht; exact h
    · cases ht; exact h
    · cases ht; exact h

/-! ## Construction -/

/-- The rings a construction leaves are those of `RING_INIT` and no others (R74). -/
theorem Constructed.memory_wf {topo : Topology α} {lo hi : Nat} (h : Constructed P topo lo hi s t) :
    Memory.wf t = true := by
  obtain ⟨hwf, hlines⟩ := h.file
  refine memory_wf_iff.mpr ⟨hwf, fun p hp => ?_⟩
  have hread := (Store.mem_iff_read hwf p.1 p.2).mp hp
  rw [Option.some.inj (hread.symm.trans (h.rings p.1 (hlines p hp)))]
  exact ringWf_initial _ _ _

end

theorem construct_eq_ok {topo : Topology Sample} {s t : State} (hr : s.rings = [])
    (h : construct F32.params topo s = .ok t) : ∃ lo hi, Constructed F32.params topo lo hi s t := by
  rw [construct, res_bind_eq_ok] at h
  obtain ⟨⟨lo, hi⟩, hpre, h⟩ := h
  obtain ⟨hlo, hle, -⟩ := checkPreconditions_bounds hpre
  obtain ⟨u, hu, hcon⟩ := constructNetwork_ok (P := F32.params) (t := topo) hr hlo hle
  obtain rfl : u = t := Except.ok.inj (hu.symm.trans h)
  exact ⟨lo, hi, hcon⟩

theorem memory_wf_construct {topo : Topology Sample} {s t : State}
    (h : construct F32.params topo (dropNetwork s) = .ok t) : Memory.wf t = true := by
  obtain ⟨lo, hi, hcon⟩ := construct_eq_ok (s := dropNetwork s) rfl h
  exact hcon.memory_wf

/-! ## The instructions -/

section
variable {s t : State}

theorem memory_wf_inIdle {e : Res State} (h : Memory.wf s = true) (he : e = .ok t → Memory.wf t = true)
    (ht : inIdle F32.params s e = .ok t) : Memory.wf t = true := by
  rw [inIdle] at ht
  split at ht
  · exact he ht
  · cases ht; rfl
  · cases ht; exact h
  · cases ht; exact h

theorem memory_wf_inUnbuilt {e : Res State} (h : Memory.wf s = true) (he : e = .ok t → Memory.wf t = true)
    (ht : inUnbuilt F32.params s e = .ok t) : Memory.wf t = true := by
  rw [inUnbuilt] at ht
  split at ht
  · exact he ht
  · cases ht; rfl
  · cases ht; exact h
  · cases ht; exact h

theorem memory_wf_buildEffect {n bs shift : Nat} {zt : Bool} {lo hi rate : Word}
    (ht : buildEffect F32.params n bs shift zt lo hi rate s = .ok t) : Memory.wf t = true := by
  rw [buildEffect] at ht
  split at ht
  · cases ht; rfl
  · exact memory_wf_construct ht

theorem memory_wf_setRt60Effect {seconds : Word} (h : Memory.wf s = true)
    (ht : setRt60Effect F32.params seconds s = .ok t) : Memory.wf t = true := by
  rw [setRt60Effect, sampleOperand_f32, res_bind_ok] at ht
  split at ht
  · cases ht; exact h
  · cases ht

theorem memory_wf_setInputPanEffect {pan : Word} (h : Memory.wf s = true)
    (ht : setInputPanEffect F32.params pan s = .ok t) : Memory.wf t = true := by
  rw [setInputPanEffect, sampleOperand_f32, res_bind_ok] at ht
  split at ht
  · cases ht; exact h
  · cases ht

theorem memory_wf_outcome_setMixed {x : Res (List Sample)} (h : Memory.wf s = true)
    (ht : outcome (x.map (setMixed s)) = .next t) : Memory.wf t = true := by
  obtain ⟨y, -, rfl⟩ := outcome_map_eq_next.mp ht
  exact h

/-- Every instruction in every phase. -/
theorem memory_wf_exec {i : Instr} (h : Memory.wf s = true) (ht : exec i s = .next t) : Memory.wf t = true := by
  cases i with
  | build => exact memory_wf_inUnbuilt h memory_wf_buildEffect (outcome_eq_next.mp ht)
  | destroy => exact memory_wf_inIdle h (fun he => by cases he; rfl) (outcome_eq_next.mp ht)
  | process n =>
    exact memory_wf_inIdle h (memory_wf_runProcess _ (s := beginProcess n s) h) (outcome_eq_next.mp ht)
  | setRt60 => exact memory_wf_inIdle h (memory_wf_setRt60Effect h) (outcome_eq_next.mp ht)
  | setMaxDelay => exact memory_wf_inIdle h memory_wf_construct (outcome_eq_next.mp ht)
  | setInputPan => exact memory_wf_inIdle h (memory_wf_setInputPanEffect h) (outcome_eq_next.mp ht)
  | peekReadable =>
    obtain ⟨⟨g, u⟩, hu, rfl⟩ := outcome_map_eq_next.mp ht
    exact memory_wf_peekReadable h hu
  | peekWritable =>
    obtain ⟨⟨g, u⟩, hu, rfl⟩ := outcome_map_eq_next.mp ht
    exact memory_wf_peekWritable h hu
  | commitWrite => exact memory_wf_commitWrite h (outcome_eq_next.mp ht)
  | releaseRead => exact memory_wf_releaseRead h (outcome_eq_next.mp ht)
  | ringInit => exact memory_wf_ringInit h (outcome_eq_next.mp ht)
  | had1 | had2 | had4 | had8 => exact memory_wf_outcome_setMixed h ht

/-! ## What the sequencer can do next -/

/-- The port, whether ready or not: nothing, an illegal command, a command, or a wait for more words. -/
theorem nextCommand_cases {α : Type} (P : Params α) (s : Generic.State α) :
    nextCommand P s = .goto s ∨ (∃ n, nextCommand P s = .goto (raiseIllegal P (takeWords n s))) ∨
      (∃ i rest, nextCommand P s = .run i { s with cmd := rest }) ∨ nextCommand P s = .goto (awaitWords s) := by
  unfold nextCommand
  split
  · exact .inl rfl
  · split
    · exact .inr (.inl ⟨1, rfl⟩)
    · split
      · exact .inr (.inr (.inl ⟨_, _, rfl⟩))
      · exact .inr (.inr (.inr rfl))
      · exact .inr (.inl ⟨_, rfl⟩)

theorem untake_rings (s : State) : (untake s).rings = s.rings := by
  rw [untake]
  split
  · rfl
  · rfl
  · rfl
  · rfl

/-- A move that goes somewhere: to a state whose memory has the form, to an instruction there, or on with a `PROCESS`. -/
theorem memory_wf_of_nextCommand (h : Memory.wf s = true) (hstep : step s = .next t) {u : State} (hu : u.rings = s.rings)
    (hmove : nextMove F32.params s = nextCommand F32.params u) : Memory.wf t = true := by
  have hwf : Memory.wf u = true := (memory_wf_congr hu).trans h
  rw [step, hmove] at hstep
  obtain hgo | ⟨n, hgo⟩ | ⟨i, rest, hgo⟩ | hgo := nextCommand_cases F32.params u
  · rw [hgo] at hstep; cases hstep; exact hwf
  · rw [hgo] at hstep; cases hstep; rfl
  · rw [hgo] at hstep; exact memory_wf_exec (s := { u with cmd := rest }) hwf hstep
  · rw [hgo] at hstep; cases hstep; exact hwf

theorem memory_wf_step (h : Memory.wf s = true) (ht : step s = .next t) : Memory.wf t = true := by
  cases hpin : s.resetPin with
  | true =>
    rw [step_reset hpin] at ht
    cases ht
    rfl
  | false =>
    cases hreq : s.request with
    | some r =>
      obtain ⟨i, -, hi⟩ := (step_request_eq_next hpin hreq).mp ht
      exact memory_wf_exec (s := { s with request := none }) h hi
    | none =>
      have hprocess (hp : s.progress = .loopHead ∨ s.progress = .outputWrite) : Memory.wf t = true := by
        rw [step_resumes hpin hreq hp] at ht
        exact memory_wf_runProcess _ h (outcome_eq_next.mp ht)
      cases hprog : s.progress with
      | loopHead => exact hprocess (.inl hprog)
      | outputWrite => exact hprocess (.inr hprog)
      | receiving p taken =>
        exact memory_wf_of_nextCommand h ht (untake_rings s) (by simp [nextMove, hpin, hreq, hprog])
      | rest =>
        cases hready : s.phase.ready with
        | true => exact memory_wf_of_nextCommand h ht rfl (nextMove_ready ⟨hpin, hreq, hprog⟩ hready)
        | false =>
          rw [step_notReady hpin hreq hprog hready] at ht
          cases ht
          exact h

end

end Sys2Proof.Machine

namespace Sys2Proof

open Sys2Proof.Machine

/-- Settles O59: `RESET` leaves no ring, and every instruction, command and continued `PROCESS` keeps the form. -/
theorem stepKeepsTheMemoryForm : Obligations.StepKeepsTheMemoryForm := by
  unfold Obligations.StepKeepsTheMemoryForm
  intro s t
  exact memory_wf_step

end Sys2Proof
end

section
/-! A standing network's topology (spec/10_state.md R20, R30): what each operation in `IDLE` keeps of the registers that a
construction writes, of the delays and signs, and of the capacities. -/

namespace Sys2Proof.Machine

/-- What an operation that leaves a network may not change of the one before it (R20, R30). -/
abbrev KeepsNetwork (i : Instr) (s t : State) : Prop :=
  (t.numDelays = s.numDelays ∧ t.blockSize = s.blockSize ∧ t.fbShift = s.fbShift ∧ t.hasZeroTaps = s.hasZeroTaps ∧
    t.sampleRate = s.sampleRate ∧ t.minDelaySeconds = s.minDelaySeconds) ∧
  ((∀ w, i ≠ .setMaxDelay w) → SameTopology s t ∧ t.delay = s.delay ∧ t.sign = s.sign ∧
    ((∀ line n m, i ≠ .ringInit line n m) → ∀ d < s.numDelays, ∃ r r', Store.read s.rings d = some r ∧
      Store.read t.rings d = some r' ∧ r'.cap = r.cap))

/-- The registers and the lines of R30 both the same is more than enough. -/
theorem keepsNetwork_of_same {i : Instr} {s t : State} (htop : SameTopology s t) (hlines : SameLines s t) :
    KeepsNetwork i s t := by
  obtain ⟨hn, hbs, hfb, hzt, -, -, hrate, hmin, -⟩ := id htop
  exact ⟨⟨hn, hbs, hfb, hzt, hrate, hmin⟩, fun _ => ⟨htop, hlines.1, hlines.2.1, fun _ => hlines.2.2⟩⟩

theorem sameLines_putRing {α : Type} {w i : Nat} {s : Generic.State α} {r r' : Ring α} (hnet : NetworkInv w s)
    (hr : ringAt s i = some r) (hcap : r'.cap = r.cap) : SameLines s (putRing s i r') := by
  refine ⟨rfl, rfl, fun d hd => ?_⟩
  obtain ⟨-, hread⟩ := ringAt_eq_some.mp hr
  by_cases hdi : d = i
  · subst hdi
    exact ⟨r, r', hread, Store.read_write_same _ _ _, hcap⟩
  · obtain ⟨q, hq, -⟩ := networkInv_ring hnet hd
    exact ⟨q, q, hq, (Store.read_write_other _ _ hdi).trans hq, rfl⟩

/-- The rebuild takes all but its upper bound from the registers (R110); the shift is a multiple of the block (R69). -/
theorem keepsNetwork_setMaxDelay {seconds : Word} {s t : State} (hnet : NetworkInv 0 s)
    (ht : construct F32.params (rebuildTopology s seconds) (dropNetwork s) = .ok t) :
    KeepsNetwork (.setMaxDelay seconds) s t := by
  obtain ⟨lo, hi, hcon⟩ := construct_eq_ok (s := dropNetwork s) rfl ht
  obtain ⟨delay, sign, R, rfl⟩ := hcon.same
  obtain ⟨⟨-, -, -, -, hfb, -⟩, -⟩ := hnet
  exact ⟨⟨rfl, rfl, Nat.div_mul_cancel (Nat.dvd_of_mod_eq_zero hfb), rfl, rfl, rfl⟩, fun h => absurd rfl (h seconds)⟩

section
variable {s t : State} (hp : s.phase = .idle) (hnet : NetworkInv 0 s)
include hp hnet

/-- Every instruction in `IDLE` that leaves a network. -/
theorem keepsNetwork_exec {i : Instr} (ht : exec i s = .next t) (hstands : t.phase = .idle ∨ t.phase = .busy) :
    KeepsNetwork i s t := by
  have hsame {i : Instr} : KeepsNetwork i s s := keepsNetwork_of_same (by simp [SameTopology]) (sameLines_refl hnet)
  have hput {i : Instr} {line : Nat} {r r' : Ring Sample} (hr : ringAt s line = some r) (hcap : r'.cap = r.cap) :
      KeepsNetwork i s (putRing s line r') :=
    keepsNetwork_of_same (by simp [SameTopology]) (sameLines_putRing hnet hr hcap)
  have hmixer {i : Instr} {x : Res (List Sample)} (hx : outcome (x.map (setMixed s)) = .next t) :
      KeepsNetwork i s t := by
    obtain ⟨y, -, rfl⟩ := outcome_map_eq_next.mp hx
    exact hsame
  cases i with
  | build n bs shift zt lo hi rate =>
    rw [exec_command_outOfPhase rfl (.inr ⟨hp, n, bs, shift, zt, lo, hi, rate, rfl⟩)] at ht
    cases ht
    obtain h | h := hstands <;> cases h
  | destroy =>
    rw [exec_destroy_idle hp] at ht
    cases ht
    obtain h | h := hstands <;> cases h
  | process n =>
    obtain ⟨u, m, hu, -, ⟨⟨htop, hlines, -⟩, -⟩, -⟩ := processEffect_keeps F32.params n hnet
    rw [exec_process_idle hp, hu, outcome_ok] at ht
    cases ht
    exact keepsNetwork_of_same htop hlines
  | setRt60 seconds =>
    rw [exec_setRt60_idle seconds hp] at ht
    split at ht
    · cases ht; exact hsame
    · cases ht
  | setMaxDelay seconds =>
    rw [exec_setMaxDelay_idle hp] at ht
    exact keepsNetwork_setMaxDelay hnet (outcome_eq_next.mp ht)
  | setInputPan pan =>
    rw [exec_setInputPan_idle pan hp] at ht
    split at ht
    · cases ht; exact hsame
    · cases ht
  | peekReadable line n =>
    obtain ⟨⟨g, u⟩, hu, rfl⟩ := outcome_map_eq_next.mp ht
    obtain ⟨r, hr, -, -, rfl⟩ := peekReadable_eq_ok.mp hu
    exact hput hr rfl
  | peekWritable line n =>
    obtain ⟨⟨g, u⟩, hu, rfl⟩ := outcome_map_eq_next.mp ht
    obtain ⟨r, hr, -, -, rfl⟩ := peekWritable_eq_ok.mp hu
    exact hput hr rfl
  | commitWrite line n =>
    obtain ⟨r, hr, -, rfl⟩ := commitWrite_eq_ok.mp (outcome_eq_next.mp ht)
    exact hput hr rfl
  | releaseRead line n =>
    obtain ⟨r, hr, -, rfl⟩ := releaseRead_eq_ok.mp (outcome_eq_next.mp ht)
    exact hput hr rfl
  | ringInit line n m =>
    obtain ⟨-, -, rfl⟩ := ringInit_eq_ok.mp (outcome_eq_next.mp ht)
    exact ⟨by simp, fun _ => ⟨by simp [SameTopology], rfl, rfl, fun h => absurd rfl (h line n m)⟩⟩
  | had1 | had2 | had4 | had8 => exact hmixer ht

end

end Sys2Proof.Machine

namespace Sys2Proof

open Sys2Proof.Machine

/-- Settles O60: the instructions in `IDLE` one by one, and the frame of a `PROCESS` that goes on. -/
theorem topologyIsImmutable : Obligations.TopologyIsImmutable := by
  unfold Obligations.TopologyIsImmutable
  refine ⟨fun i s t hp hnet ht => keepsNetwork_exec hp hnet ht, fun s t ⟨hinv, hpin, hprog⟩ ht => ?resumed⟩
  case resumed =>
    have hne : s.progress ≠ .rest := by obtain h | h := hprog <;> simp [h]
    obtain ⟨u, m, hu, -, ⟨⟨htop, hlines, hcoef, hpan, -⟩, -⟩, -⟩ :=
      continueProcess_keeps F32.params (hinv.processing hprog) hne
    rw [step_resumes hpin hinv.1 hprog, hu, outcome_ok] at ht
    cases ht
    exact ⟨htop, hlines, hcoef, hpan⟩

end Sys2Proof
end

section
/-! The registers at the `REG` port by number (spec/10_state.md R18, R19, R31), and the state after reset (R29). -/

namespace Sys2Proof.Machine

section
variable {P : Params Sample} {nonce no : Nat} {s : State}

/-- A natural number of 32 bits reads as its value. -/
theorem natWord_value {n : Nat} (h : n < 2 ^ 32) : ∃ w, natWord P nonce no n = some w ∧ w.toNat = n :=
  ⟨BitVec.ofNat 32 n, natWord_lt h, (BitVec.toNat_ofNat ..).trans (Nat.mod_eq_of_lt h)⟩

theorem readReg_line_unnamed {i f : Nat} (hi : s.numDelays ≤ i) (h16 : i < 2 ^ 16) (hf : f < 4) :
    readReg P nonce (lineBase + 4 * i + f) s = some 0 :=
  readReg_unnamed (by rw [namesRegister_line h16 hf]; exact decide_eq_false (Nat.not_lt.mpr hi))

theorem readReg_ring_unnamed {i f : Nat} (h : s.numDelays ≤ i ∨ 6 ≤ f) (hf : f < 8) :
    readReg P nonce (ringBase + 8 * i + f) s = some 0 := by
  refine readReg_unnamed ?_
  rw [namesRegister_ring hf, Bool.and_eq_false_iff, decide_eq_false_iff_not, decide_eq_false_iff_not]
  omega

end

section
variable {s : State} {i : Nat}

/-- The line register file at the port (R31), every delay being a number of 32 bits. -/
theorem readReg_line_registers (nonce : Nat) (hp : s.phase = .idle) (hnet : NetworkInv 0 s) (h16 : s.numDelays < 2 ^ 16)
    (hi : i < s.numDelays) : ∃ d c g, s.delay[i]? = some d ∧ s.coef[i]? = some c ∧ s.sign[i]? = some g ∧
      readReg F32.params nonce (lineBase + 4 * i + 0) s = some (BitVec.ofNat 32 d) ∧
      readReg F32.params nonce (lineBase + 4 * i + 1) s = some c ∧
      readReg F32.params nonce (lineBase + 4 * i + 2) s = some (if g = .plus then 0 else 1) ∧
      readReg F32.params nonce (lineBase + 4 * i + 3) s = some (if i < s.numDelays / 2 then 0 else 1) := by
  obtain ⟨⟨-, -, -, -, -, -, -, -, -, hcap⟩, ⟨hdelay, hcoef, hsign, hrange⟩, -⟩ := hnet
  obtain ⟨d, hd⟩ : ∃ d, s.delay[i]? = some d := ⟨_, List.getElem?_eq_getElem (hdelay.symm ▸ hi)⟩
  obtain ⟨c, hc⟩ : ∃ c, s.coef[i]? = some c := ⟨_, List.getElem?_eq_getElem (hcoef.symm ▸ hi)⟩
  obtain ⟨g, hg⟩ : ∃ g, s.sign[i]? = some g := ⟨_, List.getElem?_eq_getElem (hsign.symm ▸ hi)⟩
  have hd32 : d < 2 ^ 32 := by
    have hle := (hrange d (List.mem_of_getElem? hd)).2
    have hcap : s.maxDelaySamples + s.minDelaySamples < 2 ^ 32 := hcap
    omega
  have hread {f : Nat} (hf : f < 4) := readReg_line (P := F32.params) (nonce := nonce) hp hi (hi.trans h16) hf
  refine ⟨d, c, g, hd, hc, hg, ?_, ?_, ?_, ?_⟩
  · rw [hread (by omega), lineWord, if_pos rfl, List.getD_eq_getElem?_getD, hd]
    exact natWord_lt hd32
  · rw [hread (by omega), lineWord, if_neg (by omega), if_pos rfl, hc]
    rfl
  · rw [hread (by omega), lineWord, if_neg (by omega), if_neg (by omega), if_pos rfl, hg]
    cases g <;> rfl
  · rw [hread (by omega), lineWord, if_neg (by omega), if_neg (by omega), if_neg (by omega), chanOf]
    split
    · rfl
    · rfl

/-- The ring of a line at the port (R31); the capacity bounds every count of the ring. -/
theorem readReg_ring_registers (nonce : Nat) (hp : s.phase = .idle) (hnet : NetworkInv 0 s) (hi : i < s.numDelays) :
    ∃ r, Store.read s.rings i = some r ∧
      readReg F32.params nonce (ringBase + 8 * i + 0) s = some (BitVec.ofNat 32 r.cap) ∧
      readReg F32.params nonce (ringBase + 8 * i + 1) s = some (BitVec.ofNat 32 r.rd) ∧
      readReg F32.params nonce (ringBase + 8 * i + 2) s = some (BitVec.ofNat 32 r.wr) ∧
      readReg F32.params nonce (ringBase + 8 * i + 3) s = some (BitVec.ofNat 32 r.fill) ∧
      readReg F32.params nonce (ringBase + 8 * i + 4) s = some (BitVec.ofNat 32 r.rwin) ∧
      readReg F32.params nonce (ringBase + 8 * i + 5) s = some (BitVec.ofNat 32 r.wwin) := by
  obtain ⟨r, hr, ⟨hpos, hrd, hfill, hwr, hrwin, hwwin, -⟩, hcap, -⟩ := networkInv_ring hnet hi
  obtain ⟨⟨-, -, -, -, -, -, -, -, -, hbits⟩, ⟨hdelay, -, -, hrange⟩, -⟩ := hnet
  have hd := (hrange _ (List.mem_of_getElem? (getElem?_eq_getD (hdelay.symm ▸ hi) 0))).2
  have hcap32 : r.cap < 2 ^ 32 := by
    have hbits : s.maxDelaySamples + s.minDelaySamples < 2 ^ 32 := hbits
    omega
  have hwrlt : r.wr < r.cap := hwr ▸ Nat.mod_lt _ hpos
  have hread {f n : Nat} (hf : f < 6) (hn : n ≤ r.cap)
      (hword : ∀ no, ringWord F32.params nonce no i f s = natWord F32.params nonce no n) :
      readReg F32.params nonce (ringBase + 8 * i + f) s = some (BitVec.ofNat 32 n) := by
    rw [readReg_ring hp hi hf, hword, natWord_lt (by omega)]
  have hring (no f : Nat) : ringWord F32.params nonce no i f s =
      if f = 0 then natWord F32.params nonce no r.cap
      else if f = 1 then natWord F32.params nonce no r.rd
      else if f = 2 then natWord F32.params nonce no r.wr
      else if f = 3 then natWord F32.params nonce no r.fill
      else if f = 4 then natWord F32.params nonce no r.rwin
      else natWord F32.params nonce no r.wwin := by
    rw [ringWord, hr]
  exact ⟨r, hr, hread (by omega) le_rfl fun no => hring no 0, hread (by omega) hrd.le fun no => hring no 1,
    hread (by omega) hwrlt.le fun no => hring no 2, hread (by omega) hfill fun no => hring no 3,
    hread (by omega) (by omega) fun no => hring no 4, hread (by omega) (by omega) fun no => hring no 5⟩

end

end Sys2Proof.Machine

namespace Sys2Proof

open Sys2Proof.Machine

/-- Settles O53: the word is a sum of three terms of disjoint bits, one for each flag and one for the phase. -/
theorem statusWordHoldsTheFlags : Obligations.StatusWordHoldsTheFlags := by
  unfold Obligations.StatusWordHoldsTheFlags
  intro s
  rw [statusWord]
  cases s.phase <;> cases s.shortfall <;> cases s.hasZeroTaps <;> decide

/-- Settles O54: a number from 19 on names nothing, and outside `BUSY` the others read their control register. -/
theorem regPortReadsTheControlRegisters : Obligations.RegPortReadsTheControlRegisters := by
  unfold Obligations.RegPortReadsTheControlRegisters
  intro s nonce
  refine ⟨fun no hlow hhigh => readReg_unnamed ?unnamed, fun hp => ?named⟩
  case unnamed =>
    rw [namesRegister_control hhigh]
    exact decide_eq_false (Nat.not_lt.mpr hlow)
  case named =>
    have hread {no : Nat} (hno : no < 19) := readReg_control (P := F32.params) (nonce := nonce) hno hp
    have hnat {no n : Nat} (hno : no < 19)
        (hword : controlWord F32.params nonce no s = natWord F32.params nonce no n) (hn : n < 2 ^ 32) :
        ∃ w, readReg F32.params nonce no s = some w ∧ w.toNat = n := by
      rw [hread hno, hword]
      exact natWord_value hn
    exact ⟨hread (by omega), hread (by omega), hnat (by omega) rfl, hnat (by omega) rfl, hnat (by omega) rfl,
      hnat (by omega) rfl, hread (by omega), hnat (by omega) rfl, hnat (by omega) rfl, hread (by omega),
      hread (by omega), hread (by omega), hread (by omega), hread (by omega), hread (by omega), hread (by omega)⟩

/-- Settles O55: the registers of a line and its ring, and the numbers that name none. -/
theorem regPortReadsTheLines : Obligations.RegPortReadsTheLines := by
  unfold Obligations.RegPortReadsTheLines
  intro s nonce
  refine ⟨fun hp hnet h16 i hi => ?named, fun i _ => ⟨?spare6, ?spare7⟩, fun i hi h16 => ⟨fun f hf => ?line, fun f hf => ?ring⟩,
    fun hp no hno => readReg_noNetwork hp hno, fun _ => readReg_status⟩
  case named =>
    obtain ⟨d, c, g, hd, hc, hg, hline⟩ := readReg_line_registers nonce hp hnet h16 hi
    obtain ⟨r, hr, hring⟩ := readReg_ring_registers nonce hp hnet hi
    obtain ⟨hdelay, hcoef, hsign, hchan⟩ := hline
    exact ⟨d, c, g, r, hd, hc, hg, hr, hdelay, hcoef, hsign, hchan, hring⟩
  case spare6 => exact readReg_ring_unnamed (.inr le_rfl) (by omega)
  case spare7 => exact readReg_ring_unnamed (.inr (by omega)) (by omega)
  case line => exact readReg_line_unnamed hi h16 hf
  case ring => exact readReg_ring_unnamed (.inl hi) hf

/-- Settles O56: the values of R29, and what they say of the invariants: no network stands. -/
theorem resetStateMeetsTheInvariants : Obligations.ResetStateMeetsTheInvariants := by
  unfold Obligations.ResetStateMeetsTheInvariants
  have hno : NoNetwork State.reset := ⟨rfl, rfl, rfl, rfl, rfl⟩
  have hphase : State.reset.phase = .fault ↔ State.reset.faultCause ≠ 0 := by decide
  exact ⟨rfl, rfl, rfl, rfl, rfl, hno, ⟨rfl, hphase, rfl, rfl, hno⟩, registersLegal_of_noNetwork hno, memory_wf_reset⟩

end Sys2Proof
end

section
/-! The block mixer (spec/42_block_mixer.md R83 to R87) and the stride map (spec/41_construction.md R73): the answers at
the mixer interface, the transform over the reals as the matrix of signs, and that the stride map is onto only when it is
one-to-one. -/

namespace Sys2Proof.Machine

/-! ## The mixer interface -/

/-- A transform that has its samples answers them in the mixer's vector; one that has not is refused. -/
theorem outcome_setMixed_ok {s : State} {x : Res (List Sample)} {y : List Sample} (h : x = .ok y) :
    outcome (x.map (setMixed s)) = .next (setMixed s y) := by rw [h]; rfl

theorem outcome_setMixed_short {s : State} {x : Res (List Sample)}
    (h : x = .error (.refusal .mixerVectorTooShort)) :
    outcome (x.map (setMixed s)) = .refused .mixerVectorTooShort := by rw [h]; rfl

section
variable {α : Type} {num : Num α} {x : List α}

theorem mix2_short (h : x.length < 2) : mix2 num x = .error (.refusal .mixerVectorTooShort) := by
  unfold mix2
  split
  · simp only [List.length_cons] at h; omega
  · rfl

theorem mix4_short (h : x.length < 4) : mix4 num x = .error (.refusal .mixerVectorTooShort) := by
  unfold mix4
  split
  · simp only [List.length_cons] at h; omega
  · rfl

theorem mix8_short (h : x.length < 8) : mix8 num x = .error (.refusal .mixerVectorTooShort) := by
  unfold mix8
  split
  · simp only [List.length_cons] at h; omega
  · rfl

end

/-! ## The matrix of signs -/

/-- The parity of the bits that two indices of `lg` bits have in common, as a sign (R87). -/
def walshSign (lg j m : Nat) : ℝ := (-1 : ℝ) ^ ((List.range lg).countP fun b => j.testBit b && m.testBit b)

/-- One more bit contributes -1 when both indices have it. -/
theorem walshSign_succ (lg j m : Nat) :
    walshSign (lg + 1) j m = walshSign lg j m * if j.testBit lg && m.testBit lg then -1 else 1 := by
  rw [walshSign, walshSign, List.range_succ, List.countP_append, pow_add, List.countP_singleton]
  split <;> simp

theorem walshSign_comm (lg j m : Nat) : walshSign lg j m = walshSign lg m j := by
  simp only [walshSign, Bool.and_comm]

theorem walshSign_zero (lg m : Nat) : walshSign lg 0 m = 1 := by simp [walshSign]

theorem walshSign_eq (lg j m : Nat) : walshSign lg j m = 1 ∨ walshSign lg j m = -1 := neg_one_pow_eq_or ℝ _

/-- A bit above the first `lg` does not count. -/
theorem walshSign_add_pow (lg j m : Nat) : walshSign lg j (2 ^ lg + m) = walshSign lg j m := by
  rw [walshSign, walshSign]
  congr 1
  refine List.countP_congr fun b hb => ?_
  rw [Nat.testBit_two_pow_add_gt (List.mem_range.mp hb)]

section
variable {lg j m : Nat} (hj : j < 2 ^ lg)
include hj

/-- In the upper rows of the doubled matrix, in the lower rows, and in both halves of its columns (Sylvester). -/
theorem walshSign_low (m : Nat) : walshSign (lg + 1) j m = walshSign lg j m := by
  rw [walshSign_succ, Nat.testBit_lt_two_pow hj, Bool.false_and, if_neg Bool.false_ne_true, mul_one]

theorem walshSign_low_high (m : Nat) : walshSign (lg + 1) j (2 ^ lg + m) = walshSign lg j m := by
  rw [walshSign_low hj, walshSign_add_pow]

omit hj in
theorem walshSign_high_low (j : Nat) (hm : m < 2 ^ lg) :
    walshSign (lg + 1) (2 ^ lg + j) m = walshSign lg j m := by
  rw [walshSign_comm, walshSign_low_high hm, walshSign_comm]

theorem walshSign_high_high (hm : m < 2 ^ lg) :
    walshSign (lg + 1) (2 ^ lg + j) (2 ^ lg + m) = -walshSign lg j m := by
  rw [walshSign_succ, walshSign_add_pow, walshSign_comm lg (2 ^ lg + j), walshSign_add_pow, walshSign_comm lg m,
    Nat.testBit_two_pow_add_eq, Nat.testBit_two_pow_add_eq, Nat.testBit_lt_two_pow hj, Nat.testBit_lt_two_pow hm]
  simp

end

/-- Two rows multiply to the row of their exclusive or. -/
theorem walshSign_mul (lg j k m : Nat) : walshSign lg j m * walshSign lg k m = walshSign lg (j ^^^ k) m := by
  induction lg with
  | zero => simp [walshSign]
  | succ lg ih =>
    rw [walshSign_succ, walshSign_succ, walshSign_succ, mul_mul_mul_comm, ih, Nat.testBit_xor]
    cases j.testBit lg <;> cases k.testBit lg <;> cases m.testBit lg <;> norm_num

theorem sum_two_pow_succ (lg : Nat) (f : Nat → ℝ) : ∑ m ∈ Finset.range (2 ^ (lg + 1)), f m =
    ∑ m ∈ Finset.range (2 ^ lg), f m + ∑ m ∈ Finset.range (2 ^ lg), f (2 ^ lg + m) := by
  rw [Nat.pow_succ, Nat.mul_two, Finset.sum_range_add]

/-- An index of one more bit stands in one of two halves. -/
theorem lt_two_pow_succ_cases {lg j : Nat} (hj : j < 2 ^ (lg + 1)) :
    j < 2 ^ lg ∨ ∃ k < 2 ^ lg, j = 2 ^ lg + k := by
  rw [Nat.pow_succ] at hj
  rcases Nat.lt_or_ge j (2 ^ lg) with h | h
  · exact .inl h
  · exact .inr ⟨j - 2 ^ lg, by omega, by omega⟩

/-- Every row but the first has as many of either sign. -/
theorem sum_walshSign {lg j : Nat} (hj : j < 2 ^ lg) :
    ∑ m ∈ Finset.range (2 ^ lg), walshSign lg j m = if j = 0 then (2 : ℝ) ^ lg else 0 := by
  induction lg generalizing j with
  | zero => simp [walshSign, Nat.lt_one_iff.mp hj]
  | succ lg ih =>
    rw [sum_two_pow_succ]
    obtain hlow | ⟨k, hk, rfl⟩ := lt_two_pow_succ_cases hj
    · simp only [walshSign_low_high hlow, walshSign_low hlow, ih hlow]
      split
      · ring
      · ring
    · have hpos := Nat.two_pow_pos lg
      rw [Finset.sum_congr rfl fun m hm => walshSign_high_low k (Finset.mem_range.mp hm),
        Finset.sum_congr rfl fun m hm => walshSign_high_high hk (Finset.mem_range.mp hm), Finset.sum_neg_distrib,
        add_neg_cancel, if_neg (by omega)]

/-- Two different rows are orthogonal. -/
theorem sum_walshSign_mul {lg j k : Nat} (hj : j < 2 ^ lg) (hk : k < 2 ^ lg) :
    ∑ m ∈ Finset.range (2 ^ lg), walshSign lg j m * walshSign lg k m = if j = k then (2 : ℝ) ^ lg else 0 := by
  simp only [walshSign_mul, sum_walshSign (Nat.xor_lt_two_pow hj hk), Nat.xor_eq_zero_iff]

/-! ## The transform over the reals -/

/-- The product of the matrix of signs and a vector (R87). -/
noncomputable def walsh (lg : Nat) (x : Nat → ℝ) (j : Nat) : ℝ := ∑ m ∈ Finset.range (2 ^ lg), walshSign lg j m * x m

/-- The butterfly of R82 multiplies by the matrix of signs: the last stage is the doubling of the matrix. -/
theorem butterflyStages_real {lg j : Nat} (x : Nat → ℝ) (hj : j < 2 ^ lg) :
    butterflyStages ExactReal.num lg x j = walsh lg x j := by
  induction lg generalizing x j with
  | zero => simp [butterflyStages, walsh, walshSign, Nat.lt_one_iff.mp hj]
  | succ lg ih =>
    have hupper {k : Nat} (hk : k < 2 ^ lg) :
        butterflyStages ExactReal.num lg x (2 ^ lg + k) = walsh lg (fun m => x (2 ^ lg + m)) k := by
      have h := congrFun (butterflyStages_shift ExactReal.num lg x 1) k
      simp only [Nat.one_mul] at h
      rw [← h, ih _ hk]
    rw [butterflyStages, walsh, sum_two_pow_succ]
    obtain hlow | ⟨k, hk, rfl⟩ := lt_two_pow_succ_cases hj
    · simp only [walshSign_low_high hlow, walshSign_low hlow]
      rw [butterflyStage_lower _ _ hlow, hupper hlow, ih _ hlow]
      rfl
    · have hleft : ∑ m ∈ Finset.range (2 ^ lg), walshSign (lg + 1) (2 ^ lg + k) m * x m = walsh lg x k :=
        Finset.sum_congr rfl fun m hm => by rw [walshSign_high_low k (Finset.mem_range.mp hm)]
      have hright : ∑ m ∈ Finset.range (2 ^ lg), walshSign (lg + 1) (2 ^ lg + k) (2 ^ lg + m) * x (2 ^ lg + m) =
          -walsh lg (fun m => x (2 ^ lg + m)) k := by
        rw [walsh, ← Finset.sum_neg_distrib]
        exact Finset.sum_congr rfl fun m hm => by rw [walshSign_high_high hk (Finset.mem_range.mp hm), neg_mul]
      rw [butterflyStage_upper _ _ hk, hupper hk, ih _ hk, hleft, hright, ← sub_eq_add_neg]
      rfl

theorem hadamard_real (lg : Nat) (x : Nat → ℝ) :
    hadamard ExactReal.num lg ((List.range (2 ^ lg)).map x) = (List.range (2 ^ lg)).map (walsh lg x) := by
  rw [hadamard_eq_butterflyStages]
  exact List.map_congr_left fun j hj => butterflyStages_real x (List.mem_range.mp hj)

/-- Twice the transform is the vector times its length, by the orthogonality of the rows. -/
theorem walsh_walsh {lg j : Nat} (x : Nat → ℝ) (hj : j < 2 ^ lg) : walsh lg (walsh lg x) j = 2 ^ lg * x j := by
  calc walsh lg (walsh lg x) j
      = ∑ k ∈ Finset.range (2 ^ lg), (∑ m ∈ Finset.range (2 ^ lg), walshSign lg j m * walshSign lg k m) * x k := by
        simp only [walsh, Finset.mul_sum, Finset.sum_mul]
        rw [Finset.sum_comm]
        simp only [walshSign_comm lg _ _, mul_assoc]
    _ = ∑ k ∈ Finset.range (2 ^ lg), (if j = k then (2 : ℝ) ^ lg else 0) * x k :=
        Finset.sum_congr rfl fun k hk => by rw [sum_walshSign_mul hj (Finset.mem_range.mp hk)]
    _ = 2 ^ lg * x j := by simp [ite_mul, hj]

/-- The energy law: the matrix is symmetric, and its square is the length. -/
theorem sum_walsh_sq (lg : Nat) (x : Nat → ℝ) :
    ∑ j ∈ Finset.range (2 ^ lg), walsh lg x j ^ 2 = 2 ^ lg * ∑ m ∈ Finset.range (2 ^ lg), x m ^ 2 := by
  calc ∑ j ∈ Finset.range (2 ^ lg), walsh lg x j ^ 2
      = ∑ j ∈ Finset.range (2 ^ lg), ∑ m ∈ Finset.range (2 ^ lg), walshSign lg j m * x m * walsh lg x j := by
        refine Finset.sum_congr rfl fun j _ => ?_
        rw [← Finset.sum_mul, sq]
        rfl
    _ = ∑ m ∈ Finset.range (2 ^ lg), x m * walsh lg (walsh lg x) m := by
        rw [Finset.sum_comm]
        refine Finset.sum_congr rfl fun m _ => ?_
        rw [walsh, Finset.mul_sum]
        refine Finset.sum_congr rfl fun j _ => ?_
        rw [walshSign_comm]
        ring
    _ = 2 ^ lg * ∑ m ∈ Finset.range (2 ^ lg), x m ^ 2 := by
        rw [Finset.mul_sum]
        refine Finset.sum_congr rfl fun m hm => ?_
        rw [walsh_walsh x (Finset.mem_range.mp hm)]
        ring

theorem walsh_zero (lg : Nat) (x : Nat → ℝ) : walsh lg x 0 = ∑ m ∈ Finset.range (2 ^ lg), x m := by
  simp only [walsh, walshSign_zero, one_mul]

/-- A sum of signs counts the plus signs twice. -/
theorem sum_signs {f : Nat → ℝ} (hf : ∀ m, f m = 1 ∨ f m = -1) (n : Nat) :
    ∑ m ∈ Finset.range n, f m = 2 * ((List.range n).countP fun m => decide (f m = 1) : Nat) - n := by
  induction n with
  | zero => simp
  | succ n ih =>
    rw [Finset.sum_range_succ, ih, List.range_succ, List.countP_append, List.countP_singleton]
    obtain h | h := hf n
    · rw [if_pos (by simp [h]), h]
      push_cast
      ring
    · rw [if_neg (by norm_num [h]), h]
      push_cast
      ring

theorem two_mul_countP_walshSign {lg j : Nat} (h0 : 0 < j) (hj : j < 2 ^ lg) :
    2 * ((List.range (2 ^ lg)).countP fun m => decide (walshSign lg j m = 1)) = 2 ^ lg := by
  have h := sum_walshSign hj
  rw [if_neg (by omega), sum_signs (walshSign_eq lg j), sub_eq_zero] at h
  exact_mod_cast h

theorem sum_map_range (f : Nat → ℝ) (n : Nat) : ((List.range n).map f).sum = ∑ m ∈ Finset.range n, f m := rfl

/-! ## The stride map -/

/-- A stride that reaches line 1 has no factor in common with the number of lines. -/
theorem gcd_stride_eq_one {N i : Nat} (h : strideIndex N i = 1) : Nat.gcd N Config.stride = 1 := by
  refine Nat.dvd_one.mp ?_
  rw [← h, strideIndex]
  exact (Nat.dvd_mod_iff (Nat.gcd_dvd_left _ _)).mpr ((Nat.gcd_dvd_right _ _).mul_left i)

end Sys2Proof.Machine

namespace Sys2Proof

open Sys2Proof.Machine

/-- Settles O41: the answers of the three transforms, and their rows over the reals. -/
theorem had1Had2Had4Transform : Obligations.Had1Had2Had4Transform := by
  unfold Obligations.Had1Had2Had4Transform
  refine ⟨fun s x0 rest h => ?had1, fun s x0 x1 rest h => ?had2, fun s x0 x1 x2 x3 rest h => ?had4,
    fun s => ⟨fun h => ?short1, fun h => ?short2, fun h => ?short4⟩, fun x0 x1 x2 x3 => ⟨rfl, ?reals⟩⟩
  case had1 => exact outcome_setMixed_ok (by rw [h]; rfl)
  case had2 => exact outcome_setMixed_ok (by rw [h]; rfl)
  case had4 => exact outcome_setMixed_ok (by rw [h]; rfl)
  case short1 => exact outcome_setMixed_short (by rw [h]; rfl)
  case short2 => exact outcome_setMixed_short (mix2_short h)
  case short4 => exact outcome_setMixed_short (mix4_short h)
  case reals =>
    simp only [had4, ExactReal.num, List.cons.injEq, and_true]
    refine ⟨?_, ?_, ?_, ?_⟩ <;> ring

/-- Settles O42: the butterfly of the two halves, element by element, and its rows over the reals. -/
theorem had8Transforms : Obligations.Had8Transforms := by
  unfold Obligations.Had8Transforms
  refine ⟨fun s x0 x1 x2 x3 x4 x5 x6 x7 rest u v h hu hv => ?transforms, fun s h => ?short,
    fun x0 x1 x2 x3 x4 x5 x6 x7 => ?reals⟩
  case transforms =>
    subst hu hv
    refine ⟨setMixed s (had8 F32.num x0 x1 x2 x3 x4 x5 x6 x7), outcome_setMixed_ok (by rw [h]; rfl), rfl, rfl, fun j hj => ?_⟩
    obtain rfl | rfl | rfl | rfl : j = 0 ∨ j = 1 ∨ j = 2 ∨ j = 3 := by omega
    all_goals exact ⟨rfl, rfl⟩
  case short => exact outcome_setMixed_short (mix8_short h)
  case reals =>
    simp only [had8, had4, butterfly, List.zipWith, List.cons_append, List.nil_append, ExactReal.num, List.cons.injEq,
      and_true]
    refine ⟨?_, ?_, ?_, ?_, ?_, ?_, ?_, ?_⟩ <;> ring

/-- Settles O44: the transform is the product with the matrix of signs, whose rows are orthogonal. -/
theorem hadamardLawsOverTheReals : Obligations.HadamardLawsOverTheReals := by
  unfold Obligations.HadamardLawsOverTheReals
  intro lg x hx
  obtain ⟨f, hf⟩ : ∃ f : Nat → ℝ, f = fun m => x.getD m 0 := ⟨_, rfl⟩
  have hxf : x = (List.range (2 ^ lg)).map f := hf ▸ eq_map_getD hx 0
  have hy : hadamard ExactReal.num lg x = (List.range (2 ^ lg)).map (walsh lg f) := by rw [hxf, hadamard_real]
  have hget {j : Nat} (hj : j < 2 ^ lg) : (hadamard ExactReal.num lg x).getD j 0 = walsh lg f j := by
    rw [hy]
    simp [hj]
  refine ⟨hadamard_length _ hx, fun j hj => ?closed, ?inverse, ?energy, ?first, fun j h0 hj => two_mul_countP_walshSign h0 hj⟩
  case closed => rw [hget hj, hf]; rfl
  case inverse =>
    rw [hy, hadamard_real, hxf, List.map_map]
    exact List.map_congr_left fun j hj => walsh_walsh f (List.mem_range.mp hj)
  case energy =>
    rw [hy, hxf, List.map_map, List.map_map, sum_map_range, sum_map_range]
    exact sum_walsh_sq lg f
  case first => rw [hget (Nat.two_pow_pos lg), walsh_zero, hxf, sum_map_range]

/-- Settles O46: coprime strides are one-to-one and onto; one that reaches line 1 is coprime. -/
theorem stridePermutationIsABijection : Obligations.StridePermutationIsABijection := by
  unfold Obligations.StridePermutationIsABijection
  refine ⟨fun N hN => ⟨fun hgcd d hd => ?reaches, fun hreaches => ?coprime⟩, by decide⟩
  case reaches =>
    obtain ⟨i, hi, rfl⟩ := strideIndex_surj hgcd hd
    exact ⟨i, hi, rfl, fun i' hi' he => strideIndex_inj hgcd hi' hi he⟩
  case coprime =>
    obtain rfl | hlt : N = 1 ∨ 1 < N := by omega
    · exact Nat.gcd_one_left _
    · obtain ⟨i, -, hi, -⟩ := hreaches 1 hlt
      exact gcd_stride_eq_one hi

end Sys2Proof
end

section
/-! What a construction leaves (spec/41_construction.md R72 to R78), and the rebuild of `SET_MAX_DELAY` (spec/44_setters.md
R110): the delays, the shuffled signs and the rings, read off what every construction leaves, and that a construction
does not look at the phase. -/

namespace Sys2Proof.Machine

/-! ## The signs -/

/-- Exchanges at places of the list, written with `set` as R75 does. -/
theorem foldl_swapped_eq {a b : Nat → Nat} {l : List Nat} {signs : List Sign}
    (h : ∀ k ∈ l, a k < signs.length ∧ b k < signs.length) :
    l.foldl (fun g k => swapped g (a k) (b k)) signs =
      l.foldl (fun g k => (g.set (a k) (g.getD (b k) .plus)).set (b k) (g.getD (a k) .plus)) signs := by
  induction l generalizing signs with
  | nil => rfl
  | cons k l ih =>
    obtain ⟨ha, hb⟩ := h k List.mem_cons_self
    have hlen := swapped_length signs (a k) (b k)
    rw [List.foldl_cons, List.foldl_cons, ih fun m hm => by rw [hlen]; exact h m (List.mem_cons_of_mem k hm),
      swapped_eq ha hb]

/-- A shuffle whose exchanges are within the list. -/
theorem shuffleBy_eq {base j : Nat} {r : List Nat} {signs : List Sign} (hj : base + j < signs.length)
    (hr : ∀ k < j, r.getD k 0 ≤ j - k) :
    shuffleBy base j r signs = (List.range j).foldl (fun signs k => (signs.set (base + (j - k))
      (signs.getD (base + r.getD k 0) .plus)).set (base + r.getD k 0) (signs.getD (base + (j - k)) .plus)) signs := by
  refine foldl_swapped_eq fun k hk => ?_
  have := hr k (List.mem_range.mp hk)
  omega

theorem shuffleBy_length (base j : Nat) (r : List Nat) (signs : List Sign) :
    (shuffleBy base j r signs).length = signs.length := by
  rw [shuffleBy]
  generalize List.range j = l
  induction l generalizing signs with
  | nil => rfl
  | cons k l ih => rw [List.foldl_cons, ih, swapped_length]

/-- The even indices below `N` have sign +1. -/
theorem count_plus_alternating (N : Nat) : (alternating N).count .plus = (N + 1) / 2 := by
  induction N with
  | zero => rfl
  | succ N ih =>
    have hstep : alternating (N + 1) = alternating N ++ [if N % 2 = 0 then .plus else .minus] := by
      rw [alternating, List.range_succ, List.map_append]
      rfl
    rw [hstep, List.count_append, ih]
    split
    · rw [List.count_singleton_self]; omega
    · rw [List.count_singleton, if_neg (by decide)]; omega

theorem count_plus_alternating_take {N h : Nat} (hh : h ≤ N) :
    ((alternating N).take h).count .plus = (h + 1) / 2 := by
  rw [alternating, ← List.map_take, List.take_range, Nat.min_eq_left hh]
  exact count_plus_alternating h

/-- The right half has the rest. -/
theorem count_plus_alternating_drop (h : Nat) : ((alternating (2 * h)).drop h).count .plus = h / 2 := by
  have hsum := count_plus_alternating (2 * h)
  rw [← List.take_append_drop h (alternating (2 * h)), List.count_append, count_plus_alternating_take (by omega)] at hsum
  omega

/-! ## The construction of a `BUILD` -/

section
variable {α : Type} {P : Params α} {topo : Topology α} {lo hi : Nat} {s t : Generic.State α}

/-- The ring of a line is silent and full to its delay (R74, R78). -/
theorem Constructed.queueOf (h : Constructed P topo lo hi s t) {i : Nat} (hi : i < topo.numDelays) :
    Machine.queueOf t i = List.replicate (t.delay.getD i 0) P.num.zero := by
  rw [Machine.queueOf, h.rings i hi]
  exact liveSamples_initial _ _ _

theorem Constructed.counts (h : Constructed P topo lo hi s t) :
    t.phase = .idle ∧ t.draws = s.draws + constructionDraws topo.numDelays ∧
      t.rng = s.rng.drop (constructionDraws topo.numDelays) := by
  obtain ⟨delay, sign, R, rfl⟩ := h.same
  exact ⟨rfl, rfl, rfl⟩

/-- Each half of the signs rearranges a half of the alternation (R75). -/
theorem Constructed.count_plus (h : Constructed P topo lo hi s t) (heven : topo.numDelays % 2 = 0) :
    (t.sign.take (topo.numDelays / 2)).count .plus = (topo.numDelays / 2 + 1) / 2 ∧
      (t.sign.drop (topo.numDelays / 2)).count .plus = topo.numDelays / 2 / 2 := by
  have hN : 2 * (topo.numDelays / 2) = topo.numDelays := by omega
  rw [h.sign_left.count_eq, h.sign_right.count_eq, count_plus_alternating_take (by omega)]
  have hdrop := count_plus_alternating_drop (topo.numDelays / 2)
  rw [hN] at hdrop
  exact ⟨rfl, hdrop⟩

end

/-! ## A construction does not look at the phase -/

section
variable {α : Type} (p : Phase) (P : Params α)

/-- The same machine in another phase. -/
def atPhase (s : Generic.State α) : Generic.State α := { s with phase := p }

theorem drawMany_atPhase (lo hi n : Nat) (s : Generic.State α) :
    drawMany P lo hi n (atPhase p s) = (drawMany P lo hi n s).map fun r => (r.1, atPhase p r.2) := by
  induction n generalizing s with
  | zero => rfl
  | succ n ih =>
    rw [drawMany, drawMany, draw, draw]
    split
    · rfl
    · have hdraw : drawMany P lo hi n (afterDraw (atPhase p s)) = _ := ih (afterDraw s)
      simp only [res_bind_ok, hdraw, res_map_bind, ← res_bind_map]
      rfl

theorem drawDelays_blind : Blind (atPhase p) (drawDelays P) := by
  intro s
  have hdraw := drawMany_atPhase p P s.minDelaySamples s.maxDelaySamples s.numDelays s
  simp only [drawDelays, ← res_bind_map]
  rw [show drawMany P (atPhase p s).minDelaySamples (atPhase p s).maxDelaySamples (atPhase p s).numDelays (atPhase p s)
    = _ from hdraw, res_map_bind]
  rfl

theorem ringInit_blind (i D m : Nat) : Blind (atPhase p) (ringInit P i D m) := by
  intro s
  rw [ringInit, ringInit]
  split
  · rfl
  · split
    · next h => rw [if_pos (show LineInRange s i from h)]; rfl
    · next h => rw [if_neg (show ¬LineInRange s i from h)]; rfl

theorem initRings_blind : Blind (atPhase p) (initRings P) := by
  intro s
  refine Blind.foldlM (fun i => ?_) (List.range s.numDelays) s
  intro u
  rw [← res_bind_map]
  show (delayOf u i >>= fun d => ringInit P i d u.minDelaySamples (atPhase p u)) = _
  congr 1
  funext d
  exact ringInit_blind p P i d u.minDelaySamples u

theorem shuffleFrom_atPhase (base j : Nat) (signs : List Sign) (s : Generic.State α) :
    shuffleFrom P base j signs (atPhase p s) = (shuffleFrom P base j signs s).map fun r => (r.1, atPhase p r.2) := by
  induction j generalizing signs s with
  | zero => rfl
  | succ j ih =>
    rw [shuffleFrom, shuffleFrom, draw, draw, if_neg (by omega), if_neg (by omega), res_bind_ok, res_bind_ok]
    exact ih _ (afterDraw s)

theorem assignSigns_blind : Blind (atPhase p) (assignSigns P) := by
  intro s
  have hleft := shuffleFrom_atPhase p P 0 (s.numDelays / 2 - 1) (alternating s.numDelays) s
  simp only [assignSigns, ← res_bind_map]
  rw [show shuffleFrom P 0 ((atPhase p s).numDelays / 2 - 1) (alternating (atPhase p s).numDelays) (atPhase p s) = _
    from hleft, res_map_bind]
  congr 1
  funext r
  dsimp only
  rw [show (atPhase p s).numDelays = s.numDelays from rfl, shuffleFrom_atPhase, res_map_bind]
  rfl

theorem construct_atPhase (topo : Topology α) (s : Generic.State α) :
    construct P topo (atPhase p s) = construct P topo s := by
  rw [construct, construct]
  congr 1
  funext bounds
  have hdelays := drawDelays_blind p P (writeTopology P topo bounds.1 bounds.2 s)
  show constructNetwork P topo bounds.1 bounds.2 (atPhase p s) = constructNetwork P topo bounds.1 bounds.2 s
  rw [constructNetwork, constructNetwork,
    show drawDelays P (writeTopology P topo bounds.1 bounds.2 (atPhase p s)) = _ from hdelays, res_map_bind]
  congr 1
  funext s1
  rw [initRings_blind p P s1, res_map_bind]
  congr 1
  funext s2
  rw [assignSigns_blind p P s2, res_map_bind]
  rfl

end

end Sys2Proof.Machine

namespace Sys2Proof

open Sys2Proof.Machine

/-- Settles O15: the drawn values, sorted; the file is their permutation by the stride. -/
theorem buildDrawsSortsAndPermutesDelays : Obligations.BuildDrawsSortsAndPermutesDelays := by
  unfold Obligations.BuildDrawsSortsAndPermutesDelays
  intro n bs shift zt lo hi rate minS maxS s hp hb
  obtain ⟨t, hrun, hcon, -⟩ := exec_build_constructs zt hp hb
  obtain ⟨-, -, -, -, -, -, -, -, hgcd, -⟩ := hb
  obtain ⟨raw, hlen, hrange, hlisted, hdelay⟩ := hcon.delay
  have hsorted : (sortAscending raw).length = n := (sortAscending_perm raw).length_eq.trans hlen
  refine ⟨t, raw, sortAscending raw, hrun, hlen, hrange, hlisted, sortAscending_perm raw, sortAscending_sorted raw,
    by rw [hdelay, permuted_length, hsorted], fun i hi => ?_⟩
  have hstride := permuted_stride (l := sortAscending raw) (by rw [hsorted]; exact hgcd) (hsorted.symm ▸ hi)
  rwa [hsorted, ← hdelay] at hstride

/-- Settles O16: the shuffle by the draws, its exchanges being within the file; each half is rearranged. -/
theorem buildShufflesTheSigns : Obligations.BuildShufflesTheSigns := by
  unfold Obligations.BuildShufflesTheSigns
  intro n bs shift zt lo hi rate minS maxS s hp hb h swap shuffle
  obtain ⟨t, hrun, hcon, -⟩ := exec_build_constructs zt hp hb
  obtain ⟨⟨hbs, hle, heven, -⟩, -⟩ := hb
  have hpos : 0 < n := by omega
  have hhalf : h = n / 2 := rfl
  obtain ⟨left, right, hsigns⟩ := hcon.draws
  replace hsigns : SignsOf n (s.rng.drop n) left right t.sign := hsigns
  obtain ⟨hleft, hright, hleftRange, hrightRange, hlisted, hsign⟩ := hsigns
  obtain ⟨hplusLeft, hplusRight⟩ := hcon.count_plus heven
  have hshuffle {base : Nat} {r : List Nat} {signs : List Sign} (hbase : base + (h - 1) < signs.length)
      (hr : ∀ k < h - 1, r.getD k 0 ≤ h - 1 - k) : shuffleBy base (h - 1) r signs = shuffle base r signs :=
    shuffleBy_eq hbase hr
  have halt : (alternating n).length = n := by simp [alternating]
  refine ⟨t, left, right, hrun, hleft, hright, fun k hk => ⟨hleftRange k hk, hrightRange k hk⟩,
    fun hmany _ hin => hlisted ?many fun k hk => ?listed, ?signs, hcon.sign_length, hplusLeft, hplusRight, ?two⟩
  case many =>
    rw [List.length_drop]
    omega
  case listed =>
    have hget (m : Nat) : (s.rng.drop n).getD m 0 = s.rng.getD (n + m) 0 := by
      rw [List.getD_eq_getElem?_getD, List.getElem?_drop, List.getD_eq_getElem?_getD]
    rw [hget, hget, ← Nat.add_assoc]
    exact hin k hk
  case signs =>
    have hinner : shuffleBy 0 (h - 1) left (alternating n) = shuffle 0 left (alternating n) :=
      hshuffle (by rw [halt]; omega) hleftRange
    have houter := hshuffle (base := h) (r := right) (signs := shuffleBy 0 (h - 1) left (alternating n))
      (by rw [shuffleBy_length, halt]; omega) hrightRange
    rw [hinner] at houter
    exact hsign.trans (hinner ▸ houter)
  case two =>
    rintro rfl
    rw [hsign]
    rfl

/-- Settles O17: the rings are those of `RING_INIT`, and the draws are counted. -/
theorem buildLeavesTimeZero : Obligations.BuildLeavesTimeZero := by
  unfold Obligations.BuildLeavesTimeZero
  intro n bs shift zt lo hi rate minS maxS s hp hb
  obtain ⟨t, hrun, hcon, hnet⟩ := exec_build_constructs zt hp hb
  obtain ⟨hphase, hdraws, hrng⟩ := hcon.counts
  obtain ⟨-, -, -, -, -, hone, -⟩ := hb
  refine ⟨t, hrun, hphase, hdraws, hrng, hnet, fun i hi => ⟨_, hcon.rings i hi, rfl, rfl,
    Nat.mod_eq_of_lt (by omega), rfl, rfl, rfl, fun a => ?_, f32_zero ▸ hcon.queueOf hi⟩⟩
  rw [Ring.initial, Store.read_filled, f32_zero]

/-- Settles O21: both are the shared construction on the state without a network, which does not look at the phase. -/
theorem setMaxDelayIsARebuild : Obligations.SetMaxDelayIsARebuild := by
  unfold Obligations.SetMaxDelayIsARebuild
  intro seconds s hp hv
  rw [exec_setMaxDelay_idle hp, exec_build_valid rfl hv]
  exact congrArg outcome (construct_atPhase .unbuilt F32.params (rebuildTopology s seconds) (dropNetwork s)).symm

/-- Settles O22: the operands of the rebuild construct, and the shift of a valid topology is whole blocks. -/
theorem setMaxDelayCompletes : Obligations.SetMaxDelayCompletes := by
  unfold Obligations.SetMaxDelayCompletes
  rintro seconds minS maxS s hp ⟨-, -, -, -, hfb, -⟩ hb
  obtain ⟨t, hrun, hcon, hnet⟩ := construct_ok (t := rebuildTopology s seconds) (s := dropNetwork s) rfl hb
  have hqueue {i : Nat} (hi : i < s.numDelays) : queueOf t i = List.replicate (t.delay.getD i 0) 0 :=
    f32_zero ▸ hcon.queueOf hi
  have hcoef := fun i => hcon.getElem?_coef (i := i)
  obtain ⟨-, ⟨hdelay, -⟩, -⟩ := id hnet
  obtain ⟨hdiag, hcause, hports, -⟩ := hcon.frame
  refine ⟨t, by rw [exec_setMaxDelay_idle hp, hrun, outcome_ok], ?_⟩
  obtain ⟨delay, sign, R, rfl⟩ := hcon.same
  exact ⟨rfl, rfl, rfl, Nat.div_mul_cancel (Nat.dvd_of_mod_eq_zero hfb), rfl, rfl, rfl, rfl, rfl, rfl, inputPanInit_f32,
    fun i hi => ⟨hqueue hi, hcoef i (hdelay.symm ▸ hi)⟩, hnet, hdiag, hcause, hports⟩

end Sys2Proof
end

section
/-! The gains of the decay over the reals (spec/43_process.md R106, spec/44_setters.md R108), and the three properties of
`fpow10` under `Num.f32` (spec/00_scope.md R8). -/

namespace Sys2Proof.Machine

/-! ## Gains over the reals -/

section
variable {rate seconds : ℝ}

/-- The gain of a tap of delay `d` (R106). -/
noncomputable def decayGain (rate seconds : ℝ) (d : Nat) : ℝ := (10 : ℝ) ^ (-3 * (d : ℝ) / (rate * seconds))

theorem decayGain_pos (d : Nat) : 0 < decayGain rate seconds d := Real.rpow_pos_of_pos (by norm_num) _

theorem decayGain_zero : decayGain rate seconds 0 = 1 := by simp [decayGain]

theorem decayGain_add (c d : Nat) :
    decayGain rate seconds (c + d) = decayGain rate seconds c * decayGain rate seconds d := by
  rw [decayGain, decayGain, decayGain, ← Real.rpow_add (by norm_num)]
  congr 1
  push_cast
  ring

/-- The gains of several lines multiply to the gain of their total delay. -/
theorem prod_decayGain (ds : List Nat) : (ds.map (decayGain rate seconds)).prod = decayGain rate seconds ds.sum := by
  induction ds with
  | nil => simp [decayGain_zero]
  | cons d ds ih => rw [List.map_cons, List.prod_cons, ih, List.sum_cons, decayGain_add]

section
variable (hrate : 0 < rate) (hseconds : 0 < seconds)
include hrate hseconds

/-- -60 dB at the decay time. -/
theorem decayGain_decayTime {d : Nat} (h : (d : ℝ) / rate = seconds) : decayGain rate seconds d = 1 / 1000 := by
  have hd : (d : ℝ) = rate * seconds := by rw [← h]; field_simp
  rw [decayGain, hd, mul_div_assoc, div_self (by positivity), mul_one, show (-3 : ℝ) = ((-3 : ℤ) : ℝ) by norm_num,
    Real.rpow_intCast]
  norm_num

theorem decayGain_strictAnti {c d : Nat} (h : c < d) : decayGain rate seconds d < decayGain rate seconds c := by
  refine Real.rpow_lt_rpow_of_exponent_lt (by norm_num) ?_
  have hlt : (c : ℝ) < d := by exact_mod_cast h
  have hpos : 0 < rate * seconds := mul_pos hrate hseconds
  exact (div_lt_div_iff_of_pos_right hpos).mpr (by linarith)

omit hrate hseconds in
/-- A coefficient over the reals is the matrix factor times the gain (R108). -/
theorem coefficient_real (att rate seconds : ℝ) (d : Nat) :
    coefficient ExactReal.num att rate d seconds = att * decayGain rate seconds d := by
  have hexp : -((3 : Nat) : ℝ) * ((d : ℝ) / rate) / seconds = -3 * (d : ℝ) / (rate * seconds) := by
    push_cast
    rw [mul_div_assoc', div_div]
  rw [decayGain, ← hexp]
  rfl

theorem decayGain_le_one (d : Nat) : decayGain rate seconds d ≤ 1 := by
  rcases Nat.eq_zero_or_pos d with rfl | h
  · exact decayGain_zero.le
  · exact decayGain_zero (rate := rate) (seconds := seconds) ▸ (decayGain_strictAnti hrate hseconds h).le

end

end

namespace F32

/-! ## The order of the patterns -/

theorem le_iff {a b : Sample} : le a b = true ↔ isNaN a = false ∧ isNaN b = false ∧ place a ≤ place b := by
  simp [le, and_assoc]

theorem lt_iff {a b : Sample} : lt a b = true ↔ isNaN a = false ∧ isNaN b = false ∧ place a < place b := by
  simp [lt, and_assoc]

section
variable {negative : Bool} {k : Nat} (h : k ≤ infinity)
include h

theorem isNaN_pack : isNaN (pack negative k) = false := by
  have hk : k < 2 ^ 31 := lt_of_le_of_lt h (by decide)
  rw [isNaN, magnitude_pack hk]
  exact decide_eq_false (Nat.not_lt.mpr h)

theorem place_pack : place (pack negative k) = if negative then -(k : Int) else k := by
  have hk : k < 2 ^ 31 := lt_of_le_of_lt h (by decide)
  rw [place, signBit_pack hk, magnitude_pack hk]

end

/-! ## The power of ten -/

theorem sumBelow_mono (d : Nat → Nat) {m n : Nat} (h : m ≤ n) : sumBelow d m ≤ sumBelow d n := by
  induction h with
  | refl => exact Nat.le_refl _
  | step _ ih => exact Nat.le_trans ih (Nat.le_add_right _ _)

/-- The pattern of 1. -/
theorem pow10Below_zero : pow10Below 0 = 0x3F800000 := rfl

theorem pow10Above_zero : pow10Above 0 = 0x3F800000 := rfl

theorem pow10Below_anti {m n : Nat} (h : m ≤ n) : pow10Below n ≤ pow10Below m := by
  have := sumBelow_mono Config.pow10Fall h
  rw [pow10Below, pow10Below]
  omega

theorem pow10Above_mono {m n : Nat} (h : m ≤ n) : pow10Above m ≤ pow10Above n := by
  have := sumBelow_mono Config.pow10Rise h
  rw [pow10Above, pow10Above]
  omega

theorem pow10Below_le_one (m : Nat) : pow10Below m ≤ 0x3F800000 := pow10Below_zero ▸ pow10Below_anti (Nat.zero_le m)

theorem one_le_pow10Above (m : Nat) : 0x3F800000 ≤ pow10Above m := pow10Above_zero ▸ pow10Above_mono (Nat.zero_le m)

theorem pow10Below_pos (m : Nat) : 0 < pow10Below m := Nat.lt_of_lt_of_le Nat.one_pos (Nat.le_max_left _ _)

theorem pow10Below_le_infinity (m : Nat) : pow10Below m ≤ infinity := (pow10Below_le_one m).trans (by decide)

theorem pow10Above_le_infinity (m : Nat) : pow10Above m ≤ infinity := Nat.min_le_left _ _

section
variable {e : Sample}

theorem fpow10_above (hnan : isNaN e = false) (hs : signBit e = false) :
    fpow10 e = pack false (pow10Above (magnitude e)) := by
  simp [fpow10, hnan, hs]

theorem fpow10_below (hnan : isNaN e = false) (hs : signBit e = true) (hinf : isInf e = false) :
    fpow10 e = pack false (pow10Below (magnitude e)) := by
  simp [fpow10, hnan, hs, hinf]

theorem fpow10_minusInfinity (hnan : isNaN e = false) (hs : signBit e = true) (hinf : isInf e = true) :
    fpow10 e = pow10AtMinusInfinity := by
  simp [fpow10, hnan, hs, hinf]

end

/-- The answer at minus infinity is a value, at most that at every finite argument. -/
theorem pow10AtMinusInfinity_le :
    isNaN pow10AtMinusInfinity = false ∧ place pow10AtMinusInfinity ≤ pow10Below (infinity - 1) := by
  have hlow := pow10Below_le_infinity (infinity - 1)
  rw [pow10AtMinusInfinity]
  split
  · have hle : pow10Below (infinity - 1) - Config.pow10MinusInfinityFall ≤ infinity := by omega
    refine ⟨isNaN_pack hle, ?_⟩
    rw [place_pack hle, if_neg Bool.false_ne_true]
    omega
  · split
    · refine ⟨isNaN_pack (Nat.zero_le _), ?_⟩
      rw [place_pack (Nat.zero_le _)]
      split <;> omega
    · have hle : min infinity (Config.pow10MinusInfinityFall - pow10Below (infinity - 1)) ≤ infinity := Nat.min_le_left _ _
      refine ⟨isNaN_pack hle, ?_⟩
      rw [place_pack hle, if_pos rfl]
      omega

/-- Where `fpow10` of a value stands in the order: above 1, below 1, or below everything. -/
theorem place_fpow10 {e : Sample} (hnan : isNaN e = false) : isNaN (fpow10 e) = false ∧
    (signBit e = false → place (fpow10 e) = pow10Above (magnitude e)) ∧
    (signBit e = true → isInf e = false → place (fpow10 e) = pow10Below (magnitude e)) ∧
    (signBit e = true → isInf e = true → place (fpow10 e) ≤ pow10Below (infinity - 1)) := by
  have habove := place_pack (negative := false) (pow10Above_le_infinity (magnitude e))
  have hbelow := place_pack (negative := false) (pow10Below_le_infinity (magnitude e))
  cases hs : signBit e with
  | false =>
    rw [fpow10_above hnan hs]
    exact ⟨isNaN_pack (pow10Above_le_infinity _), fun _ => habove, nofun, nofun⟩
  | true =>
    cases hinf : isInf e with
    | false =>
      rw [fpow10_below hnan hs hinf]
      exact ⟨isNaN_pack (pow10Below_le_infinity _), nofun, fun _ _ => hbelow, nofun⟩
    | true =>
      rw [fpow10_minusInfinity hnan hs hinf]
      exact ⟨pow10AtMinusInfinity_le.1, nofun, nofun, fun _ _ => pow10AtMinusInfinity_le.2⟩

/-- A value that is no infinity has a finite magnitude. -/
theorem magnitude_lt_infinity {e : Sample} (hnan : isNaN e = false) (hinf : isInf e = false) :
    magnitude e < infinity := by
  simp only [isNaN, isInf, decide_eq_false_iff_not] at *
  omega

theorem fpow10_mono {a b : Sample} (h : le a b = true) : le (fpow10 a) (fpow10 b) = true := by
  obtain ⟨hna, hnb, hab⟩ := le_iff.mp h
  obtain ⟨hfa, hpa, hma, hia⟩ := place_fpow10 hna
  obtain ⟨hfb, hpb, hmb, hib⟩ := place_fpow10 hnb
  refine le_iff.mpr ⟨hfa, hfb, ?_⟩
  rw [place, place] at hab
  cases hsa : signBit a with
  | false =>
    rw [hpa hsa]
    rw [hsa, if_neg Bool.false_ne_true] at hab
    cases hsb : signBit b with
    | false =>
      rw [hsb, if_neg Bool.false_ne_true] at hab
      rw [hpb hsb]
      exact_mod_cast pow10Above_mono (by omega)
    | true =>
      rw [hsb, if_pos rfl] at hab
      have hza : magnitude a = 0 := by omega
      have hzb : magnitude b = 0 := by omega
      rw [hmb hsb (by simp [isInf, hzb, infinity]), hza, hzb, pow10Above_zero, pow10Below_zero]
  | true =>
    rw [hsa, if_pos rfl] at hab
    have hbelow : place (fpow10 a) ≤ 0x3F800000 := by
      cases hinfa : isInf a with
      | false => rw [hma hsa hinfa]; exact_mod_cast pow10Below_le_one _
      | true => exact (hia hsa hinfa).trans (by exact_mod_cast pow10Below_le_one _)
    cases hsb : signBit b with
    | false =>
      rw [hpb hsb]
      exact hbelow.trans (by exact_mod_cast one_le_pow10Above _)
    | true =>
      rw [hsb, if_pos rfl] at hab
      cases hinfa : isInf a with
      | false =>
        have hlt := magnitude_lt_infinity hna hinfa
        have hinfb : isInf b = false := decide_eq_false (by omega)
        rw [hma hsa hinfa, hmb hsb hinfb]
        exact_mod_cast pow10Below_anti (by omega)
      | true =>
        cases hinfb : isInf b with
        | false =>
          have hlt := magnitude_lt_infinity hnb hinfb
          rw [hmb hsb hinfb]
          exact (hia hsa hinfa).trans (by exact_mod_cast pow10Below_anti (by omega))
        | true => rw [fpow10_minusInfinity hna hsa hinfa, fpow10_minusInfinity hnb hsb hinfb]

/-- At a finite argument not above 0 the place is that of a positive value up to 1. -/
theorem place_fpow10_unit {e : Sample} (hfin : isFinite e = true) (hle : le e 0 = true) :
    0 < place (fpow10 e) ∧ place (fpow10 e) ≤ 0x3F800000 := by
  obtain ⟨hnan, -, hplace⟩ := le_iff.mp hle
  obtain ⟨-, habove, hbelow, -⟩ := place_fpow10 hnan
  cases hs : signBit e with
  | false =>
    have hzero : magnitude e = 0 := by
      rw [place, hs, if_neg Bool.false_ne_true, show place 0 = 0 by decide] at hplace
      omega
    rw [habove hs, hzero, pow10Above_zero]
    decide
  | true =>
    rw [hbelow hs (not_isInf_of_isFinite hfin)]
    exact ⟨by exact_mod_cast pow10Below_pos _, by exact_mod_cast pow10Below_le_one _⟩

end F32

end Sys2Proof.Machine

namespace Sys2Proof

open Sys2Proof.Machine

/-- Settles O48: a coefficient is the matrix factor times a power of ten that is 1 at delay 0, falls strictly and turns
sums into products. -/
theorem gainAlgebraOverTheReals : Obligations.GainAlgebraOverTheReals := by
  unfold Obligations.GainAlgebraOverTheReals
  intro B rate seconds hB hrate hseconds att gain coef
  have hatt : 0 < att := matrixAttOf_real_pos hB
  have hcoef (d : Nat) : coef d = att * gain d := coefficient_real att rate seconds d
  have hgain (d : Nat) : 0 < gain d ∧ gain d ≤ 1 := ⟨decayGain_pos d, decayGain_le_one hrate hseconds d⟩
  refine ⟨hcoef, fun d => ?cancels, prod_decayGain, fun d => decayGain_decayTime hrate hseconds,
    fun d => ?range, fun d d' h => ?falls⟩
  case cancels =>
    rw [hcoef, ← mul_assoc, mul_comm (invMatrixAttOf _ B), matrixAttOf_mul_invMatrixAttOf_real hB, one_mul]
  case range =>
    rw [hcoef]
    exact ⟨mul_pos hatt (hgain d).1, mul_le_of_le_one_right hatt.le (hgain d).2⟩
  case falls =>
    rw [hcoef, hcoef]
    exact mul_lt_mul_of_pos_left (decayGain_strictAnti hrate hseconds h) hatt

/-- Settles O49: the open functions only say how far the pattern falls and rises from that of 1. -/
theorem pow10HasItsThreeProperties : Obligations.Pow10HasItsThreeProperties := by
  unfold Obligations.Pow10HasItsThreeProperties
  refine ⟨?one, fun a b => F32.fpow10_mono, fun e hfin hle => ?unit⟩
  case one =>
    rw [F32.fpow10_above (by decide) (by decide), show F32.magnitude 0 = 0 by decide, F32.pow10Above_zero]
    rfl
  case unit =>
    obtain ⟨hnan, -, -⟩ := F32.le_iff.mp hle
    obtain ⟨hvalue, -⟩ := F32.place_fpow10 hnan
    obtain ⟨hpos, hone⟩ := F32.place_fpow10_unit hfin hle
    exact ⟨F32.lt_iff.mpr ⟨by decide, hvalue, hpos⟩, F32.le_iff.mpr ⟨hvalue, by decide, hone⟩⟩

end Sys2Proof
end

section
/-! Rounding to the nearest pattern (spec/00_scope.md R8): patterns ordered as their values, what a pattern on the grid of
its own units says of every other pattern, where the range ends, and `truncToNat` and `ofNat`. -/

namespace Sys2Proof.Machine.F32

/-! ## Patterns are ordered as their values -/

theorem magValue_lt_succ (k : Nat) : magValue k < magValue (k + 1) := by
  obtain ⟨n, q, hq, hn, rfl, hv⟩ := magValue_units k
  have hnext := magValue_grid (n := n) (q := q + 1) (by omega) fun h => hn (by omega)
  rw [hv, Nat.add_assoc, hnext]
  push_cast
  exact mul_lt_mul_of_pos_right (by linarith) (two_zpow_pos _)

theorem magValue_strictMono : StrictMono magValue := strictMono_nat_of_lt_succ magValue_lt_succ

theorem magValue_pos {k : Nat} (h : 0 < k) : 0 < magValue k := magValue_zero ▸ magValue_strictMono h

/-- The value at a place in the order of patterns. -/
noncomputable def placeValue (p : Int) : ℝ := if p < 0 then -magValue p.natAbs else magValue p.natAbs

theorem value_eq_placeValue (w : Sample) : ExactReal.value w = placeValue (place w) := by
  rw [value_eq, placeValue, place]
  cases signBit w with
  | false => simp
  | true =>
    rcases Nat.eq_zero_or_pos (magnitude w) with h | h
    · simp [h]
    · simp [h]

theorem placeValue_strictMono : StrictMono placeValue := by
  intro p r h
  rw [placeValue, placeValue]
  split
  · split
    · exact neg_lt_neg (magValue_strictMono (by omega))
    · have hp : 0 < magValue p.natAbs := magValue_pos (by omega)
      have hr := magValue_nonneg r.natAbs
      linarith
  · rw [if_neg (by omega)]
    exact magValue_strictMono (by omega)

section
variable {a b : Sample} (ha : isFinite a = true) (hb : isFinite b = true)
include ha hb

theorem lt_iff_value : lt a b = true ↔ ExactReal.value a < ExactReal.value b := by
  rw [lt_iff, value_eq_placeValue, value_eq_placeValue, placeValue_strictMono.lt_iff_lt]
  exact ⟨fun h => h.2.2, fun h => ⟨not_isNaN_of_isFinite ha, not_isNaN_of_isFinite hb, h⟩⟩

theorem le_iff_value : le a b = true ↔ ExactReal.value a ≤ ExactReal.value b := by
  rw [le_iff, value_eq_placeValue, value_eq_placeValue, placeValue_strictMono.le_iff_le]
  exact ⟨fun h => h.2.2, fun h => ⟨not_isNaN_of_isFinite ha, not_isNaN_of_isFinite hb, h⟩⟩

end

/-! ## The integer part -/

/-- A pattern without a sign bit, or of zero, has the value of its mantissa and exponent. -/
theorem value_of_not_negative {w : Sample} (h : signBit w = false ∨ magnitude w = 0) :
    ExactReal.value w = mantissa w * (2 : ℝ) ^ exponent w := by
  rw [ExactReal.value]
  obtain h | h := h
  · simp [h]
  · simp [mantissa, h]

theorem value_nonneg_iff {w : Sample} : 0 ≤ ExactReal.value w ↔ signBit w = false ∨ magnitude w = 0 := by
  rw [value_eq]
  cases signBit w with
  | false => simpa using magValue_nonneg _
  | true =>
    rcases Nat.eq_zero_or_pos (magnitude w) with h | h
    · simp [h]
    · have := magValue_pos h
      simp [h.ne', this]

/-- The integer part of `m * 2 ^ e` in the terms of `truncToNat`. -/
theorem floor_mul_zpow (m : Nat) (e : Int) :
    ⌊(m : ℝ) * (2 : ℝ) ^ e⌋₊ = if 0 ≤ e then m * 2 ^ e.toNat else m / 2 ^ (-e).toNat := by
  split
  · next h =>
    rw [zpow_toNat h, ← Nat.cast_mul, Nat.floor_natCast]
  · next h =>
    rw [show (2 : ℝ) ^ e = ((2 : ℝ) ^ (-e))⁻¹ by rw [zpow_neg, inv_inv], zpow_toNat (show 0 ≤ -e by omega),
      ← div_eq_mul_inv, Nat.floor_div_eq_div]

theorem truncToNat_of_nonneg {w : Sample} (hfin : isFinite w = true) (h : 0 ≤ ExactReal.value w) :
    truncToNat w = some ⌊ExactReal.value w⌋₊ := by
  have hsign := value_nonneg_iff.mp h
  rw [value_of_not_negative hsign, floor_mul_zpow, truncToNat, hfin, if_pos]
  simpa using hsign

theorem truncToNat_eq_none {w : Sample} (h : isFinite w = false ∨ ExactReal.value w < 0) : truncToNat w = none := by
  refine if_neg fun hw => ?_
  rw [Bool.and_eq_true] at hw
  obtain ⟨hfin, hsign⟩ := hw
  obtain h | h := h
  · rw [h] at hfin
    cases hfin
  · exact absurd (value_nonneg_iff.mpr (by simpa using hsign)) (not_le.mpr h)

/-! ## A pattern on the grid is the nearest -/

section
variable {n q : Nat} {x : ℝ} (h : OnGrid n q x)
include h

/-- The rounded number of units reaches at most the next binade. -/
theorem OnGrid.le : q ≤ 2 ^ 24 := by
  have hy : x / (2 : ℝ) ^ ((n : Int) - 149) < 2 ^ 24 := (div_lt_iff₀ (two_zpow_pos _)).mpr h.below
  have hq := (abs_le.mp h.rounded.1).2
  have hlt : (q : ℝ) < ((2 ^ 24 + 1 : Nat) : ℝ) := by
    push_cast
    linarith
  exact Nat.lt_succ_iff.mp (by exact_mod_cast hlt)

theorem OnGrid.ge (hn : n ≠ 0) : 2 ^ 23 ≤ q := by
  have hy : 2 ^ 23 ≤ x / (2 : ℝ) ^ ((n : Int) - 149) := (le_div_iff₀ (two_zpow_pos _)).mpr (h.above hn)
  have hq := (abs_le.mp h.rounded.1).1
  have hlt : ((2 ^ 23 : Nat) : ℝ) < ((q + 1 : Nat) : ℝ) := by
    push_cast
    linarith
  exact Nat.lt_succ_iff.mp (by exact_mod_cast hlt)

theorem OnGrid.magValue_eq : magValue (n * 2 ^ 23 + q) = q * (2 : ℝ) ^ ((n : Int) - 149) := by
  refine magValue_grid h.le fun hq => ?_
  by_contra hn
  have := h.ge hn
  omega

/-- Among the multiples of the unit. -/
theorem OnGrid.nearest_unit (j : Nat) :
    |q * (2 : ℝ) ^ ((n : Int) - 149) - x| ≤ |j * (2 : ℝ) ^ ((n : Int) - 149) - x| ∧
      (|q * (2 : ℝ) ^ ((n : Int) - 149) - x| = |j * (2 : ℝ) ^ ((n : Int) - 149) - x| → j ≠ q → q % 2 = 0) := by
  have hU := two_zpow_pos ((n : Int) - 149)
  have hscale (i : Nat) : |i * (2 : ℝ) ^ ((n : Int) - 149) - x| =
      |(i : ℝ) - x / (2 : ℝ) ^ ((n : Int) - 149)| * (2 : ℝ) ^ ((n : Int) - 149) := by
    rw [← abs_of_pos hU, ← abs_mul, abs_of_pos hU, sub_mul, div_mul_cancel₀ _ hU.ne']
  obtain ⟨hle, htie⟩ := h.rounded.nearest j
  rw [hscale, hscale]
  exact ⟨mul_le_mul_of_nonneg_right hle hU.le, fun he => htie (mul_right_cancel₀ hU.ne' he)⟩

/-- Among all patterns: one of larger units is a multiple of the unit, and one of smaller units lies further below than
the least pattern of these units. -/
theorem OnGrid.nearest (k : Nat) : |magValue (n * 2 ^ 23 + q) - x| ≤ |magValue k - x| ∧
    (|magValue (n * 2 ^ 23 + q) - x| = |magValue k - x| → magValue k ≠ magValue (n * 2 ^ 23 + q) →
      (n * 2 ^ 23 + q) % 2 = 0) := by
  obtain ⟨nk, qk, hqk, -, -, hk⟩ := magValue_units k
  have hparity : (n * 2 ^ 23 + q) % 2 = q % 2 := by omega
  rw [hparity, h.magValue_eq, hk]
  rcases Nat.lt_or_ge nk n with hlt | hge
  · obtain ⟨hle, -⟩ := h.nearest_unit (2 ^ 23)
    have habove := h.above (by omega)
    have hsmall : (qk : ℝ) * (2 : ℝ) ^ ((nk : Int) - 149) < 2 ^ 23 * (2 : ℝ) ^ ((n : Int) - 149) := by
      have hqk' : (qk : ℝ) < 2 ^ 24 := by exact_mod_cast hqk
      calc (qk : ℝ) * (2 : ℝ) ^ ((nk : Int) - 149) < 2 ^ 24 * (2 : ℝ) ^ ((nk : Int) - 149) :=
            mul_lt_mul_of_pos_right hqk' (two_zpow_pos _)
        _ = 2 ^ 23 * (2 : ℝ) ^ ((nk : Int) - 149 + 1) := by rw [zpow_add₀ (by norm_num)]; ring
        _ ≤ 2 ^ 23 * (2 : ℝ) ^ ((n : Int) - 149) :=
            mul_le_mul_of_nonneg_left (zpow_le_zpow_right₀ (by norm_num) (by omega)) (by norm_num)
    have hfar : |((2 ^ 23 : Nat) : ℝ) * (2 : ℝ) ^ ((n : Int) - 149) - x| <
        |(qk : ℝ) * (2 : ℝ) ^ ((nk : Int) - 149) - x| := by
      push_cast
      rw [abs_of_nonpos (by linarith), abs_of_nonpos (by linarith)]
      linarith
    exact ⟨hle.trans hfar.le, fun he => absurd he (hle.trans_lt hfar).ne⟩
  · have hj : (qk : ℝ) * (2 : ℝ) ^ ((nk : Int) - 149) =
        ((qk * 2 ^ ((nk : Int) - 149 - ((n : Int) - 149)).toNat : Nat) : ℝ) * (2 : ℝ) ^ ((n : Int) - 149) := by
      rw [zpow_split ((nk : Int) - 149) ((n : Int) - 149), zpow_toNat (by omega), Nat.cast_mul, mul_assoc]
    rw [hj]
    obtain ⟨hle, htie⟩ := h.nearest_unit (qk * 2 ^ ((nk : Int) - 149 - ((n : Int) - 149)).toNat)
    exact ⟨hle, fun he hne => htie he fun hq => hne (by rw [hq])⟩

/-- Among the values of either sign: one of the other sign is no nearer than zero. -/
theorem OnGrid.nearest_signed (negative : Bool) (k : Nat) :
    |magValue (n * 2 ^ 23 + q) - x| ≤ |(if negative then -1 else 1) * magValue k - x| ∧
    (|magValue (n * 2 ^ 23 + q) - x| = |(if negative then -1 else 1) * magValue k - x| →
      (if negative then -1 else 1) * magValue k ≠ magValue (n * 2 ^ 23 + q) → (n * 2 ^ 23 + q) % 2 = 0) := by
  cases negative with
  | false => simpa only [Bool.false_eq_true, if_false, one_mul] using h.nearest k
  | true =>
    obtain ⟨hle, htie⟩ := h.nearest 0
    have hx := h.nonneg
    have hk := magValue_nonneg k
    have hzero : |magValue 0 - x| = x := by rw [magValue_zero, zero_sub, abs_neg, abs_of_nonneg hx]
    have hopposite : |-1 * magValue k - x| = magValue k + x := by
      rw [abs_of_nonpos (by linarith)]
      ring
    rw [if_pos rfl, hopposite]
    rw [hzero] at hle htie
    refine ⟨by linarith, fun he hne => ?_⟩
    have hk0 : magValue k = 0 := by linarith
    rw [hk0, mul_zero] at hne
    exact htie (by linarith) (magValue_zero ▸ hne)

/-- The finite patterns end half a unit above the greatest of them; the tie there goes to the even pattern, infinity. -/
theorem OnGrid.finite_iff : n * 2 ^ 23 + q < infinity ↔ x < (2 ^ 25 - 1) * 2 ^ 103 := by
  have hinf : infinity = 255 * 2 ^ 23 := rfl
  have hle := h.le
  have hround := abs_le.mp h.rounded.1
  rcases Nat.lt_trichotomy n 253 with hn | rfl | hn
  · have hU : (2 : ℝ) ^ ((n : Int) - 149) ≤ (2 : ℝ) ^ (103 : Int) := zpow_le_zpow_right₀ (by norm_num) (by omega)
    have hbelow := h.below
    norm_num at hU
    refine iff_of_true (by omega) ?_
    norm_num
    linarith
  · have hU : (2 : ℝ) ^ (((253 : Nat) : Int) - 149) = 2 ^ 104 := by norm_num
    rw [hU] at hround
    have hy (y : ℝ) : y = x / 2 ^ 104 → (x < (2 ^ 25 - 1) * 2 ^ 103 ↔ y < 2 ^ 24 - 1 / 2) := by
      rintro rfl
      rw [div_lt_iff₀ (by norm_num)]
      norm_num
    rw [hy _ rfl]
    constructor
    · intro hq
      by_contra hge
      have hodd : q = 2 ^ 24 - 1 := by
        have hlow : ((2 ^ 24 - 1 : Nat) : ℝ) ≤ q := by
          push_cast [show 1 ≤ 2 ^ 24 by norm_num]
          linarith
        have hlow' : 2 ^ 24 - 1 ≤ q := by exact_mod_cast hlow
        omega
      have hq' : (q : ℝ) = 2 ^ 24 - 1 := by rw [hodd]; norm_num
      have heven := h.rounded.2 (by
        rw [hU, abs_of_nonpos (by linarith)]
        linarith)
      omega
    · intro hlt
      have hq : (q : ℝ) < ((2 ^ 24 : Nat) : ℝ) := by
        push_cast
        linarith
      have hq' : q < 2 ^ 24 := by exact_mod_cast hq
      omega
  · have hU : (2 : ℝ) ^ (105 : Int) ≤ (2 : ℝ) ^ ((n : Int) - 149) := zpow_le_zpow_right₀ (by norm_num) (by omega)
    have habove := h.above (by omega)
    have hge := h.ge (by omega)
    norm_num at hU
    refine iff_of_false (by omega) ?_
    norm_num
    linarith

end

/-! ## Correct rounding -/

/-- The pattern `w` is the correctly rounded answer to the exact result `x` (R8). -/
abbrev Rounds (w : Sample) (x : ℝ) : Prop :=
  (isFinite w = true ↔ |x| < (2 ^ 25 - 1) * 2 ^ 103) ∧
  (isFinite w = true → ∀ v : Sample, isFinite v = true →
    |ExactReal.value w - x| ≤ |ExactReal.value v - x| ∧
    (|ExactReal.value w - x| = |ExactReal.value v - x| → ExactReal.value v ≠ ExactReal.value w → magnitude w % 2 = 0))

/-- A zero is the correct answer to 0. -/
theorem rounds_zero {w : Sample} (h : magnitude w = 0) : Rounds w 0 := by
  have hw : ExactReal.value w = 0 := by rw [value_eq, h, magValue_zero, mul_zero]
  refine ⟨iff_of_true (by rw [isFinite, h]; rfl) (by norm_num), fun _ v _ => ?_⟩
  rw [hw, sub_zero, sub_zero, abs_zero]
  exact ⟨abs_nonneg _, fun he hne => absurd (abs_eq_zero.mp he.symm) hne⟩

/-- A sign changes no distance. -/
theorem abs_sign_mul_sub (negative : Bool) (a x : ℝ) :
    |a - (if negative then -1 else 1) * x| = |(if negative then -1 else 1) * a - x| := by
  cases negative with
  | false => simp
  | true =>
    rw [if_pos rfl, neg_one_mul, neg_one_mul, ← abs_neg]
    congr 1
    ring

theorem rounds_pack {n q : Nat} {x : ℝ} (h : OnGrid n q x) (negative : Bool) :
    Rounds (pack negative (min infinity (n * 2 ^ 23 + q))) ((if negative then -1 else 1) * x) := by
  have hlt : min infinity (n * 2 ^ 23 + q) < 2 ^ 31 := lt_of_le_of_lt (Nat.min_le_left _ _) (by decide)
  have habs : |(if negative then (-1 : ℝ) else 1) * x| = x := by
    rw [abs_mul, abs_of_nonneg h.nonneg]
    cases negative <;> simp
  have hmin : min infinity (n * 2 ^ 23 + q) < infinity ↔ n * 2 ^ 23 + q < infinity := by omega
  rw [Rounds, isFinite_pack hlt, hmin, habs]
  refine ⟨h.finite_iff, fun hfin v _ => ?_⟩
  rw [Nat.min_eq_right hfin.le] at hlt ⊢
  rw [magnitude_pack hlt, value_pack hlt, value_eq v, abs_sign_mul_sub, abs_sign_mul_sub]
  have hnear := h.nearest_signed (negative != signBit v) (magnitude v)
  generalize signBit v = sign at hnear ⊢
  cases negative <;> cases sign <;> simpa [neg_eq_iff_eq_neg] using hnear

/-- An exact result is rounded correctly. -/
theorem rounds_round (negative : Bool) (m : Nat) (e : Int) :
    Rounds (round negative m e) ((if negative then -1 else 1) * (m * (2 : ℝ) ^ e)) := by
  rcases Nat.eq_zero_or_pos m with rfl | hm
  · have hzero := rounds_zero (w := round negative 0 e) (by rw [round_zero, magnitude_pack (by norm_num)])
    simpa using hzero
  · obtain ⟨n, q, hr, -, h⟩ := roundMagnitude_exact hm.ne' e
    rw [round, hr]
    exact rounds_pack h negative

/-! ## Natural numbers -/

/-- A number of units is its own pattern. -/
theorem OnGrid.exact {n q j : Nat} (h : OnGrid n q (j * (2 : ℝ) ^ ((n : Int) - 149))) :
    magValue (n * 2 ^ 23 + q) = j * (2 : ℝ) ^ ((n : Int) - 149) := by
  have hround := h.rounded.1
  rw [mul_div_assoc, div_self (two_zpow_pos _).ne', mul_one] at hround
  have hq : |((q : Int) - j : ℝ)| < 1 := by
    push_cast
    linarith
  have hq' : |(q : Int) - j| < 1 := by exact_mod_cast hq
  rw [h.magValue_eq, show q = j by have := Int.abs_lt_one_iff.mp hq'; omega]

/-- Up to `2 ^ 24` a number is a number of the units of its own size. -/
theorem ofNat_exact {n : Nat} (hn : n ≤ 2 ^ 24) :
    isFinite (ofNat n) = true ∧ ExactReal.value (ofNat n) = n := by
  rcases Nat.eq_zero_or_pos n with rfl | hpos
  · exact ⟨by decide, by simp [ofNat, round_zero, value_pack]⟩
  have hrounds := rounds_round false n 0
  rw [if_neg Bool.false_ne_true, one_mul, zpow_zero, mul_one] at hrounds
  have hreal : (n : ℝ) ≤ 2 ^ 24 := by exact_mod_cast hn
  have hfin : isFinite (ofNat n) = true := hrounds.1.mpr (by
    rw [abs_of_nonneg (Nat.cast_nonneg n)]
    norm_num at hreal ⊢
    linarith)
  refine ⟨hfin, ?_⟩
  obtain ⟨k, q, hr, hk, hgrid⟩ := roundMagnitude_exact hpos.ne' 0
  rw [zpow_zero, mul_one] at hgrid
  have hlog : 2 ^ Nat.log2 n ≤ n := Nat.log2_self_le hpos.ne'
  have hlog24 : Nat.log2 n ≤ 24 := (Nat.pow_le_pow_iff_right (by norm_num)).mp (hlog.trans hn)
  have hunits : ∃ j : Nat, (n : ℝ) = j * (2 : ℝ) ^ ((k : Int) - 149) := by
    rcases Nat.lt_or_ge (Nat.log2 n) 24 with hlt | hge
    · refine ⟨n * 2 ^ (23 - Nat.log2 n), ?_⟩
      rw [show (k : Int) - 149 = -((23 - Nat.log2 n : Nat) : Int) by omega, zpow_neg, zpow_natCast]
      push_cast
      field_simp
    · have hn' : n = 2 ^ 24 := by
        have : Nat.log2 n = 24 := by omega
        rw [this] at hlog
        omega
      refine ⟨2 ^ 23, ?_⟩
      rw [show (k : Int) - 149 = 1 by omega, hn']
      norm_num
  obtain ⟨j, hj⟩ := hunits
  have hlt : min infinity (k * 2 ^ 23 + q) < 2 ^ 31 := lt_of_le_of_lt (Nat.min_le_left _ _) (by decide)
  rw [ofNat, round, hr] at hfin ⊢
  have hmin := (isFinite_pack hlt).mp hfin
  rw [value_pack hlt, show min infinity (k * 2 ^ 23 + q) = k * 2 ^ 23 + q by omega, OnGrid.exact (hj ▸ hgrid), ← hj]
  simp

end Sys2Proof.Machine.F32

namespace Sys2Proof

open Sys2Proof.Machine

/-- Settles O50: the order of patterns is that of values, and the conversions are exact where the format is. -/
theorem binary32ConversionsFollowTheValue : Obligations.Binary32ConversionsFollowTheValue := by
  unfold Obligations.Binary32ConversionsFollowTheValue
  exact ⟨fun a b ha hb => ⟨F32.lt_iff_value ha hb, F32.le_iff_value ha hb⟩, fun w => F32.truncToNat_of_nonneg,
    fun w => F32.truncToNat_eq_none, fun n => F32.ofNat_exact⟩

end Sys2Proof
end

section
/-! The operations of `Num.f32` on finite values (spec/00_scope.md R8): each computes its exact result, or one with a
sticky bit that stands on the same side of every rounding boundary, and rounds once. -/

namespace Sys2Proof.Machine.F32

/-! ## Finite values -/

theorem mantissa_pos {w : Sample} (h : 0 < magnitude w) : 0 < mantissa w := by
  rw [mantissa]
  split <;> omega

theorem mantissa_lt (w : Sample) : mantissa w < 2 ^ 24 := by
  rw [mantissa]
  split <;> omega

theorem magnitude_pos_of_value {w : Sample} (h : ExactReal.value w ≠ 0) : 0 < magnitude w := by
  refine Nat.pos_of_ne_zero fun h0 => h ?_
  rw [value_eq, h0, magValue_zero, mul_zero]

theorem magnitude_fneg (w : Sample) : magnitude (fneg w) = magnitude w := by
  rw [magnitude, magnitude, fneg, BitVec.toNat_xor, Nat.xor_mod_two_pow]
  exact Nat.xor_zero _

theorem signBit_fneg (w : Sample) : signBit (fneg w) = !signBit w := by
  rw [signBit, signBit, fneg, BitVec.getLsbD_xor]
  exact Bool.xor_true _

theorem isFinite_fneg (w : Sample) : isFinite (fneg w) = isFinite w := by rw [isFinite, magnitude_fneg, isFinite]

theorem value_fneg (w : Sample) : ExactReal.value (fneg w) = -ExactReal.value w := by
  rw [value_eq, value_eq, magnitude_fneg, signBit_fneg]
  cases signBit w <;> simp

/-! ## Sum, difference and product -/

/-- A finite value in units of any power of two up to its own. -/
theorem value_eq_scaled {w : Sample} {e : Int} (h : e ≤ exponent w) :
    ExactReal.value w = (scaled w e : ℝ) * (2 : ℝ) ^ e := by
  rw [ExactReal.value, scaled, zpow_split (exponent w) e, zpow_toNat (show 0 ≤ exponent w - e by omega)]
  cases signBit w
  · simp [mul_assoc]
  · simp [mul_assoc]

theorem rounds_addFinite (a b : Sample) : Rounds (addFinite a b) (ExactReal.value a + ExactReal.value b) := by
  obtain ⟨e, he⟩ : ∃ e, e = min (exponent a) (exponent b) := ⟨_, rfl⟩
  obtain ⟨sum, hsum⟩ : ∃ sum, sum = scaled a e + scaled b e := ⟨_, rfl⟩
  have hexact : ExactReal.value a + ExactReal.value b = sum * (2 : ℝ) ^ e := by
    rw [value_eq_scaled (w := a) (e := e) (by omega), value_eq_scaled (w := b) (e := e) (by omega), hsum]
    push_cast
    ring
  have hadd : addFinite a b =
      if sum = 0 then pack (signBit a && signBit b) 0 else round (decide (sum < 0)) sum.natAbs e := by
    rw [hsum, he]
    rfl
  rw [hexact, hadd]
  split
  · next h0 =>
    rw [h0, Int.cast_zero, zero_mul]
    exact rounds_zero (magnitude_pack (by norm_num))
  · have hsign : (sum : ℝ) = (if decide (sum < 0) then -1 else 1) * (sum.natAbs : ℝ) := by
      rw [Nat.cast_natAbs]
      by_cases hneg : sum < 0
      · simp [hneg, abs_of_neg hneg]
      · simp [hneg, abs_of_nonneg (not_lt.mp hneg)]
    rw [hsign, mul_assoc]
    exact rounds_round _ _ _

section
variable {a b : Sample} (ha : isFinite a = true) (hb : isFinite b = true)
include ha hb

theorem addAs_of_isFinite (op : Nat) : addAs op a b = addFinite a b := by
  simp only [addAs, not_isNaN_of_isFinite ha, not_isNaN_of_isFinite hb, not_isInf_of_isFinite ha,
    not_isInf_of_isFinite hb, Bool.or_self, Bool.false_eq_true, if_false]

theorem rounds_fadd : Rounds (fadd a b) (ExactReal.value a + ExactReal.value b) := by
  rw [fadd, addAs_of_isFinite ha hb]
  exact rounds_addFinite a b

theorem rounds_fsub : Rounds (fsub a b) (ExactReal.value a - ExactReal.value b) := by
  rw [fsub, addAs_of_isFinite ha (by rw [isFinite_fneg, hb]), sub_eq_add_neg, ← value_fneg]
  exact rounds_addFinite a (fneg b)

theorem rounds_fmul : Rounds (fmul a b) (ExactReal.value a * ExactReal.value b) := by
  have hexact : ExactReal.value a * ExactReal.value b = (if signBit a != signBit b then -1 else 1) *
      (((mantissa a * mantissa b : Nat) : ℝ) * (2 : ℝ) ^ (exponent a + exponent b)) := by
    rw [ExactReal.value, ExactReal.value, zpow_add₀ (by norm_num)]
    push_cast
    cases signBit a <;> cases signBit b <;> simp <;> ring
  rw [fmul_of_isFinite ha hb, hexact]
  exact rounds_round _ _ _

end

/-! ## A sticky bit -/

/-- Strictly between two neighbouring multiples of `2 ^ (e + 1)`, every number stands on the same side of each of them as
the middle. -/
theorem same_side {t : Nat} {e : Int} {x : ℝ} (hlow : 2 * t * (2 : ℝ) ^ e < x) (hhigh : x < (2 * t + 2) * (2 : ℝ) ^ e)
    (c : Int) :
    (c * (2 : ℝ) ^ (e + 1) ≤ ((2 * t + 1 : Nat) : ℝ) * (2 : ℝ) ^ e → c * (2 : ℝ) ^ (e + 1) < x) ∧
      (((2 * t + 1 : Nat) : ℝ) * (2 : ℝ) ^ e ≤ c * (2 : ℝ) ^ (e + 1) → x < c * (2 : ℝ) ^ (e + 1)) := by
  have he := two_zpow_pos e
  have hstep : (c : ℝ) * (2 : ℝ) ^ (e + 1) = ((2 * c : Int) : ℝ) * (2 : ℝ) ^ e := by
    rw [zpow_add₀ (by norm_num)]
    push_cast
    ring
  rw [hstep]
  constructor
  · intro h
    have hc : ((2 * c : Int) : ℝ) ≤ ((2 * t + 1 : Nat) : ℝ) := le_of_mul_le_mul_right h he
    have hc' : 2 * c ≤ 2 * (t : Int) := by
      have : 2 * c ≤ ((2 * t + 1 : Nat) : Int) := by exact_mod_cast hc
      omega
    have hc'' : ((2 * c : Int) : ℝ) ≤ 2 * t := by exact_mod_cast hc'
    exact (mul_le_mul_of_nonneg_right hc'' he.le).trans_lt hlow
  · intro h
    have hc : ((2 * t + 1 : Nat) : ℝ) ≤ ((2 * c : Int) : ℝ) := le_of_mul_le_mul_right h he
    have hc' : 2 * (t : Int) + 2 ≤ 2 * c := by
      have : ((2 * t + 1 : Nat) : Int) ≤ 2 * c := by exact_mod_cast hc
      omega
    have hc'' : (2 * t + 2 : ℝ) ≤ ((2 * c : Int) : ℝ) := by exact_mod_cast hc'
    exact hhigh.trans_le (mul_le_mul_of_nonneg_right hc'' he.le)

/-- Where the unit is four times the place of the sticky bit or more, its halves are such multiples, and the number
rounds as the middle does. -/
theorem OnGrid.sticky {n q t : Nat} {e : Int} {x : ℝ} (h : OnGrid n q (((2 * t + 1 : Nat) : ℝ) * (2 : ℝ) ^ e))
    (hunit : e + 2 ≤ (n : Int) - 149) (hlow : 2 * t * (2 : ℝ) ^ e < x) (hhigh : x < (2 * t + 2) * (2 : ℝ) ^ e) :
    OnGrid n q x := by
  have hU := two_zpow_pos ((n : Int) - 149)
  obtain ⟨p, hp⟩ : ∃ p : Nat, (2 : ℝ) ^ ((n : Int) - 149) = 2 * (p * (2 : ℝ) ^ (e + 1)) := by
    refine ⟨2 ^ ((n : Int) - 149 - (e + 2)).toNat, ?_⟩
    rw [zpow_split ((n : Int) - 149) (e + 2), zpow_toNat (by omega), show e + 2 = e + 1 + 1 by ring,
      zpow_add₀ (by norm_num) (e + 1)]
    ring
  have hhalf (c : Int) : (c : ℝ) * ((2 : ℝ) ^ ((n : Int) - 149) / 2) = ((c * p : Int) : ℝ) * (2 : ℝ) ^ (e + 1) := by
    rw [hp]
    push_cast
    ring
  have hside (c : Int) := same_side hlow hhigh (c * p)
  simp only [← hhalf] at hside
  have hround := abs_le.mp h.rounded.1
  have hbelow : ((q : ℝ) - 1 / 2) * (2 : ℝ) ^ ((n : Int) - 149) ≤ ((2 * t + 1 : Nat) : ℝ) * (2 : ℝ) ^ e :=
    (le_div_iff₀ hU).mp (by linarith)
  have habove : ((2 * t + 1 : Nat) : ℝ) * (2 : ℝ) ^ e ≤ ((q : ℝ) + 1 / 2) * (2 : ℝ) ^ ((n : Int) - 149) :=
    (div_le_iff₀ hU).mp (by linarith)
  have hq1 : (q : ℝ) - 1 / 2 < x / (2 : ℝ) ^ ((n : Int) - 149) := by
    have := (hside (2 * q - 1)).1 (by push_cast at *; linarith)
    rw [lt_div_iff₀ hU]
    push_cast at this
    linarith
  have hq2 : x / (2 : ℝ) ^ ((n : Int) - 149) < (q : ℝ) + 1 / 2 := by
    have := (hside (2 * q + 1)).2 (by push_cast at *; linarith)
    rw [div_lt_iff₀ hU]
    push_cast at this
    linarith
  have habs : |(q : ℝ) - x / (2 : ℝ) ^ ((n : Int) - 149)| < 1 / 2 := abs_lt.mpr ⟨by linarith, by linarith⟩
  refine ⟨⟨habs.le, fun he => absurd he habs.ne⟩, ?_, fun hn => ?_, ?_⟩
  · have := (hside (2 ^ 25)).2 (by have := h.below; push_cast at *; linarith)
    push_cast at this
    linarith
  · have := (hside (2 ^ 24)).1 (by have := h.above hn; push_cast at *; linarith)
    push_cast at this
    linarith
  · have := two_zpow_pos e
    exact le_trans (by positivity) hlow.le

/-- A result known to be `2 * t` units, or to lie strictly between that and the next even number of them, rounds
correctly with a sticky bit, when `t` has 25 bits. -/
theorem rounds_sticky (negative : Bool) {t : Nat} {e : Int} {x : ℝ} {exact : Prop} [Decidable exact]
    (hexact : exact → x = 2 * t * (2 : ℝ) ^ e)
    (hsticky : ¬exact → 2 ^ 24 ≤ t ∧ 2 * t * (2 : ℝ) ^ e < x ∧ x < (2 * t + 2) * (2 : ℝ) ^ e) :
    Rounds (round negative (2 * t + if exact then 0 else 1) e) ((if negative then -1 else 1) * x) := by
  by_cases h : exact
  · have hr := rounds_round negative (2 * t) e
    rw [if_pos h, Nat.add_zero, hexact h]
    push_cast at hr
    exact hr
  · obtain ⟨ht, hlow, hhigh⟩ := hsticky h
    obtain ⟨n, q, hr, hn, hgrid⟩ := roundMagnitude_exact (m := 2 * t + 1) (by omega) e
    have hlog : 25 ≤ Nat.log2 (2 * t + 1) := (Nat.le_log2 (by omega)).mpr (by omega)
    rw [if_neg h, round, hr]
    exact rounds_pack (hgrid.sticky (by omega) hlow hhigh) negative

/-! ## Quotient -/

/-- A quotient lies between its integer part and the next number. -/
theorem div_between (n : Nat) {d : Nat} (hd : 0 < d) :
    (n % d = 0 → (n : ℝ) / d = (n / d : Nat)) ∧
      (n % d ≠ 0 → ((n / d : Nat) : ℝ) < (n : ℝ) / d ∧ (n : ℝ) / d < (n / d : Nat) + 1) := by
  have hd' : (0 : ℝ) < d := by exact_mod_cast hd
  have hmod := Nat.div_add_mod n d
  have hlt := Nat.mod_lt n hd
  constructor
  · intro h
    rw [div_eq_iff hd'.ne']
    rw [h, Nat.add_zero, Nat.mul_comm] at hmod
    exact_mod_cast hmod.symm
  · intro h
    rw [lt_div_iff₀ hd', div_lt_iff₀ hd']
    constructor
    · have : n / d * d < n := by rw [Nat.mul_comm]; omega
      exact_mod_cast this
    · have : n < (n / d + 1) * d := by rw [Nat.succ_mul, Nat.mul_comm]; omega
      exact_mod_cast this

theorem rounds_divFinite {a b : Sample} (hb : 0 < magnitude b) :
    Rounds (divFinite (signBit a != signBit b) a b) (ExactReal.value a / ExactReal.value b) := by
  have hd := mantissa_pos hb
  have he := two_zpow_pos (exponent a - exponent b - 65)
  have hvalue : ExactReal.value a / ExactReal.value b = (if signBit a != signBit b then -1 else 1) *
      (2 * (((mantissa a * 2 ^ 64 : Nat) : ℝ) / mantissa b) * (2 : ℝ) ^ (exponent a - exponent b - 65)) := by
    have hd' : (mantissa b : ℝ) ≠ 0 := by exact_mod_cast hd.ne'
    have hsplit : (2 : ℝ) ^ exponent a = 2 ^ 65 * (2 : ℝ) ^ (exponent a - exponent b - 65) * (2 : ℝ) ^ exponent b := by
      rw [mul_assoc, ← zpow_add₀ (by norm_num), ← zpow_natCast, ← zpow_add₀ (by norm_num)]
      congr 1
      push_cast
      ring
    have hb' := (two_zpow_pos (exponent b)).ne'
    rw [ExactReal.value, ExactReal.value, hsplit]
    push_cast
    cases signBit a <;> cases signBit b <;> simp <;> field_simp <;> norm_num
  obtain ⟨hzero, hbetween⟩ := div_between (mantissa a * 2 ^ 64) hd
  rw [hvalue]
  refine rounds_sticky _ (fun h => by rw [hzero h]) fun h => ⟨?bits, ?_, ?_⟩
  case bits =>
    have ha : 0 < mantissa a := by
      refine Nat.pos_of_ne_zero fun h0 => h ?_
      rw [h0, Nat.zero_mul, Nat.zero_mod]
    have hb24 := mantissa_lt b
    rw [Nat.le_div_iff_mul_le hd]
    calc 2 ^ 24 * mantissa b ≤ 2 ^ 24 * 2 ^ 24 := Nat.mul_le_mul_left _ hb24.le
      _ ≤ 1 * 2 ^ 64 := by norm_num
      _ ≤ mantissa a * 2 ^ 64 := Nat.mul_le_mul_right _ ha
  · exact mul_lt_mul_of_pos_right (by linarith [(hbetween h).1]) he
  · exact mul_lt_mul_of_pos_right (by linarith [(hbetween h).2]) he

theorem rounds_fdiv {a b : Sample} (ha : isFinite a = true) (hb : isFinite b = true) (h0 : ExactReal.value b ≠ 0) :
    Rounds (fdiv a b) (ExactReal.value a / ExactReal.value b) := by
  have hmag := magnitude_pos_of_value h0
  have hdiv : fdiv a b = divFinite (signBit a != signBit b) a b := by
    simp only [fdiv, not_isNaN_of_isFinite ha, not_isNaN_of_isFinite hb, not_isInf_of_isFinite ha,
      not_isInf_of_isFinite hb, hmag.ne', Bool.or_self, Bool.false_eq_true, if_false]
  rw [hdiv]
  exact rounds_divFinite hmag

/-! ## Root -/

/-- The bits found so far are those of the root, which is below the next number of their last place. -/
theorem sqrtBits_spec {n k root : Nat} (hle : root * root ≤ n) (hlt : n < (root + 2 ^ k) * (root + 2 ^ k)) :
    sqrtBits n k root * sqrtBits n k root ≤ n ∧ n < (sqrtBits n k root + 1) * (sqrtBits n k root + 1) := by
  induction k generalizing root with
  | zero => exact ⟨hle, hlt⟩
  | succ k ih =>
    rw [sqrtBits]
    split
    · next h => exact ih h (by rwa [Nat.add_assoc, ← Nat.two_mul, ← Nat.pow_succ'])
    · next h => exact ih hle (Nat.lt_of_not_le h)

theorem sqrtBits_eq_sqrt {n : Nat} (hn : n < 2 ^ 92) : sqrtBits n 46 0 = Nat.sqrt n := by
  obtain ⟨hle, hlt⟩ := sqrtBits_spec (n := n) (k := 46) (root := 0) (Nat.zero_le n)
    (by rwa [Nat.zero_add, ← Nat.pow_add])
  exact Nat.eq_sqrt.mpr ⟨hle, hlt⟩

/-- A root lies between its integer part and the next number. -/
theorem sqrt_between (n : Nat) :
    (Nat.sqrt n * Nat.sqrt n = n → √(n : ℝ) = Nat.sqrt n) ∧
      (Nat.sqrt n * Nat.sqrt n ≠ n → (Nat.sqrt n : ℝ) < √(n : ℝ) ∧ √(n : ℝ) < Nat.sqrt n + 1) := by
  have hle := Nat.sqrt_le n
  have hlt := Nat.lt_succ_sqrt n
  constructor
  · intro h
    rw [Real.sqrt_eq_iff_mul_self_eq (by positivity) (by positivity)]
    exact_mod_cast h.symm
  · intro h
    constructor
    · refine Real.lt_sqrt_of_sq_lt ?_
      have : Nat.sqrt n ^ 2 < n := by rw [sq]; omega
      exact_mod_cast this
    · rw [Real.sqrt_lt' (by positivity)]
      have : n < (Nat.sqrt n + 1) ^ 2 := by rw [sq]; exact hlt
      exact_mod_cast this

theorem rounds_sqrtFinite {a : Sample} (hs : signBit a = false) (ha : 0 < magnitude a) :
    Rounds (sqrtFinite a) √(ExactReal.value a) := by
  obtain ⟨odd, hodd⟩ : ∃ odd, odd = exponent a % 2 := ⟨_, rfl⟩
  obtain ⟨e, he⟩ : ∃ e, e = (exponent a - odd) / 2 - 33 := ⟨_, rfl⟩
  obtain ⟨n, hn⟩ : ∃ n, n = mantissa a * 2 ^ (64 + odd.toNat) := ⟨_, rfl⟩
  have hm := mantissa_pos ha
  have hm24 := mantissa_lt a
  have hepos := two_zpow_pos e
  have hoddle : odd.toNat ≤ 1 := by omega
  have hn92 : n < 2 ^ 92 := by
    calc n ≤ mantissa a * 2 ^ 65 := hn ▸ Nat.mul_le_mul_left _ (Nat.pow_le_pow_right (by norm_num) (by omega))
      _ < 2 ^ 92 := by omega
  have hn64 : 2 ^ 64 ≤ n := by
    calc 2 ^ 64 = 1 * 2 ^ 64 := by norm_num
      _ ≤ mantissa a * 2 ^ (64 + odd.toNat) :=
        Nat.mul_le_mul hm (Nat.pow_le_pow_right (by norm_num) (Nat.le_add_right _ _))
      _ = n := hn.symm
  have hvalue : ExactReal.value a = n * ((2 : ℝ) ^ (e + 1)) ^ 2 := by
    rw [value_of_not_negative (.inl hs), hn, ← zpow_natCast ((2 : ℝ) ^ (e + 1)), ← zpow_mul]
    push_cast
    rw [mul_assoc, ← zpow_natCast, ← zpow_add₀ (by norm_num)]
    congr 2
    push_cast
    omega
  have hroot : √(ExactReal.value a) = 2 * √(n : ℝ) * (2 : ℝ) ^ e := by
    rw [hvalue, Real.sqrt_mul (by positivity), Real.sqrt_sq (two_zpow_pos _).le, zpow_add₀ (by norm_num)]
    ring
  have hfinite : sqrtFinite a = round false (2 * Nat.sqrt n + if Nat.sqrt n * Nat.sqrt n = n then 0 else 1) e := by
    rw [← sqrtBits_eq_sqrt hn92, hn, he, hodd]
    rfl
  obtain ⟨hexact, hbetween⟩ := sqrt_between n
  have hrounds := rounds_sticky false (t := Nat.sqrt n) (e := e) (x := √(ExactReal.value a))
    (exact := Nat.sqrt n * Nat.sqrt n = n) (fun h => by rw [hroot, hexact h]) fun h => ⟨?bits, ?_, ?_⟩
  · rwa [if_neg Bool.false_ne_true, one_mul, ← hfinite] at hrounds
  case bits =>
    have : 2 ^ 32 ≤ Nat.sqrt n := Nat.le_sqrt.mpr (by omega)
    omega
  · rw [hroot]
    exact mul_lt_mul_of_pos_right (by linarith [(hbetween h).1]) hepos
  · rw [hroot]
    exact mul_lt_mul_of_pos_right (by linarith [(hbetween h).2]) hepos

theorem rounds_fsqrt {a : Sample} (ha : isFinite a = true) (hs : signBit a = false) :
    Rounds (fsqrt a) √(ExactReal.value a) := by
  rcases Nat.eq_zero_or_pos (magnitude a) with h0 | hpos
  · have hroot : fsqrt a = a := by
      simp only [fsqrt, not_isNaN_of_isFinite ha, h0, Bool.false_eq_true, if_false, if_true]
    rw [hroot, value_eq, h0, magValue_zero, mul_zero, Real.sqrt_zero]
    exact rounds_zero h0
  · have hroot : fsqrt a = sqrtFinite a := by
      simp only [fsqrt, not_isNaN_of_isFinite ha, not_isInf_of_isFinite ha, hs, hpos.ne', Bool.false_eq_true, if_false]
    rw [hroot]
    exact rounds_sqrtFinite hs hpos

end Sys2Proof.Machine.F32

namespace Sys2Proof

open Sys2Proof.Machine

/-- Settles O51: the three operations compute exactly and round once. -/
theorem addSubMulRoundToNearestEven : Obligations.AddSubMulRoundToNearestEven := by
  unfold Obligations.AddSubMulRoundToNearestEven
  intro a b ha hb op hop
  simp only [List.mem_cons, List.not_mem_nil, or_false] at hop
  obtain rfl | rfl | rfl := hop
  · exact F32.rounds_fadd ha hb
  · exact F32.rounds_fsub ha hb
  · exact F32.rounds_fmul ha hb

/-- Settles O52: quotient and root are computed to more bits than the format has, and a sticky bit. -/
theorem divSqrtRoundToNearestEven : Obligations.DivSqrtRoundToNearestEven := by
  unfold Obligations.DivSqrtRoundToNearestEven
  intro a b ha hb h0 op hop
  obtain hop | hop := List.mem_append.mp hop
  · obtain rfl := List.mem_singleton.mp hop
    exact F32.rounds_fdiv ha hb h0
  · split at hop
    · next hs =>
      obtain rfl := List.mem_singleton.mp hop
      exact F32.rounds_fsqrt ha hs
    · cases hop

end Sys2Proof
end
